-- ==== Sys2Proof/Machine/Map.lean ====
section
/-!
DEFINITION. Sparse tables of plain data: a list of keys and values in one canonical form, keys strictly rising and no
entry equal to what an unlisted key reads as. Memories, register files and object tables are such tables.
-/
namespace Sys2Proof.Machine

/-- A table from numbers to values; an unlisted key reads as the default value. -/
abbrev FMap (α : Type) : Type := List (Nat × α)

/-- The value at a key. -/
def FMap.get {α : Type} [Inhabited α] (m : FMap α) (k : Nat) : α :=
  match m with
  | [] => default
  | (a, v) :: t => if a = k then v else FMap.get t k

/-- The table without a key. -/
def FMap.del {α : Type} (m : FMap α) (k : Nat) : FMap α :=
  match m with
  | [] => []
  | (a, v) :: t => if a = k then FMap.del t k else (a, v) :: FMap.del t k

/-- The table with an entry at its place in the rising order. -/
def FMap.ins {α : Type} (m : FMap α) (k : Nat) (v : α) : FMap α :=
  match m with
  | [] => [(k, v)]
  | (a, w) :: t => if k < a then (k, v) :: (a, w) :: t else if a = k then (k, v) :: t else (a, w) :: FMap.ins t k v

/-- A write; writing what an unlisted key reads as removes the entry. -/
def FMap.set {α : Type} [Inhabited α] [DecidableEq α] (m : FMap α) (k : Nat) (v : α) : FMap α :=
  if v = default then FMap.del m k else FMap.ins m k v

def FMap.upd {α : Type} [Inhabited α] [DecidableEq α] (m : FMap α) (k : Nat) (f : α → α) : FMap α :=
  FMap.set m k (f (FMap.get m k))

/-- The keys a table lists, rising. -/
def FMap.keys {α : Type} (m : FMap α) : List Nat := m.map (·.1)

/-- Several writes in order. -/
def FMap.setMany {α : Type} [Inhabited α] [DecidableEq α] (m : FMap α) (l : List (Nat × α)) : FMap α :=
  l.foldl (fun acc p => FMap.set acc p.1 p.2) m

/-- The same value at every key of a list. -/
def FMap.fill {α : Type} [Inhabited α] [DecidableEq α] (m : FMap α) (l : List Nat) (v : α) : FMap α :=
  l.foldl (fun acc k => FMap.set acc k v) m

/-- The first key from `lo` on, among `fuel` candidates, that reads as `default`. -/
def FMap.firstFree {α : Type} [Inhabited α] [DecidableEq α] (m : FMap α) (lo : Nat) : Nat → Option Nat
  | 0 => none
  | fuel + 1 => if FMap.get m lo = default then some lo else FMap.firstFree m (lo + 1) fuel

/-- Canonical form: keys strictly rising, no entry equal to the default. (DEDUCED, log 146.) -/
def FMap.wf {α : Type} [Inhabited α] [DecidableEq α] : FMap α → Bool
  | [] => true
  | [(_, v)] => decide (v ≠ default)
  | (a, v) :: (b, w) :: t => decide (v ≠ default) && decide (a < b) && FMap.wf ((b, w) :: t)

end Sys2Proof.Machine
end

