-- ==== Sys2Proof/Word.lean ====
section
/-!
DEFINITION. The word types of the B48 and their plainest arithmetic. Byte order is little-endian everywhere (R9).
-/
namespace Sys2Proof

/-- A 32-bit register word (R62, R63). -/
abbrev Word := BitVec 32
/-- A 64-bit word: instruction words, register pairs, privileged registers (R64, R188, R344). -/
abbrev DWord := BitVec 64
abbrev Byte := BitVec 8
/-- One bit a lane, lane l in bit l. -/
abbrev LaneMask := BitVec 32

def boolBit (b : Bool) : BitVec 1 := BitVec.ofBool b

/-- The 64-bit value of a register pair: the even register holds the low half (R64). -/
def pairOf (lo hi : Word) : DWord := hi ++ lo
def loWord (x : DWord) : Word := x.extractLsb' 0 32
def hiWord (x : DWord) : Word := x.extractLsb' 32 32

end Sys2Proof
end

