-- ==== Sys2Proof/Syntax/Types.lean ====
section
/-!
DEFINITION. The operand types of the instruction rows: register names, guards, format tags (R75), rounding modes (R86)
and the operand groups that several rows share. Syntax.lean holds the one inductive of instructions over them.
-/
namespace Sys2Proof

/-- v0..v255 (R62). -/
abbrev VReg := BitVec 8
/-- s0..s127 (R63). -/
abbrev SReg := BitVec 7
/-- p0..p11 (R65). -/
abbrev PReg := Fin 12
/-- q0..q3 (R65). -/
abbrev QReg := BitVec 2
/-- c0..c5 (R66). -/
abbrev CReg := Fin 6
/-- bt0..bt7 (R67). -/
abbrev BReg := BitVec 3
/-- t0..t63 (R69). -/
abbrev TReg := BitVec 6

/-- The guard of a word: GUARD and NEG of R188. -/
inductive Guard where
  | always
  | on (p : PReg) (neg : Bool)
  deriving DecidableEq, Repr

/-- Format tags in the order of their codes (R75); MIXED is code 31. -/
inductive Tag where
  | b32 | b64 | i32 | n32 | i64 | n64 | f32 | f64 | f16 | bf16 | f16x2 | bf16x2 | f32x2
  | i16x2 | n16x2 | i8x4 | n8x4 | e4m3x4 | e5m2x4 | de8x4 | de4x8 | i4x8 | mixed
  deriving DecidableEq, Repr, Inhabited

/-- The code of a tag (R75). -/
def Tag.code : Tag → BitVec 5
  | .b32 => 0 | .b64 => 1 | .i32 => 2 | .n32 => 3 | .i64 => 4 | .n64 => 5 | .f32 => 6 | .f64 => 7
  | .f16 => 8 | .bf16 => 9 | .f16x2 => 10 | .bf16x2 => 11 | .f32x2 => 12 | .i16x2 => 13 | .n16x2 => 14
  | .i8x4 => 15 | .n8x4 => 16 | .e4m3x4 => 17 | .e5m2x4 => 18 | .de8x4 => 19 | .de4x8 => 20 | .i4x8 => 21
  | .mixed => 31

/-- Every tag in the order of codes, MIXED last. -/
def Tag.all : List Tag :=
  [.b32, .b64, .i32, .n32, .i64, .n64, .f32, .f64, .f16, .bf16, .f16x2, .bf16x2, .f32x2,
   .i16x2, .n16x2, .i8x4, .n8x4, .e4m3x4, .e5m2x4, .de8x4, .de4x8, .i4x8, .mixed]

/-- The tag of a type code: 0..21; a word never names another code (R75, R193). -/
def Tag.ofCode (c : BitVec 5) : Option Tag :=
  if c.toNat < 22 then Tag.all[c.toNat]? else none

/-- Rounding modes (R86), in the order of their codes. -/
inductive Rnd where
  | rne | rtz | rdn | rup | rna
  deriving DecidableEq, Repr, Inhabited

def Rnd.code : Rnd → BitVec 3
  | .rne => 0 | .rtz => 1 | .rdn => 2 | .rup => 3 | .rna => 4

def Rnd.ofCode (c : BitVec 3) : Option Rnd := [Rnd.rne, .rtz, .rdn, .rup, .rna][c.toNat]?

/-- Relations of compares (R213, R245, R248); un and ord are for floats only. -/
inductive Rel where
  | eq | ne | lt | le | gt | ge | un | ord
  deriving DecidableEq, Repr

def Rel.code : Rel → BitVec 3
  | .eq => 0 | .ne => 1 | .lt => 2 | .le => 3 | .gt => 4 | .ge => 5 | .un => 6 | .ord => 7

def Rel.ofCode (c : BitVec 3) : Rel :=
  match c.toNat with
  | 0 => .eq | 1 => .ne | 2 => .lt | 3 => .le | 4 => .gt | 5 => .ge | 6 => .un | _ => .ord

/-- COMB of a compare with the predicate it combines with (R213, R245). -/
inductive Comb (α : Type) where
  | plain
  | andWith (c : α)
  | orWith (c : α)
  deriving DecidableEq, Repr

/-- Operands of major 0x01 (R208): type, .sat, sD, sA, sB. -/
structure SOp where
  ty : Tag
  sat : Bool
  d : SReg
  a : SReg
  b : SReg
  deriving DecidableEq, Repr

/-- Operands of the scalar shift by an immediate (R212). -/
structure SShI where
  w64 : Bool
  d : SReg
  a : SReg
  count : BitVec 6
  deriving DecidableEq, Repr

/-- Lane selector of SLANE (R217); the register form leaves the LANE field unused. -/
inductive LaneSel where
  | lane (n : BitVec 5)
  | reg (s : SReg) (n : BitVec 5)
  | first
  deriving DecidableEq, Repr

/-- Destination of GETS (R218). -/
inductive GetsDst where
  | s (d : SReg)
  | s64 (d : SReg)
  | v (d : VReg)
  deriving DecidableEq, Repr

/-- Operands of a vector word with the standard SUB layout (R193): type, rounding, .sat, guard, vD, vA, vB, vC. -/
structure VOp where
  ty : Tag
  rnd : Rnd
  sat : Bool
  g : Guard
  d : VReg
  a : VReg
  b : VReg
  c : VReg
  deriving DecidableEq, Repr

/-- Operands of a vector word that names only a width (R240, R257, R259, R262): W64, guard, vD, vA. -/
structure VW where
  w64 : Bool
  g : Guard
  d : VReg
  a : VReg
  deriving DecidableEq, Repr

/-- Operands of an I-form vector word with an F32 or 32-bit immediate (R244, R246). -/
structure VImm where
  g : Guard
  d : VReg
  a : VReg
  imm : Word
  deriving DecidableEq, Repr

/-- Operands of a vector compare (R245, R248). -/
structure VCmp where
  rel : Rel
  comb : Comb PReg
  ty : Tag
  g : Guard
  d : PReg
  a : VReg
  b : VReg
  deriving DecidableEq, Repr

/-- Operands of a special function (R249). -/
structure SfuOp where
  ty : Tag
  rnd : Rnd
  g : Guard
  d : VReg
  a : VReg
  c : CReg
  deriving DecidableEq, Repr

/-- Operands of CVT (R251): source and destination types, element j. -/
structure CvtOp where
  src : Tag
  dst : Tag
  rnd : Rnd
  sat : Bool
  j : BitVec 8
  g : Guard
  d : VReg
  a : VReg
  deriving DecidableEq, Repr

/-- Operands of PACK, UNPACK and RETAG (R253, R255). -/
structure VTy where
  ty : Tag
  g : Guard
  d : VReg
  a : VReg
  deriving DecidableEq, Repr

/-- Operands of BLK.PACK and BLK.UNPACK (R254). -/
structure BlkOp where
  de4 : Bool
  cmp : Bool
  delta : BitVec 4
  fty : Tag
  rnd : Rnd
  g : Guard
  d : VReg
  a : VReg
  s : SReg
  deriving DecidableEq, Repr

/-- Operands of the per-lane predicate operations (R256). -/
structure POp where
  g : Guard
  d : PReg
  a : PReg
  b : PReg
  deriving DecidableEq, Repr

/-- Operations of the tile reductions and scans (R261). -/
inductive RedOp where
  | add | min | max | and | or | xor
  deriving DecidableEq, Repr

def RedOp.code : RedOp → BitVec 3
  | .add => 0 | .min => 1 | .max => 2 | .and => 3 | .or => 4 | .xor => 5

def RedOp.ofCode (c : BitVec 3) : Option RedOp := [RedOp.add, .min, .max, .and, .or, .xor][c.toNat]?

/-- Operands of a tile reduction or scan (R261). -/
structure RedArgs where
  op : RedOp
  ty : Tag
  rnd : Rnd
  g : Guard
  d : VReg
  a : VReg
  deriving DecidableEq, Repr

/-- One half of a paired word (R194): the pair code and its registers. X is fixed by the code (R194). -/
structure Half where
  op : BitVec 6
  d : VReg
  a : VReg
  b : VReg
  deriving DecidableEq, Repr

/-- Base of a global operand (R268). -/
inductive GBase where
  | bt (b : BReg)
  | s (n : SReg)
  deriving DecidableEq, Repr

/-- A global operand (R268): base, index register with its scale exponent, 12-bit signed displacement. -/
structure GAddr where
  base : GBase
  idx : Option (VReg × BitVec 2)
  disp : BitVec 12
  deriving DecidableEq, Repr

/-- A scratch operand (R273): peer rank register, offset register, unsigned displacement. -/
structure ScrAddr where
  peer : Option SReg
  a : VReg
  disp : BitVec 12
  deriving DecidableEq, Repr

/-- Operands of a per-lane load of space `α` (R270, R272, R273): WIDTH, TYPE, guard, vD, address, counter. -/
structure LdOp (α : Type) where
  width : BitVec 3
  ty : Tag
  g : Guard
  d : VReg
  addr : α
  c : CReg
  deriving DecidableEq, Repr

/-- Operands of a per-lane store of space `α` (R270, R272, R273); the counter is optional. -/
structure StOp (α : Type) where
  width : BitVec 3
  g : Guard
  d : VReg
  addr : α
  c : Option CReg
  deriving DecidableEq, Repr

/-- A parameter operand: sN and an unsigned displacement (R274). -/
structure PmAddr where
  s : SReg
  disp : BitVec 12
  deriving DecidableEq, Repr

/-- Operands of a scalar load from `α` (R274): WIDTH 4, 5 or 6. -/
structure SldOp (α : Type) where
  width : BitVec 3
  d : SReg
  addr : α
  c : CReg
  deriving DecidableEq, Repr

/-- Base and displacement of a scalar global load (R274). -/
structure SGAddr where
  base : GBase
  disp : BitVec 12
  deriving DecidableEq, Repr

/-- Base of an atomic operand (R277). -/
inductive ABase where
  | bt (b : BReg)
  | s (n : SReg)
  | scratch
  | peer (n : SReg)
  deriving DecidableEq, Repr

/-- An atomic operand (R277): base, index register, scale exponent. -/
structure AAddr where
  base : ABase
  idx : VReg
  sh : BitVec 2
  deriving DecidableEq, Repr

/-- Operations of the atomics in the order of their codes (R277). -/
inductive AOp where
  | add | min | max | and | or | xor | exch | incw
  deriving DecidableEq, Repr, Inhabited

def AOp.code : AOp → BitVec 4
  | .add => 0 | .min => 1 | .max => 2 | .and => 3 | .or => 4 | .xor => 5 | .exch => 6 | .incw => 7

def AOp.ofCode (c : BitVec 4) : Option AOp :=
  [AOp.add, .min, .max, .and, .or, .xor, .exch, .incw][c.toNat]?

/-- Operands of ATOM and VATOM (R277, R281). -/
structure AtomOp where
  op : AOp
  ty : Tag
  g : Guard
  addr : AAddr
  d : VReg
  b : VReg
  c : CReg
  deriving DecidableEq, Repr

/-- Operands of RED and VRED (R277, R281). -/
structure RedMem where
  op : AOp
  ty : Tag
  g : Guard
  addr : AAddr
  b : VReg
  deriving DecidableEq, Repr

/-- Operands of CAS (R280); lw is the log2 of the register count: b32, b64, b128. -/
structure CasOp where
  lw : BitVec 2
  g : Guard
  addr : AAddr
  d : VReg
  b : VReg
  c : CReg
  deriving DecidableEq, Repr

/-- Operands of FENCE (R282). -/
structure FenceOp where
  pred : BitVec 4
  succ : BitVec 4
  scope : BitVec 3
  deriving DecidableEq, Repr

/-- Operands of MESH.RED (R292). -/
structure MeshOp where
  op : BitVec 3
  ty : Tag
  d : TReg
  a : VReg
  k : BitVec 2
  c : CReg
  deriving DecidableEq, Repr

/-- Operands of SDOT (R295). -/
structure SdotOp where
  ty : Tag
  d : TReg
  a : TReg
  b : SReg
  c : CReg
  deriving DecidableEq, Repr

/-- Matrix operand formats in the order of their codes (R300). -/
inductive MFmt where
  | e4m3 | e5m2 | de8 | i8 | de4 | i4 | bf16 | f16 | f32 | f64
  deriving DecidableEq, Repr, Inhabited

def MFmt.code : MFmt → BitVec 4
  | .e4m3 => 0 | .e5m2 => 1 | .de8 => 2 | .i8 => 3 | .de4 => 4 | .i4 => 5 | .bf16 => 6 | .f16 => 7 | .f32 => 8 | .f64 => 9

def MFmt.ofCode (c : BitVec 4) : Option MFmt :=
  [MFmt.e4m3, .e5m2, .de8, .i8, .de4, .i4, .bf16, .f16, .f32, .f64][c.toNat]?

/-- Operands of MSTREAM (R307). -/
structure MStream where
  acc : Bool
  spl : Bool
  spr : Bool
  a : TReg
  e : TReg
  s : SReg
  c : CReg
  deriving DecidableEq, Repr

/-- Operands of MDRAIN to registers (R311). -/
structure MDrainR where
  src : BitVec 2
  ty : Tag
  rnd : Rnd
  sat : Bool
  d : VReg
  a : SReg
  c : CReg
  deriving DecidableEq, Repr

/-- Operands of MDRAIN to a tile (R311). -/
structure MDrainT where
  src : BitVec 2
  ty : Tag
  delta : BitVec 4
  rnd : Rnd
  sat : Bool
  d : TReg
  a : SReg
  e : TReg
  c : CReg
  deriving DecidableEq, Repr

/-- Registers of a Frond word of the R-form (R391). -/
structure FrR where
  d : BitVec 4
  a : BitVec 4
  b : BitVec 4
  deriving DecidableEq, Repr

/-- Registers and immediate of a Frond word of the I-form (R391). -/
structure FrI where
  d : BitVec 4
  a : BitVec 4
  imm : BitVec 18
  deriving DecidableEq, Repr

/-- Registers and displacement of a Frond branch (R391). -/
structure FrB where
  a : BitVec 4
  b : BitVec 4
  n : BitVec 14
  deriving DecidableEq, Repr

/-- A queue action (R394): the function (256 is the physical function), its queue and the eight dwords of the block. -/
structure ActOp where
  fn : Nat
  q : Nat
  d0 : DWord
  d1 : DWord
  d2 : DWord
  d3 : DWord
  d4 : DWord
  d5 : DWord
  d6 : DWord
  d7 : DWord
  deriving DecidableEq, Repr

/-- Where a register write without a row of its own goes (R344, R383, R446). -/
inductive RegTarget where
  | priv (grp : Nat) (num : BitVec 8)
  | bar0 (fn : Nat) (off : Nat)
  | bar2 (off : Nat)
  deriving DecidableEq, Repr

/-- What an ATS Translation Completion says of a range of 4 KiB to 2 MiB (R375, R377): die, PASID (the function), first I/O
page, base-two logarithm of the pages, 0 to 9, the host physical page the first translates to, permissions; both false when
the range is absent. -/
structure AtsAnswer where
  die : Nat
  fn : Nat
  page : Nat
  log2 : Nat
  hpa : Nat
  r : Bool
  w : Bool
  deriving DecidableEq, Repr

/-- What the other package answers to a PREPARE (R423): whether it answers and accepts, and what its leaf is. The map
lists every guest page of its stage-2 tree with R and W. -/
structure PeerLeaf where
  accepts : Bool
  stopped : Bool
  pair : Bool
  cores : Nat
  vfs : Nat
  s2map : List (Nat × Bool × Bool)
  deriving DecidableEq, Repr

/-- A forwarded atomic (R428): guest physical address, bytes, operation, type, operand, for a compare-and-swap the new value,
and the access number at the sender. -/
structure FwdAtomic where
  gpa : Nat
  size : Nat
  op : AOp
  ty : Tag
  cas : Bool
  b : Nat
  c : Nat
  tok : Nat
  deriving DecidableEq, Repr, Inhabited

end Sys2Proof
end

