-- ==== Sys2Proof/Syntax.lean ====
section
/-!
DEFINITION. Every step of the machine as one constructor: one per row of spec/opcode_table.json, words first, then the steps of the hardware and
of the outside world.
The instruction words carry the operands of their encoding; a step of the hardware or of the outside world carries what
names it (a group, a team, a core, an operation in flight, a written value).
-/
namespace Sys2Proof

inductive Instr where
  -- scalar arithmetic (R207 to R212)
  | nop
  | sadd (o : SOp) | ssub (o : SOp) | smul (o : SOp) | smulhi (o : SOp) | sdiv (o : SOp) | srem (o : SOp)
  | smin (o : SOp) | smax (o : SOp) | sand (o : SOp) | sor (o : SOp) | sxor (o : SOp) | sandn (o : SOp)
  | sshl (o : SOp) | sshr (o : SOp) | srotl (o : SOp) | smov (o : SOp) | sneg (o : SOp) | sabs (o : SOp)
  | spopc (o : SOp) | sclz (o : SOp)
  | saddi (d a : SReg) (imm : Word) | sandi (d a : SReg) (imm : Word)
  | sori (d a : SReg) (imm : Word) | sxori (d a : SReg) (imm : Word)
  | smovi (d : SReg) (imm : Word) | smoviI64 (d : SReg) (imm : Word) | smoviN64 (d : SReg) (imm : Word)
  | sshli (o : SShI) | sshriN (o : SShI) | sshriI (o : SShI) | srotli (o : SShI)
  -- compares, selects, uniform predicates, addresses (R213 to R216)
  | scmp (rel : Rel) (comb : Comb QReg) (ty : Tag) (d : QReg) (a b : SReg)
  | ssel (w64 : Bool) (d : SReg) (c : QReg) (a b : SReg)
  | qand (d a b : QReg) | qor (d a b : QReg) | qxor (d a b : QReg) | qandn (d a b : QReg) | qnot (d a : QReg)
  | qset (d : QReg) (v : Bool)
  | sadda (uns : Bool) (shift : BitVec 3) (d a b : SReg)
  -- control, planes, waiting (R220 to R229)
  | bra (g : Guard) (join : BitVec 16) (target : BitVec 29)
  | braQ (q : QReg) (target : BitVec 29)
  | brx (g : Guard) (bound : BitVec 8) (a : VReg) (b : SReg) (uns : Bool) (join : BitVec 16)
  | call (d : SReg) (target : BitVec 29)
  | ret (a : SReg)
  | exit (g : Guard)
  | trap (code : Word)
  | planeSet (g : Guard) (k : BitVec 3)
  | planeSel (g : Guard) (a : VReg)
  | wait (all : Bool) (n : BitVec 2) (qd : QReg) (sd sa sb : SReg) (c : CReg)
  -- barriers, register blocks, spawn, regions (R230 to R237)
  | barSync (slot : BitVec 4) | barArrive (slot : BitVec 4) | barExpect (slot : BitVec 4) (a : SReg)
  | cbarSync (k : BitVec 2) | cbarArrive (k : BitVec 2)
  | rgive (n : BitVec 6) | rclaim (n : BitVec 6) | rclaimGrant (team : Nat) | rgiveRelease (grp : Nat)
  | spawn (b a : VReg) | binTimerExpiry (launch node : Nat) | spawnedGroupPlacement (launch : Nat)
  | regionBegin (nblk : BitVec 5) (nscal : BitVec 7) (a : VReg) (b : SReg) | regionEnd
  -- special registers and lane reads (R217, R218)
  | gets (dst : GetsDst) (num : BitVec 8) | sets (num : BitVec 8) (a : SReg)
  | slane (w64 : Bool) (d : SReg) (a : VReg) (sel : LaneSel)
  -- vector moves and integer arithmetic (R240 to R245)
  | mov (o : VW) | movs (w64 : Bool) (g : Guard) (d : VReg) (a : SReg) | movi (ty : Tag) (g : Guard) (d : VReg) (imm : Word)
  | iadd (o : VOp) | isub (o : VOp) | imul (o : VOp) | imulhi (o : VOp) | imad (o : VOp) | imulw (o : VOp)
  | imin (o : VOp) | imax (o : VOp) | iabs (o : VOp) | ineg (o : VOp)
  | vand (o : VOp) | vor (o : VOp) | vxor (o : VOp) | vandn (o : VOp) | vnot (o : VOp)
  | shl (o : VOp) | shr (o : VOp) | rotl (o : VOp)
  | iaddi (o : VImm) | icmp (o : VCmp)
  -- floating point (R246 to R250)
  | fadd (o : VOp) | fsub (o : VOp) | fmul (o : VOp) | ffma (o : VOp) | fnma (o : VOp)
  | faddi (o : VImm) | fmuli (o : VImm)
  | fmin (o : VOp) | fmax (o : VOp) | fabs (o : VOp) | fneg (o : VOp) | fcopysign (o : VOp)
  | fcmp (o : VCmp) | fclass (o : VOp)
  | rcp (o : SfuOp) | sqrt (o : SfuOp) | rsqrt (o : SfuOp) | exp2 (o : SfuOp) | log2 (o : SfuOp)
  | sinpi (o : SfuOp) | cospi (o : SfuOp) | tanh (o : SfuOp)
  -- conversions (R251 to R255)
  | cvt (o : CvtOp) | pack (o : VTy) | unpack (o : VTy) | blkPack (o : BlkOp) | blkUnpack (o : BlkOp) | retag (o : VTy)
  -- predicates and selection (R256, R257)
  | pand (o : POp) | por (o : POp) | pxor (o : POp) | pandn (o : POp) | pnot (g : Guard) (d a : PReg)
  | pclr (g : Guard) (d : PReg) | pset (g : Guard) (d : PReg) | pfromq (g : Guard) (d : PReg) (q : QReg)
  | ptest (w64 : Bool) (g : Guard) (d : PReg) (a : VReg) | ptov (g : Guard) (d : VReg) (a : PReg)
  | sel (w64 : Bool) (g : Guard) (d : VReg) (c : PReg) (a b : VReg)
  -- operations across lanes (R259 to R265)
  | shflIdx (o : VW) (b : VReg) | shflUp (o : VW) (n : BitVec 5) | shflDown (o : VW) (n : BitVec 5)
  | shflXor (o : VW) (n : BitVec 5) | shflBcast (o : VW) (b : SReg)
  | voteAny (g : Guard) (d a : PReg) | voteAll (g : Guard) (d a : PReg)
  | voteBallot (g : Guard) (d : VReg) (a : PReg) | voteCount (g : Guard) (d : VReg) (a : PReg)
  | voteAnyQ (d : QReg) (a : PReg) | voteAllQ (d : QReg) (a : PReg) | voteBallotS (d : SReg) (a : PReg)
  | tileRed (o : RedArgs) | scan (excl : Bool) (o : RedArgs)
  | matchLanes (o : VW) (pw : Option PReg) | append (g : Guard) (d : VReg) (a : PReg) (b : SReg)
  | rand (w64 : Bool) (g : Guard) (d : VReg)
  -- bit counting, packed dot, pairs (R266, R267, R195)
  | popc (o : VOp) | clz (o : VOp) | ctz (o : VOp) | brev (o : VOp) | idp4 (o : VOp)
  | pairedWord (h0 h1 : Half)
  -- loads, stores, base translation, prefetch (R272 to R276)
  | ld (o : LdOp GAddr) | st (o : StOp GAddr) | ldScratch (o : LdOp ScrAddr) | stScratch (o : StOp ScrAddr)
  | ldParam (o : LdOp PmAddr) | sldParam (o : SldOp PmAddr) | sld (o : SldOp SGAddr)
  | btSet (wr : Bool) (d : BReg) (a b : SReg) (c : CReg) | prefetch (l2 : Bool) (g : Guard) (addr : GAddr)
  -- atomics and fences (R277 to R283)
  | atom (o : AtomOp) | red (o : RedMem) | cas (o : CasOp) | vatom (o : AtomOp) | vred (o : RedMem)
  | fence (o : FenceOp) | fencePhase (o : FenceOp) (d : SReg) | fenceCompletion (grp : Nat)
  -- tiles and engines (R284 to R296)
  | tileGive (t : TReg) | tileGiveRst (t : TReg) | tileTake (t : TReg) | tileTakeRelease (grp : Nat)
  | copy (a : SReg) (c : CReg) | copyProgress (op : Nat) | copyCompletion (op : Nat)
  | meshTree (k : BitVec 2) (a : SReg) | meshRed (o : MeshOp) | meshCancel (k : BitVec 2)
  | meshPartialAccept (cluster tree child : Nat)
  | sdot (o : SdotOp) | sdotDispatch (op : Nat) | micaRowResult (op : Nat)
  -- matrix and bond (R297 to R316)
  | gangSet (gidx : BitVec 5) (bc : BitVec 4) (br : BitVec 2) (origin : BitVec 4) | gangClear
  | bond | bondHeld (cluster origin : Nat) | unbond | mcfg (af bf : MFmt)
  | mstat (t rt : Bool) (a e : TReg) | mstatRowRead (core : Nat) | mflip
  | mstream (o : MStream) | arrayStep (core : Nat)
  | mzero (w64 : Bool) (a : SReg) | mfill (w64 : Bool) (a b : SReg)
  | mdrain (o : MDrainR) | mdrainT (o : MDrainT) | matrixEntryPerform (core : Nat) | mstatus (d : SReg) (c : CReg)
  -- privileged words (R357 to R362)
  | rdps (d : SReg) (num : BitVec 8) | wrps (num : BitVec 8) (a : SReg) | tret (skip : Bool)
  | csave (a b : SReg) (c : CReg) | crest (a b : SReg) (c : CReg)
  | tlbinv (kind : BitVec 2) (a b : SReg) (c : CReg) | harvest (a b : SReg) (c : CReg) | atcinv (a b : SReg) (c : CReg)
  | invalidationCompletion (op : Nat)
  | fltAck (act : BitVec 2) (vfq : Bool) (d : QReg) (a : SReg) | haltAck (discard : Bool) (d : QReg) (a : SReg)
  | regionAbort (d : QReg) (a : SReg) | tileReset (a : SReg) (t : TReg) | phaseSet (completed : Bool) (a b : SReg)
  -- Frond words (R392), and a word position holding no instruction (R199)
  | frondEnd | frondMovi (o : FrI) | frondAddi (o : FrI) | frondAndi (o : FrI)
  | frondAdd (o : FrR) | frondSub (o : FrR) | frondAnd (o : FrR) | frondOr (o : FrR) | frondXor (o : FrR)
  | frondShl (o : FrR) | frondShr (o : FrR)
  | frondLdp (o : FrI) | frondLdw (o : FrI) | frondStw (o : FrI) | frondSts (o : FrI)
  | frondBeq (o : FrB) | frondBne (o : FrB) | frondBltu (o : FrB)
  | frondLoop (n : BitVec 7) (len : BitVec 11) | frondAct (o : FrI) | frondFail (code : BitVec 18)
  | undefinedBitPattern (w : DWord)
  -- issue, completion, dispatch (files 02, 08)
  | clauseIssue (grp : Nat) | withheldRecordWrite (grp : Nat) | variableLatencyCompletion (op : Nat)
  | waitSatisfied (grp : Nat) | waitTimeout (grp : Nat) | monitorReread (grp : Nat)
  | teamRetirement (team : Nat) | clusterPlacement (launch : Nat)
  -- memory system (files 05, 06)
  | postedOperationPerform (acc : Nat) | storeBufferDrain (entry : Nat) | drainBoundExpiry (entry : Nat)
  | sliceAccess (acc : Nat) | forcedAccessPerform (acc : Nat) | storeCompletion (pend : Nat)
  | leaseExpiry (core sector : Nat) | phaseMarkerArrival (home src : Nat) | orairAcknowledgement (acc : Nat)
  | walkCompletion (grp : Nat) | atsCompletion (ans : AtsAnswer) | atsInvalidateRequest (fn page count : Nat)
  | priResponse (grp : Nat) (success : Bool)
  -- queues (R383 to R393)
  | qreload (fn : Nat) (v : DWord) | qtctl (fn : Nat) (v : DWord) | writeIndexRead (fn q : Nat) | packetStart (fn q : Nat)
  -- queue actions (R394 to R396)
  | launch (a : ActOp) | launchDep (a : ActOp) | queueCopy (a : ActOp) | queueCopyCompletion (op : Nat)
  | signal (a : ActOp) | mark (a : ActOp) | waitsig (a : ActOp) | waitsigSatisfied (fn q : Nat) | binConfig (a : ActOp)
  | halt (a : ActOp) | resume (a : ActOp) | fltack (a : ActOp)
  -- budgets, halts, heat (R401 to R407, R29)
  | tokenConsumption | periodBoundary (part : Nat) | clusterStop (cluster : Nat) | haltCompletion (cluster : Nat)
  | temperatureReport (core degrees : Nat) | clockStep (die : Nat)
  -- partitions (R411 to R421, R374, R349, R350)
  | create | start | stop | update | destroy | assign | free | freeScrub | exportMem | importMem | revoke | unmap
  | vfbind (grp : Nat) (v : DWord) | vfbud (grp : Nat) (v : DWord) | hostpart (grp : Nat) (v : DWord)
  | lichen (grp : Nat) (v : DWord) | inject (grp : Nat) (v : DWord)
  | fqbase (grp : Nat) (v : DWord) | fqcfg (grp : Nat) (v : DWord) | fqridx (grp : Nat) (v : DWord)
  | registerWrite (t : RegTarget) (v : DWord)
  -- migration (file 19)
  | prepare (p : PeerLeaf) | pagePush (page : Nat) | migrationHalt | shipItemReceive | pagePullRequest (page : Nat)
  | forwardedAtomic (f : FwdAtomic) | pageTransfer (page : Nat) | pageFlip (page : Nat) | migrationDone | abort
  | graceWindowExpiry | peerTimeout | migrationLinkFailure
  -- bring-up and reliability (file 20)
  | coldReset | functionReset | vfFunctionLevelReset (vf : Nat) | dieResetGraceful (die : Nat) | dieResetForced (die : Nat)
  | attestationRequest (v : DWord) | vfAttestationRequest (vf : Nat) (v : DWord)
  | correctedError (kind unit addr : Nat) | uncorrectedError (kind unit addr : Nat)
  | sparePeColumn (unit : Nat) | spareIssuePipe (unit : Nat) | spareL2Way (unit : Nat) | spareMsmRow (unit : Nat)
  | spareHbmRow (unit : Nat) | spareHbmBank (unit : Nat) | spareOrairLane (unit : Nat) | spareEngagementComplete
  | portRetrain (port : Nat) | portStopTimeout (port : Nat) | flitReceive (port : Nat) (flit : List Byte)
  | atomicopRequest | healthTestFailure (core : Nat) | coreFence (core : Nat) | orairPortTraining (port : Nat)
  | dieResetEnd (die : Nat) | fuseCommand (svn : Nat)
  deriving DecidableEq, Repr

end Sys2Proof
end

