-- ==== Sys2Proof/Machine/State.lean ====
section
/-!
DEFINITION. The state of the package as plain data: groups, teams, clusters, launches, cores, dies, memories, accesses in
flight, queues, partitions, migration and reliability, with the agenda of turns that come next; the reasons a step can
stop; and the state after reset. INVENTORY.md lists every field with its rule and reset value.
-/
namespace Sys2Proof.Machine
open Sys2Proof

/-- Bytes by address. (DESIGN CHOICE, log 10.) -/
abbrev Memory : Type := FMap Byte

/-! ### Per group (R62 to R79, R354) -/

/-- A base translation register (R67). `frame` is SPA bits 51:16. -/
structure BtReg where
  valid : Bool
  base : DWord
  frame : Nat
  limit : Nat
  psize : Nat
  write : Bool
  read : Bool
  deriving DecidableEq, Repr, Inhabited

/-- An entry of the divergence stack (R45); `none` is NONE. -/
structure DivEntry where
  off : Nat
  mask : LaneMask
  recOff : Option Nat
  deriving DecidableEq, Repr, Inhabited

/-- Why a group is parked, in the order of the codes of R61; code 15, the halt, is the halt state of its team. -/
inductive Park where
  | running | wait | header | rclaim | rgive | barrier | posted | spawn | mesh | fence | gang | tileTake | page | priv
  | fault
  deriving DecidableEq, Repr, Inhabited

/-- What a fault reports (R348), with the core and the slot of its group when it was raised, and where its record
went. `hyp`: the hypervisor queue; `owed`: its record waits for the end of the tick, `withheld`: for a slot of its
queue (R346, R349); `rolled`: REGION.ABORT has rolled its group back (R361). -/
structure FaultRec where
  cls : Nat
  write : Bool
  nested : Bool
  engine : Bool
  team : Bool
  stage2 : Bool
  planes : Nat
  level : Nat
  off : Nat
  lanes : LaneMask
  addr : DWord
  gpa : Nat
  time : Nat
  faultId : Nat
  hyp : Bool
  core : Nat
  slot : Nat
  owed : Bool
  withheld : Bool
  atHeader : Bool
  rolled : Bool
  deriving DecidableEq, Repr, Inhabited

/-- An outstanding WAIT (R48 to R50, R228): conditions as read at issue, its destinations, its deadline, the tick by which its
monitor reads its words again, the lines they lie in, whether a resume owes it an evaluation. -/
structure WaitRec where
  live : Bool
  all : Bool
  qd : Nat
  sd : Nat
  ctr : Nat
  deadline : Nat
  forever : Bool
  conds : List (List Nat)
  due : Nat
  lines : List Nat
  again : Bool
  off : Nat
  deriving DecidableEq, Repr, Inhabited

/-- A fence in progress (R130, R131): its effective scope, what it waits for, the dies and phases among it; `rel` is one more than
the last release number it covers at cluster scope (0: none), `own` says that it covers the group's own stores only, `succ`
that stores or atomics follow it. -/
structure FenceRec where
  live : Bool
  scope : Nat
  loads : List Nat
  stores : List Nat
  vmax : Nat
  rel : Nat
  own : Bool
  succ : Bool
  phases : List (Nat × Nat)
  deriving DecidableEq, Repr, Inhabited

/-- The state TRET restores (R347, R358). -/
structure TrapRet where
  clause : Nat
  nextClause : Nat
  word : Nat
  count : Nat
  cls : Nat
  unif : Bool
  yields : Bool
  snap : List Nat
  tilew : Nat
  off : Nat
  mask : LaneMask
  recOff : Option Nat
  depth : Nat
  deriving DecidableEq, Repr, Inhabited

/-- The region record (R235, R265, R434) with what a rollback restores. -/
structure Region where
  open_ : Bool
  start : Nat
  va : Nat
  nblk : Nat
  sb : Nat
  nscal : Nat
  vregs : FMap Word
  vtags : FMap Tag
  sregs : FMap Word
  pregs : FMap LaneMask
  qregs : BitVec 4
  planes : FMap Nat
  tilew : Nat
  off : Nat
  mask : LaneMask
  recOff : Option Nat
  stack : List DivEntry
  draw : Nat
  rlwidx : Nat
  deriving DecidableEq, Repr, Inhabited

/-- What a walk found for a page of the word held at issue, read or written (R365, R369): class 0 for a translation. `final`
says that the guest PA is the page's own, not a table's (R373). -/
structure WalkNote where
  page : Nat
  write : Bool
  cls : Nat
  level : Nat
  gpa : Nat
  stage2 : Bool
  final : Bool
  deriving DecidableEq, Repr, Inhabited

/-- A translation held by a TLB (R369) or found by a walk: output page, page size in bits, permissions, D bits, the leaf
entries' SPAs, the guest PA of the page and of the stage-2 leaf that holds its D bit (R381); `window` marks an address of the
peer window (R119). -/
structure Xlat where
  live : Bool
  host : Bool
  out : Nat
  pbits : Nat
  r : Bool
  w : Bool
  d1 : Bool
  d2 : Bool
  e1 : Nat
  e2 : Nat
  gpa : Nat
  gbits : Nat
  part : Nat
  dgpa : Nat
  window : Bool
  deriving DecidableEq, Repr, Inhabited

/-- The writes of one position to one register (R78): union mask, format (MIXED when they differ), the tag before. -/
structure PosTag where
  live : Bool
  mask : LaneMask
  fmt : Tag
  before : Tag
  deriving DecidableEq, Repr, Inhabited

/-- A group (R79). `planeFrom` is the next plane to issue at the position, `morePlanes` whether planes follow the one
that stopped there, `posTags` what the planes of a position have written so far (R78), `brDests` the branch targets
its planes have gathered, offset plus one by lane (R44). `off` is the offset of the next clause header; `word` counts
the words issued of the clause in force, whose header fields are kept beside it (R181, R187). Tables: vector registers
by 32 n + lane, tags and registers by number, predicates by number with one bit a lane. -/
structure Group where
  live : Bool
  team : Nat
  idx : Nat
  role : Nat
  vf : Nat
  mode : Nat
  slot : Nat
  blocks : Nat
  vregs : FMap Word
  vtags : FMap Tag
  sregs : FMap Word
  pregs : FMap LaneMask
  qregs : BitVec 4
  ctrs : FMap Nat
  bts : FMap BtReg
  -- issue position
  off : Nat
  inClause : Bool
  clause : Nat
  nextClause : Nat
  word : Nat
  count : Nat
  cls : Nat
  unif : Bool
  yields : Bool
  headerWait : BitVec 6
  snap : List Nat
  planeFrom : Nat
  morePlanes : Bool
  posTags : FMap PosTag
  brDests : FMap Nat
  -- divergence
  mask : LaneMask
  recOff : Option Nat
  stack : List DivEntry
  exited : LaneMask
  planes : FMap Nat
  tilewNext : Nat
  tilew : Nat
  -- special registers
  cshape : Nat
  gridx : Nat
  gridy : Nat
  gridz : Nat
  gdimx : Nat
  gdimy : Nat
  gdimz : Nat
  teamId : Nat
  crank : Nat
  node : Nat
  lseq : Nat
  gang : BitVec 32
  moved : BitVec 3
  sfault : LaneMask
  -- park
  park : Park
  parkArg : Nat
  flt : FaultRec
  engFault : Bool
  replay : LaneMask
  replayOp : Nat
  wait : WaitRec
  fence : FenceRec
  after : Nat
  fwd : List Nat
  trapped : Bool
  trapRet : TrapRet
  region : Region
  regionStores : List (Nat × Nat × List Host.Cell × Xlat)
  joint : Nat
  spawnLane : Nat
  deposits : List (Nat × Nat)
  draw : Nat
  hvsel : Nat
  -- translation of the word held at issue (R369): pages to walk, I/O pages asked for, what walks found, refused I/O pages
  held : Bool
  heldWalk : List (Nat × Bool)
  heldAts : List (Nat × Bool)
  walked : List WalkNote
  refused : List Nat
  -- early read and overlapping write (R185, R186): by 0 + v, 256 + s, 384 + q, the operation outstanding
  notReady : FMap Nat
  clobber : FMap Nat
  vpoison : FMap Bool
  deriving DecidableEq, Repr, Inhabited

/-! ### Teams, clusters, launches (files 02, 17) -/

/-- A tile descriptor with its reservation point, return flag and the open ranges of engine writes (R69, R109, R285).
A range is (start, end, bytes landed from its start, released). -/
structure Tile where
  defd : Bool
  owner : Bool
  tag : Tag
  wptr : Nat
  base : Nat
  rows : Nat
  rowb : Nat
  resv : Nat
  ret : Bool
  ranges : List (Nat × Nat × Nat × Nat)
  deriving DecidableEq, Repr, Inhabited

/-- A team barrier slot (R51, R231); `own` marks a count set by bar.expect. -/
structure Barrier where
  own : Bool
  expected : Nat
  arrivals : Nat
  phase : Nat
  deriving DecidableEq, Repr, Inhabited

/-- How a team runs: running, asked to halt, held-halted, saved (R403, R405). -/
inductive Halt where
  | running | halting | held | saved
  deriving DecidableEq, Repr, Inhabited

/-- A team (R30, R31). `release` counts its narrow releases (R135); `forceLines` are the lines of its forced
publication with the level of their hold (R134), `pubs` the phases closed for held stores that left the die, with
their release (R135, R139), `retPhase` one more than the phase its retirement closed (R139, R144). -/
structure Team where
  live : Bool
  cluster : Nat
  crank : Nat
  core : Nat
  groups : List Nat
  share : Nat
  scratch : Memory
  scratchPoison : FMap Bool
  tiles : FMap Tile
  msm : FMap Word
  msmPoison : FMap Bool
  msmRows : Nat
  barriers : FMap Barrier
  pool : Nat
  claimants : List (Nat × Nat)
  halt : Halt
  retired : List Nat
  sfaults : FMap LaneMask
  release : Nat
  forceLines : List (Nat × Nat)
  pubs : List (Nat × Nat)
  retPhase : Nat
  deriving DecidableEq, Repr, Inhabited

/-- An instance of a mesh tree (R292, R293): contributions by rank (32 words, then operation and type codes), partials by
rank, ranks whose partial was accepted, operations by rank. -/
structure MeshInst where
  live : Bool
  tree : Nat
  num : Nat
  own : FMap (List Word)
  partials : FMap (List Word)
  accepted : List Nat
  ops : FMap Nat
  cancelled : Bool
  deriving DecidableEq, Repr, Inhabited

/-- A mesh tree (R291): the parent of each rank, 255 for the root; the next instance of each rank. -/
structure MeshTree where
  live : Bool
  parents : List Nat
  next : FMap Nat
  deriving DecidableEq, Repr, Inhabited

/-- A cluster; `recs` lists, for the team of a spawn bin, the record indices its group received (node, index). -/
structure Cluster where
  live : Bool
  launch : Nat
  px : Nat
  py : Nat
  pz : Nat
  rows : Nat
  cols : Nat
  cores : List Nat
  teams : List Nat
  placedAt : Nat
  phases : FMap Nat
  arrivals : FMap Nat
  trees : FMap MeshTree
  insts : FMap MeshInst
  halt : Halt
  holdHalt : Bool
  haltAt : Nat
  recs : List (Nat × Nat)
  deriving DecidableEq, Repr, Inhabited

/-- A spawn bin of a launch (R53, R54, R396): the record buffer, slots in use, indices waiting, firings not yet placed. -/
structure Bin where
  configured : Bool
  base : Nat
  log2 : Nat
  used : List Nat
  idx : List Nat
  firstAt : Nat
  firings : Nat
  due : List (Nat × List Nat)
  deriving DecidableEq, Repr, Inhabited

/-- A node of the kernel's node table (R177). -/
structure NodeDesc where
  live : Bool
  count : Nat
  blocks : Nat
  entry : Nat
  timer : Nat
  scratch : Nat
  deriving DecidableEq, Repr, Inhabited

inductive LaunchState where
  | none | active | halted | killing | done | rejected | killed
  deriving DecidableEq, Repr, Inhabited

/-- A launch (R394 to R398) with the validated header of its kernel (R176, R177). -/
structure Launch where
  state : LaunchState
  fn : Nat
  queue : Nat
  part : Nat
  mode : Nat
  lseq : Nat
  image : Nat
  params : Memory
  paramLen : Nat
  cwva : Nat
  intr : Bool
  dimx : Nat
  dimy : Nat
  dimz : Nat
  dep : Bool
  deps : List (Int × Int × Int)
  hasBoard : Bool
  retired : FMap Bool
  placed : FMap Bool
  killClass : Nat
  -- header
  planes : Nat
  code : Nat
  plen : Nat
  stride : Nat
  entry : Nat
  trap : Option Nat
  groups : Nat
  rows : Nat
  cols : Nat
  pool : Nat
  rolemap : Nat
  blocks : List Nat
  scratch : Nat
  msmRows : Nat
  tiles : List (Nat × Tile)
  patches : List (Nat × Nat × Nat × Bool)
  nodes : FMap NodeDesc
  bins : FMap Bin
  deriving DecidableEq, Repr, Inhabited

/-! ### Cores, dies and memory (files 05, 06, 07, 12) -/

/-- A matrix queue entry (R298): the word, its group and operation, the bond it belongs to with the number of its joint
instruction (0: none), its row scalar and fill value, the configuration and select bit at its acceptance, and how far it
has performed: tile rows read by a load, rows entered by a pass, rows written by a drain. -/
structure MEntry where
  word : DWord
  grp : Nat
  op : Nat
  bond : Nat
  jid : Nat
  row : Word
  fill : DWord
  af : MFmt
  bf : MFmt
  sel : Bool
  begun : Bool
  progress : Nat
  deriving DecidableEq, Repr, Inhabited

/-- A core's matrix state (R153, R297): the holder, configuration, select bit, two stationary buffers of 64 x 64 PEs
keyed 4096 buffer + 64 i + j, and the queue, oldest first. -/
structure Matrix where
  held : Bool
  team : Nat
  af : MFmt
  bf : MFmt
  sel : Bool
  pe : FMap (BitVec 256)
  pex : FMap Word
  queue : List MEntry
  deriving DecidableEq, Repr, Inhabited

/-- A core: fenced (R25), the group, plus one, whose clause last started on each issue pipe (R184), the code words its
instruction cache holds, by launch and place in the code (R200), junction temperature and, one more than it, the tick
since which it is hot (0: not hot; R407), noise source (R264), matrix state. -/
structure CoreRec where
  fenced : Bool
  pipes : FMap Nat
  icache : FMap (Option DWord)
  temp : Nat
  hotFrom : Nat
  noiseFail : Bool
  matrix : Matrix
  deriving DecidableEq, Repr, Inhabited

/-- Lease states of a bond (R167). -/
inductive BondState where
  | free | forming | held | breaking | saved
  deriving DecidableEq, Repr, Inhabited

/-- A bond (R158, R165): its rectangle within the cluster and the arrivals at its latch, (group, word, GANG value, row
scalar, offset). `ready` is one more than the tick at which a complete BOND first satisfied R303, with a number that
grows from one such event to the next (R167; (0, 0): not ready). A bond in state FREE that still has its rectangle has
lost a member to a kill (R166). -/
structure Bond where
  state : BondState
  cluster : Nat
  origin : Nat
  rows : Nat
  cols : Nat
  gidx : Nat
  latch : List (Nat × DWord × Nat × Nat × Nat)
  complete : Bool
  ready : Nat × Nat
  deriving DecidableEq, Repr, Inhabited

/-- A store-buffer entry (R127): one line of one team, its bytes by SPA, and its hold (0 none, 1 team, 2 cluster; R132,
R133) under a release number of the team (R135). `vis` says that a cluster-scope release has completed over it (R124), `after`
is the tick before which its V may not lie (R130), `dev` how the line may be cached (0 not at all, 1 on one die, 2 in a
pair-mode device; R117), `byFn` and `byPart` one more than the function and the partition whose translations it used (R360),
`io` one more than the I/O page of a host line, by function (R377). -/
structure SbEntry where
  live : Bool
  core : Nat
  team : Nat
  grps : List Nat
  line : Nat
  cells : List Host.Cell
  issued : Nat
  hold : Nat
  release : Nat
  target : Nat
  vis : Bool
  after : Nat
  dev : Nat
  byFn : Nat
  byPart : Nat
  io : Nat
  deriving DecidableEq, Repr, Inhabited

/-- What an access in flight is. -/
inductive AccKind where
  | load | store | atomic | fill | posted
  deriving DecidableEq, Repr, Inhabited

/-- Where an access performs (R117): this package's HBM, the host, another package. -/
inductive Place where
  | hbm | host | remote
  deriving DecidableEq, Repr, Inhabited

/-- An access on its way to its home (R117, R120, R123): the lane's bytes, the operation it completes, its atomic.
`rel` is one more than the releases its team had made when a store was issued (R135), 0 for none; `xl` the
translation whose D bits an atomic sets (R380);
`hubFn` one more than the function of a hub store whose pages have not arrived, which holds it untranslated (R428). `seq` orders
what has left a die for a home on another (R137; 0: not yet), `there` marks what has been delivered; `after`,
`dev`, `byFn`, `byPart`, `io` are
as in a store-buffer entry; `held` marks a store that left a narrow hold (R135), `word` the atomics of one word (R278). -/
structure Access where
  live : Bool
  kind : AccKind
  place : Place
  grp : Nat
  team : Nat
  core : Nat
  lane : Nat
  op : Nat
  addr : Nat
  size : Nat
  data : List Host.Cell
  aop : AOp
  ty : Tag
  cas : Bool
  operand : Nat
  operand2 : Nat
  issued : Nat
  srcDie : Nat
  homeDie : Nat
  phase : Nat
  waiting : Bool
  l1 : Bool
  sb : Nat
  members : List Nat
  acked : Bool
  clusterVis : Bool
  forced : Bool
  irq : Nat
  rel : Nat
  xl : Xlat
  hubFn : Nat
  seq : Nat
  there : Bool
  after : Nat
  dev : Nat
  byFn : Nat
  byPart : Nat
  io : Nat
  held : Bool
  word : Nat
  deriving DecidableEq, Repr, Inhabited

/-- A store that arrived at its home and is not visible before tick `v` (R126). `atomic` marks an atomic's write, `src` is the
number it had on its way. -/
structure Pend where
  live : Bool
  cells : List Host.Cell
  v : Nat
  team : Nat
  cluster : Nat
  clusterVis : Bool
  grps : List Nat
  srcDie : Nat
  homeDie : Nat
  phase : Nat
  op : Nat
  forced : Bool
  irq : Nat
  rel : Nat
  atomic : Bool
  held : Bool
  src : Nat
  deriving DecidableEq, Repr, Inhabited

/-- Kinds of outstanding variable-latency and engine operations (R185). -/
inductive OpKind where
  | load | sload | paramLoad | store | atom | sfu | wait | btset | copy | meshRed | sdot | mstream | mdrain | mdrainT
  | mstatus | csave | crest | tlbinv | hubCopy | hubStore | hubHalt | scratch | mstat
  deriving DecidableEq, Repr, Inhabited

/-- An outstanding operation: its group, counter (6: none), destination, the places it writes at completion, collected results by
lane, the accesses still to come, and for an engine its descriptor scalars, progress and reservations. -/
structure Op where
  live : Bool
  kind : OpKind
  grp : Nat
  team : Nat
  core : Nat
  off : Nat
  ctr : Nat
  dst : Nat
  width : Nat
  ty : Tag
  sext : Bool
  lanes : LaneMask
  res : FMap Nat
  waitOn : List Nat
  arg : List Nat
  ptr : Nat
  stage : Nat
  resv : List (Nat × Nat × Nat × Nat)
  flag : Bool
  stopped : Bool
  places : List Nat
  deriving DecidableEq, Repr, Inhabited

/-- An ATC entry of a 4 KiB I/O page (R369, R377). -/
structure AtcEntry where
  live : Bool
  hpa : Nat
  r : Bool
  w : Bool
  deriving DecidableEq, Repr, Inhabited

/-- An L2 line (R113, R114, R416): valid and dirty sectors, owning leaf. -/
structure L2Line where
  live : Bool
  line : Nat
  valid : BitVec 4
  dirty : BitVec 4
  leaf : Nat
  deriving DecidableEq, Repr, Inhabited

/-- States of a Lichen entry (R115). -/
inductive LichenState where
  | invalid | shared | modified
  deriving DecidableEq, Repr, Inhabited

/-- A Lichen entry (R115): its state, the line it holds, its dirty sectors. -/
structure LichenEntry where
  state : LichenState
  line : Nat
  dirty : BitVec 4
  deriving DecidableEq, Repr, Inhabited

/-- A leaf entry: base of its page, page size in bits, permissions, D, HOST, the SPA of the entry, and the input page whose
entry it is (R364, R367). -/
structure Leaf where
  base : Nat
  bits : Nat
  r : Bool
  w : Bool
  d : Bool
  host : Bool
  entry : Nat
  page : Nat
  deriving DecidableEq, Repr, Inhabited

/-- A die: its phases (R137, R138), clock, Lichen entries by slot of the region, L2, ATC, nested TLB by partition and guest
page, and walk cache by tag and entry (R369). `atcNo` holds the I/O pages an ATS answer refused the hub (1 reads, 2 writes),
`invSent` counts the Invalidation Completions sent (R377). -/
structure DieRec where
  oph : BitVec 32
  cph : FMap (BitVec 32)
  markers : List (Nat × BitVec 32)
  clock : Nat
  inReset : Bool
  lichenSize : Nat
  lichen : FMap LichenEntry
  l2 : FMap (List L2Line)
  atc : FMap AtcEntry
  atcNo : FMap Nat
  ntlb : FMap (Option Leaf)
  wcache : FMap Nat
  invSent : Nat
  deriving DecidableEq, Repr, Inhabited

/-! ### The hub (files 15 to 18) -/

/-- A record that no parked group keeps, PHASE apart: of a park that ended before it was written, or of the hub's; its
place in the order of R346, and whether FQHELD counts it. -/
structure LateRec where
  held : Bool
  key : Nat
  bytes : List Byte
  deriving DecidableEq, Repr, Inhabited

/-- A fault queue (R344, R349, R350). `late` holds the unwritten records that no parked group keeps. -/
structure FaultQueue where
  base : DWord
  cfg : DWord
  widx : Nat
  ridx : Nat
  held : Nat
  suspended : Bool
  lastId : Nat
  irq : Nat
  late : List LateRec
  deriving DecidableEq, Repr, Inhabited

inductive QState where
  | disabled | run | wait | error
  deriving DecidableEq, Repr, Inhabited

/-- A loop of a running Frond program (R392): first word, last word, runs left. -/
structure FrLoop where
  first : Nat
  last : Nat
  left : Nat
  deriving DecidableEq, Repr, Inhabited

/-- A queue's command-context part (R384 to R386, R390, R399): descriptor, verified program, state, and the interpreter
running its packet. `due` and `lines` are the tick by which the hub reads its write index again and the lines it watches for it
(R388), `wsDue` and `wsLines` the same for the word of a WAITSIG (R396). -/
structure Queue where
  loaded : Bool
  state : QState
  code : Nat
  word : Nat
  ridx : Nat
  pending : Nat
  lseq : Nat
  enabledOnce : Bool
  ring : Nat
  widxa : Nat
  prog : Nat
  stata : Nat
  log2n : Nat
  prio : Nat
  mode : Nat
  words : List Word
  windows : List (Nat × Nat)
  stopReq : Bool
  reloadReq : Bool
  reloadVal : DWord
  -- interpreter
  active : Bool
  fregs : FMap DWord
  staging : FMap DWord
  packet : FMap DWord
  pc : Nat
  loops : List FrLoop
  status : Nat
  -- actions
  bins : FMap Bin
  wsAddr : Nat
  wsMask : DWord
  wsVal : DWord
  wsRel : Nat
  wsDst : Nat
  wsIntr : Bool
  due : Nat
  lines : List Nat
  wsDue : Nat
  wsLines : List Nat
  deriving DecidableEq, Repr, Inhabited

/-- A function: virtual functions 0..255, the physical function 256 (R343, R344, R368, R383, R413, R401). `phOff` is
what the device's phase numbers of each source die are ahead of the package's (R427). `turns` holds one more than the
queue whose turn came last among those of one priority, for clusters and launch actions, and, from 4 on, for packets
(R399, R401). -/
structure FnRec where
  bound : Bool
  leaf : Nat
  loaded : Bool
  budget : Nat
  budgetNext : Nat
  balance : Int
  overUntil : Nat
  demote : Nat
  s1root : DWord
  dlbase : DWord
  dlcfg : DWord
  dlwidx : Nat
  dlridx : Nat
  rlbase : DWord
  rlcfg : DWord
  rlwidx : Nat
  rlridx : Nat
  qtbase : DWord
  qtctl : DWord
  qfault : DWord
  attreq : DWord
  irq : Nat
  tickOff : Int
  phOff : FMap (BitVec 32)
  turns : FMap Nat
  fq : FaultQueue
  deriving DecidableEq, Repr, Inhabited

inductive PartState where
  | unused | stopped | running
  deriving DecidableEq, Repr, Inhabited

/-- A partition (R408, R409) with its descriptor as last accepted. `key` marks its encryption key (R415). -/
structure Part where
  state : PartState
  pair : Bool
  guar : Bool
  maxScope : Nat
  parent : Nat
  cores : Nat
  scrMax : Nat
  lease : Nat
  l2occ : List Nat
  chan : List Nat
  fab : Nat
  period : Nat
  periodNext : Nat
  tbud : Nat
  tbudNext : Nat
  frMax : Nat
  s2root : Nat
  desc : List Byte
  key : Nat
  periodStart : Nat
  deriving DecidableEq, Repr, Inhabited

/-- A frame's entry of the frame-state table (R419): 0 FREE, 1 ASSIGNED, 2 SCRUB, 3 NEVER, and its owner. -/
structure Frame where
  st : BitVec 2
  owner : Nat
  deriving DecidableEq, Repr, Inhabited

/-- An export (R118, R412, R432) by serial number. -/
structure Export where
  live : Bool
  part : Nat
  gpa : Nat
  size : Nat
  handle : DWord
  revoked : Bool
  frozen : Bool
  moved : Bool
  newHandle : DWord
  graceEnd : Nat
  deriving DecidableEq, Repr, Inhabited

/-- An import (R119, R412) by logical device and window offset. -/
structure Import where
  live : Bool
  part : Nat
  woff : Nat
  size : Nat
  ro : Bool
  handle : DWord
  part0 : Nat
  revoked : Bool
  moved : Bool
  deriving DecidableEq, Repr, Inhabited

/-- Ownership of a guest page of a migrating device (R426 to R429). -/
inductive PageOwn where
  | here | clean | absent | owned | frozen | gone | poisoned
  deriving DecidableEq, Repr, Inhabited

/-- What one package sends another during a migration (R426 to R432). -/
inductive ShipItem where
  | fn (v : Nat) (r : FnRec)
  | queue (key : Nat) (q : Queue)
  | launch (id : Nat) (l : Launch)
  | cluster (id : Nat) (c : Cluster)
  | team (id : Nat) (t : Team)
  | group (id : Nat) (g : Group)
  | op (id : Nat) (o : Op)
  | bond (key : Nat) (b : Bond)
  | matrix (team : Nat) (m : Matrix)
  | pages (dirty : List Nat)
  | exports (l : List (Nat × Export))
  | imports (l : List (Nat × Import))
  | handles (l : List (Nat × Nat))
  | tick (halt : Nat)
  | phases (l : List Nat)
  | last
  | page (num : Nat) (bytes : List Host.Cell) (poison : List Nat)
  | atomicResult (tok old : Nat)
  | heldAtomics (l : List FwdAtomic)
  deriving DecidableEq, Repr, Inhabited

/-- Migration states by code (R424). -/
inductive MigState where
  | idle | prepare | halt | ship | resume | pull | done | failed
  deriving DecidableEq, Repr, Inhabited

/-- A migration (R422 to R435): what is known of each guest page, what came from the other package and what was sent to it,
the atomics held at the source and those forwarded from here, the pages asked for, the guest page plus one of each frame
of the arriving device, the items received before the last. -/
structure Migration where
  state : MigState
  code : Nat
  area : DWord
  peer : DWord
  grace : Nat
  cmd : Nat
  cmdAt : Nat
  pages : FMap PageOwn
  inbox : List ShipItem
  outbox : List ShipItem
  heldAtomics : List FwdAtomic
  forwarded : List FwdAtomic
  pulls : List Nat
  home : FMap Nat
  stash : List ShipItem
  deriving DecidableEq, Repr, Inhabited

/-! ### Reset, reliability and ports (file 20) -/

/-- An Orair port (R442 to R444): trained, stopped since a tick, counted as failed, with an engaged spare lane; the
number of the next new flit, of the next flit on the wire and of the next flit to accept; the unacknowledged flits as
(sequence number, channel), oldest first; whether a NAK is owed; the channels its peer has stopped; what it delivered. -/
structure Port where
  trained : Bool
  stopped : Bool
  stopAt : Nat
  failed : Bool
  spare : Bool
  txNew : Nat
  txSeq : Nat
  rxSeq : Nat
  unacked : List (Nat × Nat)
  nak : Bool
  stopBits : BitVec 8
  delivered : List (Nat × List Byte)
  deriving DecidableEq, Repr, Inhabited

structure Ras where
  errBase : DWord
  errCfg : DWord
  errWidx : Nat
  errRidx : Nat
  errHeld : List (List Byte)
  spBusy : Bool
  spResult : Nat
  spKind : Nat
  spUnit : Nat
  pwrCap : Nat
  pwrNow : DWord
  attReq : DWord
  bootSt : Nat
  fabNode : DWord
  events : FMap (List Nat)
  spareUsed : FMap Nat
  svn : Nat
  minSvn : Nat
  revoked : BitVec 4
  measure : Nat
  keyHash : FMap Nat
  hotLimit : Nat
  ur : Nat
  deriving DecidableEq, Repr, Inhabited

/-! ### The machine -/

/-- One turn of one agent: a group issues its next clause header or word; an interpreter runs its next Frond word; a
step of the hardware or the outside world; time passes; the host writes its own memory; the host sets the temperature limit
(R407). -/
inductive Turn where
  | issue (grp : Nat)
  | frond (fn q : Nat)
  | hw (i : Instr)
  | elapse (ticks : Nat)
  | hostWrite (addr : Nat) (bytes : List Byte)
  | heatLimit (degrees : Nat)
  deriving DecidableEq, Repr, Inhabited

/-- A PRI Page Request (R378): the group parked for it, its function, the I/O page, and whether it is marked write. -/
structure PageReq where
  grp : Nat
  fn : Nat
  page : Nat
  write : Bool
  deriving DecidableEq, Repr, Inhabited

/-- The issue in progress (R41): the group, the active mask of this plane issue, the mask of all occupied planes, the
occupied planes as a mask and the plane issued, the word, its offset and index in the clause, the offset of the next
clause; whether the planes' words differ at this position (split), and whether this is the last of its issues. -/
structure Issue where
  grp : Nat
  mask : LaneMask
  planes : Nat
  plane : Nat
  off : Nat
  idx : Nat
  word : DWord
  next : Nat
  split : Bool
  lastPlane : Bool
  deriving DecidableEq, Repr, Inhabited

/-- The machine. `leaseEnd` is E by home die and line (R126), `wrote` marks the lines that stores have reached (R112), `pri` the
Page Requests that await the host (R375, R378). -/
structure State where
  tick : Nat
  agenda : List Turn
  freeCtr : Nat
  iss : Issue
  curFn : Nat
  curQueue : Nat
  nextId : Nat
  -- memories
  mem : Memory
  poison : FMap Bool
  hostMem : FMap (Option Byte)
  flash : Memory
  pend : FMap Pend
  leaseEnd : FMap Nat
  wrote : FMap Bool
  leases : FMap Nat
  sb : FMap SbEntry
  acc : FMap Access
  ops : FMap Op
  -- the package
  groups : FMap Group
  teams : FMap Team
  clusters : FMap Cluster
  launches : FMap Launch
  cores : FMap CoreRec
  dies : FMap DieRec
  bonds : FMap Bond
  tlb : FMap Xlat
  pri : List PageReq
  -- the hub
  fns : FMap FnRec
  queues : FMap Queue
  hfq : FaultQueue
  parts : FMap Part
  frames : FMap Frame
  exports : FMap Export
  imports : FMap Import
  nextSerial : Nat
  pctBase : DWord
  pcarg0 : DWord
  pcarg1 : DWord
  pcarg2 : DWord
  pcBusy : Bool
  pcOp : Nat
  pcPart : Nat
  pcStage : Nat
  pcResult : Nat
  hostPart : DWord
  lichenReg : DWord
  s2sel : DWord
  hs1root : DWord
  usNext : Nat
  mig : Migration
  ras : Ras
  ports : FMap Port
  -- keys and measurements of the root of trust (R415, R438)
  nextKey : Nat
  deriving DecidableEq, Repr, Inhabited

/-- Why the model itself stops. -/
inductive Fault where
  /-- Raised by a step that would need the bytes of a system physical address that holds no memory (a hypervisor table
  or queue placed in a hole, R18). Safe: the hardware's behaviour there is not stated. -/
  | noMemory (spa : Nat)
  deriving DecidableEq, Repr

/-- Why the model refuses an instruction. -/
inductive Refusal where
  /-- Raised by the dispatcher for an instruction without a meaning. Safe: the model stops. -/
  | notModelled (mnemonic : String)
  deriving DecidableEq, Repr

/-- A die after reset: OPH 1 and no completed phases (R137, R138), arithmetic clock 2,500 MHz (R3). -/
def DieRec.reset : DieRec := { (default : DieRec) with oph := 1, clock := 2500 }

/-- The reliability registers after reset (R446, R407): window 10 s, THR 8, power cap 4,000 W, limit 95 degrees. -/
def Ras.reset : Ras := { (default : Ras) with errCfg := 0x0803e800, pwrCap := 4000, hotLimit := 95 }

/-- A partition that is not in use: its policy's maximum scope is sys and its lease 256 ticks (R112, R145,
R436). (DEDUCED, log 143.) -/
def Part.reset : Part := { (default : Part) with maxScope := 3, lease := 256 }

/-- The machine right after reset: no launch has run, every frame is FREE or NEVER (R419), HBM is zero (R436), and every
register holds its reset value; the values the spec does not give are those of the log entries. (DESIGN CHOICE,
log 3; DESIGN CHOICE, log 8; DESIGN CHOICE, log 145.) -/
def State.reset : State :=
  { (default : State) with
    nextId := 1
    dies := [(0, DieRec.reset), (1, DieRec.reset), (2, DieRec.reset), (3, DieRec.reset)]
    parts := (List.range 64).map (fun k => (k, Part.reset))
    nextSerial := 1
    nextKey := 1
    usNext := 1000
    mig := { (default : Migration) with grace := 1000 }
    ras := Ras.reset }

end Sys2Proof.Machine
end

