-- ==== Sys2Proof/Config.lean ====
section
/-!
DEFINITION. The values the specification leaves open, as constants without a body: nothing can evaluate them or prove a
value of them, so a claim that holds of the model holds whatever they are.
-/
namespace Sys2Proof.Config

/-- What an early read or an overwritten outstanding destination holds (R186): by a fresh counter and the place read. (DESIGN CHOICE, log 22.) -/
opaque freeWord : Nat → Nat → Word

/-- The bits the noise source delivers (R264): by a fresh counter and the lane. (DESIGN CHOICE, log 2.) -/
opaque randBits : Nat → Nat → DWord

/-- A choice the hardware makes among several outcomes, taken modulo their number: by a fresh counter (R112, R116, R367,
R370, R406). (DESIGN CHOICE, log 144.) -/
opaque choose : Nat → Nat

/-- A byte of host memory nothing has written (R376): by host address. (DESIGN CHOICE, log 6.) -/
opaque hostByte : Nat → Byte

/-- A byte another package answers a load over Orair with (R119, R379): by a fresh counter and the address. (DESIGN CHOICE, log 128.) -/
opaque remoteByte : Nat → Nat → Byte

/-- The public key that hashes to a fused hash (R436): its two coordinates. (DESIGN CHOICE, log 116.) -/
opaque publicKey : Nat → Nat × Nat

/-- The attestation private key of a firmware measurement (R438). (DESIGN CHOICE, log 116.) -/
opaque attestKey : Nat → Nat

/-- The port and channel that carry the path to a node, as 8 port + channel (R137, R443): by the node. (DESIGN CHOICE, log 127.) -/
opaque route : Nat → Nat

/-- The spares of a kind that a die, stack or core has where R448 gives no number: by the kind. (DESIGN CHOICE, log 122.) -/
opaque spares : Nat → Nat

/-- The form of the package (R1, R2): whether it is a B48-M, on a module. (DESIGN CHOICE, log 159.) -/
opaque isModule : Bool

/-- The nonce of a signature (R438): by a fresh counter. (DESIGN CHOICE, log 116.) -/
opaque attestNonce : Nat → Nat

end Sys2Proof.Config
end

