-- ==== Sys2Proof/Machine/Memory.lean ====
section
/-!
DEFINITION. The places of memory (R16 to R20), bytes and words in memory (R9), which stores an observer sees (R124,
R125), and how a store reaches its home (R126).
-/
namespace Sys2Proof.Machine
open Sys2Proof

/-! ### Bytes and numbers (R9) -/

/-- The number whose little-endian bytes are given. -/
def leNat : List Byte → Nat
  | [] => 0
  | b :: t => b.toNat + 256 * leNat t

/-- The n little-endian bytes of a number. -/
def leBytes : Nat → Nat → List Byte
  | 0, _ => []
  | n + 1, v => BitVec.ofNat 8 v :: leBytes n (v / 256)

/-- The cells of bytes laid down from an address. -/
def cellsAt (a : Nat) (l : List Byte) : List Host.Cell := (List.range l.length).zipWith (fun i b => (a + i, b)) l

/-- The n little-endian bytes of a number laid down from an address. -/
def cellsOf (a n v : Nat) : List Host.Cell := cellsAt a (leBytes n v)

/-- The last value a list of cells gives an address. -/
def lastCell (cells : List Host.Cell) (a : Nat) : Option Byte :=
  cells.foldl (fun acc c => if c.1 = a then some c.2 else acc) none

/-- n bytes of a memory from an address. -/
def Memory.bytes (m : Memory) (a n : Nat) : List Byte := (List.range n).map (fun i => FMap.get m (a + i))
def Memory.nat (m : Memory) (a n : Nat) : Nat := leNat (Memory.bytes m a n)
def Memory.store (m : Memory) (a n v : Nat) : Memory := FMap.setMany m (cellsOf a n v)

/-- Bits hi..lo of a number. -/
def bitsOf (v hi lo : Nat) : Nat := (v / 2 ^ lo) % 2 ^ (hi + 1 - lo)
def bitOf (v i : Nat) : Bool := (v / 2 ^ i) % 2 = 1

/-- Entries between two 32-bit ring indices (R349, R388). -/
def ringDist (w r : Nat) : Nat := (w + 2 ^ 32 - r) % 2 ^ 32

/-! ### Places (R16 to R20, R113) -/

def spaDie (spa : Nat) : Nat := spa / 2 ^ 37
def dieOff (spa : Nat) : Nat := spa % 2 ^ 37
/-- An SPA that names HBM (R18). -/
def spaOk (spa : Nat) : Bool := spa < 2 ^ 39 && dieOff spa < 0x1800000000
/-- The stack of an SPA, 0..7 (R18). -/
def spaStack (spa : Nat) : Nat := 2 * spaDie spa + (if dieOff spa < 0xc00000000 then 0 else 1)
def lineOf (spa : Nat) : Nat := spa / 1024
def sectorOf (spa : Nat) : Nat := spa / 256
def granuleOf (spa : Nat) : Nat := spa / 64
def frameOf (spa : Nat) : Nat := spa / 65536
/-- The offset of an SPA within its stack (R18). -/
def stackOff (spa : Nat) : Nat := if dieOff spa < 0xc00000000 then dieOff spa else dieOff spa - 0xc00000000
/-- The channel of an SPA's line, its sector's pseudo-channel, and the Mica unit of the stack that serves it (R19). -/
def spaChannel (spa : Nat) : Nat :=
  let o := stackOff spa
  Nat.xor (Nat.xor (bitsOf o 14 10) (bitsOf o 19 15)) (bitsOf o 24 20)
def spaPseudo (spa : Nat) : Nat := bitsOf (stackOff spa) 9 9
def spaMica (spa : Nat) : Nat := 2 * spaChannel spa + spaPseudo spa
/-- L2 slice and set of an SPA (R113). -/
def l2Slice (spa : Nat) : Nat := Nat.xor (bitsOf spa 14 10) (bitsOf spa 24 20)
def l2Set (spa : Nat) : Nat := bitsOf spa 22 15

/-- The die of a physical core (R17). -/
def coreDie (core : Nat) : Nat := core / 12
def coreX (core : Nat) : Nat := core % 4
def coreY (core : Nat) : Nat := (core % 12) / 4
/-- The other die of a die's pair (R14). -/
def pairDie (d : Nat) : Nat := if d % 2 = 0 then d + 1 else d - 1

/-! ### Objects of the state -/

def State.grp (s : State) (g : Nat) : Group := FMap.get s.groups g
def State.setGrp (s : State) (g : Nat) (v : Group) : State := { s with groups := FMap.set s.groups g v }
def State.modGrp (s : State) (g : Nat) (f : Group → Group) : State := s.setGrp g (f (s.grp g))
def State.team (s : State) (t : Nat) : Team := FMap.get s.teams t
def State.setTeam (s : State) (t : Nat) (v : Team) : State := { s with teams := FMap.set s.teams t v }
def State.modTeam (s : State) (t : Nat) (f : Team → Team) : State := s.setTeam t (f (s.team t))
def State.cluster (s : State) (c : Nat) : Cluster := FMap.get s.clusters c
def State.setCluster (s : State) (c : Nat) (v : Cluster) : State := { s with clusters := FMap.set s.clusters c v }
def State.modCluster (s : State) (c : Nat) (f : Cluster → Cluster) : State := s.setCluster c (f (s.cluster c))
def State.launch (s : State) (l : Nat) : Launch := FMap.get s.launches l
def State.setLaunch (s : State) (l : Nat) (v : Launch) : State := { s with launches := FMap.set s.launches l v }
def State.modLaunch (s : State) (l : Nat) (f : Launch → Launch) : State := s.setLaunch l (f (s.launch l))
def State.coreRec (s : State) (c : Nat) : CoreRec := FMap.get s.cores c
def State.setCore (s : State) (c : Nat) (v : CoreRec) : State := { s with cores := FMap.set s.cores c v }
def State.modCore (s : State) (c : Nat) (f : CoreRec → CoreRec) : State := s.setCore c (f (s.coreRec c))
def State.die (s : State) (d : Nat) : DieRec := FMap.get s.dies d
def State.setDie (s : State) (d : Nat) (v : DieRec) : State := { s with dies := FMap.set s.dies d v }
def State.modDie (s : State) (d : Nat) (f : DieRec → DieRec) : State := s.setDie d (f (s.die d))
def State.op (s : State) (o : Nat) : Op := FMap.get s.ops o
def State.setOp (s : State) (o : Nat) (v : Op) : State := { s with ops := FMap.set s.ops o v }
def State.modOp (s : State) (o : Nat) (f : Op → Op) : State := s.setOp o (f (s.op o))
def State.fn (s : State) (v : Nat) : FnRec := FMap.get s.fns v
def State.setFn (s : State) (v : Nat) (r : FnRec) : State := { s with fns := FMap.set s.fns v r }
def State.modFn (s : State) (v : Nat) (f : FnRec → FnRec) : State := s.setFn v (f (s.fn v))
def State.part (s : State) (p : Nat) : Part := FMap.get s.parts p
def State.setPart (s : State) (p : Nat) (v : Part) : State := { s with parts := FMap.set s.parts p v }
def State.modPart (s : State) (p : Nat) (f : Part → Part) : State := s.setPart p (f (s.part p))
/-- A queue's key: 64 queues a function. -/
def qKey (fn q : Nat) : Nat := fn * 64 + q
def State.queue (s : State) (fn q : Nat) : Queue := FMap.get s.queues (qKey fn q)
def State.setQueue (s : State) (fn q : Nat) (v : Queue) : State := { s with queues := FMap.set s.queues (qKey fn q) v }
def State.modQueue (s : State) (fn q : Nat) (f : Queue → Queue) : State := s.setQueue fn q (f (s.queue fn q))

/-- The team and the cluster of a group. -/
def State.teamOf (s : State) (g : Nat) : Team := s.team (s.grp g).team
def State.clusterOf (s : State) (g : Nat) : Nat := (s.teamOf g).cluster
def State.launchOf (s : State) (g : Nat) : Nat := (s.cluster (s.clusterOf g)).launch
def State.coreOf (s : State) (g : Nat) : Nat := (s.teamOf g).core

/-- A fresh object number. (DESIGN CHOICE, log 133.) -/
def State.fresh (s : State) : Nat × State := (s.nextId, { s with nextId := s.nextId + 1 })

/-- A free choice among n outcomes. (DESIGN CHOICE, log 144.) -/
def State.pick (s : State) (n : Nat) : Nat × State :=
  (if n = 0 then 0 else Config.choose s.freeCtr % n, { s with freeCtr := s.freeCtr + 1 })

/-! ### Frames (R18, R115, R419) -/

/-- Bytes of each stack of a die that its Lichen region takes, half of the region from the top of each stack
(R115). (DESIGN CHOICE, log 39.) -/
def State.lichenBytes (s : State) (die : Nat) : Nat := (s.die die).lichenSize * 2 ^ 29

/-- Whether a frame is NEVER: a hole or a Lichen region (R18, R115, R419). -/
def State.frameNever (s : State) (f : Nat) : Bool :=
  let spa := f * 65536
  !spaOk spa || (
    let o := dieOff spa % 0xc00000000
    0xc00000000 - s.lichenBytes (spaDie spa) ≤ o)

/-- The state and owner of a frame (R419). -/
def State.frame (s : State) (f : Nat) : Frame :=
  if s.frameNever f then { st := 3, owner := 0 } else FMap.get s.frames f

def State.frameOwned (s : State) (f part : Nat) : Bool :=
  (s.frame f).st = 1 && (s.frame f).owner = part

/-! ### What an observer sees (R124, R125, R127, R133) -/

/-- An observer: a group of a team of a cluster, or (both none) any observer outside every team and cluster. -/
structure Observer where
  team : Option Nat
  cluster : Option Nat
  deriving DecidableEq, Repr

/-- The hub, engines, walks and every other observer outside the teams (R122). -/
def outside : Observer := { team := none, cluster := none }
def State.observer (s : State) (g : Nat) : Observer :=
  { team := some (s.grp g).team, cluster := some (s.clusterOf g) }

/-- Whether a store that reached its home is visible to an observer now (R124); an atomic's write never was in a buffer. -/
def Pend.visible (p : Pend) (tick : Nat) (o : Observer) : Bool :=
  p.v ≤ tick || (!p.atomic && some p.team = o.team) || (p.clusterVis && some p.cluster = o.cluster)

/-- The byte the last of the stores a test selects gives an address, in the order of V and then arrival (R125). -/
def pendByte (pend : FMap Pend) (sel : Pend → Bool) (a : Nat) : Option Byte :=
  (pend.foldl (fun (acc : Nat × Option Byte) p =>
    match lastCell p.2.cells a with
    | none => acc
    | some b => if sel p.2 && acc.1 ≤ p.2.v then (p.2.v, some b) else acc) (0, none)).2

/-- A byte at its home, given which of the stores that arrived count. -/
def State.homeByte (s : State) (sel : Pend → Bool) (a : Nat) : Byte :=
  (pendByte s.pend sel a).getD (FMap.get s.mem a)

/-- The target number by which store-buffer entries name a place. -/
def Place.target : Place → Nat
  | .hbm => 0
  | .host => 1
  | .remote => 2

/-- The newest byte of the store buffers and of stores on their way to a place that an observer sees (R124, R127, R133). -/
def State.bufByte (s : State) (place : Place) (o : Observer) (a : Nat) : Option Byte :=
  let seen (team : Nat) (clusterVis : Bool) : Bool :=
    some team = o.team || (clusterVis && some (s.team team).cluster = o.cluster)
  let sent := s.acc.foldl (fun (acc : Nat × Option Byte) p =>
    if p.2.kind = .store && p.2.place = place && seen p.2.team p.2.clusterVis && acc.1 ≤ p.1 then
      match lastCell p.2.data a with
      | none => acc
      | some b => (p.1, some b)
    else acc) (0, none)
  (s.sb.foldl (fun (acc : Nat × Option Byte) p =>
    if p.2.target = place.target && seen p.2.team p.2.vis && acc.1 ≤ p.1 then
      match lastCell p.2.cells a with
      | none => acc
      | some b => (p.1, some b)
    else acc) sent).2

/-- The byte an observer's load returns now (R124). -/
def State.loadByte (s : State) (o : Observer) (a : Nat) : Byte :=
  (s.bufByte .hbm o a).getD (s.homeByte (fun p => p.visible s.tick o) a)

def State.loadBytes (s : State) (o : Observer) (a n : Nat) : List Byte :=
  (List.range n).map (fun i => s.loadByte o (a + i))

/-- A little-endian number read by the hub, a walk or an engine: an observer outside every team (R122, R366). -/
def State.devNat (s : State) (a n : Nat) : Nat :=
  leNat ((List.range n).map (fun i => s.homeByte (fun p => p.visible s.tick outside) (a + i)))

/-- Whether any of n bytes lies in a poisoned granule (R352). (DEDUCED, log 40.) -/
def State.poisoned (s : State) (a n : Nat) : Bool :=
  (List.range ((a + n - 1) / 64 - a / 64 + 1)).any (fun i => FMap.get s.poison (a / 64 + i))

/-! ### Stores reaching their home (R126) -/

/-- The key of E, the latest end of the leases a die has granted on a line (R126). -/
def leaseEndKey (die line : Nat) : Nat := die * 2 ^ 30 + line

/-- The time from which a store that arrives now at a die is visible: no lease the die granted on its line
outlasts it (R126). (DEDUCED, log 37.) -/
def State.visTime (s : State) (die line : Nat) : Nat := max s.tick (FMap.get s.leaseEnd (leaseEndKey die line))

/-- A store that fences and counters were waiting for has arrived with its V: they wait for V from now on (R130, R131). -/
def State.noteArrival (s : State) (id v : Nat) : State :=
  let groups := s.groups.foldl (fun acc p =>
    let f := p.2.fence
    if f.live && id ∈ f.stores then
      let f := { f with stores := f.stores.filter (· ≠ id), vmax := max f.vmax v }
      FMap.set acc p.1 { p.2 with fence := f }
    else acc) s.groups
  let ops := s.ops.foldl (fun acc p =>
    if id ∈ p.2.waitOn && p.2.kind ≠ .load then
      FMap.set acc p.1 { p.2 with waitOn := p.2.waitOn.filter (· ≠ id), ptr := max p.2.ptr v }
    else acc) s.ops
  { s with groups := groups, ops := ops }

/-- The key under which a monitor watches a line of a place (R49, R388). -/
def watchKey (place : Place) (line : Nat) : Nat := place.target * 2 ^ 80 + line

/-- A store to a line becomes visible at tick v: the monitors that watch the line read again within 1,024 ticks (R49, R388). -/
def State.noteVisible (s : State) (key v : Nat) : State :=
  { s with
    groups := s.groups.map (fun (p : Nat × Group) =>
      if p.2.wait.live && key ∈ p.2.wait.lines then
        (p.1, { p.2 with wait := { p.2.wait with due := min p.2.wait.due (v + 1024) } })
      else p)
    queues := s.queues.map (fun (p : Nat × Queue) =>
      (p.1, { p.2 with
        due := if key ∈ p.2.lines then min p.2.due (v + 1024) else p.2.due
        wsDue := if key ∈ p.2.wsLines then min p.2.wsDue (v + 1024) else p.2.wsDue })) }

/-- The tick by which a monitor of lines, which reads them now, reads them again: within 4,096 ticks, and within 1,024 of the V of
a store that has arrived (R49, R388). -/
def State.readDue (s : State) (lines : List Nat) : Nat :=
  s.pend.foldl (fun d p =>
    if s.tick < p.2.v && p.2.cells.any (fun c => watchKey .hbm (lineOf c.1) ∈ lines) then min d (p.2.v + 1024) else d) (s.tick + 4096)

/-- A store of cells of one line arrives now at its home slice, or at a Modified entry of `homeDie` (R126); it is listed under
a fresh number, so that the stores of a line stand in the order of arrival (R125). `id` is the access it was; `p.v` the tick
before which its V may not lie (R130). -/
def State.arrive (s : State) (id line : Nat) (p : Pend) : State :=
  let v := max p.v (s.visTime p.homeDie line)
  let (k, s) := s.fresh
  (({ s with
    pend := FMap.set s.pend k { p with live := true, v := v, src := id }
    wrote := FMap.set s.wrote line true }).noteArrival id v).noteVisible (watchKey .hbm line) v

/-- Cells that fall in one line. -/
def cellsOfLine (cells : List Host.Cell) (line : Nat) : List Host.Cell := cells.filter (fun c => lineOf c.1 = line)

/-- The lines of cells, each once. -/
def linesOf (cells : List Host.Cell) : List Nat :=
  cells.foldl (fun acc c => if lineOf c.1 ∈ acc then acc else acc ++ [lineOf c.1]) []

/-- A store by the hub sets out for its home: one access a line (R126, R141, R389). `byFn` and `byPart` are one more than the
function and the partition whose translation gave the address, 0 for an address of the hypervisor's. -/
def State.hubStoreFor (s : State) (cells : List Host.Cell) (op irq byFn byPart : Nat) : State :=
  (linesOf cells).foldl (fun s line =>
    let (id, s) := s.fresh
    let a : Access := { (default : Access) with
      live := true, kind := .store, place := .hbm, addr := line * 1024, size := 0
      data := cellsOfLine cells line, op, issued := s.tick, irq, srcDie := 4, homeDie := spaDie (line * 1024), byFn, byPart }
    { s with acc := FMap.set s.acc id a }) s
def State.hubStore (s : State) (cells : List Host.Cell) (op irq : Nat) : State := s.hubStoreFor cells op irq 0 0

/-- The poison marks after a store of cells: whole granules are cleared (R352). -/
def clearPoison (poison : FMap Bool) (cells : List Host.Cell) : FMap Bool :=
  let gs := cells.foldl (fun acc c => if granuleOf c.1 ∈ acc then acc else acc ++ [granuleOf c.1]) []
  gs.foldl (fun acc g =>
    if (List.range 64).all (fun i => (lastCell cells (g * 64 + i)).isSome) then FMap.set acc g false else acc) poison

/-! ### Accesses to other packages (R119, R443, R444) -/

/-- Whether a port takes a new flit of a channel: trained, not stopped, its peer's STOP clear, fewer than 2,048 flits
unacknowledged. -/
def Port.takes (p : Port) (ch : Nat) : Bool := p.trained && !p.stopped && !p.stopBits.getLsbD ch && p.unacked.length < 2048

/-- A flit for another package sets out on its path; none while the port does not take it. An access elsewhere has the
address handle × 2^40 + offset. -/
def State.sendFlit (s : State) (addr : Nat) : Option State :=
  let k := Config.route (addr / 2 ^ 92) % 128
  let p := FMap.get s.ports (k / 8)
  if p.takes (k % 8) then
    let next := (p.txNew + 1) % 4096
    some { s with ports := FMap.set s.ports (k / 8) { p with
      unacked := p.unacked ++ [(p.txNew, k % 8)], txNew := next, txSeq := if p.txSeq = p.txNew then next else p.txSeq } }
  else none

/-- n bytes another package answers with; none while the path is not open. (DESIGN CHOICE, log 128.) -/
def State.remoteRead (s : State) (addr n : Nat) : Option (List Byte) × State :=
  match s.sendFlit addr with
  | none => (none, s)
  | some s => (some ((List.range n).map (fun i => Config.remoteByte s.freeCtr (addr + i))), s)

/-! ### Interrupts of the hub (R349, R386, R446)

A write that signals an interrupt carries its number: 1 + fn a function's fault queue, 300 + fn its queues, 1000 the
hypervisor's fault queue; 0 none. The state counts the interrupts sent. -/

def irqFault (fn : Nat) : Nat := 1 + fn
def irqQueue (fn : Nat) : Nat := 300 + fn
def irqHyp : Nat := 1000

/-- An interrupt is sent. -/
def State.signalIrq (s : State) (n : Nat) : State :=
  if n = 0 then s
  else if n = irqHyp then { s with hfq := { s.hfq with irq := s.hfq.irq + 1 } }
  else if 300 ≤ n then s.modFn (n - 300) (fun r => { r with irq := r.irq + 1 })
  else s.modFn (n - 1) (fun r => { r with fq := { r.fq with irq := r.fq.irq + 1 } })

/-! ### Host memory (R376) -/

/-- A byte of host memory (R376). (DESIGN CHOICE, log 6.) -/
def State.hostByte (s : State) (a : Nat) : Byte := (FMap.get s.hostMem a).getD (Config.hostByte a)
def State.hostBytes (s : State) (a n : Nat) : List Byte := (List.range n).map (fun i => s.hostByte (a + i))
def State.hostStore (s : State) (cells : List Host.Cell) : State :=
  (linesOf cells).foldl (fun s line => s.noteVisible (watchKey .host line) s.tick)
    { s with hostMem := cells.foldl (fun m c => FMap.set m c.1 (some c.2)) s.hostMem }

end Sys2Proof.Machine
end

