-- ==== Sys2Proof/Machine/Cache.lean ====
section
/-!
DEFINITION. The caches of global memory: the L2 of each die (R113, R114, R416, R417), the Lichen region with its directory
(R115, R116), and leases (R112, R126).
-/
namespace Sys2Proof.Machine
open Sys2Proof

/-! ### The L2 (R113, R114, R416, R417) -/

/-- Lines of a leaf in a die's L2. -/
def DieRec.occupancy (d : DieRec) (leaf : Nat) : Nat :=
  d.l2.foldl (fun n p => n + (p.2.filter (fun l => l.leaf = leaf)).length) 0

/-- Whether a leaf is at or above its occupancy limit on a die (R416). -/
def State.atLimit (s : State) (die leaf : Nat) : Bool :=
  ((s.part leaf).l2occ[die]?.getD 0) * 1024 ≤ (s.die die).occupancy leaf

/-- The last element a test selects is removed. -/
def dropLast (p : L2Line → Bool) (l : List L2Line) : List L2Line :=
  let r := l.reverse
  ((r.takeWhile (fun x => !p x)) ++ (r.dropWhile (fun x => !p x)).drop 1).reverse

/-- A set without the victim of a fill by a leaf; the protected end comes first (R417). -/
def State.evict (s : State) (die leaf ways : Nat) (set : List L2Line) : List L2Line :=
  if set.length < ways then set
  else if s.atLimit die leaf && set.any (fun l => l.leaf = leaf) then dropLast (fun l => l.leaf = leaf) set
  else if set.any (fun l => s.atLimit die l.leaf) then dropLast (fun l => s.atLimit die l.leaf) set
  else set.dropLast

/-- The key of an SPA's set in its die's L2. -/
def l2Key (spa : Nat) : Nat := l2Slice spa * 256 + l2Set spa

/-- The sectors of an SPA's line that n bytes from it touch. -/
def sectorBits (spa n : Nat) : BitVec 4 := (List.range 4).foldl (fun b i =>
  if sectorOf spa ≤ lineOf spa * 4 + i && lineOf spa * 4 + i ≤ sectorOf (spa + n - 1) then b ||| (1#4 <<< i) else b) 0

/-- Sectors of a line of a leaf are read or written in its home L2: a hit moves to the protected end, a miss fills (R114,
R417). (DEDUCED, log 136.) -/
def State.l2Sectors (s : State) (spa leaf : Nat) (bits : BitVec 4) (write : Bool) : State :=
  let die := spaDie spa
  let line := lineOf spa
  let dirty : BitVec 4 := if write then bits else 0
  let set := FMap.get (s.die die).l2 (l2Key spa)
  let set := match set.find? (fun l => l.line = line) with
    | some l => { l with valid := l.valid ||| bits, dirty := l.dirty ||| dirty } :: set.filter (fun l => l.line ≠ line)
    | none =>
      let new : L2Line := { live := true, line, valid := bits, dirty, leaf }
      let rest := s.evict die leaf 16 set
      if (s.part leaf).guar then new :: rest else rest ++ [new]
  s.modDie die (fun d => { d with l2 := FMap.set d.l2 (l2Key spa) set })

/-- n bytes of one line are read or written in the line's home L2. -/
def State.l2Touch (s : State) (spa n : Nat) (write : Bool) : State :=
  s.l2Sectors spa (s.frame (frameOf spa)).owner (sectorBits spa n) write

/-- The dirty sectors of n bytes of one line are written back (R114, R121). -/
def State.l2Clean (s : State) (spa n : Nat) : State :=
  s.modDie (spaDie spa) (fun d => { d with l2 := FMap.upd d.l2 (l2Key spa) (fun set => set.map (fun l =>
    if l.line = lineOf spa then { l with dirty := l.dirty &&& ~~~(sectorBits spa n) } else l)) })

/-! ### Lichen (R115, R116) -/

/-- The lines a die's region holds, each with an eight-byte tag in the region. (DESIGN CHOICE, log 147.) -/
def DieRec.lichenSlots (d : DieRec) : Nat := d.lichenSize * 2 ^ 30 / 1032

/-- The SPA of a slot's line: the region's frames are taken alternately from the two stacks (R115). -/
def State.lichenSpa (s : State) (die slot : Nat) : Nat :=
  let frame := slot / 64
  die * 2 ^ 37 + (frame % 2) * 0xc00000000 + (0xc00000000 - s.lichenBytes die) + frame / 2 * 65536 + slot % 64 * 1024

/-- The slot that holds a line. -/
def DieRec.lichenAt (d : DieRec) (line : Nat) : Option (Nat × LichenEntry) :=
  d.lichen.find? (fun p => p.2.line = line && p.2.state ≠ .invalid)

/-- The state of a die's entry of a line. -/
def State.lichenGet (s : State) (die line : Nat) : LichenState :=
  match (s.die die).lichenAt line with
  | some p => p.2.state
  | none => .invalid

/-- An entry is invalidated; the dirty sectors of a Modified one are written to the home first (R116). The home takes over the
end of the leases the entry's die has granted, so that no copy outlives a later store (R126). (DEDUCED, log 37.) -/
def State.lichenDrop (s : State) (die line : Nat) : State :=
  match (s.die die).lichenAt line with
  | none => s
  | some (slot, e) =>
    let ends := FMap.get s.leaseEnd (leaseEndKey die line)
    let s := { s with leaseEnd := FMap.upd s.leaseEnd (leaseEndKey (spaDie (1024 * line)) line) (max ends) }
    let s := s.modDie die (fun d => { d with lichen := FMap.del d.lichen slot })
    if e.state = .modified then s.l2Sectors (1024 * line) (s.frame (frameOf (1024 * line))).owner e.dirty true else s

/-- An access of a die to its copy of a line: the entry takes a state and dirty sectors, in a slot of the region that its
own L2 covers (R114, R115, R117). A new entry takes a slot the hardware chooses; what stood there is dropped. -/
def State.lichenUse (s : State) (die line : Nat) (st : LichenState) (bits : BitVec 4) (write : Bool) : State :=
  let leaf := (s.frame (frameOf (1024 * line))).owner
  let (slot, s) := match (s.die die).lichenAt line with
    | some (slot, _) => (slot, s)
    | none =>
      let (slot, s) := s.pick (s.die die).lichenSlots
      let old := FMap.get (s.die die).lichen slot
      (slot, if old.state = LichenState.invalid then s else s.lichenDrop die old.line)
  let s := s.modDie die (fun d => { d with lichen := FMap.upd d.lichen slot (fun e => {
    state := st, line, dirty := (if e.line = line then e.dirty else 0) ||| (if write then bits else 0) }) })
  s.l2Sectors (s.lichenSpa die slot) leaf bits write

/-- Modified entries of a line on dies other than `die` are recalled before an access performs at the home (R116); a number
above 3 stands for the hub. -/
def State.recall (s : State) (die line : Nat) : State :=
  (List.range 4).foldl (fun s d => if d ≠ die && s.lichenGet d line = .modified then s.lichenDrop d line else s) s

/-- A store that reaches the home invalidates every Shared entry (R116). -/
def State.unshare (s : State) (line : Nat) : State :=
  (List.range 4).foldl (fun s d => if s.lichenGet d line = .shared then s.lichenDrop d line else s) s

/-- Whether an access may use its die's Lichen region: one of a pair-mode device, outside the peer window, to a line homed on
the other die (R21, R115, R117). -/
def State.usesLichen (s : State) (a : Access) : Bool :=
  a.dev = 2 && a.srcDie < 4 && a.homeDie = pairDie a.srcDie && (s.die a.srcDie).lichenSize ≠ 0

/-! ### Leases (R112, R126) -/

def leaseKey (core sector : Nat) : Nat := core * 2 ^ 32 + sector

/-- Whether a core holds a live copy of a sector. -/
def State.leased (s : State) (core sector : Nat) : Bool := s.tick < FMap.get s.leases (leaseKey core sector)

/-- Whether a store to a line is pending. -/
def State.pendingLine (s : State) (line : Nat) : Bool :=
  s.pend.any (fun p => s.tick < p.2.v && p.2.cells.any (fun c => lineOf c.1 = line))

/-- Whether some narrow hold covers a line. -/
def State.heldLine (s : State) (line : Nat) : Bool := s.sb.any (fun p => p.2.hold ≠ 0 && p.2.line = line && p.2.target = 0)

/-- A lease for a fill from a slice of a die (R112): the partition's length, or, on a line that stores have reached, a shorter
one of at least 16 ticks; none while a store is pending or a hold stands on the line (R126, R133). (DEDUCED, log 36.) -/
def State.grantLease (s : State) (core part die spa : Nat) : State :=
  let line := lineOf spa
  if s.pendingLine line || s.heldLine line then s
  else
    let full := (s.part part).lease
    let (k, s) := if FMap.get s.wrote line then s.pick (full - 15) else (0, s)
    let stop := s.tick + (full - k)
    { s with
      leases := FMap.set s.leases (leaseKey core (sectorOf spa)) stop
      leaseEnd := FMap.upd s.leaseEnd (leaseEndKey die line) (max stop) }

end Sys2Proof.Machine
end

