-- ==== Sys2Proof/Machine/Hold.lean ====
section
/-!
DEFINITION. Phases (R137 to R139), entries leaving the store buffer, narrow holds and their forcing (R132 to R136), and the
reads of the hub and of engines, which force holds and recall Lichen entries (R116, R134).
-/
namespace Sys2Proof.Machine
open Sys2Proof

/-! ### Phases (R137 to R139) -/

/-- Signed comparison of phase numbers (R138). -/
def phaseLe (a b : Nat) : Bool := 0 ≤ (BitVec.ofNat 32 b - BitVec.ofNat 32 a).toInt

/-- A die closes its phase: OPH moves on, markers go to the other dies (R138). It answers the phase closed. -/
def State.closePhase (s : State) (die : Nat) : BitVec 32 × State :=
  let p := (s.die die).oph
  let s := s.modDie die (fun d => { d with oph := p + 1 })
  (p, ((List.range 4).filter (· ≠ die)).foldl (fun s h => s.modDie h (fun d => { d with markers := d.markers ++ [(die, p)] })) s)

/-- Whether every other die has completed a phase of a die (R139). -/
def State.phaseAtAll (s : State) (die p : Nat) : Bool :=
  ((List.range 4).filter (· ≠ die)).all (fun h => phaseLe p (FMap.get (s.die h).cph die).toNat)

/-! ### Entries leave (R128, R136, R137) -/

/-- Whether an entry's line is homed on another die of the package. -/
def SbEntry.away (e : SbEntry) : Bool := e.target = 0 && spaDie (e.line * 1024) ≠ coreDie e.core

/-- One buffer entry leaves for its home, keeping its number; its hold ends. It carries the die's phase, and its place on the
path, to another die (R128, R136, R137). -/
def State.sendEntry (s : State) (id : Nat) (forced : Bool) : State :=
  let e := FMap.get s.sb id
  let die := coreDie e.core
  let place : Place := match e.target with | 0 => .hbm | 1 => .host | _ => .remote
  let (seq, s) := if e.away then s.fresh else (0, s)
  let a : Access := { (default : Access) with
    live := true, kind := .store, place, team := e.team, core := e.core, addr := e.line * 1024
    data := e.cells, issued := e.issued, srcDie := die, homeDie := spaDie (e.line * 1024), phase := (s.die die).oph.toNat
    clusterVis := e.vis, forced, sb := id, members := e.grps, rel := e.release, held := e.hold ≠ 0
    seq, after := e.after, dev := e.dev, byFn := e.byFn, byPart := e.byPart, io := e.io }
  { s with sb := FMap.del s.sb id, acc := FMap.set s.acc id a }

/-- The releases of a team whose held entries, among those a test selects, leave for another die. -/
def State.heldAway (s : State) (t : Nat) (sel : SbEntry → Bool) : List Nat :=
  (s.sb.filter (fun p => p.2.team = t && sel p.2 && p.2.hold ≠ 0 && p.2.away)).map (fun p => p.2.release)

/-- The phase closed over some releases of a team is noted: its later stores wait for it (R135). -/
def State.notePhase (s : State) (t : Nat) (rels : List Nat) (p : BitVec 32) : State :=
  s.modTeam t (fun tm => { tm with pubs := tm.pubs ++ rels.map (fun r => (r, p.toNat)) })

/-- The entries of a team that a test selects leave. -/
def State.sendEntries (s : State) (t : Nat) (sel : SbEntry → Bool) (forced : Bool) : State :=
  (s.sb.filter (fun p => p.2.team = t && sel p.2)).foldl (fun s p => s.sendEntry p.1 forced) s

/-- The entries of a team that a test selects leave; over held entries that leave for another die the phase closes, so that
the team's later stores can wait for their publication at pkg scope (R135). (DEDUCED, log 148.) -/
def State.publishEntries (s : State) (t : Nat) (sel : SbEntry → Bool) (forced : Bool) : State :=
  let rels := s.heldAway t sel
  let s := s.sendEntries t sel forced
  if rels = [] then s
  else
    let (p, s) := s.closePhase (coreDie (s.team t).core)
    s.notePhase t rels p

/-- Every entry of a team leaves for its home (R31, R136). -/
def State.publishTeam (s : State) (t : Nat) : State := s.publishEntries t (fun _ => true) false

/-! ### Narrow holds and forcing (R132 to R136) -/

/-- Whether a hold at a level of a team keeps an observer out: team holds keep out every other team, cluster holds every
observer outside the cluster, and atomics of other teams (R132 to R134). -/
def State.outsideHold (s : State) (team level : Nat) (o : Observer) (atomic : Bool) : Bool :=
  some team ≠ o.team && (level = 1 || (level = 2 && (atomic || some (s.team team).cluster ≠ o.cluster)))

/-- The teams whose holds on a line keep an observer out. -/
def State.holders (s : State) (line : Nat) (o : Observer) (atomic : Bool) : List Nat :=
  s.sb.foldl (fun acc p =>
    if p.2.line = line && p.2.target = 0 && p.2.hold ≠ 0 && s.outsideHold p.2.team p.2.hold o atomic && p.2.team ∉ acc then
      acc ++ [p.2.team]
    else acc) []

/-- Whether a team's forced publication is complete: every forced store has its V at its home, is sent to the host and
acknowledged by other packages, and its phases are complete on every other die (R134, R139, R143). -/
def State.forcingDone (s : State) (t : Nat) : Bool :=
  s.acc.all (fun p => !(p.2.forced && p.2.team = t)) && s.pend.all (fun p => !(p.2.forced && p.2.team = t && s.tick < p.2.v)) &&
  (s.team t).pubs.all (fun q => s.phaseAtAll (coreDie (s.team t).core) q.2)

/-- A forced publication: every entry of the team up to its last release leaves at sys scope, and those on their way count with
them; the lines registered for them stay closed to outside accesses until it is complete (R134). (DEDUCED, log 148.) -/
def State.forceTeam (s : State) (t : Nat) : State :=
  let upTo (e : SbEntry) : Bool := e.release ≤ (s.team t).release
  let es := s.sb.filter (fun p => p.2.team = t && upTo p.2)
  let lines := (es.filter (fun p => p.2.hold ≠ 0 && p.2.target = 0)).map (fun p => (p.2.line, p.2.hold))
  let rels := (es.filter (fun p => p.2.away)).map (fun p => p.2.release)
  let kept := if s.forcingDone t then [] else (s.team t).forceLines
  let s := { s with
    acc := s.acc.map (fun (p : Nat × Access) => (p.1, { p.2 with
      forced := p.2.forced || (p.2.kind = AccKind.store && p.2.team = t && p.2.rel ≤ (s.team t).release) }))
    pend := s.pend.map (fun (p : Nat × Pend) => (p.1, { p.2 with
      forced := p.2.forced || (p.2.team = t && !p.2.atomic && p.2.rel ≤ (s.team t).release && s.tick < p.2.v) })) }
  let s := (s.sendEntries t upTo true).modTeam t (fun tm => { tm with forceLines := kept ++ lines })
  if rels = [] then s
  else
    let (p, s) := s.closePhase (coreDie (s.team t).core)
    s.notePhase t rels p

/-- Whether a forced publication that covers a line is under way against an observer (R134). -/
def State.forcing (s : State) (line : Nat) (o : Observer) (atomic : Bool) : Bool :=
  s.teams.any (fun p => p.2.forceLines.any (fun q => q.1 = line && s.outsideHold p.1 q.2 o atomic) && !s.forcingDone p.1)

/-- An outside access to a line: ready when no hold keeps it out and no forcing is under way; otherwise the holders are
made to publish (R134). -/
def State.forceLine (s : State) (line : Nat) (o : Observer) (atomic : Bool) : Bool × State :=
  match s.holders line o atomic with
  | [] => (!s.forcing line o atomic, s)
  | ts => (false, ts.foldl (fun s t => s.forceTeam t) s)

/-! ### Reads of the hub and of engines (R116, R122, R134, R389) -/

/-- The lines of n bytes from an address. -/
def spanLines (a n : Nat) : List Nat := (List.range ((a + n - 1) / 1024 - a / 1024 + 1)).map (a / 1024 + ·)

/-- The bytes of n from an address that fall in a line: where they start and how many. -/
def spanIn (a n line : Nat) : Nat × Nat :=
  let lo := max a (1024 * line)
  (lo, min (a + n) (1024 * line + 1024) - lo)

/-- A read of n bytes by the hub (a die above 3) or by an engine of a die: nothing while a hold is being forced; else Modified
entries of other dies are recalled and the home L2 reads the sectors (R114, R116, R134). -/
def State.homeRead (s : State) (die a n : Nat) : Option (List Byte) × State :=
  let (ok, s) := (spanLines a n).foldl (fun (acc : Bool × State) line =>
    let (r, s) := acc.2.forceLine line outside false
    (acc.1 && r, s)) (true, s)
  if ok then
    (some (s.loadBytes outside a n), (spanLines a n).foldl (fun s line =>
      (s.recall die line).l2Touch (spanIn a n line).1 (spanIn a n line).2 false) s)
  else (none, s)

def State.hubRead (s : State) (a n : Nat) : Option (List Byte) × State := s.homeRead 4 a n

end Sys2Proof.Machine
end

