-- ==== Sys2Proof/Machine/Translate.lean ====
section
/-!
DEFINITION. Address translation (R363 to R382): the frame-state table, the walks of the two stages, the translation
caches, the peer window, host pages, dirty tracking.
-/
namespace Sys2Proof.Machine
open Sys2Proof

/-- Why a translation fails: class 13 or 14 (or 18 for a poisoned entry), level, guest PA of a stage-2 failure, and
whether that is the page's own and no table's (R365, R373). -/
structure TrErr where
  cls : Nat
  level : Nat
  gpa : Nat
  stage2 : Bool
  final : Bool
  deriving DecidableEq, Repr

/-! ### Walks (R363 to R367) -/

/-- The low input bit and the index width of a level (R363). -/
def levelShift : Nat → Nat
  | 0 => 55
  | 1 => 42
  | 2 => 29
  | _ => 16
def levelBits : Nat → Nat
  | 0 => 2
  | _ => 13
def levelIndex (level a : Nat) : Nat := (a / 2 ^ levelShift level) % 2 ^ levelBits level

/-- Rules 1 and 2 of R365: valid, and no nonzero bit that is res0 for this kind of entry (R364, R367). -/
def entryOk (stage2 : Bool) (level e : Nat) : Bool :=
  bitOf e 0 &&
  bitsOf e 56 52 = 0 && bitsOf e 15 9 = 0 && bitsOf e 6 4 = 0 &&
  (if bitOf e 1 then
    level ≠ 3 && !bitOf e 63 && !bitOf e 8 && !bitOf e 7 && !bitOf e 3 && !bitOf e 2
  else
    2 ≤ level && !(stage2 && bitOf e 63) && !(level = 2 && bitOf e 8) && !(level = 2 && bitsOf e 28 16 ≠ 0))

def entryAddr (e : Nat) : Nat := bitsOf e 51 16 * 65536

/-- Whether the 32 entries of a CONT run are one page: all leaves with CONT, consecutive from an aligned base, equal
otherwise (R367). `tab` gives entry k of the run. -/
def contRun (tab : Nat → Nat) : Bool :=
  let e0 := tab 0
  entryAddr e0 % 2 ^ 21 = 0 &&
  (List.range 32).all (fun k => bitOf (tab k) 8 && tab k = e0 + k * 65536)

/-- What a walk leaves in the caches: an entry it read, by the tag of its tree (a function, or 512 and a partition), and a
guest page with its stage-2 leaf (R369). -/
inductive WalkStep where
  | entry (tag spa val : Nat)
  | nested (part page : Nat) (leaf : Leaf)
  deriving DecidableEq, Repr

/-- The fields of a leaf entry over a base. -/
def leafFields (e base bits entry page : Nat) : Leaf :=
  { base, bits, r := bitOf e 2, w := bitOf e 3, d := bitOf e 7, host := bitOf e 63, entry, page }

/-- The leaf that an entry of level 3 at `entry` gives an address (R367): a run of one page has 21 bits; over a broken run whose
first entry is a CONT leaf, the translation that entry implies may serve instead of the own entry; none where the own one
is no leaf. -/
def leafOf3 (stage2 own : Bool) (rd : Nat → Nat) (entry e a : Nat) : Option Leaf :=
  let first := entry - entry % 256
  let k := (entry % 256) / 8
  let e0 := rd first
  let leads : Bool := entryOk stage2 3 e0 && bitOf e0 8
  if leads && contRun (fun j => rd (first + 8 * j)) then some (leafFields e (entryAddr e0) 21 entry (a - a % 65536))
  else if leads && !own then some (leafFields e0 (entryAddr e0 + k * 65536) 16 first (a - a % 2 ^ 21))
  else if entryOk stage2 3 e then some (leafFields e (entryAddr e) 16 entry (a - a % 65536))
  else none

/-- One walk of a stage: `loc` places a table address in system memory, `rd` reads an entry, `bad` marks poison (R365,
R366). Level 3 is the last. -/
def walkLevels (stage2 own : Bool) (tag : Nat) (rd : Nat → Nat) (bad : Nat → Bool)
    (loc : Nat → Except TrErr Nat × List WalkStep) (a : Nat) (err : Nat → Nat → TrErr) :
    Nat → Nat → Nat → Except TrErr (Leaf × Nat) × List WalkStep
  | 0, level, _ => (.error (err 13 level), [])
  | fuel + 1, level, table =>
    match loc (table + 8 * levelIndex level a) with
    | (.error e, l) => (.error e, l)
    | (.ok entry, l) =>
      if bad entry then (.error (err 18 level), l)
      else
        let e := rd entry
        let l := l ++ [.entry tag entry e]
        if level = 3 then
          match leafOf3 stage2 own rd entry e a with
          | some leaf => (.ok (leaf, 3), l)
          | none => (.error (err 13 3), l)
        else if !entryOk stage2 level e then (.error (err 13 level), l)
        else if bitOf e 1 then
          let (r, l') := walkLevels stage2 own tag rd bad loc a err fuel (level + 1) (entryAddr e)
          (r, l ++ l')
        else (.ok (leafFields e (entryAddr e) 29 entry (a - a % 2 ^ 29), level), l)

/-- An entry as memory holds it: a relaxed load at its home slice (R366). -/
def State.readEntry (s : State) (spa : Nat) : Nat := s.devNat spa 8
def State.entryPoison (s : State) (spa : Nat) : Bool := s.poisoned spa 8

/-- The free choice among the two readings of a broken CONT run (R367). -/
def State.ownEntry (s : State) : Bool := Config.choose s.freeCtr % 2 = 0

/-- The key of an entry in a walk cache, by the tag of its tree. -/
def wcacheKey (tag spa : Nat) : Nat := tag * 2 ^ 36 + spa / 8

/-- An entry as a walk of a die reads it: what its walk cache still holds, which a store since may have changed, or memory
(R369, R370). -/
def State.cachedEntry (s : State) (die tag spa : Nat) : Nat :=
  let v := s.readEntry spa
  let c := FMap.get (s.die die).wcache (wcacheKey tag spa)
  if c = 0 || c = v + 1 then v else if Config.choose (s.freeCtr + 2 ^ 40 * (spa + 1)) % 2 = 0 then c - 1 else v

/-- The tag of a partition's stage-2 tree. -/
def s2Tag (part : Nat) : Nat := 512 + part

/-- The stage-2 leaf of a guest PA, with its level, as the tables give it. -/
def State.leaf2 (s : State) (die part gpa : Nat) : Except TrErr (Leaf × Nat) × List WalkStep :=
  let err (c level : Nat) : TrErr :=
    if c = 18 then { cls := 18, level, gpa := 0, stage2 := false, final := false } else { cls := 14, level, gpa, stage2 := true, final := false }
  walkLevels true s.ownEntry (s2Tag part) (s.cachedEntry die (s2Tag part)) s.entryPoison (fun t => (.ok t, [])) gpa err 4 0 (s.part part).s2root

/-- The cell of a nested TLB. -/
def ntlbKey (part page : Nat) : Nat := part * 2 ^ 41 + page

/-- The stage-2 walk of a partition for a guest PA on a die (R363, R365): the nested TLB's leaf, which may have changed since, or
the tables'; the frame used must be assigned to the partition (R370). -/
def State.walk2 (s : State) (die part gpa : Nat) (write : Bool) : Except TrErr Leaf × List WalkStep :=
  let (r, l) := s.leaf2 die part gpa
  let old : Bool := Config.choose (s.freeCtr + 2 ^ 90 * (gpa / 65536 + 1)) % 2 = 0
  let r := match FMap.get (s.die die).ntlb (ntlbKey part (gpa / 65536)) with
    | none => r
    | some n =>
      match r with
      | .ok (m, level) => if m = n then .ok (m, level) else if old then .ok (n, if n.bits = 29 then 2 else 3) else .ok (m, level)
      | .error e => if old then .ok (n, if n.bits = 29 then 2 else 3) else .error e
  match r with
  | .error e => (.error e, l)
  | .ok (m, level) =>
    let err : TrErr := { cls := 14, level, gpa, stage2 := true, final := false }
    let spa := m.base + gpa % 2 ^ m.bits
    if (if write then m.w else m.r) && spa < 2 ^ 39 && s.frameOwned (frameOf spa) part then
      (.ok m, l ++ [.nested part (gpa / 65536) m])
    else (.error err, l)

/-- The stage-1 root of a function: its S1ROOT, or HS1ROOT for the physical function (R368, R414). -/
def State.s1rootOf (s : State) (fn : Nat) : DWord := if fn = 256 then s.hs1root else (s.fn fn).s1root

/-- Whether this hub is the destination of a migration whose device runs here (R424). -/
def State.arriving (s : State) : Bool := s.mig.peer.getLsbD 24 && s.mig.state = .pull

/-- The guest page of the arriving device that a system address belongs to, while the source still has it (R428). -/
def State.absentAt (s : State) (spa : Nat) : Option Nat :=
  let h := FMap.get s.mig.home (frameOf spa)
  if s.arriving && h ≠ 0 && FMap.get s.mig.pages (h - 1) = .absent then some (h - 1) else none

/-- What a walk that needs an absent page comes to: class 0, with the page to pull. -/
def absentErr (page : Nat) : TrErr := { cls := 0, level := 0, gpa := page, stage2 := false, final := false }

/-- The translation of a guest VA by a walk on a die (R363 to R367, R376), and what the walk leaves in the caches: stage 1, whose
tables and output go through stage 2. A HOST leaf ends at its I/O address. A die above 3 has no caches. -/
def State.walkOn (s : State) (die fn part va : Nat) (write : Bool) : Except TrErr Xlat × List WalkStep :=
  let root := s.s1rootOf fn
  let err (c level : Nat) : TrErr := { cls := c, level, gpa := 0, stage2 := false, final := false }
  if !root.getLsbD 0 then (.error (err 13 0), [])
  else
    let loc (g : Nat) : Except TrErr Nat × List WalkStep :=
      match s.walk2 die part g false with
      | (.error e, l) => (.error e, l)
      | (.ok m, l) =>
        let spa := m.base + g % 2 ^ m.bits
        match s.absentAt spa with
        | some p => (.error (absentErr p), l)
        | none => (.ok spa, l)
    match walkLevels false s.ownEntry fn (s.cachedEntry die fn) s.entryPoison loc va err 4 0 (entryAddr root.toNat) with
    | (.error e, l) => (.error e, l)
    | (.ok (l1, level), l) =>
      if !(if write then l1.w else l1.r) then (.error (err 13 level), l)
      else
        let gpa := l1.base + va % 2 ^ l1.bits
        if l1.host then
          (.ok { (default : Xlat) with
            live := true, host := true, out := l1.base, pbits := l1.bits, r := l1.r, w := l1.w, d1 := l1.d, d2 := true
            e1 := l1.entry, gpa := gpa - gpa % 2 ^ l1.bits, gbits := l1.bits, part }, l)
        else
          match s.walk2 die part gpa write with
          | (.error e, l') => (.error { e with final := e.stage2 }, l ++ l')
          | (.ok l2, l') =>
            let spa := l2.base + gpa % 2 ^ l2.bits
            let bits := min l1.bits l2.bits
            (.ok { (default : Xlat) with
              live := true, host := false, out := spa - spa % 2 ^ bits, pbits := bits
              r := l1.r && l2.r, w := l1.w && l2.w, d1 := l1.d, d2 := l2.d, e1 := l1.entry, e2 := l2.entry
              gpa := gpa - gpa % 2 ^ l2.bits, gbits := l2.bits, part, dgpa := l2.page }, l ++ l')

/-- The translation of a guest VA as the tables give it now. -/
def State.walk (s : State) (fn part va : Nat) (write : Bool) : Except TrErr Xlat := (s.walkOn 4 fn part va write).1

/-! ### Translation caches (R369, R370) -/

/-- A table of at most `cap` cells takes one more: where it is full, the cell at `victim` leaves it. -/
def FMap.capSet {α : Type} [Inhabited α] [DecidableEq α] (m : FMap α) (cap victim k : Nat) (v : α) : FMap α :=
  if FMap.get m k ≠ default || m.length < cap then FMap.set m k v
  else FMap.set (FMap.del m (((FMap.keys m)[victim % m.length]?).getD 0)) k v

/-- A victim the hardware chooses. -/
def State.victim (s : State) : Nat := Config.choose (s.freeCtr + 2 ^ 140)

/-- The cell of a TLB: `place` is a core, 48 + die for the die's L2 TLB, or 52 for the hub; one cell a 64 KiB
page of a function. -/
def tlbKey (place fn page : Nat) : Nat := (place * 512 + fn) * 2 ^ 41 + page
def hubPlace : Nat := 52

/-- Entries a TLB holds (R369). -/
def tlbCap (place : Nat) : Nat := if place < 48 then 512 else 16384

/-- A translation enters a TLB; a full one drops an entry the hardware chooses (R369). -/
def State.tlbPut (s : State) (place fn page : Nat) (x : Xlat) : State :=
  let mine := s.tlb.filter (fun p => p.1 / 2 ^ 50 = place)
  let tlb := if mine.length < tlbCap place || (FMap.get s.tlb (tlbKey place fn page)).live then s.tlb
    else FMap.del s.tlb (((FMap.keys mine)[s.victim % mine.length]?).getD 0)
  { s with tlb := FMap.set tlb (tlbKey place fn page) x }

def State.tlbGet (s : State) (core fn page : Nat) : Xlat :=
  let x := FMap.get s.tlb (tlbKey core fn page)
  if x.live then x else FMap.get s.tlb (tlbKey (48 + coreDie core) fn page)

/-- What a walk on a die found enters its walk cache and nested TLB, and its entry reads the home L2s; no cache takes an
entry with V = 0 (R114, R369, R370). -/
def State.walkFill (s : State) (die : Nat) (l : List WalkStep) : State :=
  l.foldl (fun s w =>
    match w with
    | .entry tag spa val =>
      let s := s.l2Touch spa 8 false
      if bitOf val 0 then s.modDie die (fun d => { d with wcache := FMap.set d.wcache (wcacheKey tag spa) (val + 1) }) else s
    | .nested part page leaf =>
      s.modDie die (fun d => { d with ntlb := FMap.capSet d.ntlb 8192 s.victim (ntlbKey part page) (some leaf) })) s

/-- A walk's result fills the L1 and L2 TLB (R369). -/
def State.tlbFill (s : State) (core fn page : Nat) (x : Xlat) : State :=
  (s.tlbPut core fn page x).tlbPut (48 + coreDie core) fn page x

/-- Removes the cached translations a test selects, by function, page and translation (R360, R421). -/
def State.tlbDrop (s : State) (sel : Nat → Nat → Xlat → Bool) : State :=
  { s with tlb := s.tlb.filter (fun p => !sel ((p.1 / 2 ^ 41) % 512) (p.1 % 2 ^ 41) p.2) }

/-- Removes what the walk caches and nested TLBs of every die hold, by tag and by partition and guest page (R360). -/
def State.walkDrop (s : State) (tags : Nat → Bool) (pages : Nat → Nat → Bool) : State :=
  (List.range 4).foldl (fun s d => s.modDie d (fun r => { r with
    wcache := r.wcache.filter (fun p => !tags (p.1 / 2 ^ 36)), ntlb := r.ntlb.filter (fun p => !pages (p.1 / 2 ^ 41) (p.1 % 2 ^ 41)) })) s

/-! ### Where an access goes -/

/-- The peer window (R104): 1 TiB at the top of the guest virtual space. -/
def windowBase : Nat := 0x1ffff0000000000
def inWindow (va : Nat) : Bool := windowBase ≤ va

/-- The place an address of a lane names once translated (R117): an SPA or a host address with the translation that gave it
(for a host address, `gpa` is its I/O page), an address of another package. -/
inductive Target where
  | hbm (spa : Nat) (x : Xlat)
  | host (hpa : Nat) (x : Xlat)
  | remote (handle off : Nat)
  deriving DecidableEq, Repr, Inhabited

/-- What translating one access gives: its place; a fault with class, level, reported address, guest PA, stage; a wait
for a walk of a page, for an ATS answer, or for a pulled page; or a refusal by the host, after which the I/O
page is asked for (R378). -/
inductive Reach where
  | at (t : Target)
  | fault (cls level addr gpa : Nat) (stage2 : Bool)
  | walk (page : Nat)
  | ats (page : Nat)
  | pull (page : Nat)
  | page (io : Nat)
  deriving DecidableEq, Repr, Inhabited

/-- The import that covers a window offset for a partition (R119, R379). -/
def State.importAt (s : State) (part woff : Nat) : Option Import :=
  (s.imports.find? (fun p => p.2.live && p.2.part = part && p.2.woff ≤ woff && woff < p.2.woff + p.2.size)).map (·.2)

/-- The handle's fields (R118). -/
def handleNode (h : DWord) : Nat := bitsOf h.toNat 63 52
def handleSerial (h : DWord) : Nat := bitsOf h.toNat 47 24

/-- The die whose ATC, nested TLB and walk cache the hub's own walks use. (DESIGN CHOICE, log 48.) -/
def hubDie : Nat := 0

/-- The page that a hold without a pull names: accesses to a frozen export wait (R431). -/
def noPage : Nat := 2 ^ 60

/-- An access in the peer window (R119, R379): through the import, the export and the exporter's stage 2; while the exporter
moves they wait, and are then forwarded for the grace window (R431, R432). -/
def State.reachWindow (s : State) (part va : Nat) (write : Bool) : Reach :=
  let woff := va - windowBase
  let pf : Reach := .fault 16 0xff woff 0 false
  match s.importAt part woff with
  | none => pf
  | some im =>
    if im.moved then .fault 17 0xff woff 0 false
    else if im.revoked || (write && im.ro) then pf
    else
      let off := im.part0 + (woff - im.woff)
      if handleNode im.handle ≠ (s.ras.fabNode.toNat % 4096) then .at (.remote im.handle.toNat off)
      else
        let ex := FMap.get s.exports (handleSerial im.handle)
        if ex.moved then
          if s.tick < ex.graceEnd then .at (.remote ex.newHandle.toNat off) else .fault 17 0xff woff 0 false
        else if !ex.live || ex.revoked then pf
        else if ex.frozen then .pull noPage
        else
          match (s.walk2 hubDie ex.part (ex.gpa + off) write).1 with
          | .error _ => pf
          | .ok l =>
            let g := ex.gpa + off
            let spa := l.base + g % 2 ^ l.bits
            .at (.hbm spa { (default : Xlat) with
              live := true, out := spa - spa % 2 ^ l.bits, pbits := l.bits, r := l.r, w := l.w, d1 := true, d2 := l.d
              e2 := l.entry, gpa := g - g % 2 ^ l.bits, gbits := l.bits, part := ex.part, dgpa := l.page, window := true })

/-- The place a translation gives an address: device memory, or host memory through the ATC (R376, R377). `refused` are
the I/O pages whose ATS answer refused the access. -/
def State.placeOf (s : State) (core fn va : Nat) (write : Bool) (x : Xlat) (refused : List Nat) : Reach :=
  if x.host then
    let io := x.out + va % 2 ^ x.pbits
    let page := io / 4096
    if page ∈ refused then .page page
    else
      let e := FMap.get (s.die (coreDie core)).atc (fn * 2 ^ 52 + page)
      if e.live && (if write then e.w else e.r) then .at (.host (e.hpa * 4096 + io % 4096) { x with gpa := page * 4096 }) else .ats page
  else .at (.hbm (x.out + va % 2 ^ x.pbits) x)

/-- What the normal path gives before the place of the page is known: a translation, a fault, or a walk to wait for. -/
inductive Xres where
  | ok (x : Xlat)
  | fault (cls level gpa : Nat) (stage2 : Bool)
  | walk (page : Nat)
  deriving DecidableEq, Repr

/-- The partition whose stage 2 a group's accesses go through. -/
def State.partOf (s : State) (g : Nat) : Nat := (s.launch (s.launchOf g)).part

/-- The translation of a page on the normal path (R369, R370): what the walk that the word was held for has found; a cached
one, which may be used although the tables have changed; else a walk, which holds the word. (DESIGN CHOICE, log 38.) -/
def State.xlatVa (s : State) (g va : Nat) (write : Bool) : Xres :=
  let gr := s.grp g
  let page := va / 65536
  let x := s.tlbGet (s.coreOf g) gr.vf page
  let permits : Bool := x.live && (if write then x.w else x.r)
  match gr.walked.find? (fun n => n.page = page && n.write = write) with
  | some n =>
    if n.cls ≠ 0 then .fault n.cls n.level (if n.final then n.gpa + va % 65536 else n.gpa) n.stage2
    else if permits then .ok x else .walk page
  | none =>
    if !permits then .walk page
    else if (s.walk gr.vf (s.partOf g) va write).toOption = some x then .ok x
    else if Config.choose s.freeCtr % 2 = 0 then .ok x
    else .walk page

/-- Translation of one access of a group's word (R369): the peer window, or the normal path and the page's place. -/
def State.reachVa (s : State) (g va : Nat) (write : Bool) : Reach :=
  if inWindow va then s.reachWindow (s.partOf g) va write
  else
    match s.xlatVa g va write with
    | .walk page => .walk page
    | .fault cls level gpa stage2 => .fault cls level va gpa stage2
    | .ok x => s.placeOf (s.coreOf g) (s.grp g).vf va write x (s.grp g).refused

/-! ### Base translation registers (R67, R68) -/

def psizeBits (p : Nat) : Nat := match p with | 0 => 16 | 1 => 21 | _ => 29
def psizeCode (bits : Nat) : Nat := if bits = 16 then 0 else if bits = 21 then 1 else 2

/-- An access at an offset of a base translation register (R68): the fast path below LIMIT, else the normal path. The frame
used must still be assigned to the partition (R365, R367, R370). (DEDUCED, log 149.) -/
def State.reachBt (s : State) (g : Nat) (bt : BtReg) (off : Nat) (write : Bool) : Reach :=
  let va := (bt.base.toNat + off) % 2 ^ 64
  let spa := bt.frame * 65536 + bt.base.toNat % 2 ^ psizeBits bt.psize + off
  if off < bt.limit && s.frameOwned (frameOf spa) (s.partOf g) then
    if (if write then bt.write else bt.read) then
      .at (.hbm spa { (default : Xlat) with
        live := true, out := spa - spa % 65536, pbits := 16, r := bt.read, w := bt.write, d1 := true, d2 := true
        part := s.partOf g })
    else .fault 13 0xff va 0 false
  else s.reachVa g va write

/-! ### Dirty tracking (R380, R381) -/

/-- Sets or clears the D bit of an entry by an atomic at its home slice (R364, R380, R382). -/
def State.writeD (s : State) (entry : Nat) (d : Bool) : State :=
  let old := s.homeByte (fun _ => true) entry
  let new : Byte := if d then old ||| 0x80 else old &&& 0x7f
  if new = old then s
  else
    let (id, s) := s.fresh
    s.arrive id (lineOf entry) { (default : Pend) with cells := [(entry, new)], homeDie := spaDie entry }

/-- Bytes the hub writes to hypervisor memory by SPA, visible at once. -/
def State.hubWriteNow (s : State) (cells : List Host.Cell) : State :=
  { s with mem := FMap.setMany s.mem cells, poison := clearPoison s.poison cells }

/-- The virtual function of a page: the writer's own, or for the peer window the lowest one bound to the exporter (R379,
R380). (DESIGN CHOICE, log 150.) -/
def State.pageFn (s : State) (fn : Nat) (x : Xlat) : Nat :=
  if x.window then ((s.fns.find? (fun p => p.2.bound && p.2.leaf = x.part)).map (·.1)).getD fn else fn

/-- The dirty-log entry of a stage-2 leaf whose D bit a write of the function `writer` has set (R381), in the log of the page's
function; dropped with OVF when full. -/
def State.dirtyLog (s : State) (writer : Nat) (x : Xlat) : State :=
  let fn := s.pageFn writer x
  let r := s.fn fn
  if !r.dlcfg.getLsbD 63 then s
  else
    let n := bitsOf r.dlcfg.toNat 4 0
    if ringDist r.dlwidx r.dlridx < 2 ^ n then
      let k := r.dlwidx
      let phase := if bitOf k n then 2 ^ 63 else 0
      let size := if x.gbits = 29 then 2 else 0
      let e := phase + writer % 256 * 2 ^ 40 + size * 2 ^ 36 + (x.dgpa / 65536) % 2 ^ 36
      let base := bitsOf r.dlbase.toNat 51 16 * 65536
      (s.hubWriteNow (cellsOf (base + 8 * (k % 2 ^ n)) 8 e)).modFn fn (fun r => { r with dlwidx := (k + 1) % 2 ^ 32 })
    else s.modFn fn (fun r => { r with dlcfg := r.dlcfg ||| 0x100 })

/-- A write through a translation first sets the D bits of its leaves, and logs a stage-2 leaf that becomes dirty
(R380). Each stage counts apart; a page whose D bit was cached set writes nothing. -/
def State.markDirty (s : State) (fn : Nat) (x : Xlat) : State :=
  let s := if x.d1 || x.e1 = 0 then s else s.writeD x.e1 true
  if x.d2 || x.e2 = 0 then s
  else
    let was := bitOf (s.homeByte (fun _ => true) x.e2).toNat 7
    let s := s.writeD x.e2 true
    if was then s else s.dirtyLog fn x

/-! ### Hub accesses for a function (R387, R389, R414) -/

/-- The partition a function's accesses go through: the leaf it is bound to, or the host leaf (R413, R414). -/
def State.leafOfFn (s : State) (fn : Nat) : Nat :=
  if fn = 256 then bitsOf s.hostPart.toNat 5 0 else (s.fn fn).leaf

/-- The page is to be pulled. -/
def State.askPull (s : State) (page : Nat) : State :=
  if page = noPage || page ∈ s.mig.pulls then s else { s with mig := { s.mig with pulls := s.mig.pulls ++ [page] } }

/-- The translation of a guest VA for an access of the hub: one the hub keeps, which may be used although the tables have
changed, or a walk's (R370). -/
def State.hubXlat (s : State) (fn part va : Nat) (write : Bool) : Except TrErr Xlat :=
  let x := FMap.get s.tlb (tlbKey hubPlace fn (va / 65536))
  let new := (s.walkOn hubDie fn part va write).1
  if x.live && (if write then x.w else x.r) && new.toOption ≠ some x && Config.choose (s.freeCtr + 2 ^ 150) % 2 = 0 then .ok x
  else new

/-- A hub access at a guest VA: place and translation, or why not (R105, R379, R387). Host pages go through an ATC: a
miss waits for an ATS answer, an answer that refuses the access is an error of class 15 (R377, R389). What must wait
is an error of class 0, with the page to pull. (DESIGN CHOICE, log 48.) -/
def State.hubReach (s : State) (fn va : Nat) (write : Bool) : Except TrErr (Target × Xlat) :=
  let bad (cls : Nat) : TrErr := { cls, level := 0xff, gpa := 0, stage2 := false, final := false }
  if 2 ^ 57 ≤ va then .error (bad 12)
  else if inWindow va then
    match s.reachWindow (s.leafOfFn fn) va write with
    | .at (.hbm spa x) => .ok (.hbm spa x, x)
    | .at t => .ok (t, default)
    | .pull p => .error (absentErr p)
    | _ => .error (bad 16)
  else
    match s.hubXlat fn (s.leafOfFn fn) va write with
    | .error e => .error e
    | .ok x =>
      if x.host then
        let io := x.out + va % 2 ^ x.pbits
        let key := fn * 2 ^ 52 + io / 4096
        let e := FMap.get (s.die hubDie).atc key
        if e.live && (if write then e.w else e.r) then
          .ok (.host (e.hpa * 4096 + io % 4096) { x with gpa := io - io % 4096 }, x)
        else if bitOf (FMap.get (s.die hubDie).atcNo key) (if write then 1 else 0) then .error (bad 15)
        else .error (absentErr noPage)
      else
        let spa := x.out + va % 2 ^ x.pbits
        match s.absentAt spa with
        | some p => .error (absentErr p)
        | none => .ok (.hbm spa x, x)

/-- What the walk of a hub access leaves in the caches (R369). -/
def State.hubFillFor (s : State) (fn part va : Nat) (write : Bool) : State :=
  if (FMap.get s.tlb (tlbKey hubPlace fn (va / 65536))).live || inWindow va || 2 ^ 57 ≤ va then s
  else
    match s.walkOn hubDie fn part va write with
    | (.ok x, l) => (s.walkFill hubDie l).tlbPut hubPlace fn (va / 65536) x
    | (.error _, l) => s.walkFill hubDie l
def State.hubFill (s : State) (fn va : Nat) (write : Bool) : State := s.hubFillFor fn (s.leafOfFn fn) va write

/-- A hub read of n bytes within a page at a guest VA: an error, nothing while a hold is being forced, or the bytes
(R389). Poison counts as a failed access (R387). -/
def State.hubReadVa (s : State) (fn va n : Nat) : Except TrErr (Option (List Byte)) × State :=
  match s.hubReach fn va false with
  | .error e => if e.cls = 0 then (.ok none, s.askPull e.gpa) else (.error e, s)
  | .ok (.hbm spa _, _) =>
    if s.poisoned spa n then (.error { cls := 18, level := 0xff, gpa := 0, stage2 := false, final := false }, s)
    else
      let (r, s) := (s.hubFill fn va false).hubRead spa n
      (.ok r, s)
  | .ok (.host h _, _) => (.ok (some (s.hostBytes h n)), s)
  | .ok (.remote h off, _) =>
    let (r, s) := s.remoteRead (h * 2 ^ 40 + off) n
    (.ok r, s)

/-- A hub store within a page at a guest VA, translated as a write: it sets D bits and sets out for its place (R380, R389); one
whose pages have not arrived waits untranslated (R428). -/
def State.hubWriteVa (s : State) (fn va : Nat) (bytes : List Byte) (op irq : Nat) : Except TrErr State :=
  match s.hubReach fn va true with
  | .error e =>
    if e.cls = 0 then
      let (id, s) := (s.askPull e.gpa).fresh
      .ok { s with acc := FMap.set s.acc id { (default : Access) with
        live := true, kind := .store, data := cellsAt va bytes, op, issued := s.tick, irq, hubFn := fn + 1, srcDie := 4 } }
    else .error e
  | .ok (.hbm spa _, x) => .ok (((s.hubFill fn va true).markDirty fn x).hubStoreFor (cellsAt spa bytes) op irq (fn + 1) (x.part + 1))
  | .ok (.host h _, x) => .ok (((s.markDirty fn x).hostStore (cellsAt h bytes)).signalIrq irq)
  | .ok (.remote h off, _) =>
    let (id, s) := s.fresh
    .ok { s with acc := FMap.set s.acc id { (default : Access) with
      live := true, kind := .store, place := .remote, addr := h * 2 ^ 40 + off, data := cellsAt (h * 2 ^ 40 + off) bytes, op
      issued := s.tick, irq, srcDie := 4, byFn := fn + 1 } }

end Sys2Proof.Machine
end

