-- ==== Sys2Proof/WellFormed.lean ====
section
/-!
DEFINITION. Which instruction terms the encodings admit: the field values that the operand types do not already rule out
(R182 to R199, and the tables of files 09 to 12, 15 and 17). Steps that are no instruction word are always well-formed.
-/
namespace Sys2Proof

/-- The 32- and 64-bit integer types of scalar and compare words (R208, R213, R245). -/
def intTags : List Tag := [.i32, .n32, .i64, .n64]
/-- The raw types (R208, R243). -/
def rawTags : List Tag := [.b32, .b64]
/-- The integer types of the vector adds (R242). -/
def vecIntTags : List Tag := [.i8x4, .n8x4, .i16x2, .n16x2, .i32, .n32, .i64, .n64]
/-- The floating types of the arithmetic majors (R246). -/
def floatTags : List Tag := [.f16, .bf16, .f32, .f64, .f16x2, .bf16x2, .f32x2]
/-- The single floating types (R248). -/
def floatSingles : List Tag := [.f16, .bf16, .f32, .f64]
/-- The packed types of PACK and UNPACK (R253). -/
def packTags : List Tag := [.i8x4, .n8x4, .i16x2, .n16x2, .i4x8, .e4m3x4, .e5m2x4, .f16x2, .bf16x2, .f32x2]
/-- The 64-bit tags (R75). -/
def tags64 : List Tag := [.b64, .i64, .n64, .f64, .f32x2]

/-- Register width of a tag in bits; MIXED is read as 32-bit (R75, R76). -/
def Tag.width (t : Tag) : Nat := if t ∈ tags64 then 64 else 32

def SOp.ok (o : SOp) (tys : List Tag) (sat unary : Bool) : Bool :=
  o.ty ∈ tys && (sat || !o.sat) && (!unary || o.b = 0)

/-- A standard vector word (R193): admitted types, whether RND and SAT are admitted, number of sources. -/
def VOp.ok (o : VOp) (tys : List Tag) (rnd sat : Bool) (arity : Nat) : Bool :=
  o.ty ∈ tys && (rnd || o.rnd = .rne) && (sat || !o.sat) && (2 ≤ arity || o.b = 0) && (3 ≤ arity || o.c = 0)

def VCmp.ok (o : VCmp) (tys : List Tag) : Bool := o.ty ∈ tys

def SfuOp.ok (o : SfuOp) (tys : List Tag) (rnd : Bool) : Bool := o.ty ∈ tys && (rnd || o.rnd = .rne)

/-- Elements a CVT source packs in a register, read singly (R251). -/
def Tag.elemCount : Tag → Nat
  | .i8x4 | .n8x4 | .e4m3x4 | .e5m2x4 | .de8x4 => 4
  | .i16x2 | .n16x2 | .f16x2 | .bf16x2 | .f32x2 => 2
  | .i4x8 | .de4x8 => 8
  | _ => 1

def Tag.isFloatPair (t : Tag) : Bool := t ∈ [Tag.f16x2, .bf16x2, .f32x2]

/-- The packed-pair conversions, which convert both elements (R251). -/
def cvtPair (src dst : Tag) : Bool :=
  (src, dst) ∈ [(Tag.f16x2, Tag.bf16x2), (.bf16x2, .f16x2), (.f16x2, .f32x2), (.bf16x2, .f32x2),
    (.f32x2, .f16x2), (.f32x2, .bf16x2)]

def Tag.isInt (t : Tag) : Bool := t ∈ [Tag.i8x4, .n8x4, .i16x2, .n16x2, .i4x8, .i32, .n32, .i64, .n64]

/-- Legal CVT words (R251); an integer to integer conversion does not round, so its RND is 0 (R193). -/
def CvtOp.ok (o : CvtOp) : Bool :=
  o.src ∉ [Tag.b32, .b64, .de8x4, .de4x8, .mixed] && o.dst ∉ [Tag.b32, .b64, .de8x4, .de4x8, .mixed] &&
  o.src ≠ o.dst &&
  (if cvtPair o.src o.dst then o.j = 0
   else o.src ≠ .f32x2 && !o.dst.isFloatPair && o.j.toNat < o.src.elemCount) &&
  (!(o.src.isInt && o.dst.isInt) || o.rnd = .rne)

def BlkOp.okBase (o : BlkOp) : Bool := o.fty ∈ [Tag.f16, .bf16, .f32]

def RedArgs.ok (o : RedArgs) : Bool :=
  (match o.op with
   | .add | .min | .max => o.ty ∈ [Tag.i32, .n32, .i64, .n64, .f32, .f64]
   | .and | .or | .xor => o.ty ∈ rawTags) &&
  (o.rnd = .rne || (o.op = .add && o.ty ∈ [Tag.f32, .f64]))

/-- Pair codes that require X = 1 (R197). -/
def Half.three (h : Half) : Bool := h.op.toNat ∈ [0x16, 0x17, 0x1b, 0x23, 0x2b, 0x33, 0x3b]
/-- Pair codes of the multiply class (R197). -/
def Half.mult (h : Half) : Bool := h.op.toNat ∈ [0x12, 0x13, 0x14, 0x15, 0x16, 0x17] || h.op.toNat ∈
  [0x1a, 0x1b, 0x22, 0x23, 0x2a, 0x2b, 0x32, 0x33, 0x3a, 0x3b]
/-- Pair codes that name register pairs (R197). -/
def Half.wide (h : Half) : Bool := (0x20 ≤ h.op.toNat && h.op.toNat < 0x28) || 0x38 ≤ h.op.toNat
def Half.isNop (h : Half) : Bool := h.op = 0
def Half.isMov (h : Half) : Bool := h.op.toNat ∈ [0x01, 0x26]

/-- The 32-bit registers of one operand. -/
def regSpan (wide : Bool) (r : VReg) : List Nat := if wide then [r.toNat, r.toNat + 1] else [r.toNat]

/-- The registers a half reads (R196). -/
def Half.reads (h : Half) : List Nat :=
  if h.isNop then [] else
  regSpan h.wide h.a ++ (if h.isMov then [] else regSpan h.wide h.b) ++ (if h.three then regSpan h.wide h.d else [])

/-- The registers a half writes (R196). -/
def Half.writes (h : Half) : List Nat := if h.isNop then [] else regSpan h.wide h.d

/-- A half alone: no field of nop, no B of a move (R190, R196). -/
def Half.ok (h : Half) : Bool :=
  (!h.isNop || (h.d = 0 && h.a = 0 && h.b = 0)) && (!h.isMov || h.b = 0)

/-- Number of distinct entries of a list. -/
def countDistinct : List Nat → Nat
  | [] => 0
  | x :: xs => (if x ∈ xs then 0 else 1) + countDistinct xs

/-- A paired word (R196). -/
def pairOk (h0 h1 : Half) : Bool :=
  h0.ok && h1.ok &&
  (h0.writes.map (· % 4)).all (fun b => b ∉ h1.writes.map (· % 4)) &&
  countDistinct (h0.reads ++ h1.reads) ≤ 6 && !(h0.mult && h1.mult)

/-- WIDTH and TYPE of a load (R270). -/
def ldFormOk (width : BitVec 3) (ty : Tag) : Bool :=
  match width.toNat with
  | 0 => ty = .n32
  | 1 => ty = .i32
  | 2 => ty ∈ [Tag.n32, .f16, .bf16]
  | 3 => ty = .i32
  | 4 => ty ∉ Tag.f16 :: Tag.bf16 :: Tag.mixed :: tags64
  | 5 => ty ∈ tags64
  | 6 => ty ∉ Tag.f16 :: Tag.bf16 :: Tag.mixed :: tags64
  | _ => false

/-- WIDTH of a store (R270). -/
def stFormOk (width : BitVec 3) : Bool := width.toNat ∈ [0, 2, 4, 5, 6]
/-- WIDTH of a scalar load (R274). -/
def sldFormOk (width : BitVec 3) : Bool := width.toNat ∈ [4, 5, 6]

def AAddr.isScratch (a : AAddr) : Bool :=
  match a.base with
  | .scratch | .peer _ => true
  | _ => false

/-- Scratch forms have no scale (R277). -/
def AAddr.ok (a : AAddr) : Bool := !a.isScratch || a.sh = 0

/-- The types of an atomic operation (R277). -/
def atomTypeOk (op : AOp) (ty : Tag) : Bool :=
  match op with
  | .add | .min | .max => ty ∈ intTags ++ floatTags
  | .and | .or | .xor | .exch => ty ∈ rawTags
  | .incw => ty ∈ intTags

/-- An atomic word: its type, its place, and no 16-bit type in scratch (R277, R278). -/
def atomOk (op : AOp) (ty : Tag) (addr : AAddr) : Bool :=
  atomTypeOk op ty && addr.ok && !(addr.isScratch && ty ∈ [Tag.f16, .bf16])

def FenceOp.ok (o : FenceOp) : Bool := o.pred ≠ 0 && o.succ ≠ 0 && o.scope.toNat ≤ 4

/-- The phase form is a release at dev, pkg or sys (R283). -/
def FenceOp.okPhase (o : FenceOp) : Bool := o.ok && 2 ≤ o.scope.toNat && (o.pred &&& 0xe) ≠ 0

/-- Accepted (AF, BF) pairs (R300). -/
def mcfgOk (af bf : MFmt) : Bool := af = bf || (af, bf) ∈ [(MFmt.e4m3, MFmt.e5m2), (.e5m2, .e4m3)]

/-- The destination of an MDRAIN: RND admitted, SAT admitted, dual-exponent (R312); none where the pair is not accepted. -/
def drainRow (src : Nat) (ty : Tag) (tile : Bool) : Option (Bool × Bool × Bool) :=
  match src, ty with
  | 0, .f32 => some (false, false, false)
  | 0, .bf16 | 0, .f16 => if tile then none else some (true, true, false)
  | 0, .bf16x2 | 0, .f16x2 => if tile then some (true, true, false) else none
  | 0, .e4m3x4 | 0, .e5m2x4 => some (true, true, false)
  | 0, .de8x4 | 0, .de4x8 => if tile then some (false, false, true) else none
  | 1, .i32 => some (false, false, false)
  | 1, .i8x4 => some (false, true, false)
  | 1, .f32 => some (true, false, false)
  | 2, .f64 => some (false, false, false)
  | 2, .f32 => some (true, true, false)
  | _, _ => none

def MDrainR.ok (o : MDrainR) : Bool :=
  match drainRow o.src.toNat o.ty false with
  | some (rnd, sat, _) => (rnd || o.rnd = .rne) && (sat || !o.sat)
  | none => false

def MDrainT.ok (o : MDrainT) : Bool :=
  match drainRow o.src.toNat o.ty true with
  | some (rnd, sat, de) =>
    (rnd || o.rnd = .rne) && (sat || !o.sat) && (if de then o.delta ≠ 0 else o.delta = 0 && o.e = 0)
  | none => false

/-- The special registers of R72. -/
def specialRegs : List Nat :=
  [0x00, 0x01, 0x02, 0x03, 0x04, 0x05, 0x06, 0x07, 0x08, 0x09, 0x0a, 0x0b, 0x0c, 0x0d,
   0x10, 0x11, 0x12, 0x13, 0x14, 0x15, 0x16, 0x17, 0x18, 0x19]

/-- GETS (R73, R218): a listed number, per-lane registers to a vector, 64 bits only for TICKS. -/
def getsOk (dst : GetsDst) (num : BitVec 8) : Bool :=
  num.toNat ∈ specialRegs &&
  (match dst with
   | .s _ => 2 ≤ num.toNat
   | .s64 _ => num = 0x13
   | .v _ => true)

/-- MOVI (R241). -/
def moviOk (ty : Tag) (imm : Word) : Bool :=
  ty ≠ .mixed && (!(ty = .f16 || ty = .bf16) || imm.toNat < 65536)

/-- The well-formed instructions: those some word encodes. (DEDUCED, log 29.) -/
def Instr.wellFormed : Instr → Bool
  | .sadd o | .ssub o => o.ok intTags true false
  | .smul o | .smulhi o | .sdiv o | .srem o | .smin o | .smax o | .sshr o => o.ok intTags false false
  | .sand o | .sor o | .sxor o | .sandn o | .sshl o | .srotl o => o.ok rawTags false false
  | .smov o | .spopc o | .sclz o => o.ok rawTags false true
  | .sneg o | .sabs o => o.ok [.i32, .i64] true true
  | .sshli o | .sshriN o | .sshriI o | .srotli o => o.w64 || o.count.toNat < 32
  | .scmp rel _ ty _ _ _ => rel ∉ [Rel.un, .ord] && ty ∈ intTags
  | .bra g join _ => g ≠ .always || join = 0
  | .brx _ bound _ b _ _ => 1 ≤ bound.toNat && bound.toNat ≤ 64 && b.toNat + bound.toNat ≤ 128
  | .wait _ n _ _ sa _ _ => sa.toNat % 8 = 0 && sa.toNat + 8 * (n.toNat + 1) ≤ 128
  | .rgive n | .rclaim n => n ≠ 0
  | .regionBegin _ nscal a b => a.toNat % 8 = 0 && b.toNat + nscal.toNat ≤ 128
  | .gets dst num => getsOk dst num
  | .sets num _ => num = 0x05 || num = 0x12
  | .movi ty _ _ imm => moviOk ty imm
  | .iadd o | .isub o => o.ok vecIntTags false true 2
  | .imul o => o.ok [.i16x2, .n16x2, .i32, .n32, .i64, .n64] false true 2
  | .imulhi o => o.ok [.i16x2, .n16x2, .i32, .n32, .i64, .n64] false false 2
  | .imad o => o.ok [.i16x2, .n16x2, .i32, .n32, .i64, .n64] false true 3
  | .imulw o => o.ok [.i32, .n32] false false 2
  | .imin o | .imax o => o.ok vecIntTags false false 2
  | .iabs o | .ineg o => o.ok [.i8x4, .i16x2, .i32, .i64] false true 1
  | .vand o | .vor o | .vxor o | .vandn o | .shl o | .rotl o => o.ok rawTags false false 2
  | .vnot o => o.ok rawTags false false 1
  | .shr o => o.ok intTags false false 2
  | .icmp o => o.rel ∉ [Rel.un, .ord] && o.ok intTags
  | .fadd o | .fsub o | .fmul o => o.ok floatTags true false 2
  | .ffma o | .fnma o => o.ok floatTags true false 3
  | .fmin o | .fmax o | .fcopysign o => o.ok floatTags false false 2
  | .fabs o | .fneg o => o.ok floatTags false false 1
  | .fcmp o => o.ok floatSingles
  | .fclass o => o.ok floatSingles false false 1
  | .rcp o | .sqrt o => o.ok [.f32, .f64] true
  | .rsqrt o | .exp2 o | .log2 o | .sinpi o | .cospi o | .tanh o => o.ok [.f32] false
  | .cvt o => o.ok
  | .pack o | .unpack o => o.ty ∈ packTags
  | .blkPack o => o.okBase && o.delta ≠ 0 && o.rnd = .rne
  | .blkUnpack o => o.okBase && o.delta = 0 && (o.fty = .f16 || o.rnd = .rne)
  | .retag o => o.ty ≠ .mixed
  | .tileRed o | .scan _ o => o.ok
  | .popc o | .clz o | .ctz o | .brev o => o.ok rawTags false false 1
  | .idp4 o => o.ok [.i8x4, .n8x4] false true 3
  | .pairedWord h0 h1 => pairOk h0 h1
  | .ld o => ldFormOk o.width o.ty
  | .ldScratch o => ldFormOk o.width o.ty
  | .ldParam o => ldFormOk o.width o.ty
  | .st o => stFormOk o.width
  | .stScratch o => stFormOk o.width
  | .sldParam o => sldFormOk o.width
  | .sld o => sldFormOk o.width
  | .atom o => atomOk o.op o.ty o.addr
  | .red o => atomOk o.op o.ty o.addr
  | .vatom o => atomOk o.op o.ty o.addr && !o.addr.isScratch
  | .vred o => atomOk o.op o.ty o.addr && !o.addr.isScratch
  | .cas o => o.lw.toNat < 3 && o.addr.ok && !(o.addr.isScratch && o.lw = 2)
  | .fence o => o.ok
  | .fencePhase o _ => o.okPhase
  | .copy a _ => a.toNat % 8 = 0
  | .meshTree _ a => a.toNat + 3 ≤ 128
  | .meshRed o => o.op.toNat ≤ 2 && o.ty ∈ [Tag.f32, .i32, .n32]
  | .sdot o => o.ty ∈ [Tag.e4m3x4, .e5m2x4, .de8x4, .i8x4, .bf16, .f16, .f32] && o.b.toNat % 8 = 0
  | .mcfg af bf => mcfgOk af bf
  | .mdrain o => o.ok
  | .mdrainT o => o.ok
  | .tlbinv kind a b _ => kind.toNat ∈ [1, 2] || (a = 0 && b = 0)
  | .frondLdp o => o.a = 0 && o.imm.toNat % 8 = 0 && o.imm.toNat ≤ 56
  | .frondMovi o => o.a = 0
  | .frondSts o => o.a = 0 && o.imm.toNat ≤ 7
  | .frondLdw o | .frondStw o => o.imm.toNat ≤ 3
  | .frondLoop _ len => 1 ≤ len.toNat && len.toNat ≤ 1023
  | .frondAct o => o.imm.toNat ≤ 1
  | _ => true

end Sys2Proof
end

