-- ==== Sys2Proof/Machine/Ops.lean ====
section
/-!
DEFINITION. The named operations over registers, tags, counters, the divergence stack, parks, the store buffer, barriers
and retirement, and the one operation by which a word takes an exception (R346 to R350) with the returns from it.
-/
namespace Sys2Proof.Machine
open Sys2Proof

/-! ### Lanes -/

/-- The lanes of a mask, ascending. -/
def lanesOf (m : LaneMask) : List Nat := (List.range 32).filter (fun l => m.getLsbD l)
/-- The mask of the lanes that a test selects. -/
def maskOf (f : Nat → Bool) : LaneMask :=
  (List.range 32).foldl (fun acc l => if f l then acc ||| (1#32 <<< l) else acc) 0
/-- The lowest lane of a mask, 0 for none. -/
def lowLane (m : LaneMask) : Nat := ((lanesOf m).head?).getD 0
def popCount (m : LaneMask) : Nat := (lanesOf m).length

/-! ### Register marks (R185, R186) -/

/-- The mark of an outstanding operation on its destination: its number and its counter. -/
def markOf (op ctr : Nat) : Nat := op * 8 + ctr + 1
def markOp (m : Nat) : Nat := (m - 1) / 8
def markCtr (m : Nat) : Nat := (m - 1) % 8

/-- Places of marks: vector registers from 0, scalars from 256, uniform predicates from 384. -/
def sPlace (r : Nat) : Nat := 256 + r
def qPlace (r : Nat) : Nat := 384 + r

/-- Whether a read of a place is UNPREDICTABLE (R186). -/
def Group.marked (gr : Group) (place : Nat) : Bool :=
  FMap.get gr.notReady place ≠ 0 || FMap.get gr.clobber place ≠ 0

/-- A write by another instruction: over the destination of an outstanding operation it leaves the place UNPREDICTABLE
until the next write after the operation's counter reads zero (R186). -/
def Group.noteWrite (gr : Group) (ops : FMap Op) (place : Nat) : Group :=
  let m := FMap.get gr.notReady place
  if m ≠ 0 && (FMap.get ops (markOp m)).live then { gr with clobber := FMap.set gr.clobber place m }
  else
    let gr := { gr with notReady := FMap.set gr.notReady place 0 }
    let c := FMap.get gr.clobber place
    if c ≠ 0 && FMap.get gr.ctrs (markCtr c) = 0 then { gr with clobber := FMap.set gr.clobber place 0 } else gr

/-- The header's wait has been met: results of operations on the named counters are ready (R185). -/
def Group.ready (gr : Group) (waits : BitVec 6) : Group :=
  { gr with notReady := gr.notReady.filter (fun p => !waits.getLsbD (markCtr p.2)) }

/-! ### Registers (R62 to R65) -/

/-- Bits of lane l of vector register r; an early read is a free value (R186). (DESIGN CHOICE, log 22.) -/
def State.rdV (s : State) (g r l : Nat) : Word :=
  let gr := s.grp g
  if gr.marked r then Config.freeWord s.freeCtr (32 * r + l) else FMap.get gr.vregs (32 * r + l)
/-- The 64-bit value of lane l of a pair, or the 32-bit value zero-extended (R64). -/
def State.rdVW (s : State) (g r l : Nat) (w64 : Bool) : DWord :=
  if w64 then pairOf (s.rdV g r l) (s.rdV g (r + 1) l) else pairOf (s.rdV g r l) 0

def State.rdS (s : State) (g r : Nat) : Word :=
  let gr := s.grp g
  if gr.marked (sPlace r) then Config.freeWord s.freeCtr (32 * sPlace r) else FMap.get gr.sregs r
def State.rdSW (s : State) (g r : Nat) (w64 : Bool) : DWord :=
  if w64 then pairOf (s.rdS g r) (s.rdS g (r + 1)) else pairOf (s.rdS g r) 0

def State.rdQ (s : State) (g q : Nat) : Bool :=
  let gr := s.grp g
  if gr.marked (qPlace q) then (Config.freeWord s.freeCtr (32 * qPlace q)).getLsbD 0 else gr.qregs.getLsbD q
def State.rdP (s : State) (g p : Nat) : LaneMask := FMap.get (s.grp g).pregs p

/-- Writes lanes of one vector register. (DESIGN CHOICE, log 21.) -/
def Group.putV (gr : Group) (r : Nat) (m : LaneMask) (f : Nat → Word) : Group :=
  { gr with vregs := (lanesOf m).foldl (fun v l => FMap.set v (32 * r + l) (f l)) gr.vregs
            vpoison := if m = BitVec.allOnes 32 then FMap.set gr.vpoison r false else gr.vpoison }

def Group.putS (gr : Group) (r : Nat) (v : Word) : Group :=
  { gr with sregs := FMap.set gr.sregs r v, vpoison := FMap.set gr.vpoison (sPlace r) false }
def Group.putQ (gr : Group) (q : Nat) (v : Bool) : Group :=
  { gr with qregs := if v then gr.qregs ||| (1#4 <<< q) else gr.qregs &&& ~~~(1#4 <<< q) }
/-- Writes the lanes of a mask of a per-lane predicate (R65). -/
def Group.putP (gr : Group) (p : Nat) (m v : LaneMask) : Group :=
  { gr with pregs := FMap.set gr.pregs p ((FMap.get gr.pregs p &&& ~~~m) ||| (v &&& m)) }

/-! ### Tags (R75 to R78) -/

def rawTag (w64 : Bool) : Tag := if w64 then .b64 else .b32

/-- The tag a source check reads: within a position that issues once per plane, the tag before the position
(R78). (DEDUCED, log 20.) -/
def Group.tagOf (gr : Group) (r : Nat) : Tag :=
  let p := FMap.get gr.posTags r
  if p.live then p.before else FMap.get gr.vtags r

/-- The tag after a write of format F to a register tagged T, `covers` when the mask covers every lane that has not
exited (R77); a MIXED format gives MIXED (R78). (DEDUCED, log 19.) -/
def newTag (t f : Tag) (covers : Bool) : Tag :=
  if f = .mixed then .mixed
  else if covers then f
  else if f = t then t
  else if t = rawTag (f.width = 64) then f
  else if f = rawTag (t.width = 64) then t
  else .mixed

/-- The tag of one register after a write under a mask, gathered over the planes of a split position (R77, R78). -/
def Group.putTag (gr : Group) (split : Bool) (r : Nat) (m : LaneMask) (f : Tag) : Group :=
  let covers (m : LaneMask) : Bool := (m ||| gr.exited) = BitVec.allOnes 32
  if split then
    let p := FMap.get gr.posTags r
    let p := if p.live then { p with mask := p.mask ||| m, fmt := if p.fmt = f then f else .mixed }
      else { live := true, mask := m, fmt := f, before := FMap.get gr.vtags r }
    { gr with posTags := FMap.set gr.posTags r p, vtags := FMap.set gr.vtags r (newTag p.before p.fmt (covers p.mask)) }
  else { gr with vtags := FMap.set gr.vtags r (newTag (FMap.get gr.vtags r) f (covers m)) }

/-- The format of a bitwise operation or move over source registers (R77). -/
def Group.bitFmt (gr : Group) (regs : List Nat) (w64 : Bool) : Tag :=
  let raw := rawTag w64
  let tags := regs.map gr.tagOf
  if tags.any (· = .mixed) then raw
  else
    match tags with
    | [] => raw
    | t :: ts =>
      if ts.all (· = t) then t
      else
        match tags.filter (· ≠ raw) with
        | [] => raw
        | u :: us => if us.all (· = u) then u else raw

/-! ### Writes of an instruction (R77, R186) -/

/-- A vector write of the word in issue: lanes of a mask, one register or a pair, with its format. -/
def State.writeV (s : State) (g r : Nat) (w64 : Bool) (m : LaneMask) (f : Tag) (val : Nat → DWord) : State :=
  s.modGrp g (fun gr =>
    let gr := ((gr.noteWrite s.ops r).putV r m (fun l => loWord (val l))).putTag s.iss.split r m f
    if w64 then ((gr.noteWrite s.ops (r + 1)).putV (r + 1) m (fun l => hiWord (val l))).putTag s.iss.split (r + 1) m f
    else gr)

def State.writeS (s : State) (g r : Nat) (v : Word) : State :=
  s.modGrp g (fun gr => (gr.noteWrite s.ops (sPlace r)).putS r v)
def State.writeSW (s : State) (g r : Nat) (w64 : Bool) (v : DWord) : State :=
  if w64 then (s.writeS g r (loWord v)).writeS g (r + 1) (hiWord v) else s.writeS g r (loWord v)
def State.writeQ (s : State) (g q : Nat) (v : Bool) : State :=
  s.modGrp g (fun gr => (gr.noteWrite s.ops (qPlace q)).putQ q v)
def State.writeP (s : State) (g p : Nat) (m v : LaneMask) : State := s.modGrp g (fun gr => gr.putP p m v)

/-! ### Completion counters and outstanding operations (R66, R185) -/

def State.ctr (s : State) (g c : Nat) : Nat := FMap.get (s.grp g).ctrs c
/-- Whether an operation naming the counter would raise it above 255. (DEDUCED, log 33.) -/
def State.ctrFull (s : State) (g c : Nat) : Bool := c < 6 && 255 ≤ s.ctr g c

/-- Registers an operation writes at completion are not ready from now on. -/
def Group.markDst (gr : Group) (ops : FMap Op) (places : List Nat) (m : Nat) : Group :=
  places.foldl (fun gr p => let gr := gr.noteWrite ops p; { gr with notReady := FMap.set gr.notReady p m }) gr

/-- Issues an outstanding operation: it takes its number, counts in its counter and marks its destinations. -/
def State.issueOp (s : State) (o : Op) (places : List Nat) : Nat × State :=
  let (id, s) := s.fresh
  let s := s.modGrp o.grp (fun gr =>
    let gr := if o.ctr < 6 then { gr with ctrs := FMap.upd gr.ctrs o.ctr (· + 1) } else gr
    gr.markDst s.ops places (markOf id o.ctr))
  (id, s.setOp id { o with live := true, places })

/-- The operation ends: its counter falls by one (R66). -/
def State.endOp (s : State) (id : Nat) : State :=
  let o := s.op id
  let s := s.setOp id default
  if o.live && o.ctr < 6 then s.modGrp o.grp (fun gr => { gr with ctrs := FMap.upd gr.ctrs o.ctr (· - 1) }) else s

/-! ### The divergence stack (R45 to R47, R221) -/

/-- A path: offset, mask, reconvergence offset, and the stack below it, top first. -/
structure Path where
  off : Nat
  mask : LaneMask
  recOff : Option Nat
  stack : List DivEntry
  deriving DecidableEq, Repr

/-- Pops while the path is empty or stands at its reconvergence offset (R47); an empty path over an empty stack is the
group's end. -/
def popPath (exited : LaneMask) (p : Path) : List DivEntry → Path
  | [] => { p with stack := [] }
  | e :: t =>
    if p.mask = 0 || p.recOff = some p.off then
      popPath exited { off := e.off, mask := e.mask &&& ~~~exited, recOff := e.recOff, stack := t } t
    else { p with stack := e :: t }

/-- A number into its place of a rising list, once. -/
def insertOnce (n : Nat) : List Nat → List Nat
  | [] => [n]
  | a :: t => if n < a then n :: a :: t else if n = a then a :: t else a :: insertOnce n t

/-- The numbers of a list, each once, ascending. -/
def sortOnce (l : List Nat) : List Nat := l.foldl (fun acc n => insertOnce n acc) []

/-- The offsets lanes go to, each once, ascending. -/
def targets (m : LaneMask) (tgt : Nat → Nat) : List Nat := sortOnce ((lanesOf m).map tgt)

/-- Divides the path by the lanes' next offsets with reconvergence offset J (R46, R221); nothing when the stack would
pass 32 entries. -/
def dividePath (p : Path) (tgt : Nat → Nat) (j : Nat) : Option Path :=
  let part (o : Nat) : LaneMask := p.mask &&& maskOf (fun l => tgt l = o)
  match (targets p.mask tgt).filter (· ≠ j) with
  | [] => some { p with off := j }
  | o :: os =>
    if part j = 0 && os = [] then some { p with off := o }
    else
      let base := if p.recOff = some j then p.stack else ⟨j, p.mask, p.recOff⟩ :: p.stack
      let stack := (os.map (fun q => (⟨q, part q, some j⟩ : DivEntry))) ++ base
      if 32 < stack.length then none else some { off := o, mask := part o, recOff := some j, stack }

def Group.path (gr : Group) : Path := { off := gr.off, mask := gr.mask, recOff := gr.recOff, stack := gr.stack }
def Group.setPath (gr : Group) (p : Path) : Group :=
  { gr with off := p.off, mask := p.mask, recOff := p.recOff, stack := p.stack }

/-! ### The store buffer (R127, R128, R136) -/

/-- Adds cells of one line to an entry; later bytes overwrite earlier ones (R127). -/
def mergeCells (cells new : List Host.Cell) : List Host.Cell := new.foldl (fun m c => FMap.ins m c.1 c.2) cells

/-- The entries of a core's buffer. -/
def State.sbOf (s : State) (core : Nat) : FMap SbEntry := s.sb.filter (fun p => p.2.core = core)

/-- Room for one more line: the oldest hold is published first, else the oldest entry leaves (R136). -/
def State.sbRoom (s : State) (core : Nat) : State :=
  let es := s.sbOf core
  if es.length < 64 then s
  else
    match es.find? (fun p => p.2.hold ≠ 0) with
    | some h => s.publishEntries h.2.team (fun e => e.hold ≠ 0 && e.release = h.2.release) false
    | none =>
      match es with
      | [] => s
      | p :: _ => s.sendEntry p.1 false

/-- How a line that a group reaches may be cached: not at all in the peer window, on its own die, or on both of a pair-mode
device (R21, R117). -/
def State.devOf (s : State) (g : Nat) (x : Xlat) : Nat := if x.window then 0 else if (s.part (s.partOf g)).pair then 2 else 1

/-- One more than the I/O page of a host access, by function; 0 elsewhere (R377). -/
def ioKey (fn : Nat) (x : Xlat) : Nat := if x.host then fn * 2 ^ 52 + x.gpa / 4096 + 1 else 0

/-- A store of a group enters its core's buffer, coalescing with the team's open entry for the line (R127). It answers
the number of the entry. `target` is 0 for HBM, 1 for the host, 2 for another package; `x` the translation used. -/
def State.sbStore (s : State) (g target : Nat) (x : Xlat) (cells : List Host.Cell) (line : Nat) : Nat × State :=
  let t := (s.grp g).team
  let core := (s.team t).core
  let dev := s.devOf g x
  let after := (s.grp g).after
  match s.sb.find? (fun p => p.2.team = t && p.2.line = line && p.2.target = target && p.2.hold = 0 && p.2.dev = dev &&
    p.2.release = (s.team t).release + 1) with
  | some (id, e) =>
    (id, { s with sb := FMap.set s.sb id { e with
      cells := mergeCells e.cells cells, grps := if g ∈ e.grps then e.grps else e.grps ++ [g], after := max e.after after } })
  | none =>
    let s := s.sbRoom core
    let (id, s) := s.fresh
    let e : SbEntry := {
      live := true, core, team := t, grps := [g], line, cells := mergeCells [] cells, issued := s.tick, hold := 0
      release := (s.team t).release + 1, target, vis := false, after, dev
      byFn := (s.grp g).vf + 1, byPart := x.part + 1, io := ioKey (s.grp g).vf x }
    (id, { s with sb := FMap.set s.sb id e })

/-! ### Scratch bytes (R110, R111, R123, R352) -/

/-- Scratch bytes a group reads: its region's bytes over the team's (R236). -/
def State.scrByte (s : State) (g t a : Nat) (space : Nat) : Byte :=
  let own := (s.grp g).regionStores.foldl (fun acc r =>
    if r.1 = space then (lastCell r.2.2.1 a).or acc else acc) none
  own.getD (FMap.get (s.team t).scratch a)

def State.scrStore (s : State) (t : Nat) (cells : List Host.Cell) : State :=
  s.modTeam t (fun tm => { tm with
    scratch := FMap.setMany tm.scratch cells, scratchPoison := clearPoison tm.scratchPoison cells })

/-! ### Idempotent regions (R236, R237)

A region store is (space, line, cells, translation): space 0 is memory at system addresses, space 1 + t the scratch of
team t. -/

/-- The 64-byte granules the region's stores take. -/
def regionGranules (l : List (Nat × Nat × List Host.Cell × Xlat)) : List (Nat × Nat) :=
  l.foldl (fun acc r => r.2.2.1.foldl (fun acc c => if (r.1, c.1 / 64) ∈ acc then acc else acc ++ [(r.1, c.1 / 64)]) acc) []

/-- A store of a region released as if issued now (R237); it answers the buffer entry it joined, 0 for scratch. -/
def State.releaseStore (s : State) (g : Nat) (r : Nat × Nat × List Host.Cell × Xlat) : Nat × State :=
  if r.1 = 0 then s.sbStore g 0 r.2.2.2 r.2.2.1 r.2.1 else (0, s.scrStore (r.1 - 1) r.2.2.1)

/-- What an invalidation waits for in place of the stores a group's region still holds (R360). -/
def regionMark (g : Nat) : Nat := 2 ^ 62 + g

/-- The operations of a group that count stores of its region (stage 7) wait for the entries those stores joined, and so do
invalidations that the region's stores came before. -/
def State.regionOps (s : State) (g : Nat) (ids : List Nat) : State :=
  { s with ops := s.ops.map (fun p =>
      if p.2.grp = g && p.2.stage = 7 then
        (p.1, { p.2 with stage := 3, waitOn := if p.2.kind = .store then p.2.waitOn ++ ids else p.2.waitOn })
      else if p.2.kind = .tlbinv && regionMark g ∈ p.2.waitOn then (p.1, { p.2 with waitOn := p.2.waitOn ++ ids })
      else p) }

/-- The region's stores are released in issue order and the region ends (R237). -/
def State.closeRegion (s : State) (g : Nat) : State :=
  let gr := s.grp g
  let (ids, s) := gr.regionStores.foldl (fun (acc : List Nat × State) r =>
    let (id, s) := acc.2.releaseStore g r
    (if id = 0 then acc.1 else insertOnce id acc.1, s)) ([], s)
  let s := if gr.region.open_ then s.regionOps g ids else s
  s.modGrp g (fun gr => { gr with region := default, regionStores := [] })

/-- The granules that the other groups of a group's core hold in the region buffer, which is the core's (R236). -/
def State.otherGranules (s : State) (g : Nat) : Nat :=
  s.groups.foldl (fun n p =>
    if p.1 ≠ g && p.2.regionStores ≠ [] && s.coreOf p.1 = s.coreOf g then n + (regionGranules p.2.regionStores).length else n) 0

/-- A store inside a region enters the core's region buffer of 1,024 granules; a full buffer closes the region first (R236,
R237). It answers whether the store was taken. -/
def State.regionStore (s : State) (g space line : Nat) (x : Xlat) (cells : List Host.Cell) : Bool × State :=
  let gr := s.grp g
  if !gr.region.open_ then (false, s)
  else
    let next := gr.regionStores ++ [(space, line, cells, x)]
    if 1024 < s.otherGranules g + (regionGranules next).length then (false, s.closeRegion g)
    else (true, s.setGrp g { gr with regionStores := next })

/-! ### Barriers (R51, R231, R232) -/

/-- The groups of a team that have not retired. -/
def Team.alive (t : Team) : List Nat := t.groups.filter (· ∉ t.retired)

/-- The expected count of a slot (R51, R231). -/
def Team.expected (t : Team) (slot : Nat) : Nat :=
  let b := FMap.get t.barriers slot
  if b.own then b.expected else t.alive.length

/-- Releases the groups parked at a barrier slot; team slots are 0..15, cluster slots from 16. -/
def State.releaseBar (s : State) (grps : List Nat) (slot : Nat) : State :=
  grps.foldl (fun s g =>
    let gr := s.grp g
    if gr.park = .barrier && gr.parkArg = slot then s.setGrp g { gr with park := .running, parkArg := 0 }
    else s) s

/-- A team slot advances when it has an arrival and its arrivals reach the expected count (R231). -/
def State.barCheck (s : State) (t slot : Nat) : State :=
  let tm := s.team t
  let b := FMap.get tm.barriers slot
  if 1 ≤ b.arrivals && tm.expected slot ≤ b.arrivals then
    let s := s.setTeam t { tm with
      barriers := FMap.set tm.barriers slot { b with arrivals := 0, phase := (b.phase + 1) % 65536 } }
    s.releaseBar tm.groups slot
  else s

/-- The key of a team's arrivals at a cluster slot. -/
def cbarKey (k crank : Nat) : Nat := k * 64 + crank

/-- A cluster slot advances when some team has arrived and every team that has not retired has arrived with all of its groups that
have not retired (R232). (DEDUCED, log 137.) -/
def State.cbarCheck (s : State) (c k : Nat) : State :=
  let cl := s.cluster c
  let alive := cl.teams.filter (fun t => (s.team t).live)
  let arr (t : Nat) : Nat := FMap.get cl.arrivals (cbarKey k (s.team t).crank)
  if cl.teams.any (fun t => 1 ≤ arr t) && alive.all (fun t => (s.team t).alive.length ≤ arr t) then
    let s := s.setCluster c { cl with
      phases := FMap.upd cl.phases k (fun p => (p + 1) % 65536)
      arrivals := cl.arrivals.filter (fun p => p.1 / 64 ≠ k) }
    s.releaseBar (cl.teams.flatMap (fun t => (s.team t).groups)) (16 + k)
  else s

/-- Checks every slot of a team and its cluster after a retirement (R51, R232). -/
def State.recheckBars (s : State) (t : Nat) : State :=
  let s := (List.range 16).foldl (fun s b => s.barCheck t b) s
  (List.range 4).foldl (fun s k => s.cbarCheck (s.team t).cluster k) s

/-! ### Claims (R37, R233) -/

/-- Registers from r on cease to exist: nothing remains of their values, tags and marks (R37). -/
def Group.dropRegs (gr : Group) (r : Nat) : Group :=
  { gr with
    vregs := gr.vregs.filter (fun p => p.1 < 32 * r), vtags := gr.vtags.filter (fun p => p.1 < r)
    vpoison := gr.vpoison.filter (fun p => p.1 < r || 256 ≤ p.1)
    notReady := gr.notReady.filter (fun p => p.1 < r || 256 ≤ p.1), clobber := gr.clobber.filter (fun p => p.1 < r || 256 ≤ p.1) }

/-- Blocks join a group above its own; their registers read zero with tag B32 (R37). -/
def Group.claim (gr : Group) (n : Nat) : Group := { gr.dropRegs (8 * gr.blocks) with blocks := gr.blocks + n }

/-- Serves the head of the line of parked claimants; one that cannot be satisfied blocks those behind it (R37). -/
def State.serveClaim (s : State) (t : Nat) : State :=
  let tm := s.team t
  match tm.claimants with
  | [] => s
  | (g, n) :: rest =>
    if n ≤ tm.pool then
      let s := s.setTeam t { tm with pool := tm.pool - n, claimants := rest }
      s.modGrp g (fun gr => { gr.claim n with park := .running, parkArg := 0 })
    else s

/-! ### Exits and group retirement (R32, R51) -/

/-- A group whose lanes have all exited has retired (R32). -/
def Group.retired (gr : Group) : Bool := gr.exited = BitVec.allOnes 32

/-- A group retires: its region ends, expected counts fall, its claim leaves the line (R32, R51, R224, R231). What publishes the
records of a SPAWN cut short is kept: their bins fire only after it (R54). -/
def State.retireGroup (s : State) (g : Nat) : State :=
  let s := s.closeRegion g
  let t := (s.grp g).team
  let s := s.modGrp g (fun gr => { gr with
    park := .running, parkArg := 0, inClause := false, mask := 0, stack := [], recOff := none
    exited := BitVec.allOnes 32, flt := default, engFault := false, held := false
    fence := if gr.deposits = [] then default else gr.fence })
  let s := s.modTeam t (fun tm => { tm with
    retired := if g ∈ tm.retired then tm.retired else tm.retired ++ [g]
    sfaults := FMap.set tm.sfaults (s.grp g).idx (s.grp g).sfault
    claimants := tm.claimants.filter (fun p => p.1 ≠ g)
    barriers := tm.barriers.map (fun p => (p.1, { p.2 with expected := p.2.expected - 1 })) })
  s.recheckBars t

/-- Lanes leave every mask of a stack (R32). -/
def dropLanes (m : LaneMask) (l : List DivEntry) : List DivEntry := l.map (fun e => { e with mask := e.mask &&& ~~~m })

/-- Lanes exit: they leave every mask; an emptied path is popped, and a group without lanes retires (R32, R47). -/
def State.exitLanes (s : State) (g : Nat) (m : LaneMask) : State :=
  let gr := s.grp g
  let exited := gr.exited ||| m
  if exited = BitVec.allOnes 32 then (s.setGrp g { gr with exited }).retireGroup g
  else
    let gr := { gr with exited, mask := gr.mask &&& ~~~m, stack := dropLanes m gr.stack }
    if gr.mask = 0 then
      let p := popPath exited gr.path gr.stack
      s.setGrp g { (gr.setPath p) with inClause := false, posTags := [], brDests := [], planeFrom := 0 }
    else s.setGrp g gr

/-! ### Position (R184, R187) -/

/-- The group stands again at the word in issue: what a fault, a hold and a re-executed park leave (R187). -/
def Group.rewind (gr : Group) (i : Issue) : Group :=
  { gr with
    inClause := true, off := gr.clause, word := i.idx, planeFrom := i.plane, morePlanes := i.split && !i.lastPlane }
def State.rewind (s : State) : State := s.modGrp s.iss.grp (fun gr => gr.rewind s.iss)

/-- Control passes to an offset: the clause is left (R180). -/
def Group.goto (gr : Group) (off : Nat) : Group :=
  { gr with inClause := false, off, posTags := [], brDests := [], planeFrom := 0 }

/-- The word parks its group under a cause and executes again when the park ends. -/
def State.parkAgain (s : State) (p : Park) (arg : Nat) : State :=
  s.modGrp s.iss.grp (fun gr => { (gr.rewind s.iss) with park := p, parkArg := arg })
/-- The word parks its group under a cause; its effect is done and the group goes on after it when the park ends. -/
def State.parkAfter (s : State) (p : Park) (arg : Nat) : State :=
  s.modGrp s.iss.grp (fun gr => { gr with park := p, parkArg := arg })

/-- The group stands again at the word before its position: a later fault of a word whose issue is done (R229). -/
def Group.rewindOne (gr : Group) : Group :=
  { gr with inClause := true, off := gr.clause, word := gr.word - 1, planeFrom := 0, morePlanes := false }

/-! ### Fault records (R348 to R350) -/

/-- The function number of a group as records and PVF report it: a virtual function, or 256 for the physical one. -/
def State.fnOf (s : State) (g : Nat) : Nat := (s.grp g).vf

/-- TEAM of a group (R72). -/
def Group.teamReg (gr : Group) : Word := BitVec.ofNat 32 gr.teamId

/-- The 64 bytes of a fault record (R348), PHASE apart. -/
def State.recordBytes (s : State) (g : Nat) (f : FaultRec) : List Byte :=
  let gr := s.grp g
  let bit (b : Bool) (n : Nat) : Nat := if b then 2 ^ n else 0
  let flags := bit f.write 0 + bit f.nested 1 + bit f.engine 2 + bit f.team 3 + bit f.stage2 4
  leBytes 1 f.cls ++ leBytes 1 flags ++ leBytes 1 f.planes ++ leBytes 1 f.level ++ leBytes 4 f.off ++
  leBytes 4 f.lanes.toNat ++ leBytes 1 f.core ++ leBytes 1 f.slot ++ leBytes 1 gr.idx ++ leBytes 1 gr.vf ++
  leBytes 8 f.addr.toNat ++ leBytes 8 (if f.hyp then f.gpa else 0) ++ leBytes 4 gr.lseq ++ leBytes 4 gr.teamId ++
  leBytes 8 f.time ++ leBytes 4 f.faultId ++ leBytes 12 0

/-- Bytes written over others from an offset on. -/
def overwrite (l : List Byte) (o : Nat) (new : List Byte) : List Byte := l.take o ++ new ++ l.drop (o + new.length)

/-- A record with its PHASE bit. -/
def withPhase (bytes : List Byte) (ph : Bool) : List Byte :=
  if ph then overwrite bytes 1 [(bytes[1]?).getD 0 ||| 0x80] else bytes

/-- A place in the order of a queue's records: the tick of raising, the core, the slot (R346). -/
def recordKey (tick core slot : Nat) : Nat := tick * 2 ^ 16 + core * 2 ^ 8 + slot

def FaultQueue.log2n (q : FaultQueue) : Nat := bitsOf q.cfg.toNat 4 0
def FaultQueue.on (q : FaultQueue) : Bool := q.cfg.getLsbD 63
def FaultQueue.ie (q : FaultQueue) : Bool := q.cfg.getLsbD 8
def FaultQueue.room (q : FaultQueue) : Bool := q.on && ringDist q.widx q.ridx < 2 ^ q.log2n
def FaultQueue.base52 (q : FaultQueue) : Nat := q.base.toNat - q.base.toNat % 4096

/-- The next identifier of a queue: nonzero (R348). (DESIGN CHOICE, log 7.) -/
def FaultQueue.nextId (q : FaultQueue) : Nat := if q.lastId + 1 = 2 ^ 32 then 1 else q.lastId + 1

/-- A fault queue: a function's, or, with none, the hypervisor's. -/
def State.fq (s : State) : Option Nat → FaultQueue
  | some v => (s.fn v).fq
  | none => s.hfq
def State.modFq (s : State) (q : Option Nat) (f : FaultQueue → FaultQueue) : State :=
  match q with
  | some v => s.modFn v (fun r => { r with fq := f r.fq })
  | none => { s with hfq := f s.hfq }

/-- The queue of a group's record (R345). -/
def State.queueOf (s : State) (g : Nat) : Option Nat := if (s.grp g).flt.hyp then none else some (s.fnOf g)

/-- The place of a group's record: a function's queue counts ticks as its device does, so that the order
survives a move (R427). -/
def State.recordKeyOf (s : State) (g : Nat) : Nat :=
  let f := (s.grp g).flt
  let raw := (((f.time : Int) - (s.fn (s.fnOf g)).tickOff) % 2 ^ 64).toNat
  recordKey (if f.hyp then raw else f.time) f.core f.slot

/-- A number into its place of a list in rising order of keys. -/
def insertKey {α : Type} (k : Nat) (a : α) : List (Nat × α) → List (Nat × α)
  | [] => [(k, a)]
  | x :: t => if k < x.1 then (k, a) :: x :: t else x :: insertKey k a t

/-- The unwritten records of a queue, those withheld or those of the tick that ends, in the order of R346: the group
that keeps each (0: none) and its bytes. -/
def State.unwritten (s : State) (q : Option Nat) (held : Bool) : List (Nat × Nat × List Byte) :=
  let l := s.groups.foldl (fun l p =>
    if (if held then p.2.flt.withheld else p.2.flt.owed) && s.queueOf p.1 = q then
      insertKey (s.recordKeyOf p.1) (p.1, s.recordBytes p.1 p.2.flt) l
    else l) []
  (s.fq q).late.foldl (fun l r => if r.held = held then insertKey r.key (0, r.bytes) l else l) l

/-- What holds an unwritten record forgets it, or, with `held`, keeps it as withheld (R349). -/
def State.settleRecord (s : State) (q : Option Nat) (r : Nat × List Byte) (held : Bool) : State :=
  if r.1 = 0 then s.modFq q (fun f => { f with
    late := if held then f.late.map (fun l => if l.bytes = r.2 then { l with held := true } else l)
      else f.late.filter (fun l => l.bytes ≠ r.2) })
  else s.modGrp r.1 (fun gr => { gr with flt := { gr.flt with owed := false, withheld := held } })

/-- A record joins those the hypervisor queue is owed at the end of the tick. -/
def State.hypOwe (s : State) (core slot : Nat) (bytes : List Byte) : State :=
  { s with hfq := { s.hfq with
      lastId := s.hfq.nextId, late := s.hfq.late ++ [{ held := false, key := recordKey s.tick core slot, bytes }] } }

/-- The hypervisor's report of the failed write of a record: the record's own group, place and lanes, the stage
that failed (R350). -/
def State.reportQueueWrite (s : State) (bytes : List Byte) (va : Nat) (e : TrErr) : State :=
  let flags := ((bytes[1]?).getD 0 &&& 0x0e) ||| 0x21 ||| (if e.stage2 then 0x10 else 0)
  let b := overwrite (overwrite bytes 0 [BitVec.ofNat 8 e.cls, flags]) 3 (leBytes 1 e.level)
  let b := overwrite (overwrite b 0x10 (leBytes 8 va)) 0x18 (leBytes 8 e.gpa)
  s.hypOwe ((bytes[12]?).getD 0).toNat ((bytes[13]?).getD 0).toNat
    (overwrite (overwrite b 0x28 (leBytes 8 s.tick)) 0x30 (leBytes 4 s.hfq.nextId))

/-- A record is written to the next slot of its queue: by system address to the hypervisor's, through the function's
two stages to a function's, where a write that fails withholds it, suspends the queue and is reported (R349, R350).
`held`: it was withheld. -/
def State.writeRecord (s : State) (q : Option Nat) (r : Nat × List Byte) (held : Bool) : State :=
  let f := s.fq q
  let k := f.widx
  let at' := f.base52 + 64 * (k % 2 ^ f.log2n)
  let bytes := withPhase r.2 (bitOf k f.log2n)
  let done (s : State) : State := (s.modFq q (fun f => { f with
    widx := (k + 1) % 2 ^ 32, held := f.held - (if held then 1 else 0) })).settleRecord q r false
  match q with
  | none => done (s.hubStore (cellsAt at' bytes) 0 (if f.ie then irqHyp else 0))
  | some v =>
    match s.hubWriteVa v at' bytes 0 (if f.ie then irqFault v else 0) with
    | .ok s => done s
    | .error e =>
      ((s.modFq q (fun f => { f with held := f.held + (if held then 0 else 1), suspended := true })).settleRecord q r true).reportQueueWrite
        r.2 at' e

/-- A record of the tick that ends: written, or withheld while its queue has no free slot, is off or suspended, or withholds an
earlier one (R346, R349, R350). (DEDUCED, log 16.) -/
def State.postRecord (s : State) (q : Option Nat) (r : Nat × List Byte) : State :=
  let f := s.fq q
  if f.room && !f.suspended && f.held = 0 then s.writeRecord q r false
  else (s.modFq q (fun f => { f with held := f.held + 1 })).settleRecord q r true

/-- Whether a queue is owed a record at the end of the tick. -/
def State.owes (s : State) (q : Option Nat) : Bool := s.unwritten q false ≠ []

/-- The tick ends: the records it raised are posted in the order of R346, the functions' first, since their writes may fail. -/
def State.postRecords (s : State) : State :=
  let fns := sortOnce ((s.groups.filter (fun p => p.2.flt.owed && !p.2.flt.hyp)).map (fun p => s.fnOf p.1) ++
    (s.fns.filter (fun p => p.2.fq.late.any (fun l => !l.held))).map (·.1))
  (fns.map some ++ [none]).foldl (fun s q => (s.unwritten q false).foldl (fun (s : State) (r : Nat × Nat × List Byte) => s.postRecord q r.2) s) s

/-- Withheld records are written, in the order of R346, while slots are free (R349, R350). -/
def State.flushRecords (s : State) (q : Option Nat) : State :=
  (s.unwritten q true).foldl (fun (s : State) (r : Nat × Nat × List Byte) => if (s.fq q).room && !(s.fq q).suspended then s.writeRecord q r.2 true else s) s

/-! ### Taking an exception (R345 to R347) -/

/-- What an instruction raises: class, reported lanes and address, WRITE, walk level, guest PA and stage of a translation
fault, whether a replay performs only the reported lanes (R269). -/
structure Raise where
  cls : Nat
  lanes : LaneMask
  addr : DWord
  write : Bool
  level : Nat
  gpa : Nat
  stage2 : Bool
  partly : Bool
  deriving DecidableEq, Repr

/-- A fault that reports nothing but its class. (DEDUCED, log 14.) -/
def plainFault (cls : Nat) : Raise :=
  { cls, lanes := 0, addr := 0, write := false, level := 0xff, gpa := 0, stage2 := false, partly := false }

/-- The package tick count as a function's virtual device counts it (R28, R427). (DEDUCED, log 89.) -/
def State.tickOf (s : State) (fn : Nat) : Nat := (((s.tick : Int) + (s.fn fn).tickOff) % 2 ^ 64).toNat

/-- The group parks with a fault; its record goes to its queue when the tick ends (R346, R349). A fault of an
operation of the group comes `beside` the group's own park, which it keeps (R290). (DEDUCED, log 87.) -/
def State.faultParkAs (s : State) (g : Nat) (r : Raise) (off planes : Nat) (nested engine beside atHeader : Bool) : State :=
  let gr := s.grp g
  let hyp := gr.mode = 2 || gr.vf = 256 || r.cls = 14
  let q : Option Nat := if hyp then none else some gr.vf
  let id := (s.fq q).nextId
  let f : FaultRec := {
    cls := r.cls, write := r.write, nested, engine, team := gr.retired, stage2 := r.stage2, planes, level := r.level
    off, lanes := r.lanes, addr := r.addr, gpa := r.gpa, time := s.tickOf gr.vf, faultId := id, hyp, core := s.coreOf g
    slot := gr.slot, owed := true, withheld := false, atHeader, rolled := false }
  (s.modFq q (fun f => { f with lastId := id })).modGrp g (fun gr =>
    if beside then { gr with engFault := true, flt := f }
    else { gr with
      park := .fault, parkArg := 0, flt := f, replay := if r.partly then r.lanes else gr.replay })

def State.faultPark (s : State) (g : Nat) (r : Raise) (off planes : Nat) (nested engine atHeader : Bool) : State :=
  s.faultParkAs g r off planes nested engine engine atHeader

/-- The trap entry (R225, R347): the four scalars, the trap-return state, TRAPPED, and the handler's offset. -/
def State.enterTrap (s : State) (entry : Nat) (v124 v125 v126 v127 : Word) : State :=
  let g := s.iss.grp
  let s := (((s.writeS g 124 v124).writeS g 125 v125).writeS g 126 v126).writeS g 127 v127
  s.modGrp g (fun gr =>
    let gr := gr.rewind s.iss
    let ret : TrapRet := {
      clause := gr.clause, nextClause := gr.nextClause, word := s.iss.idx, count := gr.count, cls := gr.cls
      unif := gr.unif, yields := gr.yields, snap := gr.snap, tilew := gr.tilew, off := gr.off, mask := gr.mask
      recOff := gr.recOff, depth := gr.stack.length }
    { (gr.goto entry) with trapped := true, trapRet := ret })

/-- The trap entry of the group's kernel, if its header names one. -/
def State.trapEntry (s : State) (g : Nat) : Option Nat := (s.launch (s.launchOf g)).trap

/-- The word in issue takes an exception with write mask `wm`: classes 1 to 3 enter the kernel's handler unless TRAPPED;
every other class, and a nested one, parks the group at the word (R346, R347). -/
def State.raise (s : State) (r : Raise) (wm : LaneMask) : State :=
  let g := s.iss.grp
  let small : Bool := 1 ≤ r.cls && r.cls ≤ 3
  match s.trapEntry g with
  | some e =>
    if small && !(s.grp g).trapped then
      s.enterTrap e (BitVec.ofNat 32 (r.cls + 256 * s.iss.planes)) (BitVec.ofNat 32 s.iss.next)
        (BitVec.ofNat 32 s.iss.off) wm
    else (s.rewind).faultPark g r s.iss.off s.iss.planes (small && (s.grp g).trapped) false false
  | none => (s.rewind).faultPark g r s.iss.off s.iss.planes (small && (s.grp g).trapped) false false

/-- The word raises ILLEGAL inside an idempotent region (R236, R286). -/
def State.noRegion (s : State) (eff : State → State) : State :=
  if (s.grp s.iss.grp).region.open_ then s.raise (plainFault 4) s.iss.mask else eff s

/-- A privileged word: ILLEGAL below its mode and inside a region (R199, R343, R356). -/
def State.inMode (s : State) (mode : Nat) (eff : State → State) : State :=
  if (s.grp s.iss.grp).mode < mode then s.raise (plainFault 4) s.iss.mask else s.noRegion eff

/-- The address a poisoned register reports (R352). -/
def poisonAddr : DWord := BitVec.allOnes 64

/-- A fault at a clause header: no faulting word, no lanes (R183). -/
def State.raiseHeader (s : State) (g cls off planes : Nat) : State :=
  s.faultPark g (plainFault cls) off planes false false true

/-- A fault that an engine operation of a group meets (R290): the group goes on with no further word. -/
def State.raiseEngine (s : State) (g : Nat) (r : Raise) (off : Nat) : State :=
  s.faultPark g r off 0 false true false

/-! ### Returning from an exception (R347, R358) -/

/-- TRET: the saved path, clause and snapshot return, TRAPPED clears, and the group continues at the faulting word or,
with `skip`, after it (R358). -/
def Group.trapReturn (gr : Group) (skip : Bool) : Group :=
  let r := gr.trapRet
  let w := if skip then r.word + 1 else r.word
  let last : Bool := r.count < w
  { gr with
    inClause := !last, clause := r.clause, nextClause := r.nextClause, word := w, count := r.count, cls := r.cls
    unif := r.unif, yields := r.yields, snap := r.snap, tilew := r.tilew, off := if last then r.nextClause else r.clause
    mask := r.mask &&& ~~~gr.exited, recOff := r.recOff, planeFrom := 0, posTags := [], brDests := []
    trapped := false, trapRet := default }

/-- The first RET or TRET clears TRAPPED (R347). -/
def Group.clearTrapped (gr : Group) : Group := { gr with trapped := false, trapRet := default }

end Sys2Proof.Machine
end

