-- ==== Sys2Proof/Machine/Operands.lean ====
section
/-!
DEFINITION. The operand forms: guards (R191), the checks of register operands (R37, R64, R76, R352), the common frame of
vector and scalar words (R238, R206), element access (R80), and address operands (R268, R273, R274, R277).
-/
namespace Sys2Proof.Machine
open Sys2Proof

/-! ### The word in issue -/

/-- The group whose word is in issue. -/
def State.cur (s : State) : Nat := s.iss.grp
/-- The active mask of this issue (R41). -/
def State.active (s : State) : LaneMask := s.iss.mask

/-- The lanes a guard selects among the active ones: the write mask (R191). -/
def State.wmask (s : State) (g : Guard) : LaneMask :=
  match g with
  | .always => s.active
  | .on p neg => s.active &&& (if neg then ~~~(s.rdP s.cur p.val) else s.rdP s.cur p.val)

/-! ### Checks of register operands (R37, R64, R76, R352) -/

/-- What a vector operand's tag must be: nothing (a destination), any tag at all, any tag of the width with MIXED read as 32-bit
(bitwise operations, moves), any tag of the width or MIXED (stores), a type or its raw tag, one of several tags. -/
inductive Need where
  | dst
  | anyTag
  | bits
  | stored
  | typed (t : Tag)
  | among (l : List Tag)
  deriving DecidableEq, Repr

/-- A vector operand: first register, number of registers, required alignment, tag requirement. -/
structure VUse where
  r : Nat
  n : Nat
  align : Nat
  w64 : Bool
  need : Need
  deriving DecidableEq, Repr

/-- A 32- or 64-bit vector operand. -/
def vUse (r : VReg) (w64 : Bool) (need : Need) : VUse :=
  { r := r.toNat, n := if w64 then 2 else 1, align := if w64 then 2 else 1, w64, need }
/-- A source read as a type, a destination of a type. -/
def vSrc (r : VReg) (t : Tag) : VUse := vUse r (t.width = 64) (.typed t)
def vDst (r : VReg) (w64 : Bool) : VUse := vUse r w64 .dst
/-- A range of registers from r. -/
def vRange (r : Nat) (n align : Nat) (need : Need) : VUse := { r, n, align, w64 := false, need }

/-- Whether a tag passes a check of an operand of 32 or 64 bits (R76).(DEDUCED, log 18.) -/
def Need.ok (need : Need) (w64 : Bool) (t : Tag) : Bool :=
  match need with
  | .dst => true
  | .anyTag => true
  | .bits => if w64 then t.width = 64 else t = .mixed || t.width = 32
  | .stored => t = .mixed || t.width = (if w64 then 64 else 32)
  | .typed u => t = u || t = rawTag (u.width = 64)
  | .among l => t ∈ l

def VUse.regs (u : VUse) : List Nat := (List.range u.n).map (u.r + ·)
def Group.tagsOk (gr : Group) (u : VUse) : Bool := u.regs.all (fun r => u.need.ok u.w64 (gr.tagOf r))
def VUse.isSrc (u : VUse) : Bool := u.need ≠ .dst

/-- The first failing check of the operands: range, alignment with the legality of the scalar operands, tags (R37, R64,
R76). (DEDUCED, log 27.) -/
def Group.check (gr : Group) (ok : Bool) (uses : List VUse) : Option Nat :=
  if uses.any (fun u => 8 * gr.blocks < u.r + u.n) then some 5
  else if !ok || uses.any (fun u => u.r % u.align ≠ 0) then some 4
  else if uses.any (fun u => !gr.tagsOk u) then some 2
  else none

/-- Whether a source register is poisoned (R352). -/
def Group.srcPoison (gr : Group) (uses : List VUse) : Bool :=
  uses.any (fun u => u.isSrc && u.regs.any (fun r => FMap.get gr.vpoison r))

/-- The fault the checks of register operands raise, if any (R238, R269, R352). -/
def State.opFault (s : State) (ok : Bool) (uses : List VUse) (wm : LaneMask) : Option Raise :=
  let gr := s.grp s.cur
  match gr.check ok uses with
  | some c => some (plainFault c)
  | none => if wm ≠ 0 && gr.srcPoison uses then some { plainFault 18 with lanes := wm, addr := poisonAddr } else none

/-- The same with no scalar operand. -/
def State.vecFault (s : State) (uses : List VUse) (wm : LaneMask) : Option Raise := s.opFault true uses wm

/-- The common effect of a vector word with one vector destination (R238): checks, then the lanes of the write mask. -/
def State.vec (s : State) (g : Guard) (srcs : List VUse) (d : VReg) (dw64 : Bool) (fmt : Tag) (val : Nat → DWord) : State :=
  let wm := s.wmask g
  match s.vecFault (vDst d dw64 :: srcs) wm with
  | some r => s.raise r wm
  | none => s.writeV s.cur d.toNat dw64 wm fmt val

/-- The common effect of a vector word that writes a per-lane predicate. -/
def State.vecPred (s : State) (g : Guard) (srcs : List VUse) (d : PReg) (val : Nat → Bool) : State :=
  let wm := s.wmask g
  match s.vecFault srcs wm with
  | some r => s.raise r wm
  | none => s.writeP s.cur d.val wm (maskOf val)

/-! ### Scalar operands (R64, R190) -/

/-- Whether a scalar operand is a legal pair when it is 64 bits wide. -/
def sPairOk (w64 : Bool) (r : SReg) : Bool := !w64 || r.toNat % 2 = 0

/-- The common effect of a scalar word: its check, then its effect; a failed check raises ILLEGAL. (DEDUCED, log 53.) -/
def State.scalar (s : State) (ok : Bool) (eff : State → State) : State :=
  if ok then eff s else s.raise (plainFault 4) s.active

/-- A scalar operand of the word in issue. -/
def State.sVal (s : State) (r : SReg) (w64 : Bool) : DWord := s.rdSW s.cur r.toNat w64

/-! ### Vector operands -/

/-- Lane l of a vector operand of the word in issue. -/
def State.vVal (s : State) (r : VReg) (w64 : Bool) (l : Nat) : DWord := s.rdVW s.cur r.toNat l w64

/-! ### Elements (R80) -/

/-- Element width and count of a type in its register or pair. -/
def tagElems : Tag → Nat × Nat
  | .i8x4 | .n8x4 | .e4m3x4 | .e5m2x4 | .de8x4 => (8, 4)
  | .i16x2 | .n16x2 | .f16x2 | .bf16x2 => (16, 2)
  | .f16 | .bf16 => (16, 1)
  | .i4x8 | .de4x8 => (4, 8)
  | .f32x2 => (32, 2)
  | .b64 | .i64 | .n64 | .f64 => (64, 1)
  | _ => (32, 1)

def tagSigned (t : Tag) : Bool := t ∈ [Tag.i8x4, .i16x2, .i32, .i64, .i4x8]

/-- Element j, of width w, of a register value. -/
def elemOf (v : DWord) (w j : Nat) : Nat := (v.toNat / 2 ^ (w * j)) % 2 ^ w
/-- A register value from its elements. -/
def fromElems (w n : Nat) (f : Nat → Nat) : DWord :=
  BitVec.ofNat 64 ((List.range n).foldl (fun acc j => acc + (f j % 2 ^ w) * 2 ^ (w * j)) 0)

/-- An elementwise operation over a type (R238). -/
def mapElems (t : Tag) (f : Nat → Nat → Nat → Nat) (a b c : DWord) : DWord :=
  let (w, n) := tagElems t
  fromElems w n (fun j => f (elemOf a w j) (elemOf b w j) (elemOf c w j))

/-- The standard elementwise vector word of a type with the named number of sources (R238, R193). -/
def State.elementwise (s : State) (o : VOp) (arity : Nat) (f : Nat → Nat → Nat → Nat) : State :=
  let w64 : Bool := o.ty.width = 64
  let srcs := [vSrc o.a o.ty] ++ (if 2 ≤ arity then [vSrc o.b o.ty] else []) ++ (if 3 ≤ arity then [vSrc o.c o.ty] else [])
  s.vec o.g srcs o.d w64 o.ty (fun l =>
    mapElems o.ty f (s.vVal o.a w64 l)
      (if 2 ≤ arity then s.vVal o.b w64 l else 0) (if 3 ≤ arity then s.vVal o.c w64 l else 0))

/-! ### Integers of a width (R81) -/

/-- The value of an element of a width, signed or unsigned. -/
def toZ (w : Nat) (sg : Bool) (v : Nat) : Int := if sg && 2 ^ (w - 1) ≤ v then (v : Int) - 2 ^ w else v
/-- An integer as an element: modulo 2^w, or clamped to the type's range. -/
def ofZ (w : Nat) (sg sat : Bool) (z : Int) : Nat :=
  let lo : Int := if sg then -(2 ^ (w - 1)) else 0
  let hi : Int := if sg then 2 ^ (w - 1) - 1 else 2 ^ w - 1
  let z := if sat then (if z < lo then lo else if hi < z then hi else z) else z
  (z % (2 ^ w : Int)).toNat

/-! ### Address operands (R268, R273, R274, R277) -/

/-- The tags an index register is read under (R268, R273). -/
def idxTags : List Tag := [.i32, .n32, .b32]

/-- An index value: sign-extended under I32, else zero-extended (R268). -/
def State.index64 (s : State) (r : VReg) (l : Nat) : DWord :=
  let v := s.rdV s.cur r.toNat l
  if (s.grp s.cur).tagOf r.toNat = .i32 then v.signExtend 64 else v.zeroExtend 64

/-- The offset terms of a global operand: index times scale, plus displacement, modulo 2^64 (R268). -/
def State.gOffset (s : State) (a : GAddr) (l : Nat) : DWord :=
  (match a.idx with
   | none => 0
   | some (r, sh) => s.index64 r l <<< sh.toNat) + a.disp.signExtend 64

/-- The base of a global operand: a base translation register, or none for a scalar pair. -/
def State.btOf (s : State) (b : BReg) : BtReg := FMap.get (s.grp s.cur).bts b.toNat

def State.gBase (s : State) (b : GBase) : DWord :=
  match b with
  | .bt b => (s.btOf b).base
  | .s n => s.sVal n true

/-- The virtual address of a base and an offset (R68, R268). -/
def State.gVa (s : State) (b : GBase) (off : DWord) : Nat := (s.gBase b + off).toNat

/-- Where an access at an offset of a base goes (R68, R369). -/
def State.gReach (s : State) (b : GBase) (off : DWord) (write : Bool) : Reach :=
  match b with
  | .bt r => s.reachBt s.cur (s.btOf r) off.toNat write
  | .s n => s.reachVa s.cur (s.sVal n true + off).toNat write

/-- The base is usable: a valid base translation register, an even scalar pair (R64, R68). -/
def State.gBaseOk (s : State) (b : GBase) : Bool :=
  match b with
  | .bt b => (s.btOf b).valid
  | .s n => sPairOk true n

/-- The vector operands of an index. -/
def idxUse (i : Option (VReg × BitVec 2)) : List VUse :=
  match i with
  | none => []
  | some (r, _) => [vUse r false (.among idxTags)]

/-- The address check of R105 over the lanes of a mask: class and lowest lane, canonical form before alignment. -/
def addrFault (m : LaneMask) (va : Nat → Nat) (size : Nat) : Option (Nat × Nat) :=
  match (lanesOf m).find? (fun l => 2 ^ 57 ≤ va l) with
  | some l => some (12, l)
  | none =>
    match (lanesOf m).find? (fun l => va l % size ≠ 0) with
    | some l => some (3, l)
    | none => none

/-- A scratch offset: the register read unsigned plus the displacement, without wrap (R273). -/
def State.scrOffset (s : State) (a : VReg) (disp : BitVec 12) (l : Nat) : Nat :=
  (s.rdV s.cur a.toNat l).toNat + disp.toNat

/-- A parameter offset (R274). -/
def State.pmOffset (s : State) (p : PmAddr) : Nat := (s.rdS s.cur p.s.toNat).toNat + p.disp.toNat

/-- Bytes of an access width (R270), and whether it writes a pair or four registers. -/
def widthBytes (w : BitVec 3) : Nat :=
  match w.toNat with
  | 0 | 1 => 1 | 2 | 3 => 2 | 4 => 4 | 5 => 8 | _ => 16
def widthRegs (w : BitVec 3) : Nat :=
  match w.toNat with
  | 5 => 2 | 6 => 4 | _ => 1
def widthSext (w : BitVec 3) : Bool := w.toNat = 1 || w.toNat = 3

end Sys2Proof.Machine
end

