-- ==== Sys2Proof/Machine/Float.lean ====
section
/-!
DEFINITION. Floating-point arithmetic (R80 to R95): values are exact dyadic numbers, every result is rounded once.
-/
namespace Sys2Proof.Machine
open Sys2Proof

/-! ### Values and formats (R82, R84, R88) -/

/-- An exact value: a finite one is (-1)^neg m 2^e, with a signed zero. -/
inductive FVal where
  | nan
  | inf (neg : Bool)
  | fin (neg : Bool) (m : Nat) (e : Int)
  deriving DecidableEq, Repr, Inhabited

/-- A binary format: exponent and fraction widths and bias; `noInf` marks E4M3, which has no infinity (R88). -/
structure FFmt where
  eb : Nat
  fb : Nat
  bias : Nat
  noInf : Bool
  deriving DecidableEq, Repr

def fF16 : FFmt := { eb := 5, fb := 10, bias := 15, noInf := false }
def fBF16 : FFmt := { eb := 8, fb := 7, bias := 127, noInf := false }
def fF32 : FFmt := { eb := 8, fb := 23, bias := 127, noInf := false }
def fF64 : FFmt := { eb := 11, fb := 52, bias := 1023, noInf := false }
def fE4M3 : FFmt := { eb := 4, fb := 3, bias := 7, noInf := true }
def fE5M2 : FFmt := { eb := 5, fb := 2, bias := 15, noInf := false }

/-- The format of the elements of a float type (R80). -/
def floatFmt : Tag → FFmt
  | .f16 | .f16x2 => fF16
  | .bf16 | .bf16x2 => fBF16
  | .f64 => fF64
  | .e4m3x4 => fE4M3
  | .e5m2x4 => fE5M2
  | _ => fF32

def isFloatTag (t : Tag) : Bool := t ∈ [Tag.f16, .bf16, .f32, .f64, .f16x2, .bf16x2, .f32x2, .e4m3x4, .e5m2x4]

/-- Largest exponent field and fraction of finite values. -/
def FFmt.maxField (f : FFmt) : Nat := if f.noInf then 2 ^ f.eb - 1 else 2 ^ f.eb - 2
def FFmt.maxFrac (f : FFmt) : Nat := if f.noInf then 2 ^ f.fb - 2 else 2 ^ f.fb - 1
def FFmt.signBit (f : FFmt) (neg : Bool) : Nat := if neg then 2 ^ (f.eb + f.fb) else 0
/-- The canonical NaN (R84). -/
def FFmt.nan (f : FFmt) : Nat := if f.noInf then 2 ^ (f.eb + f.fb) - 1 else (2 ^ f.eb - 1) * 2 ^ f.fb + 2 ^ (f.fb - 1)
def FFmt.inf (f : FFmt) (neg : Bool) : Nat := f.signBit neg + (2 ^ f.eb - 1) * 2 ^ f.fb
def FFmt.big (f : FFmt) (neg : Bool) : Nat := f.signBit neg + f.maxField * 2 ^ f.fb + f.maxFrac

/-- The value of a bit pattern (R82, R88). -/
def FFmt.val (f : FFmt) (v : Nat) : FVal :=
  let neg : Bool := bitOf v (f.eb + f.fb)
  let ex := bitsOf v (f.eb + f.fb - 1) f.fb
  let fr := v % 2 ^ f.fb
  if !f.noInf && ex = 2 ^ f.eb - 1 then (if fr = 0 then .inf neg else .nan)
  else if f.noInf && ex = 2 ^ f.eb - 1 && fr = 2 ^ f.fb - 1 then .nan
  else if ex = 0 then .fin neg fr (1 - (f.bias : Int) - f.fb)
  else .fin neg (2 ^ f.fb + fr) ((ex : Int) - f.bias - f.fb)

/-! ### Rounding (R86, R87) -/

/-- Whether a magnitude is rounded up: from the integer part, how the rest compares with a half, and whether any rest
is there. -/
def roundUp (r : Rnd) (neg : Bool) (n : Nat) (half : Ordering) (inexact : Bool) : Bool :=
  match r with
  | .rne => half = .gt || (half = .eq && n % 2 = 1)
  | .rna => half = .gt || half = .eq
  | .rtz => false
  | .rdn => inexact && neg
  | .rup => inexact && !neg

/-- The magnitude m 2^e (and a little more when `sticky`) rounded to a multiple of 2^u, as that multiple. -/
def roundAt (r : Rnd) (neg sticky : Bool) (m : Nat) (e u : Int) : Nat :=
  let k := (u - e).toNat
  let m := if u < e then m * 2 ^ (e - u).toNat else m
  let n := m / 2 ^ k
  let rest := m % 2 ^ k
  let half : Ordering :=
    if k = 0 then .lt
    else if rest < 2 ^ (k - 1) then .lt
    else if rest = 2 ^ (k - 1) && !sticky then .eq
    else .gt
  if roundUp r neg n half (rest ≠ 0 || sticky) then n + 1 else n

/-- The overflow result of a mode (R87). -/
def FFmt.overflow (f : FFmt) (r : Rnd) (sat neg : Bool) : Nat :=
  let value := if sat then f.big neg else if f.noInf then f.nan else f.inf neg
  match r with
  | .rne | .rna => value
  | .rtz => f.big neg
  | .rdn => if neg then value else f.big false
  | .rup => if neg then f.big true else value

/-- A finite magnitude rounded once to a format (R83, R86, R87). -/
def FFmt.round (f : FFmt) (r : Rnd) (sat neg sticky : Bool) (m : Nat) (e : Int) : Nat :=
  if m = 0 && !sticky then f.signBit neg
  else
    let top : Int := (Nat.log2 m : Int) + e
    let u : Int := max (top - (f.fb : Int)) (1 - (f.bias : Int) - (f.fb : Int))
    let n := roundAt r neg sticky m e u
    let (n, u) := if n = 2 ^ (f.fb + 1) then (2 ^ f.fb, u + 1) else (n, u)
    if n < 2 ^ f.fb then f.signBit neg + n
    else
      let field := (u + f.fb + f.bias).toNat
      let frac := n - 2 ^ f.fb
      if f.maxField < field || (field = f.maxField && f.maxFrac < frac) then f.overflow r sat neg
      else f.signBit neg + field * 2 ^ f.fb + frac

/-- A value in a format: rounded once; an infinity keeps its sign where the format has one (R84, R87). -/
def FFmt.pack (f : FFmt) (r : Rnd) (sat : Bool) (v : FVal) : Nat :=
  match v with
  | .nan => f.nan
  | .inf neg => if sat then f.big neg else if f.noInf then f.nan else f.inf neg
  | .fin neg m e => f.round r sat neg false m e

/-! ### Exact operations (R246, R247) -/

def FVal.neg : FVal → FVal
  | .nan => .nan
  | .inf s => .inf !s
  | .fin s m e => .fin (!s) m e

/-- The signed integer of a finite value at an exponent not above its own. -/
def finInt (s : Bool) (m : Nat) (e u : Int) : Int :=
  let z : Int := (m : Int) * 2 ^ (e - u).toNat
  if s then -z else z

/-- The exact sum; an exact zero of opposite signs is +0, or -0 under .rdn (R86). -/
def FVal.add (r : Rnd) (a b : FVal) : FVal :=
  match a, b with
  | .nan, _ => .nan
  | _, .nan => .nan
  | .inf s, .inf t => if s = t then .inf s else .nan
  | .inf s, .fin _ _ _ => .inf s
  | .fin _ _ _, .inf t => .inf t
  | .fin s m e, .fin t n f =>
    if m = 0 && n = 0 then (if s = t then .fin s 0 0 else .fin (r = .rdn) 0 0)
    else
      let u := min e f
      let z := finInt s m e u + finInt t n f u
      if z = 0 then .fin (r = .rdn) 0 0 else .fin (z < 0) z.natAbs u

/-- The exact product (R246). -/
def FVal.mul (a b : FVal) : FVal :=
  match a, b with
  | .nan, _ => .nan
  | _, .nan => .nan
  | .inf s, .inf t => .inf (s ^^ t)
  | .inf s, .fin t n _ => if n = 0 then .nan else .inf (s ^^ t)
  | .fin s m _, .inf t => if m = 0 then .nan else .inf (s ^^ t)
  | .fin s m e, .fin t n f => .fin (s ^^ t) (m * n) (e + f)

/-- The order of two values that are no NaN, zeros of both signs equal. -/
def FVal.cmp (a b : FVal) : Ordering :=
  match a, b with
  | .inf s, .inf t => if s = t then .eq else if s then .lt else .gt
  | .inf s, _ => if s then .lt else .gt
  | _, .inf t => if t then .gt else .lt
  | .fin s m e, .fin t n f =>
    let u := min e f
    compare (finInt s m e u) (finInt t n f u)
  | _, _ => .eq

def FVal.isNan (a : FVal) : Bool := a = .nan
def FVal.negative : FVal → Bool
  | .nan => false
  | .inf s => s
  | .fin s _ _ => s

/-- minimumNumber and maximumNumber with -0 below +0 (R85). -/
def FVal.minmax (mx : Bool) (a b : FVal) : FVal :=
  match a, b with
  | .nan, b => b
  | a, .nan => a
  | a, b =>
    match a.cmp b with
    | .lt => if mx then b else a
    | .gt => if mx then a else b
    | .eq => if mx then (if a.negative then b else a) else (if a.negative then a else b)

/-- Results in a format on bit patterns. -/
def fAdd (f : FFmt) (r : Rnd) (a b : Nat) : Nat := f.pack r false ((f.val a).add r (f.val b))
def fSub (f : FFmt) (r : Rnd) (a b : Nat) : Nat := f.pack r false ((f.val a).add r (f.val b).neg)
def fMul (f : FFmt) (r : Rnd) (a b : Nat) : Nat := f.pack r false ((f.val a).mul (f.val b))
def fFma (f : FFmt) (r : Rnd) (a b c : Nat) : Nat := f.pack r false (((f.val a).mul (f.val b)).add r (f.val c))
def fNma (f : FFmt) (r : Rnd) (a b c : Nat) : Nat := f.pack r false (((f.val a).mul (f.val b)).neg.add r (f.val c))
def fMin (f : FFmt) (a b : Nat) : Nat := f.pack .rne false ((f.val a).minmax false (f.val b))
def fMax (f : FFmt) (a b : Nat) : Nat := f.pack .rne false ((f.val a).minmax true (f.val b))
def fAbs (f : FFmt) (a : Nat) : Nat := a % 2 ^ (f.eb + f.fb)
def fNeg (f : FFmt) (a : Nat) : Nat := Nat.xor a (2 ^ (f.eb + f.fb))
def fCopySign (f : FFmt) (a b : Nat) : Nat := a % 2 ^ (f.eb + f.fb) + f.signBit (bitOf b (f.eb + f.fb))
/-- The canonical NaN for a NaN, other bits unchanged (R84). -/
def fCanon (f : FFmt) (a : Nat) : Nat := if (f.val a).isNan then f.nan else a

/-- A relation of floats (R248). -/
def relFloat (rel : Rel) (a b : FVal) : Bool :=
  if a.isNan || b.isNan then (match rel with | .ne | .un => true | _ => false)
  else
    match rel with
    | .eq => a.cmp b = .eq
    | .ne => a.cmp b ≠ .eq
    | .lt => a.cmp b = .lt
    | .le => a.cmp b ≠ .gt
    | .gt => a.cmp b = .gt
    | .ge => a.cmp b ≠ .lt
    | .un => false
    | .ord => true

/-- The one-hot class of a value (R248). -/
def fClass (f : FFmt) (a : Nat) : Nat :=
  match f.val a with
  | .nan => 2 ^ 8
  | .inf s => if s then 1 else 2 ^ 7
  | .fin s m _ =>
    if m = 0 then (if s then 2 ^ 3 else 2 ^ 4)
    else if m < 2 ^ f.fb then (if s then 2 ^ 2 else 2 ^ 5)
    else if s then 2 else 2 ^ 6

/-! ### Conversions (R93 to R95) -/

/-- A float to an integer type: rounded in the mode, clamped; NaN to 0 (R94). -/
def floatToInt (r : Rnd) (w : Nat) (sg : Bool) (v : FVal) : Nat :=
  match v with
  | .nan => 0
  | .inf neg => if neg then (if sg then 2 ^ (w - 1) else 0) else (if sg then 2 ^ (w - 1) - 1 else 2 ^ w - 1)
  | .fin neg m e =>
    let n : Int := roundAt r neg false m e 0
    ofZ w sg true (if neg then -n else n)

/-- An integer as an exact value. -/
def intVal (z : Int) : FVal := .fin (z < 0) z.natAbs 0

/-- Width and signedness of an integer type's element. -/
def intShape (t : Tag) : Nat × Bool := ((tagElems t).1, tagSigned t)

/-- One element converted from type to type (R252). With .sat every integer to integer conversion clamps, widening
too, so that a negative value becomes 0 in a wider unsigned type. (DEDUCED, log 30; DESIGN CHOICE, log 155.) -/
def cvtElem (src dst : Tag) (r : Rnd) (sat : Bool) (v : Nat) : Nat :=
  if isFloatTag src then
    let x := (floatFmt src).val v
    if isFloatTag dst then (floatFmt dst).pack r (sat && (tagElems dst).1 ≤ (tagElems src).1) x
    else floatToInt r (intShape dst).1 (intShape dst).2 x
  else
    let z := toZ (intShape src).1 (intShape src).2 v
    if isFloatTag dst then (floatFmt dst).pack r sat (intVal z)
    else ofZ (intShape dst).1 (intShape dst).2 sat z

/-! ### Reciprocal and square roots (R250) -/

/-- Integer square root, bit by bit from the top. -/
def isqrtFrom (n : Nat) : Nat → Nat → Nat
  | 0, r => r
  | k + 1, r => if (r + 2 ^ k) * (r + 2 ^ k) ≤ n then isqrtFrom n k (r + 2 ^ k) else isqrtFrom n k r
def isqrt (n : Nat) : Nat := isqrtFrom n (Nat.log2 n / 2 + 1) 0

/-- 1 / a (R250). -/
def fRcp (f : FFmt) (r : Rnd) (a : Nat) : Nat :=
  match f.val a with
  | .nan => f.nan
  | .inf s => f.signBit s
  | .fin s m e =>
    if m = 0 then f.inf s
    else
      let n := 2 ^ (2 * f.fb + 8 + Nat.log2 m)
      f.round r false s (n % m ≠ 0) (n / m) (-e - (2 * f.fb + 8 + Nat.log2 m : Nat))

/-- The square root (R250). -/
def fSqrt (f : FFmt) (r : Rnd) (a : Nat) : Nat :=
  match f.val a with
  | .nan => f.nan
  | .inf s => if s then f.nan else f.inf false
  | .fin s m e =>
    if m = 0 then f.signBit s
    else if s then f.nan
    else
      let k : Nat := 2 * f.fb + 8
      let k := if (e - k) % 2 = 0 then k else k + 1
      let n := m * 2 ^ k
      let q := isqrt n
      f.round r false false (q * q ≠ n) q ((e - k) / 2)

/-- 1 / sqrt a, to nearest (R250). -/
def fRsqrt (f : FFmt) (a : Nat) : Nat :=
  match f.val a with
  | .nan => f.nan
  | .inf s => if s then f.nan else f.signBit false
  | .fin s m e =>
    if m = 0 then f.inf s
    else if s then f.nan
    else
      let (m, e) := if e % 2 = 0 then (m, e) else (2 * m, e - 1)
      let k : Nat := 2 * f.fb + 16 + Nat.log2 m
      let n := 2 ^ (2 * k)
      let q := isqrt (n / m)
      f.round .rne false false (q * q * m ≠ n) q (-(e / 2) - k)

/-! ### Fixed-point functions (R250)

Numbers are multiples of 2^-512; the errors of the sums stay below 2^-490, far under the distance at which a value of
these functions at an F32 operand lies from a rounding boundary. -/

/-- (UNVERIFIED, log 32.) -/
def fxP : Nat := 512
def fxOne : Nat := 2 ^ fxP

/-- ln 2 as the sum of 1 / (k 2^k). -/
def fxLn2Sum : Nat → Nat
  | 0 => 0
  | k + 1 => fxOne / ((k + 1) * 2 ^ (k + 1)) + fxLn2Sum k
def fxLn2 : Nat := fxLn2Sum 540

/-- arctan (1/n) by its series, k terms from term j on. -/
def fxAtanInv (n : Nat) : Nat → Nat → Int
  | 0, _ => 0
  | k + 1, j =>
    let t : Int := (fxOne : Int) / ((2 * j + 1) * n ^ (2 * j + 1) : Nat)
    (if j % 2 = 0 then t else -t) + fxAtanInv n k (j + 1)
/-- pi by Machin's formula. -/
def fxPi : Nat := (16 * fxAtanInv 5 120 0 - 4 * fxAtanInv 239 40 0).toNat

/-- e^x for 0 <= x < 1: the terms from one on. -/
def fxExpFrom (x : Nat) : Nat → Nat → Nat → Nat
  | 0, _, _ => 0
  | n + 1, k, t =>
    let t := t * x / fxOne / k
    t + fxExpFrom x n (k + 1) t
def fxExp (x : Nat) : Nat := fxOne + fxExpFrom x 120 1 fxOne

/-- sin x for 0 <= x <= 2: the terms from x on. -/
def fxSinFrom (x : Nat) : Nat → Nat → Nat → Int
  | 0, _, _ => 0
  | n + 1, k, t =>
    let u := t * x / fxOne * x / fxOne / ((k + 1) * (k + 2))
    (t : Int) - fxSinFrom x n (k + 2) u
def fxSin (x : Nat) : Nat := (fxSinFrom x 80 1 x).toNat

/-- artanh z for 0 <= z <= 1/3. -/
def fxAtanhFrom (z2 : Nat) : Nat → Nat → Nat → Nat
  | 0, _, _ => 0
  | n + 1, k, t => t / k + fxAtanhFrom z2 n (k + 2) (t * z2 / fxOne)
def fxAtanh (z : Nat) : Nat := fxAtanhFrom (z * z / fxOne) 180 1 z

/-- A dyadic m 2^e as a multiple of 2^-512. -/
def fxOf (m : Nat) (e : Int) : Nat :=
  if 0 ≤ e + fxP then m * 2 ^ (e + fxP).toNat else m / 2 ^ (-(e + fxP)).toNat

/-- A positive fixed-point result, not exact, rounded to F32. -/
def fxRound (neg : Bool) (m : Nat) (e : Int) : Nat := fF32.round .rne false neg true m (e - fxP)

/-- 2^a on F32 (R250). -/
def fExp2 (a : Nat) : Nat :=
  match fF32.val a with
  | .nan => fF32.nan
  | .inf s => if s then 0 else fF32.inf false
  | .fin s m e =>
    if m = 0 then 0x3f800000
    else if !s && 2 ^ 7 * 2 ^ 149 ≤ m * 2 ^ (e + 149).toNat then fF32.inf false
    else if s && 2 ^ 8 * 2 ^ 149 ≤ m * 2 ^ (e + 149).toNat then 0
    else
      let z : Int := (if s then -1 else 1) * (m : Int) * 2 ^ (e + 149).toNat
      let n : Int := z / 2 ^ 149
      let fr := (z - n * 2 ^ 149).toNat
      if fr = 0 then fF32.round .rne false false false 1 n
      else fxRound false (fxExp (fr * 2 ^ (fxP - 149) * fxLn2 / fxOne)) n

/-- log2 a on F32 (R250). -/
def fLog2 (a : Nat) : Nat :=
  match fF32.val a with
  | .nan => fF32.nan
  | .inf s => if s then fF32.nan else fF32.inf false
  | .fin s m e =>
    if m = 0 then fF32.inf true
    else if s then fF32.nan
    else
      let k := Nat.log2 m
      let n : Int := e + k
      if m = 2 ^ k then fF32.pack .rne false (intVal n)
      else
        let y := m * 2 ^ (fxP - k)
        let z := (y - fxOne) * fxOne / (y + fxOne)
        let v : Int := n * fxOne + 2 * fxAtanh z * fxOne / fxLn2
        fxRound (v < 0) v.natAbs 0

/-- sin (pi t) for t = fr / 2^150 with 0 < fr < 2^150, in multiples of 2^-512. -/
def fxSinPi (fr : Nat) : Nat :=
  let fr := if 2 ^ 149 < fr then 2 ^ 150 - fr else fr
  fxSin (fr * 2 ^ (fxP - 150) * fxPi / fxOne)

/-- The fraction of a magnitude modulo 2 in multiples of 2^-150. -/
def fracMod2 (m : Nat) (e : Int) : Nat := (m * 2 ^ (e + 150).toNat) % 2 ^ 151

/-- sin (pi a) on F32 (R250). -/
def fSinPi (a : Nat) : Nat :=
  match fF32.val a with
  | .nan => fF32.nan
  | .inf _ => fF32.nan
  | .fin s m e =>
    let t := fracMod2 m e
    if t % 2 ^ 150 = 0 then fF32.signBit s
    else
      let neg : Bool := s ^^ (2 ^ 150 ≤ t)
      let fr := t % 2 ^ 150
      if fr = 2 ^ 149 then fF32.signBit neg + 0x3f800000 else fxRound neg (fxSinPi fr) 0

/-- cos (pi a) on F32 (R250): the sine of a half more. -/
def fCosPi (a : Nat) : Nat :=
  match fF32.val a with
  | .nan => fF32.nan
  | .inf _ => fF32.nan
  | .fin _ m e =>
    let t := (fracMod2 m e + 2 ^ 149) % 2 ^ 151
    if t % 2 ^ 150 = 0 then 0
    else
      let neg : Bool := 2 ^ 150 ≤ t
      let fr := t % 2 ^ 150
      if fr = 2 ^ 149 then fF32.signBit neg + 0x3f800000 else fxRound neg (fxSinPi fr) 0

/-- tanh a on F32 (R250). -/
def fTanh (a : Nat) : Nat :=
  match fF32.val a with
  | .nan => fF32.nan
  | .inf s => fF32.signBit s + 0x3f800000
  | .fin s m e =>
    if m = 0 then fF32.signBit s
    else if 2 ^ 4 * 2 ^ 149 ≤ m * 2 ^ (e + 149).toNat then fF32.signBit s + 0x3f800000
    else
      let x := fxOf m (e + 1)
      let n := x * fxOne / fxLn2 / fxOne
      let ex := fxExp (x - n * fxLn2) * 2 ^ n
      fxRound s ((ex - fxOne) * fxOne / (ex + fxOne)) 0

/-! ### Dual-exponent blocks (R89 to R92) -/

/-- The value of an element with its selected exponent byte (R89). -/
def deVal (de4 : Bool) (el e0 e1 : Nat) : FVal :=
  let sel := if de4 then bitOf el 3 else bitOf el 7
  let s := if de4 then bitOf el 2 else bitOf el 6
  let m := if de4 then el % 4 else el % 64
  let e := if sel then e1 else e0
  if e = 0xff then .nan
  else if m = 0 then .fin false 0 0
  else .fin s m ((e : Int) - (if de4 then 128 else 132))

/-- floor (log2) of a finite magnitude that is not zero. -/
def FVal.log2 : FVal → Int
  | .fin _ m e => (Nat.log2 m : Int) + e
  | _ => 0

/-- pack_block (R91): E0, E1 and the 32 elements. -/
def packBlock (de4 : Bool) (delta : Nat) (x : List FVal) : Nat × Nat × List Nat :=
  let bad := x.any (fun v => match v with | .fin _ _ _ => false | _ => true)
  let selBit := if de4 then 8 else 128
  let sBit := if de4 then 4 else 64
  if bad then (0, 0xff, x.map (fun _ => selBit))
  else
    let mmax := if de4 then 3 else 63
    let sh : Int := if de4 then 1 else 5
    let e1 : Nat := x.foldl (fun acc v =>
      match v with
      | .fin _ m _ => if m = 0 then acc else max acc (v.log2 + 127).toNat
      | _ => acc) 0
    let e0 := e1 - delta
    let scaled (m : Nat) (e : Int) (ex : Nat) : Nat := roundAt .rne false false m (e + 127 + sh - ex) 0
    (e0, e1, x.map (fun v =>
      match v with
      | .fin s m e =>
        let m0 := scaled m e e0
        let (sel, n) := if m0 ≤ mmax then (0, m0) else (selBit, min (scaled m e e1) mmax)
        if n = 0 then 0 else sel + (if s then sBit else 0) + n
      | _ => 0))

end Sys2Proof.Machine
end

