-- ==== Sys2Proof/Machine/Integer.lean ====
section
/-!
DEFINITION. Integer arithmetic on elements of a width (R81, R208, R209, R242, R243, R266): operands and results are the
bits as numbers below 2^w.
-/
namespace Sys2Proof.Machine
open Sys2Proof

/-- An operation computed on the exact integers and then wrapped or clamped (R81). -/
def intOp2 (sg sat : Bool) (f : Int → Int → Int) (w a b : Nat) : Nat := ofZ w sg sat (f (toZ w sg a) (toZ w sg b))
def intOp1 (sg sat : Bool) (f : Int → Int) (w a : Nat) : Nat := ofZ w sg sat (f (toZ w sg a))
def intOp3 (sg sat : Bool) (f : Int → Int → Int → Int) (w a b c : Nat) : Nat :=
  ofZ w sg sat (f (toZ w sg a) (toZ w sg b) (toZ w sg c))

/-- The high half of the exact double-width product (R208, R242). -/
def intMulHi (sg : Bool) (w a b : Nat) : Nat := ofZ w sg false ((toZ w sg a * toZ w sg b) / 2 ^ w)
/-- Division truncated toward zero; by zero, all ones (R209). -/
def intDiv (sg : Bool) (w a b : Nat) : Nat :=
  if b = 0 then 2 ^ w - 1 else ofZ w sg false (Int.tdiv (toZ w sg a) (toZ w sg b))
/-- The remainder; by zero, the dividend (R209). -/
def intRem (sg : Bool) (w a b : Nat) : Nat :=
  if b = 0 then a else ofZ w sg false (Int.tmod (toZ w sg a) (toZ w sg b))

/-- Shifts by an unsigned count; a count at or above the width empties the value or fills it with the sign (R209, R243). -/
def shlN (w a n : Nat) : Nat := if w ≤ n then 0 else (a * 2 ^ n) % 2 ^ w
def shrN (w a n : Nat) : Nat := if w ≤ n then 0 else a / 2 ^ n
def sarN (w a n : Nat) : Nat :=
  if w ≤ n then (if 2 ^ (w - 1) ≤ a then 2 ^ w - 1 else 0) else ofZ w true false (toZ w true a / 2 ^ n)
/-- Rotation left by the count modulo the width. -/
def rotlN (w a n : Nat) : Nat :=
  let k := n % w
  (a * 2 ^ k) % 2 ^ w + a / 2 ^ (w - k)

/-- Number of set bits of a w-bit value. -/
def popN (w a : Nat) : Nat := ((List.range w).filter (fun i => bitOf a i)).length
/-- Leading zero bits: w for 0. -/
def clzN (w a : Nat) : Nat := ((List.range w).takeWhile (fun i => !bitOf a (w - 1 - i))).length
/-- Trailing zero bits: w for 0. -/
def ctzN (w a : Nat) : Nat := ((List.range w).takeWhile (fun i => !bitOf a i)).length
/-- Bits reversed. -/
def revN (w a : Nat) : Nat := (List.range w).foldl (fun acc i => 2 * acc + (if bitOf a i then 1 else 0)) 0

/-- Bitwise operations. -/
def andN (a b : Nat) : Nat := Nat.land a b
def orN (a b : Nat) : Nat := Nat.lor a b
def xorN (a b : Nat) : Nat := Nat.xor a b
def andnN (w a b : Nat) : Nat := Nat.land a (2 ^ w - 1 - b % 2 ^ w)

end Sys2Proof.Machine
end

