-- ==== Sys2Proof/Machine/Access.lean ====
section
/-!
DEFINITION. The shared course of a word that reaches memory (R269): the translation of its lanes, the hold while a walk
runs, the lanes that perform, the park of the rest with the lanes a replay performs; outstanding operations and their
delivery (R185); accesses that set out for their place (R117); the new value of an atomic (R277, R280).
-/
namespace Sys2Proof.Machine
open Sys2Proof

/-! ### Orders the hardware chooses -/

def hasDup : List Nat → Bool
  | [] => false
  | a :: t => a ∈ t || hasDup t

/-- A list in the order of keys. -/
def sortByKey (key : Nat → Nat) (l : List Nat) : List Nat :=
  l.foldl (fun acc a => acc.takeWhile (fun b => key b ≤ key a) ++ a :: acc.dropWhile (fun b => key b ≤ key a)) []

/-- The order in which lanes of one word perform where two name one address: any (R271, R278). -/
def State.laneOrder (s : State) (lanes : List Nat) (addr : Nat → Nat) : List Nat × State :=
  if hasDup (lanes.map addr) then
    (sortByKey (fun l => Config.choose (s.freeCtr + l)) lanes, { s with freeCtr := s.freeCtr + 32 })
  else (lanes, s)

/-! ### Translating the lanes of a word (R269, R369) -/

/-- The lanes of a word sorted by what translation gives: pages to walk, I/O pages to ask for, lanes with their place,
lanes that cannot perform. -/
structure Gathered where
  walks : List (Nat × Bool)
  atss : List (Nat × Bool)
  pulls : List Nat
  good : List (Nat × Target)
  bad : List (Nat × Reach)

def gatherLane (write : Bool) (acc : Gathered) (l : Nat) (r : Reach) : Gathered :=
  match r with
  | .at t => { acc with good := acc.good ++ [(l, t)] }
  | .walk p => { acc with walks := if (p, write) ∈ acc.walks then acc.walks else acc.walks ++ [(p, write)] }
  | .ats p => { acc with atss := if (p, write) ∈ acc.atss then acc.atss else acc.atss ++ [(p, write)] }
  | .pull p => { acc with pulls := if p ∈ acc.pulls then acc.pulls else acc.pulls ++ [p] }
  | r => { acc with bad := acc.bad ++ [(l, r)] }

/-- The lanes of a list through a translation. -/
def gather (lanes : List Nat) (write : Bool) (reach : Nat → Reach) : Gathered :=
  lanes.foldl (fun acc l => gatherLane write acc l (reach l)) ⟨[], [], [], [], []⟩

def Gathered.waits (g : Gathered) : Bool := g.walks ≠ [] || g.atss ≠ [] || g.pulls ≠ []

/-- A page of a migrating device that has not arrived is pulled before an access goes on (R428). -/
def State.orPull (s : State) (r : Reach) : Reach :=
  match r with
  | .at (.hbm spa _) =>
    match s.absentAt spa with
    | some p => .pull p
    | none => r
  | r => r

/-- The word is held at issue (R369): the group stands at it again. -/
def State.holdWord (s : State) (g : Gathered) : State :=
  let s := g.pulls.foldl (fun s p => s.askPull p) s
  s.modGrp s.cur (fun gr => { (gr.rewind s.iss) with held := true, heldWalk := g.walks, heldAts := g.atss })

/-- The word is held without anything to translate: it issues again at the group's next turn. (DEDUCED, log 43.) -/
def State.holdAgain (s : State) : State := s.holdWord ⟨[], [], [], [], []⟩

/-- What a word that has performed leaves of its translations and of a replay. -/
def Group.settled (gr : Group) : Group := { gr with walked := [], refused := [], replay := 0, replayOp := 0 }

/-- The I/O pages that the lanes which could not perform ask for, each once. -/
def askedPages (bad : List (Nat × Reach)) : List Nat :=
  sortOnce (bad.filterMap (fun p => match p.2 with | .page io => some io | _ => none))

/-- The group parks for page requests, one a page of 4 KiB: no record, FAULTID 0 (R378). -/
def State.parkPage (s : State) (bad : List (Nat × Reach)) (m : LaneMask) (addr : Nat) (write : Bool) : State :=
  let ask := (askedPages bad).map (fun page => ({ grp := s.cur, fn := (s.grp s.cur).vf, page, write } : PageReq))
  { s with pri := s.pri ++ ask }.modGrp s.cur (fun gr => { (gr.rewind s.iss) with
    park := .page, parkArg := 0, replay := m
    flt := { (default : FaultRec) with
      cls := 15, write, planes := s.iss.planes, level := 0xff, off := s.iss.off, lanes := m, addr := BitVec.ofNat 64 addr } })

/-- The end of a word whose finished lanes have performed: the others park with the class of the lowest (R269). `m` is
the reported mask, `op` the operation a replay goes on with. -/
def State.settle (s : State) (bad : List (Nat × Reach)) (m : LaneMask) (va : Nat → Nat) (write partly : Bool) (op : Nat)
    (wm : LaneMask) : State :=
  let s := s.modGrp s.cur Group.settled
  match bad with
  | [] => s
  | (l, r) :: _ =>
    let s := s.modGrp s.cur (fun gr => { gr with replayOp := op })
    match r with
    | .fault cls level addr gpa stage2 =>
      s.raise { cls, lanes := m, addr := BitVec.ofNat 64 addr, write, level, gpa, stage2, partly } wm
    | _ => s.parkPage bad m (va l) write

/-- The mask of the lanes that could not perform. -/
def badMask (bad : List (Nat × Reach)) : LaneMask := maskOf (fun l => bad.any (fun p => p.1 = l))

/-! ### Operations and results (R66, R185) -/

/-- A fresh operation of the word in issue. -/
def State.baseOp (s : State) (kind : OpKind) (ctr : Nat) : Op :=
  { (default : Op) with
    live := true, kind, grp := s.cur, team := (s.grp s.cur).team, core := s.coreOf s.cur, off := s.iss.off, ctr }

/-- The operation of the word: a replay goes on with the one already counted. -/
def State.openOp (s : State) (o : Op) (places : List Nat) : Nat × State :=
  let id := (s.grp s.cur).replayOp
  if id ≠ 0 then (id, s) else s.issueOp o places

/-- A counter is checked once, when the operation is first issued. -/
def State.noRoom (s : State) (c : Nat) : Bool := (s.grp s.cur).replayOp = 0 && s.ctrFull s.cur c

/-- Tags of a load's destination, set at issue for every lane of the write mask (R185, R269). -/
def State.tagDst (s : State) (regs : List Nat) (wm : LaneMask) (t : Tag) : State :=
  if (s.grp s.cur).replayOp ≠ 0 then s
  else s.modGrp s.cur (fun gr => regs.foldl (fun gr r => gr.putTag s.iss.split r wm t) gr)

/-- Registers an operation's result fills. -/
def Op.regs (o : Op) : Nat := max 1 (o.width / 4)

/-- Register word j of a result. -/
def Op.word (o : Op) (v j : Nat) : Word :=
  if o.width < 4 && o.sext then BitVec.ofInt 32 (toZ (8 * o.width) true v) else BitVec.ofNat 32 (v / 2 ^ (32 * j))

/-- The cell of an operation's results that marks a lane whose bytes were poisoned when its access performed (R352). -/
def spoilKey : Nat := 62

/-- A lane of an operation met poison at its place: the lane writes nothing, and the destination is poisoned
(R352). (DESIGN CHOICE, log 152.) -/
def Op.spoil (o : Op) (lane : Nat) : Op :=
  { o with lanes := o.lanes &&& ~~~(1#32 <<< lane), res := FMap.set o.res spoilKey 1 }

/-- The results of an operation arrive in its destination: vector lanes, or scalars (R185, R272, R274). -/
def State.deliver (s : State) (id : Nat) : State :=
  let o := s.op id
  s.modGrp o.grp (fun gr =>
    (List.range o.regs).foldl (fun gr j =>
      let bad := FMap.get o.res spoilKey ≠ 0
      if o.kind ∈ [OpKind.sload, .mstatus] then
        if bad then { gr with vpoison := FMap.set gr.vpoison (sPlace (o.dst + j)) true }
        else gr.putS (o.dst + j) (o.word (FMap.get o.res 0) j)
      else
        let gr := gr.putV (o.dst + j) o.lanes (fun l => o.word (FMap.get o.res l) j)
        if bad then { gr with vpoison := FMap.set gr.vpoison (o.dst + j) true } else gr) gr)

/-! ### Accesses (R117, R137) -/

/-- An access of the word in issue to a place, before it has left the core. A place of another package is addressed by handle
and offset. -/
def State.accessAt (s : State) (kind : AccKind) (lane op size : Nat) (t : Target) : Access :=
  let gr := s.grp s.cur
  let core := s.coreOf s.cur
  let (place, addr, xl) : Place × Nat × Xlat := match t with
    | .hbm spa x => (.hbm, spa, x)
    | .host h x => (.host, h, x)
    | .remote h off => (.remote, h * 2 ^ 40 + off, default)
  { (default : Access) with
    live := true, kind, place, grp := s.cur, team := gr.team, core, lane, op, addr, size, issued := s.tick
    srcDie := coreDie core, homeDie := spaDie addr, rel := (s.team gr.team).release + 1, xl, after := gr.after
    dev := s.devOf s.cur xl, byFn := gr.vf + 1, byPart := xl.part + 1, io := ioKey gr.vf xl }

def State.putAcc (s : State) (a : Access) : Nat × State :=
  let (id, s) := s.fresh
  (id, { s with acc := FMap.set s.acc id a })

/-- The operation waits for one more access. -/
def State.sendAcc (s : State) (a : Access) : State :=
  let (id, s) := s.putAcc a
  if a.op = 0 then s else s.modOp a.op (fun o => { o with waitOn := o.waitOn ++ [id] })

/-- Loads of lanes set out; 16 bytes of host memory go as two accesses (R271). -/
def State.startLoad (s : State) (op n : Nat) (p : Nat × Target) : State :=
  match p.2 with
  | .host h x =>
    if n = 16 then
      let s := s.sendAcc (s.accessAt .load p.1 op 8 (.host h x))
      s.sendAcc { s.accessAt .load p.1 op 8 (.host (h + 8) x) with operand := 64 }
    else s.sendAcc (s.accessAt .load p.1 op n p.2)
  | t => s.sendAcc (s.accessAt .load p.1 op n t)

/-- Whether an earlier load or atomic of the group still on its way touches one of the bytes (R125). -/
def State.before (s : State) (g : Nat) (a : Access) : Bool :=
  s.acc.any (fun p => p.2.grp = g && p.2.live && p.2.kind ≠ .store && p.2.place = a.place &&
    p.2.addr < a.addr + a.size && a.addr < p.2.addr + p.2.size)

/-! ### Poison at a place (R352) -/

/-- The place of a read, unless its bytes are poisoned. -/
def State.orPoison (s : State) (n va : Nat) (r : Reach) : Reach :=
  match r with
  | .at (.hbm spa _) => if s.poisoned spa n then .fault 18 0xff va 0 false else r
  | r => r

/-! ### Atomics (R103, R277, R280) -/

/-- The new element of an atomic. -/
def atomElem (op : AOp) (ty : Tag) (old b : Nat) : Nat :=
  let w := (tagElems ty).1
  let sg := tagSigned ty
  let fl := ty ∈ floatTags
  match op with
  | .add => if fl then fAdd (floatFmt ty) .rne old b else intOp2 sg false (· + ·) w old b
  | .min => if fl then fMin (floatFmt ty) old b else intOp2 sg false min w old b
  | .max => if fl then fMax (floatFmt ty) old b else intOp2 sg false max w old b
  | .and => andN old b
  | .or => orN old b
  | .xor => xorN old b
  | .exch => b
  | .incw => if toZ w sg b ≤ toZ w sg old then 0 else (old + 1) % 2 ^ w

/-- The new value of an atomic at its place: each element on its own (R103). -/
def atomNew (op : AOp) (ty : Tag) (old b : Nat) : Nat :=
  (mapElems ty (fun x y _ => atomElem op ty x y) (BitVec.ofNat 64 old) (BitVec.ofNat 64 b) 0).toNat

/-- Bytes of an atomic's type in memory (R277). -/
def atomBytes (ty : Tag) : Nat := if ty ∈ [Tag.f16, .bf16] then 2 else if ty.width = 64 then 8 else 4

/-- Whether an atomic form maps to a PCI Express AtomicOp (R117). -/
def hostForm (op : AOp) (ty : Tag) : Bool := (op = .add && ty ∈ intTags) || op = .exch

/-- A HOST page admits only the forms of R117. -/
def orHostForm (ok : Bool) (va : Nat) (r : Reach) : Reach :=
  match r with
  | .at (.host _ _) => if ok then r else .fault 4 0xff va 0 false
  | r => r

/-- A vector request reaches only this package's device memory outside the peer window (R117, R119, R281). -/
def orDevice (va : Nat) (r : Reach) : Reach :=
  match r with
  | .at (.hbm _ _) => if inWindow va then .fault 4 0xff va 0 false else r
  | .at _ => .fault 4 0xff va 0 false
  | .ats _ => .fault 4 0xff va 0 false
  | .page _ => .fault 4 0xff va 0 false
  | r => r

end Sys2Proof.Machine
end

