-- ==== Sys2Proof/Decode.lean ====
section
/-!
DEFINITION. Decoding of 64-bit instruction words (R188 to R198, files 09 to 12 and 15) and of 32-bit Frond words (R391,
R392), and the encoder written from the same tables. Decoding reads the fields each row names, and accepts the word only if
the row is well-formed and its encoding is the word itself, so every res0 or unused field that is not zero is refused (R199).
-/
namespace Sys2Proof

/-- Why a word is no instruction (R199). -/
inductive DecodeError where
  /-- a reserved or never-defined major opcode, an undefined operation, or an operand outside its file -/
  | undefinedPattern
  /-- a nonzero res0 or unused field, or GUARD, NEG or CNT where the row fixes them -/
  | reservedField
  /-- a field combination that the row excludes -/
  | illFormed
  deriving DecidableEq, Repr

/-- The fields of an R-form word (R188), GUARD and NEG together. -/
structure RWord where
  major : BitVec 7
  d : BitVec 8
  a : BitVec 8
  b : BitVec 8
  c : BitVec 8
  g : BitVec 5
  cnt : BitVec 3
  sub : BitVec 16
  deriving DecidableEq, Repr

/-- The fields of an I-form word (R189). -/
structure IWord where
  major : BitVec 7
  d : BitVec 8
  a : BitVec 8
  g : BitVec 5
  cnt : BitVec 3
  imm : Word
  deriving DecidableEq, Repr

def RWord.word (r : RWord) : DWord :=
  (0#1 ++ r.major ++ r.d ++ r.a ++ r.b ++ r.c ++ r.g ++ r.cnt ++ r.sub : BitVec (1+7+8+8+8+8+5+3+16))

def RWord.ofWord (w : DWord) : RWord :=
  { major := w.extractLsb' 56 7, d := w.extractLsb' 48 8, a := w.extractLsb' 40 8, b := w.extractLsb' 32 8,
    c := w.extractLsb' 24 8, g := w.extractLsb' 19 5, cnt := w.extractLsb' 16 3, sub := w.extractLsb' 0 16 }

def IWord.word (r : IWord) : DWord :=
  (0#1 ++ r.major ++ r.d ++ r.a ++ r.g ++ r.cnt ++ r.imm : BitVec (1+7+8+8+5+3+32))

def IWord.ofWord (w : DWord) : IWord :=
  { major := w.extractLsb' 56 7, d := w.extractLsb' 48 8, a := w.extractLsb' 40 8,
    g := w.extractLsb' 35 5, cnt := w.extractLsb' 32 3, imm := w.extractLsb' 0 32 }

/-- GUARD 15, NEG 0 (R188). -/
def gAlways : BitVec 5 := 0b11110#5
/-- CNT 7: no counter (R188). -/
def noCnt : BitVec 3 := 7#3

def Guard.enc : Guard → BitVec 5
  | .always => gAlways
  | .on p neg => (BitVec.ofNat 4 p.val ++ boolBit neg : BitVec (4+1))

def decPReg (n : Nat) : Option PReg := if h : n < 12 then some ⟨n, h⟩ else none
def decCReg (c : BitVec 3) : Option CReg := if h : c.toNat < 6 then some ⟨c.toNat, h⟩ else none

def decGuard (g : BitVec 5) : Option Guard :=
  if g.extractLsb' 1 4 = 15 then some .always
  else (decPReg (g.extractLsb' 1 4).toNat).map (fun p => .on p (g.getLsbD 0))

def cEnc (c : CReg) : BitVec 3 := BitVec.ofNat 3 c.val
def pEnc (p : PReg) : BitVec 8 := BitVec.ofNat 8 p.val
def sEnc (s : SReg) : BitVec 8 := (0#1 ++ s : BitVec (1+7))
def qEnc (q : QReg) : BitVec 8 := (0#6 ++ q : BitVec (6+2))
def tEnc (t : TReg) : BitVec 8 := (0#2 ++ t : BitVec (2+6))
def bEnc (b : BReg) : BitVec 8 := (0#5 ++ b : BitVec (5+3))
def optCEnc : Option CReg → BitVec 3
  | none => noCnt
  | some c => cEnc c

def sDec (x : BitVec 8) : SReg := x.extractLsb' 0 7
def qDec (x : BitVec 8) : QReg := x.extractLsb' 0 2
def tDec (x : BitVec 8) : TReg := x.extractLsb' 0 6
def bDec (x : BitVec 8) : BReg := x.extractLsb' 0 3

/-- The standard SUB layout: OP, TYPE, RND, SAT (R193, R208). -/
def subStd (op : BitVec 6) (ty : Tag) (rnd : Rnd) (sat : Bool) : BitVec 16 :=
  (op ++ ty.code ++ rnd.code ++ boolBit sat ++ 0#1 : BitVec (6+5+3+1+1))

def widthTag (w64 : Bool) : Tag := if w64 then .b64 else .b32

/-! ### Encoding -/

/-- A word that names no guard and no counter. -/
def plainR (m : Nat) (d a b c : BitVec 8) (sub : BitVec 16) : DWord :=
  RWord.word ⟨BitVec.ofNat 7 m, d, a, b, c, gAlways, noCnt, sub⟩
def guardR (m : Nat) (g : Guard) (d a b c : BitVec 8) (sub : BitVec 16) : DWord :=
  RWord.word ⟨BitVec.ofNat 7 m, d, a, b, c, g.enc, noCnt, sub⟩
def cntR (m : Nat) (g : Guard) (cnt : BitVec 3) (d a b c : BitVec 8) (sub : BitVec 16) : DWord :=
  RWord.word ⟨BitVec.ofNat 7 m, d, a, b, c, g.enc, cnt, sub⟩
def plainI (m : Nat) (d a : BitVec 8) (imm : Word) : DWord :=
  IWord.word ⟨BitVec.ofNat 7 m, d, a, gAlways, noCnt, imm⟩
def guardI (m : Nat) (g : Guard) (d a : BitVec 8) (imm : Word) : DWord :=
  IWord.word ⟨BitVec.ofNat 7 m, d, a, g.enc, noCnt, imm⟩

def SOp.enc (op : Nat) (o : SOp) : DWord :=
  plainR 0x01 (sEnc o.d) (sEnc o.a) (sEnc o.b) 0 (subStd (BitVec.ofNat 6 op) o.ty .rne o.sat)

def SShI.enc (kind : BitVec 2) (o : SShI) : DWord :=
  plainI 0x07 (sEnc o.d) (sEnc o.a) (0#21 ++ boolBit o.w64 ++ kind ++ 0#2 ++ o.count : BitVec (21+1+2+2+6))

def VOp.enc (m op : Nat) (o : VOp) : DWord :=
  guardR m o.g o.d o.a o.b o.c (subStd (BitVec.ofNat 6 op) o.ty o.rnd o.sat)

/-- The W64 SUB layout of R259, R262 and R264: bits above 6, W64, the low six bits. -/
def subW (hi : BitVec 9) (w64 : Bool) (lo : BitVec 6) : BitVec 16 := (hi ++ boolBit w64 ++ lo : BitVec (9+1+6))

def Comb.code {α : Type} : Comb α → BitVec 2
  | .plain => 0
  | .andWith _ => 1
  | .orWith _ => 2

def Comb.reg {α : Type} (enc : α → BitVec 8) : Comb α → BitVec 8
  | .plain => 0
  | .andWith c => enc c
  | .orWith c => enc c

def VCmp.enc (m : Nat) (o : VCmp) : DWord :=
  guardR m o.g (pEnc o.d) o.a o.b (o.comb.reg pEnc)
    (subStd (o.rel.code ++ o.comb.code ++ 0#1 : BitVec (3+2+1)) o.ty .rne false)

def SfuOp.enc (op : Nat) (o : SfuOp) : DWord :=
  cntR 0x2e o.g (cEnc o.c) o.d o.a 0 0 (subStd (BitVec.ofNat 6 op) o.ty o.rnd false)

def BlkOp.enc (op : BitVec 2) (o : BlkOp) : DWord :=
  guardR 0x33 o.g o.d o.a (sEnc o.s) 0
    (op ++ boolBit o.de4 ++ boolBit o.cmp ++ o.delta ++ o.fty.code ++ o.rnd.code : BitVec (2+1+1+4+5+3))

def POp.enc (op : Nat) (o : POp) : DWord :=
  guardR 0x35 o.g (pEnc o.d) (pEnc o.a) (pEnc o.b) 0 (subStd (BitVec.ofNat 6 op) .b32 .rne false)

def RedArgs.enc (m : Nat) (excl : Bool) (o : RedArgs) : DWord :=
  guardR m o.g o.d o.a 0 0 (subStd (boolBit excl ++ 0#2 ++ o.op.code : BitVec (1+2+3)) o.ty o.rnd false)

def Half.enc (h : Half) : BitVec 31 := (h.op ++ h.d ++ h.a ++ h.b ++ boolBit h.three : BitVec (6+8+8+8+1))

def GBase.reg : GBase → BitVec 8
  | .bt b => bEnc b
  | .s n => sEnc n
def GBase.bit : GBase → Bool
  | .bt _ => false
  | .s _ => true

/-- SUB of a global operand (R268). -/
def subG (width : BitVec 3) (ty : Tag) (addr : GAddr) : BitVec 16 :=
  (width ++ ty.code ++ (match addr.idx with | none => 0#2 | some (_, sh) => sh) ++ boolBit addr.base.bit ++
    boolBit addr.idx.isSome ++ addr.disp.extractLsb' 8 4 : BitVec (3+5+2+1+1+4))
def GAddr.idxReg (addr : GAddr) : BitVec 8 := match addr.idx with | none => 0 | some (v, _) => v
def lowDisp (d : BitVec 12) : BitVec 8 := d.extractLsb' 0 8

/-- SUB of a scratch operand (R273). -/
def subScr (width : BitVec 3) (ty : Tag) (addr : ScrAddr) : BitVec 16 :=
  (width ++ ty.code ++ 0#3 ++ boolBit addr.peer.isSome ++ addr.disp.extractLsb' 8 4 : BitVec (3+5+3+1+4))
def ScrAddr.rankReg (addr : ScrAddr) : BitVec 8 := match addr.peer with | none => 0 | some s => sEnc s

/-- SUB of a parameter operand (R274). -/
def subPm (width : BitVec 3) (ty : Tag) (scalar : Bool) (disp : BitVec 12) : BitVec 16 :=
  (width ++ ty.code ++ 0#2 ++ boolBit scalar ++ 0#1 ++ disp.extractLsb' 8 4 : BitVec (3+5+2+1+1+4))

def ABase.code : ABase → BitVec 2
  | .bt _ => 0
  | .s _ => 1
  | .scratch => 2
  | .peer _ => 3
def ABase.reg : ABase → BitVec 8
  | .bt b => bEnc b
  | .s n => sEnc n
  | .scratch => 0
  | .peer n => sEnc n

/-- SUB of ATOM, RED and the vector atomics (R277). -/
def subA (op : AOp) (ty : Tag) (addr : AAddr) : BitVec 16 :=
  (op.code ++ ty.code ++ 0#3 ++ addr.sh ++ addr.base.code : BitVec (4+5+3+2+2))

def AtomOp.enc (m : Nat) (o : AtomOp) : DWord :=
  cntR m o.g (cEnc o.c) o.d o.addr.idx o.b o.addr.base.reg (subA o.op o.ty o.addr)
def RedMem.enc (m : Nat) (o : RedMem) : DWord :=
  guardR m o.g 0 o.addr.idx o.b o.addr.base.reg (subA o.op o.ty o.addr)

def FenceOp.enc (o : FenceOp) (ph : Bool) (d : BitVec 8) : DWord :=
  plainR 0x5c d 0 0 0 (o.pred ++ o.succ ++ o.scope ++ boolBit ph ++ 0#4 : BitVec (4+4+3+1+4))

/-- SUB with an operation in bits 15:12 and twelve more bits. -/
def sub4 (op : BitVec 4) (lo : BitVec 12) : BitVec 16 := (op ++ lo : BitVec (4+12))

/-- The word of an instruction; none for the steps that no 64-bit word encodes. -/
def encode : Instr → Option DWord
  | .nop => some (plainR 0 0 0 0 0 0)
  | .sadd o => some (o.enc 0x00) | .ssub o => some (o.enc 0x01) | .smul o => some (o.enc 0x02)
  | .smulhi o => some (o.enc 0x03) | .sdiv o => some (o.enc 0x04) | .srem o => some (o.enc 0x05)
  | .smin o => some (o.enc 0x06) | .smax o => some (o.enc 0x07) | .sand o => some (o.enc 0x08)
  | .sor o => some (o.enc 0x09) | .sxor o => some (o.enc 0x0a) | .sandn o => some (o.enc 0x0b)
  | .sshl o => some (o.enc 0x0c) | .sshr o => some (o.enc 0x0d) | .srotl o => some (o.enc 0x0e)
  | .smov o => some (o.enc 0x0f) | .sneg o => some (o.enc 0x10) | .sabs o => some (o.enc 0x11)
  | .spopc o => some (o.enc 0x12) | .sclz o => some (o.enc 0x13)
  | .saddi d a imm => some (plainI 0x02 (sEnc d) (sEnc a) imm)
  | .sandi d a imm => some (plainI 0x03 (sEnc d) (sEnc a) imm)
  | .sori d a imm => some (plainI 0x04 (sEnc d) (sEnc a) imm)
  | .sxori d a imm => some (plainI 0x05 (sEnc d) (sEnc a) imm)
  | .smovi d imm => some (plainI 0x06 (sEnc d) 0 imm)
  | .smoviI64 d imm => some (plainI 0x06 (sEnc d) 1 imm)
  | .smoviN64 d imm => some (plainI 0x06 (sEnc d) 2 imm)
  | .sshli o => some (o.enc 0) | .sshriN o => some (o.enc 1) | .sshriI o => some (o.enc 2) | .srotli o => some (o.enc 3)
  | .scmp rel comb ty d a b => some (plainR 0x08 (qEnc d) (sEnc a) (sEnc b) (comb.reg qEnc)
      (0#3 ++ rel.code ++ ty.code ++ 0#1 ++ comb.code ++ 0#2 : BitVec (3+3+5+1+2+2)))
  | .ssel w64 d c a b => some (plainR 0x09 (sEnc d) (sEnc a) (sEnc b) (qEnc c) (subStd 0 (widthTag w64) .rne false))
  | .qand d a b => some (plainR 0x0a (qEnc d) (qEnc a) (qEnc b) 0 0x0000)
  | .qor d a b => some (plainR 0x0a (qEnc d) (qEnc a) (qEnc b) 0 0x0400)
  | .qxor d a b => some (plainR 0x0a (qEnc d) (qEnc a) (qEnc b) 0 0x0800)
  | .qandn d a b => some (plainR 0x0a (qEnc d) (qEnc a) (qEnc b) 0 0x0c00)
  | .qnot d a => some (plainR 0x0a (qEnc d) (qEnc a) 0 0 0x1000)
  | .qset d v => some (plainR 0x0a (qEnc d) 0 0 0 (0b000101000000000#15 ++ boolBit v : BitVec (15+1)))
  | .sadda uns shift d a b => some (plainR 0x0b (sEnc d) (sEnc a) (sEnc b) 0
      (0#5 ++ boolBit uns ++ shift ++ 0#7 : BitVec (5+1+3+7)))
  | .bra g join t => some (IWord.word ⟨0x0c, join.extractLsb' 8 8, join.extractLsb' 0 8, g.enc, noCnt,
      (t ++ 0#3 : BitVec (29+3))⟩)
  | .braQ q t => some (plainI 0x0c 0 0 (t ++ (match q.toNat with | 0 => 1#3 | 1 => 2#3 | 2 => 3#3 | _ => 4#3) :
      BitVec (29+3)))
  | .brx g bound a b uns join => some (guardR 0x0d g bound a (sEnc b) (if uns then 3 else 2) join)
  | .call d t => some (plainI 0x0e (sEnc d) 0 (t ++ 0#3 : BitVec (29+3)))
  | .ret a => some (plainR 0x0f 0 (sEnc a) 0 0 0)
  | .exit g => some (guardR 0x10 g 0 0 0 0 0)
  | .trap code => some (plainI 0x11 0 0 code)
  | .planeSet g k => some (guardR 0x12 g 0 0 0 0 (0#13 ++ k : BitVec (13+3)))
  | .planeSel g a => some (guardR 0x12 g 0 a 0 0 0x1000)
  | .wait all n qd sd sa sb c => some (cntR 0x13 .always (cEnc c) (sEnc sd) (sEnc sa) (sEnc sb) (qEnc qd)
      (0#13 ++ boolBit all ++ n : BitVec (13+1+2)))
  | .barSync b => some (plainR 0x14 0 0 0 0 (sub4 0 (0#8 ++ b : BitVec (8+4))))
  | .barArrive b => some (plainR 0x14 0 0 0 0 (sub4 1 (0#8 ++ b : BitVec (8+4))))
  | .barExpect b a => some (plainR 0x14 0 (sEnc a) 0 0 (sub4 2 (0#8 ++ b : BitVec (8+4))))
  | .cbarSync k => some (plainR 0x14 0 0 0 0 (sub4 3 (0#10 ++ k : BitVec (10+2))))
  | .cbarArrive k => some (plainR 0x14 0 0 0 0 (sub4 4 (0#10 ++ k : BitVec (10+2))))
  | .rgive n => some (plainR 0x15 0 0 0 0 (sub4 0 (0#6 ++ n : BitVec (6+6))))
  | .rclaim n => some (plainR 0x15 0 0 0 0 (sub4 1 (0#6 ++ n : BitVec (6+6))))
  | .spawn b a => some (plainR 0x16 0 a b 0 0)
  | .regionBegin nblk nscal a b => some (plainR 0x17 0 a (sEnc b) 0 (sub4 0 (nblk ++ nscal : BitVec (5+7))))
  | .regionEnd => some (plainR 0x17 0 0 0 0 0x1000)
  | .gets dst num => some (match dst with
      | .s d => plainR 0x18 (sEnc d) 0 0 0 (0#8 ++ num : BitVec (8+8))
      | .s64 d => plainR 0x18 (sEnc d) 0 0 0 (2#8 ++ num : BitVec (8+8))
      | .v d => plainR 0x18 d 0 0 0 (1#8 ++ num : BitVec (8+8)))
  | .sets num a => some (plainR 0x19 0 (sEnc a) 0 0 (0#8 ++ num : BitVec (8+8)))
  | .slane w64 d a sel => some (match sel with
      | .lane n => plainR 0x1a (sEnc d) a 0 0 (subW 0 w64 (0#1 ++ n : BitVec (1+5)))
      | .reg s n => plainR 0x1a (sEnc d) a (sEnc s) 0 (subW 0 w64 (1#1 ++ n : BitVec (1+5)))
      | .first => plainR 0x1a (sEnc d) a 0 0 (subW 1 w64 0))
  | .mov o => some (guardR 0x20 o.g o.d o.a 0 0 (subStd 0 (widthTag o.w64) .rne false))
  | .movs w64 g d a => some (guardR 0x20 g d (sEnc a) 0 0 (subStd 1 (widthTag w64) .rne false))
  | .movi ty g d imm => some (guardI 0x21 g d (0#3 ++ ty.code : BitVec (3+5)) imm)
  | .iadd o => some (o.enc 0x22 0) | .isub o => some (o.enc 0x22 1)
  | .imul o => some (o.enc 0x23 0) | .imulhi o => some (o.enc 0x23 1) | .imad o => some (o.enc 0x23 2)
  | .imulw o => some (o.enc 0x23 3)
  | .imin o => some (o.enc 0x24 0) | .imax o => some (o.enc 0x24 1) | .iabs o => some (o.enc 0x24 2)
  | .ineg o => some (o.enc 0x24 3)
  | .vand o => some (o.enc 0x25 0) | .vor o => some (o.enc 0x25 1) | .vxor o => some (o.enc 0x25 2)
  | .vandn o => some (o.enc 0x25 3) | .vnot o => some (o.enc 0x25 4)
  | .shl o => some (o.enc 0x26 0) | .shr o => some (o.enc 0x26 1) | .rotl o => some (o.enc 0x26 2)
  | .iaddi o => some (guardI 0x27 o.g o.d o.a o.imm)
  | .icmp o => some (o.enc 0x28)
  | .fadd o => some (o.enc 0x29 0) | .fsub o => some (o.enc 0x29 1) | .fmul o => some (o.enc 0x2a 0)
  | .ffma o => some (o.enc 0x2b 0) | .fnma o => some (o.enc 0x2b 1)
  | .faddi o => some (guardI 0x2f o.g o.d o.a o.imm) | .fmuli o => some (guardI 0x30 o.g o.d o.a o.imm)
  | .fmin o => some (o.enc 0x2c 0) | .fmax o => some (o.enc 0x2c 1) | .fabs o => some (o.enc 0x2c 2)
  | .fneg o => some (o.enc 0x2c 3) | .fcopysign o => some (o.enc 0x2c 4)
  | .fcmp o => some (o.enc 0x2d) | .fclass o => some (o.enc 0x2d 1)
  | .rcp o => some (o.enc 0) | .sqrt o => some (o.enc 1) | .rsqrt o => some (o.enc 2) | .exp2 o => some (o.enc 3)
  | .log2 o => some (o.enc 4) | .sinpi o => some (o.enc 5) | .cospi o => some (o.enc 6) | .tanh o => some (o.enc 7)
  | .cvt o => some (guardR 0x31 o.g o.d o.a 0 o.j (subStd (0#1 ++ o.src.code : BitVec (1+5)) o.dst o.rnd o.sat))
  | .pack o => some (guardR 0x32 o.g o.d o.a 0 0 (subStd 0x00 o.ty .rne false))
  | .unpack o => some (guardR 0x32 o.g o.d o.a 0 0 (subStd 0x04 o.ty .rne false))
  | .blkPack o => some (o.enc 0) | .blkUnpack o => some (o.enc 1)
  | .retag o => some (guardR 0x34 o.g o.d o.a 0 0 (subStd 0 o.ty .rne false))
  | .pand o => some (o.enc 0) | .por o => some (o.enc 1) | .pxor o => some (o.enc 2) | .pandn o => some (o.enc 3)
  | .pnot g d a => some (guardR 0x35 g (pEnc d) (pEnc a) 0 0 (subStd 4 .b32 .rne false))
  | .pclr g d => some (guardR 0x35 g (pEnc d) 0 0 0 (subStd 5 .b32 .rne false))
  | .pset g d => some (guardR 0x35 g (pEnc d) 0 0 0 (subStd 6 .b32 .rne false))
  | .pfromq g d q => some (guardR 0x35 g (pEnc d) (qEnc q) 0 0 (subStd 7 .b32 .rne false))
  | .ptest w64 g d a => some (guardR 0x35 g (pEnc d) a 0 0 (subStd 8 (widthTag w64) .rne false))
  | .ptov g d a => some (guardR 0x35 g d (pEnc a) 0 0 (subStd 9 .b32 .rne false))
  | .sel w64 g d c a b => some (guardR 0x36 g d a b (pEnc c) (subStd 0 (widthTag w64) .rne false))
  | .shflIdx o b => some (guardR 0x37 o.g o.d o.a b 0 (subW 0x000 o.w64 0))
  | .shflUp o n => some (guardR 0x37 o.g o.d o.a 0 0 (subW 0x020 o.w64 (0#1 ++ n : BitVec (1+5))))
  | .shflDown o n => some (guardR 0x37 o.g o.d o.a 0 0 (subW 0x040 o.w64 (0#1 ++ n : BitVec (1+5))))
  | .shflXor o n => some (guardR 0x37 o.g o.d o.a 0 0 (subW 0x060 o.w64 (0#1 ++ n : BitVec (1+5))))
  | .shflBcast o b => some (guardR 0x37 o.g o.d o.a (sEnc b) 0 (subW 0x080 o.w64 0))
  | .voteAny g d a => some (guardR 0x38 g (pEnc d) (pEnc a) 0 0 (sub4 0 0))
  | .voteAll g d a => some (guardR 0x38 g (pEnc d) (pEnc a) 0 0 (sub4 1 0))
  | .voteBallot g d a => some (guardR 0x38 g d (pEnc a) 0 0 (sub4 2 0))
  | .voteCount g d a => some (guardR 0x38 g d (pEnc a) 0 0 (sub4 3 0))
  | .voteAnyQ d a => some (plainR 0x38 (qEnc d) (pEnc a) 0 0 (sub4 4 0))
  | .voteAllQ d a => some (plainR 0x38 (qEnc d) (pEnc a) 0 0 (sub4 5 0))
  | .voteBallotS d a => some (plainR 0x38 (sEnc d) (pEnc a) 0 0 (sub4 6 0))
  | .tileRed o => some (o.enc 0x39 false)
  | .scan excl o => some (o.enc 0x3a excl)
  | .matchLanes o pw => some (guardR 0x3b o.g o.d o.a 0 (match pw with | none => 0 | some p => pEnc p)
      (subW 0 o.w64 (boolBit pw.isSome ++ 0#5 : BitVec (1+5))))
  | .append g d a b => some (guardR 0x3c g d (pEnc a) (sEnc b) 0 0)
  | .rand w64 g d => some (guardR 0x3d g d 0 0 0 (subW 0 w64 0))
  | .popc o => some (o.enc 0x3e 0) | .clz o => some (o.enc 0x3e 1) | .ctz o => some (o.enc 0x3e 2)
  | .brev o => some (o.enc 0x3e 3) | .idp4 o => some (o.enc 0x3f 0)
  | .pairedWord h0 h1 => some (1#1 ++ h0.enc ++ 0#1 ++ h1.enc : BitVec (1+31+1+31))
  | .ld o => some (cntR 0x50 o.g (cEnc o.c) o.d o.addr.idxReg o.addr.base.reg (lowDisp o.addr.disp)
      (subG o.width o.ty o.addr))
  | .st o => some (cntR 0x51 o.g (optCEnc o.c) o.d o.addr.idxReg o.addr.base.reg (lowDisp o.addr.disp)
      (subG o.width .b32 o.addr))
  | .ldScratch o => some (cntR 0x52 o.g (cEnc o.c) o.d o.addr.a o.addr.rankReg (lowDisp o.addr.disp)
      (subScr o.width o.ty o.addr))
  | .stScratch o => some (cntR 0x53 o.g (optCEnc o.c) o.d o.addr.a o.addr.rankReg (lowDisp o.addr.disp)
      (subScr o.width .b32 o.addr))
  | .ldParam o => some (cntR 0x54 o.g (cEnc o.c) o.d 0 (sEnc o.addr.s) (lowDisp o.addr.disp)
      (subPm o.width o.ty false o.addr.disp))
  | .sldParam o => some (cntR 0x54 .always (cEnc o.c) (sEnc o.d) 0 (sEnc o.addr.s) (lowDisp o.addr.disp)
      (subPm o.width .b32 true o.addr.disp))
  | .sld o => some (cntR 0x55 .always (cEnc o.c) (sEnc o.d) 0 o.addr.base.reg (lowDisp o.addr.disp)
      (subG o.width .b32 ⟨o.addr.base, none, o.addr.disp⟩))
  | .btSet wr d a b c => some (cntR 0x56 .always (cEnc c) (bEnc d) (sEnc a) (sEnc b) 0 (0#15 ++ boolBit wr : BitVec (15+1)))
  | .prefetch l2 g addr => some (guardR 0x57 g 0 addr.idxReg addr.base.reg (lowDisp addr.disp)
      (subG (0#1 ++ boolBit l2 ++ 0#1 : BitVec (1+1+1)) .b32 addr))
  | .atom o => some (o.enc 0x58) | .red o => some (o.enc 0x59)
  | .cas o => some (cntR 0x5a o.g (cEnc o.c) o.d o.addr.idx o.b o.addr.base.reg
      (o.lw ++ 0#10 ++ o.addr.sh ++ o.addr.base.code : BitVec (2+10+2+2)))
  | .vatom o => some (o.enc 0x5b) | .vred o => some (o.enc 0x5b)
  | .fence o => some (o.enc false 0)
  | .fencePhase o d => some (o.enc true (sEnc d))
  | .tileGive t => some (plainR 0x5d 0 (tEnc t) 0 0 0x0000)
  | .tileGiveRst t => some (plainR 0x5d 0 (tEnc t) 0 0 0x0001)
  | .tileTake t => some (plainR 0x5d 0 (tEnc t) 0 0 0x1000)
  | .copy a c => some (cntR 0x5e .always (cEnc c) 0 (sEnc a) 0 0 0)
  | .meshTree k a => some (plainR 0x5f 0 (sEnc a) 0 0 (sub4 0 (k ++ 0#10 : BitVec (2+10))))
  | .meshRed o => some (cntR 0x5f .always (cEnc o.c) (tEnc o.d) o.a 0 0
      (sub4 1 (o.k ++ o.ty.code ++ o.op ++ 0#2 : BitVec (2+5+3+2))))
  | .meshCancel k => some (plainR 0x5f 0 0 0 0 (sub4 2 (k ++ 0#10 : BitVec (2+10))))
  | .sdot o => some (cntR 0x60 .always (cEnc o.c) (tEnc o.d) (tEnc o.a) (sEnc o.b) 0
      (0#3 ++ o.ty.code ++ 0#8 : BitVec (3+5+8)))
  | .gangSet gidx bc br origin => some (plainR 0x70 0 0 0 0 (0#1 ++ gidx ++ bc ++ br ++ origin : BitVec (1+5+4+2+4)))
  | .gangClear => some (plainR 0x70 0 0 0 0 0x8000)
  | .bond => some (plainR 0x71 0 0 0 0 0x0000)
  | .unbond => some (plainR 0x71 0 0 0 0 0x1000)
  | .mcfg af bf => some (plainR 0x72 0 0 0 0 (af.code ++ bf.code ++ 0#8 : BitVec (4+4+8)))
  | .mstat t rt a e => some (plainR 0x73 0 (tEnc a) (tEnc e) 0
      (sub4 0 (boolBit t ++ boolBit rt ++ 0#10 : BitVec (1+1+10))))
  | .mflip => some (plainR 0x73 0 0 0 0 0x1000)
  | .mstream o => some (cntR 0x74 .always (cEnc o.c) 0 (tEnc o.a) (tEnc o.e) (sEnc o.s)
      (boolBit o.acc ++ boolBit o.spl ++ boolBit o.spr ++ 0#13 : BitVec (1+1+1+13)))
  | .mzero w64 a => some (plainR 0x75 0 (sEnc a) 0 0 (sub4 0 (boolBit w64 ++ 0#11 : BitVec (1+11))))
  | .mfill w64 a b => some (plainR 0x75 0 (sEnc a) (sEnc b) 0 (sub4 1 (boolBit w64 ++ 0#11 : BitVec (1+11))))
  | .mdrain o => some (cntR 0x76 .always (cEnc o.c) o.d (sEnc o.a) 0 0
      (0#1 ++ o.src ++ o.ty.code ++ 0#4 ++ o.rnd.code ++ boolBit o.sat : BitVec (1+2+5+4+3+1)))
  | .mdrainT o => some (cntR 0x76 .always (cEnc o.c) (tEnc o.d) (sEnc o.a) (tEnc o.e) 0
      (1#1 ++ o.src ++ o.ty.code ++ o.delta ++ o.rnd.code ++ boolBit o.sat : BitVec (1+2+5+4+3+1)))
  | .mstatus d c => some (cntR 0x77 .always (cEnc c) (sEnc d) 0 0 0 0)
  | .rdps d num => some (plainR 0x78 (sEnc d) 0 0 0 (0#8 ++ num : BitVec (8+8)))
  | .wrps num a => some (plainR 0x78 0 (sEnc a) 0 0 (0x10#8 ++ num : BitVec (8+8)))
  | .tret skip => some (plainR 0x79 0 0 0 0 (0#15 ++ boolBit skip : BitVec (15+1)))
  | .csave a b c => some (cntR 0x7a .always (cEnc c) 0 (sEnc a) (sEnc b) 0 0x0000)
  | .crest a b c => some (cntR 0x7a .always (cEnc c) 0 (sEnc a) (sEnc b) 0 0x1000)
  | .tlbinv kind a b c => some (cntR 0x7b .always (cEnc c) 0 (sEnc a) (sEnc b) 0
      (sub4 0 (0#2 ++ kind ++ 0#8 : BitVec (2+2+8))))
  | .harvest a b c => some (cntR 0x7b .always (cEnc c) 0 (sEnc a) (sEnc b) 0 0x0400)
  | .atcinv a b c => some (cntR 0x7b .always (cEnc c) 0 (sEnc a) (sEnc b) 0 0x1000)
  | .fltAck act vfq d a => some (plainR 0x7c (qEnc d) (sEnc a) 0 0
      (sub4 0 (0#2 ++ act ++ boolBit vfq ++ 0#7 : BitVec (2+2+1+7))))
  | .haltAck discard d a => some (plainR 0x7c (qEnc d) (sEnc a) 0 0 (sub4 1 (0#3 ++ boolBit discard ++ 0#8 : BitVec (3+1+8))))
  | .regionAbort d a => some (plainR 0x7c (qEnc d) (sEnc a) 0 0 0x2000)
  | .tileReset a t => some (plainR 0x7d 0 (sEnc a) 0 0 (sub4 0 (0#6 ++ t : BitVec (6+6))))
  | .phaseSet completed a b => some (plainR 0x7d 0 (sEnc a) (sEnc b) 0
      (sub4 1 (0#3 ++ boolBit completed ++ 0#8 : BitVec (3+1+8))))
  | _ => none

/-! ### Decoding -/

/-- A major-0x01 word by its OP (R208). -/
def sRows : List (SOp → Instr) :=
  [.sadd, .ssub, .smul, .smulhi, .sdiv, .srem, .smin, .smax, .sand, .sor, .sxor, .sandn, .sshl, .sshr, .srotl, .smov,
   .sneg, .sabs, .spopc, .sclz]

/-- The standard vector rows of a major by OP (R242 to R248, R266, R267). -/
def vRows (major : Nat) : List (VOp → Instr) :=
  match major with
  | 0x22 => [.iadd, .isub]
  | 0x23 => [.imul, .imulhi, .imad, .imulw]
  | 0x24 => [.imin, .imax, .iabs, .ineg]
  | 0x25 => [.vand, .vor, .vxor, .vandn, .vnot]
  | 0x26 => [.shl, .shr, .rotl]
  | 0x29 => [.fadd, .fsub]
  | 0x2a => [.fmul]
  | 0x2b => [.ffma, .fnma]
  | 0x2c => [.fmin, .fmax, .fabs, .fneg, .fcopysign]
  | 0x3e => [.popc, .clz, .ctz, .brev]
  | 0x3f => [.idp4]
  | _ => []

def sfuRows : List (SfuOp → Instr) := [.rcp, .sqrt, .rsqrt, .exp2, .log2, .sinpi, .cospi, .tanh]

def subOp6 (r : RWord) : Nat := (r.sub.extractLsb' 10 6).toNat
def subTy (r : RWord) : Option Tag := Tag.ofCode (r.sub.extractLsb' 5 5)
def subRnd (r : RWord) : Option Rnd := Rnd.ofCode (r.sub.extractLsb' 2 3)
def subSat (r : RWord) : Bool := r.sub.getLsbD 1
def subOp4 (r : RWord) : Nat := (r.sub.extractLsb' 12 4).toNat
def subW64 (r : RWord) : Bool := r.sub.getLsbD 6
/-- TYPE of a word that names only B32 or B64. -/
def subRaw64 (r : RWord) : Bool := r.sub.getLsbD 5

def decVOp (r : RWord) : Option VOp := do
  let ty ← subTy r
  let rnd ← subRnd r
  let g ← decGuard r.g
  pure { ty, rnd, sat := subSat r, g, d := r.d, a := r.a, b := r.b, c := r.c }

def decComb {α : Type} (code : BitVec 2) (c : Option α) : Option (Comb α) :=
  match code.toNat with
  | 0 => some .plain
  | 1 => c.map .andWith
  | 2 => c.map .orWith
  | _ => none

def decVCmp (r : RWord) : Option VCmp := do
  let comb ← decComb (r.sub.extractLsb' 11 2) (decPReg r.c.toNat)
  let ty ← subTy r
  let g ← decGuard r.g
  let d ← decPReg r.d.toNat
  pure { rel := Rel.ofCode (r.sub.extractLsb' 13 3), comb, ty, g, d, a := r.a, b := r.b }

def decVW (r : RWord) (w64 : Bool) : Option VW := do
  let g ← decGuard r.g
  pure { w64, g, d := r.d, a := r.a }

def decVTy (r : RWord) : Option VTy := do
  let ty ← subTy r
  let g ← decGuard r.g
  pure { ty, g, d := r.d, a := r.a }

def decVImm (i : IWord) : Option VImm := do
  let g ← decGuard i.g
  pure { g, d := i.d, a := i.a, imm := i.imm }

def decRed (r : RWord) : Option RedArgs := do
  let op ← RedOp.ofCode (r.sub.extractLsb' 10 3)
  let ty ← subTy r
  let rnd ← subRnd r
  let g ← decGuard r.g
  pure { op, ty, rnd, g, d := r.d, a := r.a }

def decHalf (x : BitVec 31) : Half :=
  { op := x.extractLsb' 25 6, d := x.extractLsb' 17 8, a := x.extractLsb' 9 8, b := x.extractLsb' 1 8 }

def decGBase (bs : Bool) (x : BitVec 8) : GBase := if bs then .s (sDec x) else .bt (bDec x)
def decDisp (r : RWord) : BitVec 12 := (r.sub.extractLsb' 0 4 ++ r.c : BitVec (4+8))
def decGAddr (r : RWord) : GAddr :=
  { base := decGBase (r.sub.getLsbD 5) r.b
    idx := if r.sub.getLsbD 4 then some (r.a, r.sub.extractLsb' 6 2) else none
    disp := decDisp r }
def decScrAddr (r : RWord) : ScrAddr :=
  { peer := if r.sub.getLsbD 4 then some (sDec r.b) else none, a := r.a, disp := decDisp r }
def decPmAddr (r : RWord) : PmAddr := { s := sDec r.b, disp := decDisp r }
def decOptC (c : BitVec 3) : Option (Option CReg) := if c = noCnt then some none else (decCReg c).map some

def decLd {α : Type} (r : RWord) (addr : α) : Option (LdOp α) := do
  let ty ← Tag.ofCode (r.sub.extractLsb' 8 5)
  let g ← decGuard r.g
  let c ← decCReg r.cnt
  pure { width := r.sub.extractLsb' 13 3, ty, g, d := r.d, addr, c }
def decSt {α : Type} (r : RWord) (addr : α) : Option (StOp α) := do
  let g ← decGuard r.g
  let c ← decOptC r.cnt
  pure { width := r.sub.extractLsb' 13 3, g, d := r.d, addr, c }
def decSld {α : Type} (r : RWord) (addr : α) : Option (SldOp α) := do
  let c ← decCReg r.cnt
  pure { width := r.sub.extractLsb' 13 3, d := sDec r.d, addr, c }

def decAAddr (r : RWord) : AAddr :=
  { base := (match (r.sub.extractLsb' 0 2).toNat with
      | 0 => .bt (bDec r.c) | 1 => .s (sDec r.c) | 2 => .scratch | _ => .peer (sDec r.c))
    idx := r.a
    sh := r.sub.extractLsb' 2 2 }
def decAtom (r : RWord) : Option AtomOp := do
  let op ← AOp.ofCode (r.sub.extractLsb' 12 4)
  let ty ← Tag.ofCode (r.sub.extractLsb' 7 5)
  let g ← decGuard r.g
  let c ← decCReg r.cnt
  pure { op, ty, g, addr := decAAddr r, d := r.d, b := r.b, c }
def decRedMem (r : RWord) : Option RedMem := do
  let op ← AOp.ofCode (r.sub.extractLsb' 12 4)
  let ty ← Tag.ofCode (r.sub.extractLsb' 7 5)
  let g ← decGuard r.g
  pure { op, ty, g, addr := decAAddr r, b := r.b }
def decCas (r : RWord) : Option CasOp := do
  let g ← decGuard r.g
  let c ← decCReg r.cnt
  pure { lw := r.sub.extractLsb' 14 2, g, addr := decAAddr r, d := r.d, b := r.b, c }
def decFence (r : RWord) : FenceOp :=
  { pred := r.sub.extractLsb' 12 4, succ := r.sub.extractLsb' 8 4, scope := r.sub.extractLsb' 5 3 }

/-- Majors 0x00 to 0x1a (file 09). -/
def parseScalar (m : Nat) (r : RWord) (i : IWord) : Option Instr :=
  match m with
  | 0x00 => some .nop
  | 0x01 => do
    let ty ← subTy r
    let f ← sRows[subOp6 r]?
    pure (f { ty, sat := subSat r, d := sDec r.d, a := sDec r.a, b := sDec r.b })
  | 0x02 => some (.saddi (sDec i.d) (sDec i.a) i.imm)
  | 0x03 => some (.sandi (sDec i.d) (sDec i.a) i.imm)
  | 0x04 => some (.sori (sDec i.d) (sDec i.a) i.imm)
  | 0x05 => some (.sxori (sDec i.d) (sDec i.a) i.imm)
  | 0x06 => match i.a.toNat with
    | 0 => some (.smovi (sDec i.d) i.imm)
    | 1 => some (.smoviI64 (sDec i.d) i.imm)
    | 2 => some (.smoviN64 (sDec i.d) i.imm)
    | _ => none
  | 0x07 =>
    let o : SShI := { w64 := i.imm.getLsbD 10, d := sDec i.d, a := sDec i.a, count := i.imm.extractLsb' 0 6 }
    match (i.imm.extractLsb' 8 2).toNat with
    | 0 => some (.sshli o) | 1 => some (.sshriN o) | 2 => some (.sshriI o) | _ => some (.srotli o)
  | 0x08 => do
    let comb ← decComb (r.sub.extractLsb' 2 2) (some (qDec r.c))
    let ty ← subTy r
    pure (.scmp (Rel.ofCode (r.sub.extractLsb' 10 3)) comb ty (qDec r.d) (sDec r.a) (sDec r.b))
  | 0x09 => some (.ssel (subRaw64 r) (sDec r.d) (qDec r.c) (sDec r.a) (sDec r.b))
  | 0x0a => match subOp6 r with
    | 0 => some (.qand (qDec r.d) (qDec r.a) (qDec r.b))
    | 1 => some (.qor (qDec r.d) (qDec r.a) (qDec r.b))
    | 2 => some (.qxor (qDec r.d) (qDec r.a) (qDec r.b))
    | 3 => some (.qandn (qDec r.d) (qDec r.a) (qDec r.b))
    | 4 => some (.qnot (qDec r.d) (qDec r.a))
    | 5 => some (.qset (qDec r.d) (r.sub.getLsbD 0))
    | _ => none
  | 0x0b => some (.sadda (r.sub.getLsbD 10) (r.sub.extractLsb' 7 3) (sDec r.d) (sDec r.a) (sDec r.b))
  | 0x0c => match (i.imm.extractLsb' 0 3).toNat with
    | 0 => (decGuard i.g).map (fun g => .bra g (i.d ++ i.a : BitVec (8+8)) (i.imm.extractLsb' 3 29))
    | 1 => some (.braQ 0 (i.imm.extractLsb' 3 29))
    | 2 => some (.braQ 1 (i.imm.extractLsb' 3 29))
    | 3 => some (.braQ 2 (i.imm.extractLsb' 3 29))
    | 4 => some (.braQ 3 (i.imm.extractLsb' 3 29))
    | _ => none
  | 0x0d => (decGuard r.g).map (fun g => .brx g r.d r.a (sDec r.b) (r.c.getLsbD 0) r.sub)
  | 0x0e => some (.call (sDec i.d) (i.imm.extractLsb' 3 29))
  | 0x0f => some (.ret (sDec r.a))
  | 0x10 => (decGuard r.g).map .exit
  | 0x11 => some (.trap i.imm)
  | 0x12 => do
    let g ← decGuard r.g
    match subOp4 r with
    | 0 => pure (.planeSet g (r.sub.extractLsb' 0 3))
    | 1 => pure (.planeSel g r.a)
    | _ => none
  | 0x13 => do
    let c ← decCReg r.cnt
    pure (.wait (r.sub.getLsbD 2) (r.sub.extractLsb' 0 2) (qDec r.c) (sDec r.d) (sDec r.a) (sDec r.b) c)
  | 0x14 => match subOp4 r with
    | 0 => some (.barSync (r.sub.extractLsb' 0 4))
    | 1 => some (.barArrive (r.sub.extractLsb' 0 4))
    | 2 => some (.barExpect (r.sub.extractLsb' 0 4) (sDec r.a))
    | 3 => some (.cbarSync (r.sub.extractLsb' 0 2))
    | 4 => some (.cbarArrive (r.sub.extractLsb' 0 2))
    | _ => none
  | 0x15 => match subOp4 r with
    | 0 => some (.rgive (r.sub.extractLsb' 0 6))
    | 1 => some (.rclaim (r.sub.extractLsb' 0 6))
    | _ => none
  | 0x16 => some (.spawn r.b r.a)
  | 0x17 => match subOp4 r with
    | 0 => some (.regionBegin (r.sub.extractLsb' 7 5) (r.sub.extractLsb' 0 7) r.a (sDec r.b))
    | 1 => some .regionEnd
    | _ => none
  | 0x18 =>
    if r.sub.getLsbD 8 then some (.gets (.v r.d) (r.sub.extractLsb' 0 8))
    else if r.sub.getLsbD 9 then some (.gets (.s64 (sDec r.d)) (r.sub.extractLsb' 0 8))
    else some (.gets (.s (sDec r.d)) (r.sub.extractLsb' 0 8))
  | 0x19 => some (.sets (r.sub.extractLsb' 0 8) (sDec r.a))
  | 0x1a =>
    some (.slane (subW64 r) (sDec r.d) r.a
      (if r.sub.getLsbD 7 then .first else if r.sub.getLsbD 5 then .reg (sDec r.b) (r.sub.extractLsb' 0 5) else .lane (r.sub.extractLsb' 0 5)))
  | _ => none

/-- Majors 0x20 to 0x2e (file 10): moves, integers, floating point, special functions. -/
def parseVector (m : Nat) (r : RWord) (i : IWord) : Option Instr :=
  match m with
  | 0x20 => match subOp6 r with
    | 0 => (decVW r (subRaw64 r)).map .mov
    | 1 => (decGuard r.g).map (fun g => .movs (subRaw64 r) g r.d (sDec r.a))
    | _ => none
  | 0x21 => do
    let ty ← Tag.ofCode (i.a.extractLsb' 0 5)
    let g ← decGuard i.g
    pure (.movi ty g i.d i.imm)
  | 0x27 => (decVImm i).map .iaddi
  | 0x28 => (decVCmp r).map .icmp
  | 0x2d =>
    if r.sub.getLsbD 10 then (decVOp r).map .fclass else (decVCmp r).map .fcmp
  | 0x2e => do
    let ty ← subTy r
    let rnd ← subRnd r
    let g ← decGuard r.g
    let c ← decCReg r.cnt
    let f ← sfuRows[subOp6 r]?
    pure (f { ty, rnd, g, d := r.d, a := r.a, c })
  | 0x2f => (decVImm i).map .faddi
  | 0x30 => (decVImm i).map .fmuli
  | _ => do
    let f ← (vRows m)[subOp6 r]?
    let o ← decVOp r
    pure (f o)

/-- Majors 0x31 to 0x3d (file 10): conversions, predicates, operations across lanes. -/
def parseLanes (m : Nat) (r : RWord) : Option Instr :=
  match m with
  | 0x31 => do
    let src ← Tag.ofCode (r.sub.extractLsb' 10 5)
    let dst ← subTy r
    let rnd ← subRnd r
    let g ← decGuard r.g
    pure (.cvt { src, dst, rnd, sat := subSat r, j := r.c, g, d := r.d, a := r.a })
  | 0x32 => match subOp4 r with
    | 0 => (decVTy r).map .pack
    | 1 => (decVTy r).map .unpack
    | _ => none
  | 0x33 => do
    let fty ← Tag.ofCode (r.sub.extractLsb' 3 5)
    let rnd ← Rnd.ofCode (r.sub.extractLsb' 0 3)
    let g ← decGuard r.g
    let o : BlkOp := ⟨r.sub.getLsbD 13, r.sub.getLsbD 12, r.sub.extractLsb' 8 4, fty, rnd, g, r.d, r.a, sDec r.b⟩
    match (r.sub.extractLsb' 14 2).toNat with
    | 0 => pure (.blkPack o)
    | 1 => pure (.blkUnpack o)
    | _ => none
  | 0x34 => (decVTy r).map .retag
  | 0x35 => do
    let g ← decGuard r.g
    match subOp6 r with
    | 8 => do
      let d ← decPReg r.d.toNat
      pure (.ptest (subRaw64 r) g d r.a)
    | 9 => do
      let a ← decPReg r.a.toNat
      pure (.ptov g r.d a)
    | 7 => do
      let d ← decPReg r.d.toNat
      pure (.pfromq g d (qDec r.a))
    | op => do
      let d ← decPReg r.d.toNat
      let a ← decPReg r.a.toNat
      let b ← decPReg r.b.toNat
      match op with
      | 0 => pure (.pand ⟨g, d, a, b⟩)
      | 1 => pure (.por ⟨g, d, a, b⟩)
      | 2 => pure (.pxor ⟨g, d, a, b⟩)
      | 3 => pure (.pandn ⟨g, d, a, b⟩)
      | 4 => pure (.pnot g d a)
      | 5 => pure (.pclr g d)
      | 6 => pure (.pset g d)
      | _ => none
  | 0x36 => do
    let g ← decGuard r.g
    let c ← decPReg r.c.toNat
    pure (.sel (subRaw64 r) g r.d c r.a r.b)
  | 0x37 => do
    let o ← decVW r (subW64 r)
    match subOp4 r with
    | 0 => pure (.shflIdx o r.b)
    | 1 => pure (.shflUp o (r.sub.extractLsb' 0 5))
    | 2 => pure (.shflDown o (r.sub.extractLsb' 0 5))
    | 3 => pure (.shflXor o (r.sub.extractLsb' 0 5))
    | 4 => pure (.shflBcast o (sDec r.b))
    | _ => none
  | 0x38 => do
    let g ← decGuard r.g
    let a ← decPReg r.a.toNat
    match subOp4 r with
    | 0 => (decPReg r.d.toNat).map (fun d => .voteAny g d a)
    | 1 => (decPReg r.d.toNat).map (fun d => .voteAll g d a)
    | 2 => pure (.voteBallot g r.d a)
    | 3 => pure (.voteCount g r.d a)
    | 4 => pure (.voteAnyQ (qDec r.d) a)
    | 5 => pure (.voteAllQ (qDec r.d) a)
    | 6 => pure (.voteBallotS (sDec r.d) a)
    | _ => none
  | 0x39 => (decRed r).map .tileRed
  | 0x3a => (decRed r).map (.scan (r.sub.getLsbD 15))
  | 0x3b => do
    let o ← decVW r (subW64 r)
    if r.sub.getLsbD 5 then (decPReg r.c.toNat).map (fun p => .matchLanes o (some p)) else pure (.matchLanes o none)
  | 0x3c => do
    let g ← decGuard r.g
    let a ← decPReg r.a.toNat
    pure (.append g r.d a (sDec r.b))
  | 0x3d => (decGuard r.g).map (fun g => .rand (subW64 r) g r.d)
  | _ => none

/-- Majors 0x50 to 0x60 (file 11). -/
def parseMem (m : Nat) (r : RWord) : Option Instr :=
  match m with
  | 0x50 => (decLd r (decGAddr r)).map .ld
  | 0x51 => (decSt r (decGAddr r)).map .st
  | 0x52 => (decLd r (decScrAddr r)).map .ldScratch
  | 0x53 => (decSt r (decScrAddr r)).map .stScratch
  | 0x54 =>
    if r.sub.getLsbD 5 then (decSld r (decPmAddr r)).map .sldParam else (decLd r (decPmAddr r)).map .ldParam
  | 0x55 => (decSld r (⟨decGBase (r.sub.getLsbD 5) r.b, decDisp r⟩ : SGAddr)).map .sld
  | 0x56 => (decCReg r.cnt).map (fun c => .btSet (r.sub.getLsbD 0) (bDec r.d) (sDec r.a) (sDec r.b) c)
  | 0x57 => (decGuard r.g).map (fun g => .prefetch (r.sub.getLsbD 14) g (decGAddr r))
  | 0x58 => (decAtom r).map .atom
  | 0x59 => (decRedMem r).map .red
  | 0x5a => (decCas r).map .cas
  | 0x5b => if r.cnt = noCnt then (decRedMem r).map .vred else (decAtom r).map .vatom
  | 0x5c => if r.sub.getLsbD 4 then some (.fencePhase (decFence r) (sDec r.d)) else some (.fence (decFence r))
  | 0x5d => match subOp4 r with
    | 0 => some (if r.sub.getLsbD 0 then .tileGiveRst (tDec r.a) else .tileGive (tDec r.a))
    | 1 => some (.tileTake (tDec r.a))
    | _ => none
  | 0x5e => (decCReg r.cnt).map (.copy (sDec r.a))
  | 0x5f =>
    match subOp4 r with
    | 0 => some (.meshTree (r.sub.extractLsb' 10 2) (sDec r.a))
    | 1 => do
      let ty ← subTy r
      let c ← decCReg r.cnt
      pure (.meshRed { op := r.sub.extractLsb' 2 3, ty, d := tDec r.d, a := r.a, k := r.sub.extractLsb' 10 2, c })
    | 2 => some (.meshCancel (r.sub.extractLsb' 10 2))
    | _ => none
  | 0x60 => do
    let ty ← Tag.ofCode (r.sub.extractLsb' 8 5)
    let c ← decCReg r.cnt
    pure (.sdot { ty, d := tDec r.d, a := tDec r.a, b := sDec r.b, c })
  | _ => none

/-- Majors 0x70 to 0x77 (file 12). -/
def parseMatrix (m : Nat) (r : RWord) : Option Instr :=
  match m with
  | 0x70 =>
    if r.sub.getLsbD 15 then some .gangClear
    else some (.gangSet (r.sub.extractLsb' 10 5) (r.sub.extractLsb' 6 4) (r.sub.extractLsb' 4 2) (r.sub.extractLsb' 0 4))
  | 0x71 => match subOp4 r with
    | 0 => some .bond
    | 1 => some .unbond
    | _ => none
  | 0x72 => do
    let af ← MFmt.ofCode (r.sub.extractLsb' 12 4)
    let bf ← MFmt.ofCode (r.sub.extractLsb' 8 4)
    pure (.mcfg af bf)
  | 0x73 => match subOp4 r with
    | 0 => some (.mstat (r.sub.getLsbD 11) (r.sub.getLsbD 10) (tDec r.a) (tDec r.b))
    | 1 => some .mflip
    | _ => none
  | 0x74 => (decCReg r.cnt).map (fun c =>
      .mstream ⟨r.sub.getLsbD 15, r.sub.getLsbD 14, r.sub.getLsbD 13, tDec r.a, tDec r.b, sDec r.c, c⟩)
  | 0x75 => match subOp4 r with
    | 0 => some (.mzero (r.sub.getLsbD 11) (sDec r.a))
    | 1 => some (.mfill (r.sub.getLsbD 11) (sDec r.a) (sDec r.b))
    | _ => none
  | 0x76 => do
    let ty ← Tag.ofCode (r.sub.extractLsb' 8 5)
    let rnd ← Rnd.ofCode (r.sub.extractLsb' 1 3)
    let c ← decCReg r.cnt
    if r.sub.getLsbD 15 then
      pure (.mdrainT ⟨r.sub.extractLsb' 13 2, ty, r.sub.extractLsb' 4 4, rnd, r.sub.getLsbD 0, tDec r.d, sDec r.a,
        tDec r.b, c⟩)
    else
      pure (.mdrain { src := r.sub.extractLsb' 13 2, ty, rnd, sat := r.sub.getLsbD 0, d := r.d, a := sDec r.a, c })
  | 0x77 => (decCReg r.cnt).map (.mstatus (sDec r.d))
  | _ => none

/-- Majors 0x78 to 0x7d (file 15). -/
def parsePriv (m : Nat) (r : RWord) : Option Instr :=
  match m with
  | 0x78 => match subOp4 r with
    | 0 => some (.rdps (sDec r.d) (r.sub.extractLsb' 0 8))
    | 1 => some (.wrps (r.sub.extractLsb' 0 8) (sDec r.a))
    | _ => none
  | 0x79 => some (.tret (r.sub.getLsbD 0))
  | 0x7a => do
    let c ← decCReg r.cnt
    match subOp4 r with
    | 0 => pure (.csave (sDec r.a) (sDec r.b) c)
    | 1 => pure (.crest (sDec r.a) (sDec r.b) c)
    | _ => none
  | 0x7b => do
    let c ← decCReg r.cnt
    match subOp4 r with
    | 0 =>
      if r.sub.getLsbD 10 then pure (.harvest (sDec r.a) (sDec r.b) c)
      else pure (.tlbinv (r.sub.extractLsb' 8 2) (sDec r.a) (sDec r.b) c)
    | 1 => pure (.atcinv (sDec r.a) (sDec r.b) c)
    | _ => none
  | 0x7c => match subOp4 r with
    | 0 => some (.fltAck (r.sub.extractLsb' 8 2) (r.sub.getLsbD 7) (qDec r.d) (sDec r.a))
    | 1 => some (.haltAck (r.sub.getLsbD 8) (qDec r.d) (sDec r.a))
    | 2 => some (.regionAbort (qDec r.d) (sDec r.a))
    | _ => none
  | 0x7d => match subOp4 r with
    | 0 => some (.tileReset (sDec r.a) (r.sub.extractLsb' 0 6))
    | 1 => some (.phaseSet (r.sub.getLsbD 8) (sDec r.a) (sDec r.b))
    | _ => none
  | _ => none

/-- The row a word names, by its fields alone (R198). -/
def parse (w : DWord) : Option Instr :=
  if w.getLsbD 63 then some (.pairedWord (decHalf (w.extractLsb' 32 31)) (decHalf (w.extractLsb' 0 31)))
  else
    let r := RWord.ofWord w
    let i := IWord.ofWord w
    let m := r.major.toNat
    if m < 0x1b then parseScalar m r i
    else if m < 0x31 || m = 0x3e || m = 0x3f then parseVector m r i
    else if m < 0x3e then parseLanes m r
    else if m < 0x61 then parseMem m r
    else if m < 0x78 then parseMatrix m r
    else parsePriv m r

/-- Decoding of an instruction word (R199): total, every other bit pattern refused by name. -/
def decode (w : DWord) : Except DecodeError Instr :=
  match parse w with
  | none => .error .undefinedPattern
  | some i =>
    if encode i ≠ some w then .error .reservedField
    else if i.wellFormed then .ok i
    else .error .illFormed

/-! ### Frond words (R390 to R392) -/

def FrR.enc (op : BitVec 6) (o : FrR) : Word := (op ++ o.d ++ o.a ++ o.b ++ 0#14 : BitVec (6+4+4+4+14))
def FrI.enc (op : BitVec 6) (o : FrI) : Word := (op ++ o.d ++ o.a ++ o.imm : BitVec (6+4+4+18))
def FrB.enc (op : BitVec 6) (o : FrB) : Word := (op ++ 0#4 ++ o.a ++ o.b ++ o.n : BitVec (6+4+4+4+14))

/-- The word of a Frond instruction (R392). -/
def encodeFrond : Instr → Option Word
  | .frondEnd => some 0
  | .frondMovi o => some (o.enc 0x01) | .frondAddi o => some (o.enc 0x02) | .frondAndi o => some (o.enc 0x03)
  | .frondAdd o => some (o.enc 0x04) | .frondSub o => some (o.enc 0x05) | .frondAnd o => some (o.enc 0x06)
  | .frondOr o => some (o.enc 0x07) | .frondXor o => some (o.enc 0x08)
  | .frondShl o => some (o.enc 0x09) | .frondShr o => some (o.enc 0x0a)
  | .frondLdp o => some (o.enc 0x0b) | .frondLdw o => some (o.enc 0x0c) | .frondStw o => some (o.enc 0x0d)
  | .frondSts o => some (o.enc 0x0e)
  | .frondBeq o => some (o.enc 0x0f) | .frondBne o => some (o.enc 0x10) | .frondBltu o => some (o.enc 0x11)
  | .frondLoop n len => some (0x12#6 ++ 0#8 ++ n ++ len : BitVec (6+8+7+11))
  | .frondAct o => some (o.enc 0x13)
  | .frondFail code => some (0x14#6 ++ 0#8 ++ code : BitVec (6+8+18))
  | _ => none

/-- The row a Frond word names, by its fields alone (R391, R392). -/
def parseFrond (w : Word) : Option Instr :=
  let r : FrR := { d := w.extractLsb' 22 4, a := w.extractLsb' 18 4, b := w.extractLsb' 14 4 }
  let i : FrI := { d := w.extractLsb' 22 4, a := w.extractLsb' 18 4, imm := w.extractLsb' 0 18 }
  let b : FrB := { a := w.extractLsb' 18 4, b := w.extractLsb' 14 4, n := w.extractLsb' 0 14 }
  match (w.extractLsb' 26 6).toNat with
  | 0x00 => some .frondEnd
  | 0x01 => some (.frondMovi i) | 0x02 => some (.frondAddi i) | 0x03 => some (.frondAndi i)
  | 0x04 => some (.frondAdd r) | 0x05 => some (.frondSub r) | 0x06 => some (.frondAnd r)
  | 0x07 => some (.frondOr r) | 0x08 => some (.frondXor r) | 0x09 => some (.frondShl r) | 0x0a => some (.frondShr r)
  | 0x0b => some (.frondLdp i) | 0x0c => some (.frondLdw i) | 0x0d => some (.frondStw i) | 0x0e => some (.frondSts i)
  | 0x0f => some (.frondBeq b) | 0x10 => some (.frondBne b) | 0x11 => some (.frondBltu b)
  | 0x12 => some (.frondLoop (w.extractLsb' 11 7) (w.extractLsb' 0 11))
  | 0x13 => some (.frondAct i)
  | 0x14 => some (.frondFail (w.extractLsb' 0 18))
  | _ => none

/-- Decoding of a Frond word (R392, R393). -/
def decodeFrond (w : Word) : Except DecodeError Instr :=
  match parseFrond w with
  | none => .error .undefinedPattern
  | some i =>
    if encodeFrond i ≠ some w then .error .reservedField
    else if i.wellFormed then .ok i
    else .error .illFormed

/-- Whether an instruction is a word of a kernel or of a Frond program, which only a fetch runs. -/
def Instr.isWord (i : Instr) : Bool :=
  match i with
  | .undefinedBitPattern _ => true
  | i => (encode i).isSome || (encodeFrond i).isSome

/-- The instruction of a table word: up to 32 bits a Frond word, else a 64-bit kernel word. -/
def decodeTableWord (nbits w : Nat) : Option Instr :=
  if nbits ≤ 32 then (decodeFrond (BitVec.ofNat 32 w)).toOption else (decode (BitVec.ofNat 64 w)).toOption

/-! ### Register fields that a word alone shows to be ILLEGAL (R64, R73, R199) -/

/-- A register that must start an aligned group: its number and the alignment. -/
def pairAt (w64 : Bool) (r : Nat) : Nat × Nat := (r, if w64 then 2 else 1)

/-- The aligned registers of a half of a paired word (R194, R197). -/
def Half.groups (h : Half) : List (Nat × Nat) :=
  [pairAt h.wide h.d.toNat, pairAt h.wide h.a.toNat] ++ (if h.isMov then [] else [pairAt h.wide h.b.toNat])

def GBase.groups : GBase → List (Nat × Nat)
  | .bt _ => []
  | .s n => [pairAt true n.toNat]
def ABase.groups : ABase → List (Nat × Nat)
  | .s n => [pairAt true n.toNat]
  | _ => []
/-- The registers of an access width (R270). -/
def widthAlign (w : BitVec 3) : Nat := if w = 5 then 2 else if w = 6 then 4 else 1

/-- The registers that a word names as pairs or larger aligned groups (R64, R270, R280). -/
def Instr.groups : Instr → List (Nat × Nat)
  | .sadd o | .ssub o | .smul o | .smulhi o | .sdiv o | .srem o | .smin o | .smax o | .sand o | .sor o | .sxor o | .sandn o =>
    let w : Bool := o.ty.width = 64
    [pairAt w o.d.toNat, pairAt w o.a.toNat, pairAt w o.b.toNat]
  | .sshl o | .sshr o | .srotl o | .smov o | .sneg o | .sabs o =>
    let w : Bool := o.ty.width = 64
    [pairAt w o.d.toNat, pairAt w o.a.toNat]
  | .spopc o | .sclz o => [pairAt (o.ty.width = 64) o.a.toNat]
  | .smoviI64 d _ | .smoviN64 d _ => [pairAt true d.toNat]
  | .sshli o | .sshriN o | .sshriI o | .srotli o => [pairAt o.w64 o.d.toNat, pairAt o.w64 o.a.toNat]
  | .scmp _ _ ty _ a b => [pairAt (ty.width = 64) a.toNat, pairAt (ty.width = 64) b.toNat]
  | .ssel w _ _ a b => [pairAt w a.toNat, pairAt w b.toNat]
  | .sadda _ _ d a _ => [pairAt true d.toNat, pairAt true a.toNat]
  | .gets (.s64 d) _ => [pairAt true d.toNat]
  | .slane w d a _ => [pairAt w d.toNat, pairAt w a.toNat]
  | .movs w _ d a => [pairAt w d.toNat, pairAt w a.toNat]
  | .mov o | .shflIdx o _ | .shflUp o _ | .shflDown o _ | .shflXor o _ | .shflBcast o _ =>
    [pairAt o.w64 o.d.toNat, pairAt o.w64 o.a.toNat]
  | .movi ty _ d _ => [pairAt (ty.width = 64) d.toNat]
  | .retag o => [pairAt (o.ty.width = 64) o.d.toNat, pairAt (o.ty.width = 64) o.a.toNat]
  | .iadd o | .isub o | .imul o | .imulhi o | .imin o | .imax o | .vand o | .vor o | .vxor o | .vandn o
  | .fadd o | .fsub o | .fmul o | .fmin o | .fmax o | .fcopysign o =>
    let w : Bool := o.ty.width = 64
    [pairAt w o.d.toNat, pairAt w o.a.toNat, pairAt w o.b.toNat]
  | .imad o | .ffma o | .fnma o =>
    let w : Bool := o.ty.width = 64
    [pairAt w o.d.toNat, pairAt w o.a.toNat, pairAt w o.b.toNat, pairAt w o.c.toNat]
  | .iabs o | .ineg o | .vnot o | .shl o | .shr o | .rotl o | .fabs o | .fneg o | .brev o =>
    let w : Bool := o.ty.width = 64
    [pairAt w o.d.toNat, pairAt w o.a.toNat]
  | .imulw o => [pairAt true o.d.toNat]
  | .fclass o | .popc o | .clz o | .ctz o => [pairAt (o.ty.width = 64) o.a.toNat]
  | .icmp o | .fcmp o => [pairAt (o.ty.width = 64) o.a.toNat, pairAt (o.ty.width = 64) o.b.toNat]
  | .rcp o | .sqrt o | .rsqrt o | .exp2 o | .log2 o | .sinpi o | .cospi o | .tanh o =>
    [pairAt (o.ty.width = 64) o.d.toNat, pairAt (o.ty.width = 64) o.a.toNat]
  | .cvt o => [pairAt (o.dst.width = 64) o.d.toNat, pairAt (o.src.width = 64) o.a.toNat]
  | .pack o => [pairAt (o.ty.width = 64) o.d.toNat]
  | .unpack o => [pairAt (o.ty.width = 64) o.d.toNat, pairAt (o.ty.width = 64) o.a.toNat]
  | .ptest w _ _ a => [pairAt w a.toNat]
  | .sel w _ d _ a b => [pairAt w d.toNat, pairAt w a.toNat, pairAt w b.toNat]
  | .tileRed o | .scan _ o => [pairAt (o.ty.width = 64) o.d.toNat, pairAt (o.ty.width = 64) o.a.toNat]
  | .matchLanes o _ => [pairAt o.w64 o.a.toNat]
  | .rand w _ d => [pairAt w d.toNat]
  | .pairedWord h0 h1 => h0.groups ++ h1.groups
  | .ld o => (o.d.toNat, widthAlign o.width) :: o.addr.base.groups
  | .st o => (o.d.toNat, widthAlign o.width) :: o.addr.base.groups
  | .ldScratch o => [(o.d.toNat, widthAlign o.width)]
  | .stScratch o => [(o.d.toNat, widthAlign o.width)]
  | .ldParam o => [(o.d.toNat, widthAlign o.width)]
  | .sldParam o => [(o.d.toNat, widthAlign o.width)]
  | .sld o => (o.d.toNat, widthAlign o.width) :: o.addr.base.groups
  | .btSet _ _ a _ _ => [pairAt true a.toNat]
  | .atom o | .vatom o => pairAt (o.ty.width = 64) o.d.toNat :: pairAt (o.ty.width = 64) o.b.toNat :: o.addr.base.groups
  | .red o | .vred o => pairAt (o.ty.width = 64) o.b.toNat :: o.addr.base.groups
  | .cas o => (o.d.toNat, 2 ^ o.lw.toNat) :: (o.b.toNat, 2 ^ o.lw.toNat) :: o.addr.base.groups
  | .rdps d _ => [pairAt true d.toNat]
  | .wrps _ a => [pairAt true a.toNat]
  | _ => []

/-- Whether the register fields of a word are legal by themselves: aligned groups, special registers that the word may
name (R64, R73). (DEDUCED, log 138.) -/
def Instr.fieldsOk (i : Instr) : Bool :=
  i.groups.all (fun p => p.1 % p.2 = 0) &&
  (match i with
   | .gets (.s _) n => decide (n.toNat ∈ specialRegs) && decide (2 ≤ n.toNat)
   | .gets (.s64 _) n => n = 0x13
   | .gets (.v _) n => decide (n.toNat ∈ specialRegs)
   | .sets n _ => n = 0x05 || n = 0x12
   | _ => true)

end Sys2Proof
end

