-- ==== Sys2Proof/Machine/Reads.lean ====
section
/-!
DEFINITION. The scalar registers a word reads, for the check of poisoned scalars (R352).
-/
namespace Sys2Proof.Machine
open Sys2Proof

/-- n scalar registers from one. -/
def sSpan (r : SReg) (n : Nat) : List Nat := (List.range n).map (r.toNat + ·)
/-- A scalar operand: one register or a pair. -/
def sRead (w64 : Bool) (r : SReg) : List Nat := sSpan r (if w64 then 2 else 1)
def gBaseReads : GBase → List Nat
  | .bt _ => []
  | .s n => sRead true n
def aBaseReads : ABase → List Nat
  | .s n => sRead true n
  | .peer n => sRead false n
  | _ => []
def peerReads (p : Option SReg) : List Nat := (p.map (sRead false)).getD []

/-- The scalar registers an instruction reads; a BRX reads those its lanes select (R222). -/
def State.scalarReads (s : State) (i : Instr) : List Nat :=
  match i with
  | .sadd o | .ssub o | .smul o | .smulhi o | .sdiv o | .srem o | .smin o | .smax o | .sand o | .sor o | .sxor o | .sandn o =>
    sRead (o.ty.width = 64) o.a ++ sRead (o.ty.width = 64) o.b
  | .sshl o | .sshr o | .srotl o => sRead (o.ty.width = 64) o.a ++ sRead false o.b
  | .smov o | .sneg o | .sabs o | .spopc o | .sclz o => sRead (o.ty.width = 64) o.a
  | .saddi _ a _ | .sandi _ a _ | .sori _ a _ | .sxori _ a _ => sRead false a
  | .sshli o | .sshriN o | .sshriI o | .srotli o => sRead o.w64 o.a
  | .scmp _ _ ty _ a b => sRead (ty.width = 64) a ++ sRead (ty.width = 64) b
  | .ssel w64 _ _ a b => sRead w64 a ++ sRead w64 b
  | .sadda _ _ _ a b => sRead true a ++ sRead false b
  | .brx g bound a b _ _ =>
    let idx := (lanesOf (s.wmask g)).map (fun l => (s.rdV s.cur a.toNat l).toNat)
    (idx.filter (· < bound.toNat)).map (b.toNat + ·)
  | .ret a | .barExpect _ a | .sets _ a => sRead false a
  | .wrps _ a => sRead true a
  | .wait _ n _ _ sa sb _ => sSpan sa (8 * (n.toNat + 1)) ++ sRead false sb
  | .slane _ _ _ (.reg r _) => sRead false r
  | .movs w64 _ _ a => sRead w64 a
  | .blkUnpack o => sRead false o.s
  | .shflBcast _ b | .append _ _ _ b => sRead false b
  | .ld o => gBaseReads o.addr.base
  | .st o => gBaseReads o.addr.base
  | .ldScratch o => peerReads o.addr.peer
  | .stScratch o => peerReads o.addr.peer
  | .ldParam o => sRead false o.addr.s
  | .sldParam o => sRead false o.addr.s
  | .sld o => gBaseReads o.addr.base
  | .btSet _ _ a b _ => sRead true a ++ sRead false b
  | .prefetch _ _ a => gBaseReads a.base
  | .atom o | .vatom o => aBaseReads o.addr.base
  | .red o | .vred o => aBaseReads o.addr.base
  | .cas o => aBaseReads o.addr.base
  | .copy a _ => sSpan a 8
  | .meshTree _ a => sSpan a 3
  | .sdot o => sSpan o.b 8
  | .mstream o => sRead false o.s
  | .mzero _ a => sRead false a
  | .mfill w64 a b => sRead false a ++ sRead w64 b
  | .mdrain o => sRead false o.a
  | .mdrainT o => sRead false o.a
  | .csave a b _ | .crest a b _ => sRead false a ++ sRead true b
  | .tlbinv _ a b _ | .harvest a b _ | .atcinv a b _ => sRead true a ++ sRead false b
  | .fltAck _ _ _ a | .haltAck _ _ a | .regionAbort _ a | .tileReset a _ => sRead false a
  | .phaseSet _ a b => sRead false a ++ sRead false b
  | _ => []

/-- Whether a word reads a poisoned scalar register (R352). -/
def State.scalarPoison (s : State) (i : Instr) : Bool :=
  let p := (s.grp s.cur).vpoison
  p.any (fun x => sPlace 0 ≤ x.1) && (s.scalarReads i).any (fun r => FMap.get p (sPlace r))

end Sys2Proof.Machine
end

