-- ==== Sys2Proof/Machine/Issue.lean ====
section
/-!
DEFINITION. The issue stage (R39 to R44, R47, R111, R175 to R187, R199): fetch of clause headers and words through both
stages with the patches of the launch, the checks made before a word issues, and the move to the next position; and the
fetch of Frond words by an interpreter (R391, R392).
-/
namespace Sys2Proof.Machine
open Sys2Proof

/-! ### Bonds of a group (R158) -/

/-- Whether cluster rank `r` lies in a bond's rectangle (R158). -/
def Bond.covers (b : Bond) (cols r : Nat) : Bool :=
  let y := r / cols - b.origin / cols
  let x := r % cols - b.origin % cols
  b.origin / cols ≤ r / cols && b.origin % cols ≤ r % cols && y < b.rows && x < b.cols

/-- The fields of GANG (R301). -/
def gangValid (n : Nat) : Bool := bitOf n 15
def gangGidx (n : Nat) : Nat := bitsOf n 14 10
def gangCols (n : Nat) : Nat := bitsOf n 9 6
def gangRows (n : Nat) : Nat := bitsOf n 5 4
def gangOrigin (n : Nat) : Nat := bitsOf n 3 0

/-- The key of a bond, and of its latch: the cluster and the gang's value, so that gangs of two rectangles meet at two latches
(R165, R303). (DEDUCED, log 62.) -/
def bondKey (cluster gang : Nat) : Nat := cluster * 2 ^ 15 + gang % 2 ^ 15

/-- The bond a group's GANG names. -/
def State.gangKey (s : State) (g : Nat) : Nat := bondKey (s.clusterOf g) (s.grp g).gang.toNat

def State.bondAt (s : State) (key : Nat) : Bond := FMap.get s.bonds key

/-- The held, breaking or saved bond a group is a member of: the one that its GANG names (R164). (DEDUCED, log 140.) -/
def State.bondOf (s : State) (g : Nat) : Option Nat :=
  let b := s.bondAt (s.gangKey g)
  if gangValid (s.grp g).gang.toNat && b.state ∈ [BondState.held, .breaking, .saved] then some (s.gangKey g) else none

/-! ### Fetch of code words (R39, R175, R179, R200) -/

/-- What fetching a word gives: its 64 bits, a fault, the I/O page an ATS request must translate first, or the page of a
migrating device to pull. -/
inductive CodeRes where
  | word (w : DWord)
  | fault (r : Raise)
  | ats (page : Nat)
  | pull (page : Nat)
  deriving DecidableEq, Repr

/-- The bytes of the parameter block: beyond its declared length they read zero (R106). -/
def Launch.paramBytes (la : Launch) (off n : Nat) : List Byte :=
  (List.range n).map (fun i => if off + i < la.paramLen then FMap.get la.params (off + i) else 0)

/-- One patch applied to a fetched word (R179): entry (WOFF, POFF, bytes, sign-extend). -/
def patchWord (la : Launch) (off : Nat) (w : DWord) (p : Nat × Nat × Nat × Bool) : DWord :=
  if p.1 = off then
    let v := leNat (la.paramBytes p.2.1 p.2.2.1)
    let v := if p.2.2.2 && 2 ^ (8 * p.2.2.1 - 1) ≤ v then v + (2 ^ 32 - 2 ^ (8 * p.2.2.1)) else v
    hiWord w ++ BitVec.ofNat 32 v
  else w

/-- The word as every patch of its offset leaves it, in table order (R179). -/
def Launch.patched (la : Launch) (off : Nat) (w : DWord) : DWord := la.patches.foldl (patchWord la off) w

/-- The guest VA of the word at an offset of a plane (R39, R175). -/
def Launch.codeVa (la : Launch) (plane off : Nat) : Nat := la.image + la.code + plane * la.stride + off

/-- The cell of an instruction cache. -/
def codeKey (launch va : Nat) : Nat := launch * 2 ^ 57 + va

/-- A fetched word: what memory holds now, or what the core's instruction cache still holds of it (R200). -/
def State.cachedCode (s : State) (g va : Nat) (w : DWord) : DWord :=
  match FMap.get (s.coreRec (s.coreOf g)).icache (codeKey (s.launchOf g) va) with
  | none => w
  | some c => if c = w || Config.choose (s.freeCtr + 2 ^ 160 + va) % 2 = 0 then w else c

/-- Fetch of the word at an offset of a plane (R39, R175): translated by the hub as a load of the group's function (R366); a fetch
returns the old or the new value of a word that a store has changed (R200). (DEDUCED, log 17.) -/
def State.codeWord (s : State) (g plane off : Nat) : CodeRes :=
  let gr := s.grp g
  let la := s.launch (s.launchOf g)
  let va := la.codeVa plane off
  match s.hubXlat gr.vf la.part va false with
  | .error e =>
    if e.cls = 0 then .pull e.gpa
    else .fault { plainFault e.cls with addr := BitVec.ofNat 64 va, level := e.level, gpa := e.gpa, stage2 := e.stage2 }
  | .ok x =>
    if x.host then
      match s.placeOf (s.coreOf g) gr.vf va false x gr.refused with
      | .at (.host h _) => .word (la.patched off (s.cachedCode g va (BitVec.ofNat 64 (leNat (s.hostBytes h 8)))))
      | .ats page => .ats page
      | _ => .fault { plainFault 15 with addr := BitVec.ofNat 64 va }
    else
      let spa := x.out + va % 2 ^ x.pbits
      match s.absentAt spa with
      | some p => .pull p
      | none =>
        if s.poisoned spa 8 then .fault { plainFault 18 with addr := BitVec.ofNat 64 va }
        else .word (la.patched off (s.cachedCode g va (BitVec.ofNat 64 (s.devNat spa 8))))

/-- What the fetch of a word from device memory leaves in the caches: its translation with the hub, the word with the core
(R200, R369). -/
def State.codeFill (s : State) (g plane off : Nat) : State :=
  let la := s.launch (s.launchOf g)
  let va := la.codeVa plane off
  match s.hubXlat (s.grp g).vf la.part va false with
  | .error _ => s
  | .ok x =>
    let s := s.hubFillFor (s.grp g).vf la.part va false
    let key := codeKey (s.launchOf g) va
    let spa := x.out + va % 2 ^ x.pbits
    if x.host || (s.absentAt spa).isSome || s.poisoned spa 8 || (FMap.get (s.coreRec (s.coreOf g)).icache key).isSome then s
    else s.modCore (s.coreOf g) (fun c => { c with icache := FMap.capSet c.icache 32768 s.victim key (some (BitVec.ofNat 64 (s.devNat spa 8))) })

/-! ### Clause headers (R181 to R183) -/

def headCount (h : DWord) : Nat := bitsOf h.toNat 15 12
def headClass (h : DWord) : Nat := bitsOf h.toNat 11 9
def headWait (h : DWord) : BitVec 6 := h.extractLsb' 3 6
def headYield (h : DWord) : Bool := h.getLsbD 2
def headUnif (h : DWord) : Bool := h.getLsbD 1
/-- SIG, CLASS and the res0 bits of a header (R183). -/
def headOk (h : DWord) : Bool :=
  bitsOf h.toNat 63 48 = 0xc1a5 && bitsOf h.toNat 47 16 = 0 && headClass h ≤ 3 && !h.getLsbD 0

/-! ### Checks of a decoded word at its position (R43, R182, R184, R199, R356, R358) -/

/-- The major opcode of a word; a paired word is of the vector family (R194, R198). -/
def majorOf (w : DWord) : Nat := if w.getLsbD 63 then 0x20 else bitsOf w.toNat 62 56

/-- Whether a clause class admits a major opcode (R182). -/
def classAdmits (cls major : Nat) : Bool :=
  match cls with
  | 0 => major < 0x50
  | 1 => major < 0x70
  | 2 => major < 0x50 || (0x70 ≤ major && major < 0x78)
  | _ => major ≤ 0x7d

/-- The majors of words that must stand last in their clause: BRA, BRX, CALL, RET, EXIT, TRAP, TRET (R184, R358). -/
def transferMajors : List Nat := [0x0c, 0x0d, 0x0e, 0x0f, 0x10, 0x11, 0x79]

/-- Words that must be last: the transfers and REGION.BEGIN (R184, R235, R358). -/
def mustBeLast (w : DWord) : Bool :=
  majorOf w ∈ transferMajors || (majorOf w = 0x17 && bitsOf w.toNat 15 12 = 0)

/-- Group-uniform words (R43). -/
def groupUniform (w : DWord) : Bool :=
  majorOf w ∈ [0x13, 0x14, 0x15, 0x16, 0x17, 0x5e, 0x5f, 0x60] || (0x70 ≤ majorOf w && majorOf w ≤ 0x77)

/-- The instruction of a word position, or none where R182, R184, R199 make it ILLEGAL. (DEDUCED, log 35.) -/
def Group.wordInstr (gr : Group) (w : DWord) (last : Bool) : Option Instr :=
  match decode w with
  | .error _ => none
  | .ok i =>
    if !classAdmits gr.cls (majorOf w) then none
    else if mustBeLast w && !last then none
    else if 0x78 ≤ majorOf w && gr.mode = 0 then none
    else some i

/-- What occupied planes must agree on at a transfer (R43, R219): kind, targets, reconvergence. -/
def State.transferKey (s : State) (g : Nat) (i : Instr) : Option (List Nat) :=
  match i with
  | .bra _ j t => some [0, t.toNat, j.toNat]
  | .braQ _ t => some [0, t.toNat, 0]
  | .brx _ bound _ b _ j => some [1, bound.toNat, b.toNat, j.toNat]
  | .call _ t => some [2, t.toNat]
  | .ret a => some [3, (s.rdS g a.toNat).toNat]
  | .trap _ => some [4]
  | _ => none

/-- Whether differing words of the occupied planes breach R43. -/
def State.planesDisagree (s : State) (g : Nat) (l : List (DWord × Instr)) : Bool :=
  let keys := l.map (fun p => s.transferKey g p.2)
  l.any (fun p => groupUniform p.1) ||
  (keys.any (·.isSome) &&
    (keys.any (fun k => k = some [4]) || keys.any (fun k => some k ≠ keys.head?)))

/-! ### Issue of a group's next header or word -/

/-- Registers that HOST groups alone may name (R344). -/
def hostNums : List Nat :=
  [0x10, 0x11, 0x12, 0x13, 0x14, 0x24, 0x25, 0x26, 0x27, 0x2e, 0x2f, 0x30, 0x31, 0x40, 0x41, 0x42, 0x43, 0x44, 0x45, 0x46, 0x47,
   0x48, 0x49, 0x50, 0x51, 0x52, 0x53, 0x54, 0x58, 0x59, 0x5a, 0x5b]
/-- Registers that GUEST groups may name too (R344). -/
def guestNums : List Nat := [0x00, 0x01, 0x02, 0x08, 0x09, 0x0a, 0x0b, 0x0c, 0x20, 0x32]

def Group.mayName (gr : Group) (num : Nat) : Bool := num ∈ guestNums || (gr.mode = 2 && num ∈ hostNums)

/-- Whether a word is a defined instruction in the group's mode: its fields, the register it names, a HOST-only operation (R199,
R343, R344, R360, R361). -/
def Group.defines (gr : Group) (i : Instr) : Bool :=
  i.fieldsOk &&
  (match i with
   | .rdps _ num => gr.mayName num.toNat
   | .wrps num _ => gr.mayName num.toNat
   | .tlbinv kind _ _ _ => kind.toNat < 2 || gr.mode = 2
   | .harvest _ _ _ => gr.mode = 2
   | .fltAck _ vfq _ _ => !vfq || gr.mode = 2
   | .phaseSet _ _ _ => gr.mode = 2
   | _ => true)

/-- What an issue turn comes to: nothing more, or an instruction to execute with the position moved on. -/
inductive Fetched where
  | done (s : State)
  | run (i : Instr) (s : State)

/-- The planes of a mask's lanes as a mask of planes. -/
def planeBits (planes : List Nat) : Nat := planes.foldl (fun acc p => acc ||| 2 ^ p) 0

/-- Fetches one word for each plane of a list; the first failure wins. -/
def State.codeWords (s : State) (g off : Nat) : List Nat → Except CodeRes (List DWord)
  | [] => .ok []
  | p :: ps =>
    match s.codeWord g p off with
    | .word w =>
      match s.codeWords g off ps with
      | .ok ws => .ok (w :: ws)
      | .error e => .error e
    | r => .error r

/-- A group waits for an ATS answer to fetch code (R377). -/
def State.holdCode (s : State) (g page : Nat) : State :=
  s.modGrp g (fun gr => { gr with held := true, heldAts := [(page, false)] })

/-- The snapshot of a lane that was not active at the clause header (R40). -/
def noPlane : Nat := 255

/-- The occupied planes of the clause, ascending (R40). -/
def Group.occupiedPlanes (gr : Group) : List Nat := sortOnce (gr.snap.filter (· ≠ noPlane))

/-- The pipes of a clause class (R182), those that no narrower class may use first. (DESIGN CHOICE, log 151.) -/
def classPipes (cls : Nat) : List Nat :=
  match cls with
  | 0 => [7, 6, 5, 4, 3, 2, 1, 0]
  | 1 => [3, 2, 1, 0]
  | 2 => [4, 0]
  | _ => [0]

/-- Whether another group's clause is under way on a pipe of a group's core (R184). -/
def State.pipeBusy (s : State) (g pipe : Nat) : Bool :=
  let o := FMap.get (s.coreRec (s.coreOf g)).pipes pipe
  o ≠ 0 && o ≠ g + 1 && (s.grp (o - 1)).live && (s.grp (o - 1)).inClause && (s.grp (o - 1)).park = .running &&
    (s.teamOf (o - 1)).halt = .running && s.coreOf (o - 1) = s.coreOf g

/-- The pipe a clause of a class issues on: the one the group holds, or a free one (R182, R184). -/
def State.pipeFor (s : State) (g cls : Nat) : Option Nat :=
  let mine := (classPipes cls).find? (fun p => FMap.get (s.coreRec (s.coreOf g)).pipes p = g + 1)
  if mine.isSome then mine else (classPipes cls).find? (fun p => !s.pipeBusy g p)

/-- The group's clause takes its pipe, and no other (R184). -/
def State.takePipe (s : State) (g pipe : Nat) : State :=
  s.modCore (s.coreOf g) (fun c => { c with pipes := FMap.set (c.pipes.filter (fun p => p.2 ≠ g + 1)) pipe (g + 1) })

/-- The header stage: pops, the checks of R39, R180, R183 and R42, the wait, and the plane snapshot (R40, R47). An
offset at or above PLEN comes before a lane whose PLANE is at or above P. (DESIGN CHOICE, log 153.) -/
def State.issueHeader (s : State) (g : Nat) : State :=
  let gr := s.grp g
  let la := s.launch (s.launchOf g)
  let gr := gr.setPath (popPath gr.exited gr.path gr.stack)
  let s := s.setGrp g { gr with planeFrom := 0, posTags := [], brDests := [], held := false }
  let lanes := lanesOf gr.mask
  let planes := sortOnce (lanes.map (FMap.get gr.planes))
  let bits := planeBits planes
  if la.plen ≤ gr.off then s.raiseHeader g 4 gr.off bits
  else if planes.any (fun p => la.planes ≤ p) then s.raiseHeader g 6 gr.off bits
  else
    let s := planes.foldl (fun s p => s.codeFill g p gr.off) s
    match s.codeWords g gr.off planes with
    | .error (.ats page) => s.holdCode g page
    | .error (.pull page) => s.askPull page
    | .error (.fault r) => s.faultPark g r gr.off bits false false true
    | .error (.word _) => s
    | .ok hs =>
      let h := hs.head?.getD 0
      if hs.any (fun h => !headOk h) then s.raiseHeader g 4 gr.off bits
      else if hs.any (fun k => headCount k ≠ headCount h || headClass k ≠ headClass h || headUnif k ≠ headUnif h) then
        s.raiseHeader g 6 gr.off bits
      else
        let waits : BitVec 6 := hs.foldl (fun acc k => acc ||| headWait k) 0
        if (List.range 6).any (fun c => waits.getLsbD c && FMap.get gr.ctrs c ≠ 0) then
          s.modGrp g (fun gr => { gr with park := .header, headerWait := waits })
        else
          match s.pipeFor g (headClass h) with
          | none => s
          | some pipe =>
          (s.takePipe g pipe).modGrp g (fun gr =>
            let gr := gr.ready waits
            { gr with
              park := .running, headerWait := waits, inClause := true, clause := gr.off
              nextClause := gr.off + 8 * headCount h + 16, word := 0, count := headCount h, cls := headClass h
              unif := headUnif h, yields := hs.any headYield, tilew := gr.tilewNext
              snap := (List.range 32).map (fun l => if gr.mask.getLsbD l then FMap.get gr.planes l else noPlane) })

/-- The issue of a word of a plane under a mask: the position moves on before the word executes, so that a park after it
resumes at the next word and a fault rewinds (R184, R187); a poisoned scalar source raises POISON first (R352).
(DEDUCED, log 13; DESIGN CHOICE, log 152.) -/
def State.startWord (s : State) (g : Nat) (w : DWord) (i : Instr) (mask : LaneMask) (planes : List Nat) (plane : Nat)
    (split last : Bool) : Fetched :=
  let gr := s.grp g
  let mask := if gr.replay = 0 then mask else mask &&& gr.replay
  let iss : Issue := {
    grp := g, mask, planes := planeBits planes, plane, off := gr.clause + 8 + 8 * gr.word, idx := gr.word
    word := w, next := gr.nextClause, split, lastPlane := last }
  let gr := if gr.planeFrom = 0 && gr.replay = 0 then { gr with posTags := [], brDests := [] } else gr
  let gr := { gr with held := false }
  let gr :=
    if !last then { gr with planeFrom := plane + 1 }
    else if gr.word = gr.count then { gr with inClause := false, off := gr.nextClause, planeFrom := 0, word := gr.word + 1 }
    else { gr with planeFrom := 0, word := gr.word + 1 }
  let s := { s.setGrp g gr with iss := iss }
  if s.scalarPoison i then .done (s.raise { plainFault 18 with addr := poisonAddr } mask) else .run i s

/-- A fault at the word position, before any plane's word issues (R43, R199). -/
def State.wordFault (s : State) (g : Nat) (r : Raise) (planes : List Nat) : State :=
  let gr := s.grp g
  (s.setGrp g { gr with morePlanes := false }).faultPark g r (gr.clause + 8 + 8 * gr.word) (planeBits planes) false false false

/-- The word stage (R41, R43, R199). (DEDUCED, log 31.) -/
def State.issueWord (s : State) (g : Nat) : Fetched :=
  let gr := s.grp g
  let s := s.modGrp g (fun gr => { gr with held := false })
  let planeOf (l : Nat) : Nat := (gr.snap[l]?).getD noPlane
  let planes := gr.occupiedPlanes
  let off := gr.clause + 8 + 8 * gr.word
  let last : Bool := gr.word = gr.count
  let low := planes.head?.getD 0
  if (s.launch (s.launchOf g)).plen ≤ off then .done (s.wordFault g (plainFault 4) planes)
  else
  let fetched := if gr.unif then [low] else planes
  let s := fetched.foldl (fun s p => s.codeFill g p off) s
  match s.codeWords g off fetched with
  | .error (.ats page) => .done (s.holdCode g page)
  | .error (.pull page) => .done (s.askPull page)
  | .error (.fault r) => .done (s.wordFault g r planes)
  | .error (.word _) => .done s
  | .ok ws =>
    let w := ws.head?.getD 0
    let is := ws.map (fun w => gr.wordInstr w last)
    if is.any (·.isNone) then
      match ws.find? (fun w => (decode w).toOption.isNone) with
      | some u => s.startWord g u (.undefinedBitPattern u) gr.mask planes low false true
      | none => .done (s.wordFault g (plainFault 4) planes)
    else if ws.all (· = w) then
      match gr.wordInstr w last with
      | some i => s.startWord g w i gr.mask planes low false true
      | none => .done s
    else if gr.planeFrom = 0 && gr.replay = 0 && is.any (fun i => !(i.map gr.defines).getD true) then
      .done (s.wordFault g (plainFault 4) planes)
    else if s.planesDisagree g ((ws.zip is).filterMap (fun p => p.2.map (fun i => (p.1, i)))) then
      .done (s.wordFault g (plainFault 6) planes)
    else
      match (planes.zip ws).find? (fun p => gr.planeFrom ≤ p.1) with
      | none => .done s
      | some (k, w) =>
        match gr.wordInstr w last with
        | some i => s.startWord g w i (gr.mask &&& maskOf (fun l => planeOf l = k)) planes k true (planes.getLast? = some k)
        | none => .done s

/-- Whether a group may issue: resident, not retired, not parked, not halted, nothing of its word waiting for
translation, and its cluster started (R33, R60, R61, R403). -/
def State.mayIssue (s : State) (g : Nat) : Bool :=
  let gr := s.grp g
  let tm := s.team gr.team
  gr.live && !gr.retired && !gr.engFault && tm.live && tm.halt = .running && gr.heldWalk = [] && gr.heldAts = [] &&
  (s.cluster tm.cluster).placedAt ≤ s.tick &&
  (gr.park ∈ [Park.running, .posted, .spawn, .mesh, .priv] ||
   (gr.park = .header && (List.range 6).all (fun c => !gr.headerWait.getLsbD c || FMap.get gr.ctrs c = 0)))

/-- The lanes a scratch violation has switched off that have not yet exited (R111). -/
def Group.switchedOff (gr : Group) : LaneMask := gr.sfault &&& ~~~gr.exited

/-- One issue turn: lanes switched off exit first (R111), or the member of a held bond parks (R166); else the next
header or word. (DESIGN CHOICE, log 135.) -/
def State.issueGroup (s : State) (g : Nat) : Fetched :=
  if !s.mayIssue g then .done s
  else
    let gr := s.grp g
    let off := gr.switchedOff
    if off ≠ 0 then
      if (gr.exited ||| off) = BitVec.allOnes 32 && (s.bondOf g).isSome then
        .done (s.faultPark g { plainFault 10 with lanes := off }
          (if gr.inClause then gr.clause + 8 + 8 * gr.word else gr.off) 0 false false false)
      else .done (s.exitLanes g off)
    else if gr.inClause then
      match s.pipeFor g gr.cls with
      | none => .done s
      | some pipe => (s.takePipe g pipe).issueWord g
    else .run (.clauseIssue g) s

/-- CLAUSE_ISSUE: the header stage of a group that stands at a clause header (R183). -/
def execClauseIssue (grp : Nat) (s : State) : Host.Outcome State Fault Refusal :=
  .next (if s.mayIssue grp && (s.grp grp).switchedOff = 0 && !(s.grp grp).inClause then s.issueHeader grp else s)

/-! ### Frond words (R391, R392) -/

/-- Whether a function's command context is served: the physical function's always, a virtual one's while its partition
runs (R399). (DEDUCED, log 67.) -/
def State.served (s : State) (fn : Nat) : Bool := fn = 256 || ((s.fn fn).bound && (s.part (s.fn fn).leaf).state = .running)

/-- Where the interpreter goes after a word, and the loops left: the innermost loop that ends here runs again or ends
(R392). -/
def frAdvance (pc : Nat) : List FrLoop → Nat × List FrLoop
  | [] => (pc + 1, [])
  | l :: ls =>
    if pc = l.last then
      if 1 < l.left then (l.first, { l with left := l.left - 1 } :: ls) else frAdvance pc ls
    else (pc + 1, l :: ls)

/-- One turn of an interpreter: the word at its index; the word itself moves the place on. -/
def State.issueFrond (s : State) (fn q : Nat) : Fetched :=
  let qu := s.queue fn q
  if !(s.served fn && qu.active && qu.state = .run) then .done s
  else
    match qu.words[qu.pc]? with
    | none => .done s
    | some w =>
      match decodeFrond w with
      | .error _ => .done s
      | .ok i => .run i { s with curFn := fn, curQueue := q }

end Sys2Proof.Machine
end

