-- ==== Sys2Proof/Machine/Dot.lean ====
section
/-!
DEFINITION. The arithmetic of K-blocks (R96 to R102, R300): elements of a block, one step of a chain, the landing, and
MSM elements in their two views (R71).
-/
namespace Sys2Proof.Machine
open Sys2Proof

/-! ### Formats (R96, R300) -/

/-- Bits of an element. -/
def mBits : MFmt → Nat
  | .e4m3 | .e5m2 | .de8 | .i8 => 8
  | .de4 | .i4 => 4
  | .bf16 | .f16 => 16
  | .f32 => 32
  | .f64 => 64
/-- Elements of a K-block. -/
def mLen (f : MFmt) : Nat := 256 / mBits f
def mIsInt (f : MFmt) : Bool := f = .i8 || f = .i4
/-- Bytes of a K-block's exponent entry; 0 without exponents. -/
def mExp : MFmt → Nat
  | .de8 => 2
  | .de4 => 4
  | _ => 0
/-- The tag of a tile that holds operands. -/
def mTag : MFmt → Tag
  | .e4m3 => .e4m3x4 | .e5m2 => .e5m2x4 | .de8 => .de8x4 | .i8 => .i8x4 | .de4 => .de4x8 | .i4 => .i4x8
  | .bf16 => .bf16x2 | .f16 => .f16x2 | .f32 => .f32 | .f64 => .f64
/-- Whether the accumulator's view of MSM is the F64 one. -/
def mWide (f : MFmt) : Bool := f = .f64

/-! ### Elements -/

/-- The elements of a block of 256 bits. -/
def blockElems (f : MFmt) (n : Nat) : List (Option Nat) :=
  (List.range (mLen f)).map (fun t => some (n / 2 ^ (mBits f * t) % 2 ^ mBits f))

/-- The kept values of a sparse group at the positions of its mask; pruned positions hold nothing (R101). -/
def sparseFrom (kept mask : Nat) : Nat → Nat → Nat → List (Option Nat)
  | 0, _, _ => []
  | k + 1, pos, used =>
    if bitOf mask pos && used < 16 then some (kept / 2 ^ (8 * used) % 256) :: sparseFrom kept mask k (pos + 1) (used + 1)
    else none :: sparseFrom kept mask k (pos + 1) used
def sparseElems (kept mask : Nat) : List (Option Nat) := sparseFrom kept mask 32 0 0

/-- The value of element t of a floating block with its exponent entry (R89, R300). -/
def mVal (f : MFmt) (ex t el : Nat) : FVal :=
  let e := if t < 32 then ex % 65536 else ex / 65536
  match f with
  | .e4m3 => fE4M3.val el
  | .e5m2 => fE5M2.val el
  | .de8 => deVal false el (e % 256) (e / 256 % 256)
  | .de4 => deVal true el (e % 256) (e / 256 % 256)
  | .bf16 => fBF16.val el
  | .f16 => fF16.val el
  | .f64 => fF64.val el
  | _ => fF32.val el

/-! ### Chains (R97 to R100) -/

/-- An operand's block: its elements and its exponent entry. -/
structure KBlock where
  els : List (Option Nat)
  ex : Nat
  deriving DecidableEq, Repr, Inhabited

/-- The pairs of elements that meet, with their positions. -/
def meet (a b : KBlock) : List (Nat × Nat × Nat) :=
  ((a.els.zip b.els).zipIdx).filterMap (fun p =>
    match p.1 with
    | (some x, some y) => some (p.2, x, y)
    | _ => none)

/-- The exact block dot of a floating format; an exact zero is +0 (R97). -/
def blockDot (af bf : MFmt) (a b : KBlock) : FVal :=
  let d := (meet a b).foldl (fun (acc : FVal) p => acc.add .rne ((mVal af a.ex p.1 p.2.1).mul (mVal bf b.ex p.1 p.2.2))) (.fin false 0 0)
  match d with
  | .fin _ 0 _ => .fin false 0 0
  | d => d

/-- One step of a chain: the partial sum takes a block (R97 to R99). A negative sum that underflows to zero is −0, as
rne_f32 gives it. (DESIGN CHOICE, log 156.) -/
def chainStep (af bf : MFmt) (a b : KBlock) (s : Nat) : Nat :=
  if mIsInt af then
    let z := (meet a b).foldl (fun acc p => acc + toZ (mBits af) true p.2.1 * toZ (mBits bf) true p.2.2) (s : Int)
    (z % 2 ^ 32).toNat
  else if af = .f64 then (meet a b).foldl (fun acc p => fFma fF64 .rne p.2.1 p.2.2 acc) s
  else fF32.pack .rne false ((fF32.val s).add .rne (blockDot af bf a b))

/-- A chain over blocks from +0 (R100, R173). -/
def chain (af bf : MFmt) (l : List (KBlock × KBlock)) : Nat := l.foldl (fun s p => chainStep af bf p.1 p.2 s) 0

/-- The addition of a landing (R100). -/
def landAdd (f : MFmt) (x y : Nat) : Nat :=
  if mIsInt f then (x + y) % 2 ^ 32 else if f = .f64 then fAdd fF64 .rne x y else fAdd fF32 .rne x y

/-! ### MSM (R71) -/

/-- Column j of row k in the 32-bit or the F64 view. -/
def Team.msmGet (t : Team) (wide : Bool) (k j : Nat) : Nat :=
  if wide then (FMap.get t.msm (64 * (2 * k) + j)).toNat + 2 ^ 32 * (FMap.get t.msm (64 * (2 * k + 1) + j)).toNat
  else (FMap.get t.msm (64 * k + j)).toNat

def Team.msmSet (t : Team) (wide : Bool) (k j v : Nat) : Team :=
  if wide then
    { t with msm := FMap.set (FMap.set t.msm (64 * (2 * k) + j) (BitVec.ofNat 32 v)) (64 * (2 * k + 1) + j) (BitVec.ofNat 32 (v / 2 ^ 32)) }
  else { t with msm := FMap.set t.msm (64 * k + j) (BitVec.ofNat 32 v) }

/-- Rows of the allocation in a view. -/
def Team.msmRowsIn (t : Team) (wide : Bool) : Nat := if wide then t.msmRows / 2 else t.msmRows

end Sys2Proof.Machine
end

