-- ==== Sys2Proof/Machine/Flags.lean ====
section
/-!
DEFINITION. The predicates: relations of compares (R213, R245, R248), their combination with an earlier predicate, and
uniform-predicate logic (R215). The machine has no other flags.
-/
namespace Sys2Proof.Machine
open Sys2Proof

/-- An integer relation (R213, R245); un and ord are never encoded there. -/
def relInt (r : Rel) (a b : Int) : Bool :=
  match r with
  | .eq => a = b
  | .ne => a ≠ b
  | .lt => a < b
  | .le => a ≤ b
  | .gt => b < a
  | .ge => b ≤ a
  | .un => false
  | .ord => true

/-- A compare's result combined with an earlier predicate (R213, R245). -/
def combine {α : Type} (c : Comb α) (v : Bool) (rd : α → Bool) : Bool :=
  match c with
  | .plain => v
  | .andWith p => v && rd p
  | .orWith p => v || rd p

/-- Lane l of a per-lane predicate of the word in issue. -/
def State.pBit (s : State) (p : PReg) (l : Nat) : Bool := (s.rdP s.cur p.val).getLsbD l
/-- A uniform predicate of the word in issue. -/
def State.qBit (s : State) (q : QReg) : Bool := s.rdQ s.cur q.toNat
def State.setQBit (s : State) (q : QReg) (v : Bool) : State := s.writeQ s.cur q.toNat v

end Sys2Proof.Machine
end

