-- ==== Sys2Proof/Machine/Scratch.lean ====
section
/-!
DEFINITION. Scratch and peer scratch (R107, R108, R111, R123, R273), and the parameter space (R106, R274).
-/
namespace Sys2Proof.Machine
open Sys2Proof

/-! ### Tiles in scratch (R69, R70, R111) -/

def Tile.start (t : Tile) : Nat := 64 * t.base
def Tile.bytes (t : Tile) : Nat := (t.rows + 1) * (t.rowb + 1) * 64

/-- Whether an ENGINE-owned tile makes an access a violation: any write to it, a read at or above WPTR (R111). -/
def Tile.blocks (t : Tile) (o n : Nat) (write : Bool) : Bool :=
  t.defd && t.owner && o < t.start + t.bytes && t.start < o + n &&
    (write || t.start + t.wptr < min (o + n) (t.start + t.bytes))

/-- A scratch violation by range or tile (R108, R111). -/
def Team.violates (tm : Team) (o n : Nat) (write : Bool) : Bool :=
  tm.share < o + n || tm.tiles.any (fun p => p.2.blocks o n write)

def Team.poisoned (tm : Team) (o n : Nat) : Bool :=
  (List.range ((o + n - 1) / 64 - o / 64 + 1)).any (fun i => FMap.get tm.scratchPoison (o / 64 + i))

/-- The team whose scratch an operand names; none for a rank outside the cluster or a team that has retired. -/
def State.scrTeam (s : State) (peer : Option SReg) : Option Nat :=
  match peer with
  | none => some (s.grp s.cur).team
  | some r =>
    let cl := s.cluster (s.clusterOf s.cur)
    let rank := (s.rdS s.cur r.toNat).toNat
    match cl.teams[rank]? with
    | some t => if rank < cl.rows * cl.cols && (s.team t).live then some t else none
    | none => none

/-- The lanes of a scratch word: the team, the lanes that perform, the lanes whose bytes are poisoned. -/
structure ScrLanes where
  team : Nat
  good : LaneMask
  poison : LaneMask

/-- The lanes that violate R111. -/
def State.violations (s : State) (t : Option Nat) (wm : LaneMask) (off : Nat → Nat) (n : Nat) (write : Bool) : LaneMask :=
  match t with
  | none => wm
  | some t => wm &&& maskOf (fun l => (s.team t).violates (off l) n write)

/-- The common course of a scratch word: operand checks, alignment, the counter, and the lanes switched off (R111, R269,
R273). (DEDUCED, log 42.) -/
def State.scratch (s : State) (uses : List VUse) (wm : LaneMask) (peer : Option SReg) (off : Nat → Nat) (n : Nat)
    (write reads : Bool) (c : Nat) (eff : ScrLanes → State → State) : State :=
  match s.vecFault uses wm with
  | some r => s.raise r wm
  | none =>
    match addrFault wm off n with
    | some (cls, l) => s.raise { plainFault cls with addr := BitVec.ofNat 64 (off l), write } wm
    | none =>
      if s.noRoom c then s.raise (plainFault 11) wm
      else
        let t := s.scrTeam peer
        let v := s.violations t wm off n write
        let tm := s.team (t.getD 0)
        let bad := wm &&& ~~~v &&& maskOf (fun l => reads && tm.poisoned (off l) n)
        eff ⟨t.getD 0, wm &&& ~~~v &&& ~~~bad, bad⟩ (s.modGrp s.cur (fun gr => { gr with sfault := gr.sfault ||| v }))

/-- The poisoned lanes of a scratch word as unfinished lanes. -/
def ScrLanes.bad (p : ScrLanes) (off : Nat → Nat) : List (Nat × Reach) :=
  (lanesOf p.poison).map (fun l => (l, .fault 18 0xff (off l) 0 false))

/-- Bytes a group reads in a team's scratch (R236). -/
def State.scrNat (s : State) (g t o n : Nat) : Nat :=
  leNat ((List.range n).map (fun i => s.scrByte g t (o + i) (1 + t)))

/-- A store of a lane enters scratch, or the region buffer (R236). -/
def State.scrWrite (s : State) (g t o n v : Nat) : State :=
  let cells := cellsOf o n v
  let (took, s) := s.regionStore g (1 + t) (o / 1024) default cells
  if took then s else s.scrStore t cells

/-- An operation on another team's scratch performs later, over the mesh (R123): its team and its offsets by lane. -/
def deferOp (o : Op) (t : Nat) (store : Bool) (n : Nat) (off : Nat → Nat) : Op :=
  { o with stage := if store then 2 else 1, width := n, arg := t :: (List.range 32).map off }

/-- The destination registers of a load. -/
def dstRegs (d n : Nat) : List Nat := (List.range n).map (d + ·)

def dstUse (d : VReg) (w : BitVec 3) : VUse := vRange d.toNat (widthRegs w) (widthRegs w) .dst
/-- The data register of a store, read under any tag of its width (R270). -/
def dataUse (d : VReg) (w : BitVec 3) : VUse :=
  { r := d.toNat, n := widthRegs w, align := widthRegs w, w64 := widthRegs w = 2, need := .stored }

/-- The data a lane stores. -/
def State.storeVal (s : State) (d n l : Nat) : Nat :=
  ((List.range (max 1 (n / 4))).foldl (fun acc j => acc + (s.rdV s.cur (d + j) l).toNat * 2 ^ (32 * j)) 0) % 2 ^ (8 * n)

def peerUse (a : ScrAddr) : VUse := vUse a.a false (.among idxTags)

/-- LD of scratch (R273). -/
def execLdScratch (o : LdOp ScrAddr) (s : State) : Host.Outcome State Fault Refusal :=
  let wm := s.wmask o.g
  let n := widthBytes o.width
  let off := s.scrOffset o.addr.a o.addr.disp
  let regs := dstRegs o.d.toNat (widthRegs o.width)
  .next (s.scratch [dstUse o.d o.width, peerUse o.addr] wm o.addr.peer off n false true o.c.val (fun p s =>
    let base := { s.baseOp .scratch o.c.val with dst := o.d.toNat, width := n, ty := o.ty, sext := widthSext o.width }
    let far : Bool := p.team ≠ (s.grp s.cur).team
    let base := if far then deferOp base p.team false n off else base
    let val (l : Nat) : Nat := if far then 0 else s.scrNat s.cur p.team (off l) n
    let s := s.tagDst regs wm o.ty
    let (id, s) := s.openOp base regs
    let s := s.modOp id (fun q => { q with
      lanes := q.lanes ||| p.good, flag := p.poison ≠ 0
      res := FMap.setMany q.res ((lanesOf p.good).map (fun l => (l, val l))) })
    s.settle (p.bad off) p.poison off false true id wm))

/-- ST to scratch (R273). -/
def execStScratch (o : StOp ScrAddr) (s : State) : Host.Outcome State Fault Refusal :=
  let wm := s.wmask o.g
  let n := widthBytes o.width
  let off := s.scrOffset o.addr.a o.addr.disp
  let c := match o.c with | none => 6 | some c => c.val
  .next (s.scratch [dataUse o.d o.width, peerUse o.addr] wm o.addr.peer off n true false c (fun p s =>
    let lanes := lanesOf p.good
    let val (l : Nat) : Nat := s.storeVal o.d.toNat n l
    let far : Bool := p.team ≠ (s.grp s.cur).team && !(s.grp s.cur).region.open_
    let base := s.baseOp .scratch c
    let s' :=
      if far then
        (s.openOp { deferOp base p.team true n off with lanes := p.good, res := FMap.setMany [] (lanes.map (fun l => (l, val l))) } []).2
      else
        let (order, t) := s.laneOrder lanes off
        let t := order.foldl (fun t l => t.scrWrite s.cur p.team (off l) n (val l)) t
        if c < 6 then (t.openOp { base with stage := if (t.grp t.cur).region.open_ then 7 else 3 } []).2 else t
    s'.modGrp s.cur Group.settled))

/-! ### Atomics in scratch (R108, R120, R278, R280) -/

/-- Whether the group still has loads or stores on their way to a team's scratch. -/
def State.scrBusy (s : State) (g t : Nat) : Bool :=
  s.ops.any (fun p => p.2.live && p.2.grp = g && p.2.kind = .scratch && (p.2.stage = 1 || p.2.stage = 2) && p.2.arg.head? = some t)

/-- Atomics of lanes in ascending order; answers the old values. -/
def State.scrAtomics (s : State) (t n : Nat) (off : Nat → Nat) (new : Nat → Nat → Nat) (lanes : List Nat) :
    FMap Nat × State :=
  lanes.foldl (fun acc l =>
    let old := (acc.2).scrNat acc.2.cur t (off l) n
    (FMap.set acc.1 l old, acc.2.scrStore t (cellsOf (off l) n (new l old)))) ([], s)

/-- An atomic word on scratch: operands, then the lanes in ascending order at issue, then the old values (R278). -/
def State.scrAtomic (s : State) (uses : List VUse) (wm : LaneMask) (peer : Option SReg) (idx : VReg) (n : Nat)
    (new : Nat → Nat → Nat) (ret : Option (Nat × Tag × Nat)) : State :=
  let off (l : Nat) : Nat := (s.rdV s.cur idx.toNat l).toNat
  let c := match ret with | none => 6 | some (_, _, c) => c
  s.scratch (uses ++ [vUse idx false (.among idxTags)]) wm peer off n true true c (fun p s =>
    if s.scrBusy s.cur p.team then s.holdAgain
    else
      let (olds, s) := s.scrAtomics p.team n off new (lanesOf p.good)
      match ret with
      | none => s.settle (p.bad off) p.poison off true true 0 wm
      | some (d, ty, c) =>
        let regs := dstRegs d (max 1 (n / 4))
        let s := s.tagDst regs wm ty
        let (id, s) := s.openOp { s.baseOp .scratch c with dst := d, width := n, ty } regs
        let s := s.modOp id (fun q => { q with
          lanes := q.lanes ||| p.good, flag := p.poison ≠ 0, res := FMap.setMany q.res olds })
        s.settle (p.bad off) p.poison off true true id wm)

/-! ### Parameters (R106, R274) -/

/-- The common course of a parameter load: alignment, then the end of the space, then the counter. -/
def State.param (s : State) (a : PmAddr) (n : Nat) (some? : Bool) (c : Nat) (wm : LaneMask) (eff : Nat → State → State) : State :=
  let off := s.pmOffset a
  let la := s.launch (s.launchOf s.cur)
  if some? && off % n ≠ 0 then s.raise { plainFault 3 with addr := BitVec.ofNat 64 off } wm
  else if some? && 4096 < off + n then s.raise { plainFault 12 with addr := BitVec.ofNat 64 off } wm
  else if s.ctrFull s.cur c then s.raise (plainFault 11) wm
  else eff (leNat ((List.range n).map (fun i => if off + i < la.paramLen then FMap.get la.params (off + i) else 0))) s

/-- LD of the parameter space into vector lanes. -/
def execLdParam (o : LdOp PmAddr) (s : State) : Host.Outcome State Fault Refusal :=
  let wm := s.wmask o.g
  let n := widthBytes o.width
  let regs := dstRegs o.d.toNat (widthRegs o.width)
  .next (match s.vecFault [dstUse o.d o.width] wm with
    | some r => s.raise r wm
    | none => s.param o.addr n (wm ≠ 0) o.c.val wm (fun v s =>
        (s.tagDst regs wm o.ty).issueOp { s.baseOp .paramLoad o.c.val with
          dst := o.d.toNat, width := n, ty := o.ty, sext := widthSext o.width, lanes := wm
          res := FMap.setMany [] ((lanesOf wm).map (fun l => (l, v))) } regs |>.2))

/-- A scalar destination's alignment (R64, R274). -/
def sDstOk (d : SReg) (w : BitVec 3) : Bool := d.toNat % widthRegs w = 0

def sDstPlaces (d : SReg) (w : BitVec 3) : List Nat := (dstRegs d.toNat (widthRegs w)).map sPlace

/-- SLD of the parameter space. -/
def execSldParam (o : SldOp PmAddr) (s : State) : Host.Outcome State Fault Refusal :=
  let n := widthBytes o.width
  .next (s.scalar (sDstOk o.d o.width) (fun s => s.param o.addr n true o.c.val s.active (fun v s =>
    (s.issueOp { s.baseOp .sload o.c.val with dst := o.d.toNat, width := n, res := FMap.setMany [] [(0, v)] }
      (sDstPlaces o.d o.width)).2)))

end Sys2Proof.Machine
end

