-- ==== Sys2Proof/Machine/Vector.lean ====
section
/-!
DEFINITION. Vector moves, integer arithmetic, logic, shifts, compares, predicates, selection, bit counting and the packed
dot (R238 to R245, R255 to R257, R266, R267).
-/
namespace Sys2Proof.Machine
open Sys2Proof

/-- The registers of an operand. -/
def vRegs (r : VReg) (w64 : Bool) : List Nat := if w64 then [r.toNat, r.toNat + 1] else [r.toNat]
/-- The format of a bitwise operation or move over operands (R77). -/
def State.bitFmtOf (s : State) (rs : List VReg) (w64 : Bool) : Tag :=
  (s.grp s.cur).bitFmt (rs.flatMap (fun r => vRegs r w64)) w64

/-! ### Moves and immediates (R240, R241, R255) -/

def execMov (o : VW) (s : State) : Host.Outcome State Fault Refusal :=
  .next (s.vec o.g [vUse o.a o.w64 .bits] o.d o.w64 (s.bitFmtOf [o.a] o.w64) (s.vVal o.a o.w64))

def execMovs (w64 : Bool) (g : Guard) (d : VReg) (a : SReg) (s : State) : Host.Outcome State Fault Refusal :=
  let wm := s.wmask g
  .next (match s.opFault (sPairOk w64 a) [vDst d w64] wm with
    | some r => s.raise r wm
    | none => s.writeV s.cur d.toNat w64 wm (rawTag w64) (fun _ => s.sVal a w64))

/-- The value MOVI writes (R241): zero- or sign-extended, converted to F64, or doubled. -/
def moviVal (t : Tag) (imm : Word) : DWord :=
  match t with
  | .i64 => imm.signExtend 64
  | .f64 =>
    let neg := imm.getLsbD 31
    let ex := bitsOf imm.toNat 30 23
    let fr := bitsOf imm.toNat 22 0
    if ex = 255 then BitVec.ofNat 64 (if fr = 0 then (if neg then 2 ^ 63 else 0) + 0x7ff0000000000000 else 0x7ff8000000000000)
    else
      let m := if ex = 0 then fr else 2 ^ 23 + fr
      let e := if ex = 0 then 1 else ex
      if m = 0 then BitVec.ofNat 64 (if neg then 2 ^ 63 else 0)
      else
        let k := Nat.log2 m
        BitVec.ofNat 64 ((if neg then 2 ^ 63 else 0) + (e + k + 873) * 2 ^ 52 + (m - 2 ^ k) * 2 ^ (52 - k))
  | .f32x2 => pairOf imm imm
  | _ => imm.zeroExtend 64

def execMovi (ty : Tag) (g : Guard) (d : VReg) (imm : Word) (s : State) : Host.Outcome State Fault Refusal :=
  .next (s.vec g [] d (ty.width = 64) ty (fun _ => moviVal ty imm))

def execRetag (o : VTy) (s : State) : Host.Outcome State Fault Refusal :=
  let w64 : Bool := o.ty.width = 64
  .next (s.vec o.g [vUse o.a w64 .anyTag] o.d w64 o.ty (s.vVal o.a w64))

/-! ### Integer arithmetic (R242 to R245) -/

/-- Width and signedness of the elements of an integer word. -/
def opW (o : VOp) : Nat := (tagElems o.ty).1
def opSg (o : VOp) : Bool := tagSigned o.ty

def execIadd (o : VOp) (s : State) : Host.Outcome State Fault Refusal :=
  .next (s.elementwise o 2 (fun a b _ => intOp2 (opSg o) o.sat (· + ·) (opW o) a b))
def execIsub (o : VOp) (s : State) : Host.Outcome State Fault Refusal :=
  .next (s.elementwise o 2 (fun a b _ => intOp2 (opSg o) o.sat (· - ·) (opW o) a b))
def execImul (o : VOp) (s : State) : Host.Outcome State Fault Refusal :=
  .next (s.elementwise o 2 (fun a b _ => intOp2 (opSg o) o.sat (· * ·) (opW o) a b))
def execImulhi (o : VOp) (s : State) : Host.Outcome State Fault Refusal :=
  .next (s.elementwise o 2 (fun a b _ => intMulHi (opSg o) (opW o) a b))
def execImad (o : VOp) (s : State) : Host.Outcome State Fault Refusal :=
  .next (s.elementwise o 3 (fun a b c => intOp3 (opSg o) o.sat (fun x y z => x * y + z) (opW o) a b c))
def execImulw (o : VOp) (s : State) : Host.Outcome State Fault Refusal :=
  .next (s.vec o.g [vSrc o.a o.ty, vSrc o.b o.ty] o.d true (if (opSg o) then .i64 else .n64) (fun l =>
    BitVec.ofNat 64 (ofZ 64 (opSg o) false
      (toZ 32 (opSg o) (s.vVal o.a false l).toNat * toZ 32 (opSg o) (s.vVal o.b false l).toNat))))
def execImin (o : VOp) (s : State) : Host.Outcome State Fault Refusal :=
  .next (s.elementwise o 2 (fun a b _ => intOp2 (opSg o) false min (opW o) a b))
def execImax (o : VOp) (s : State) : Host.Outcome State Fault Refusal :=
  .next (s.elementwise o 2 (fun a b _ => intOp2 (opSg o) false max (opW o) a b))
def execIabs (o : VOp) (s : State) : Host.Outcome State Fault Refusal :=
  .next (s.elementwise o 1 (fun a _ _ => intOp1 (opSg o) o.sat (fun z => if z < 0 then -z else z) (opW o) a))
def execIneg (o : VOp) (s : State) : Host.Outcome State Fault Refusal :=
  .next (s.elementwise o 1 (fun a _ _ => intOp1 (opSg o) o.sat (fun z => -z) (opW o) a))

/-- A bitwise word over one or two sources (R243). -/
def State.bitwise (s : State) (o : VOp) (two : Bool) (f : DWord → DWord → DWord) : State :=
  let w64 : Bool := o.ty.width = 64
  let rs := if two then [o.a, o.b] else [o.a]
  s.vec o.g (rs.map (fun r => vUse r w64 .bits)) o.d w64 (s.bitFmtOf rs w64) (fun l => f (s.vVal o.a w64 l) (s.vVal o.b w64 l))

def execVand (o : VOp) (s : State) : Host.Outcome State Fault Refusal := .next (s.bitwise o true (· &&& ·))
def execVor (o : VOp) (s : State) : Host.Outcome State Fault Refusal := .next (s.bitwise o true (· ||| ·))
def execVxor (o : VOp) (s : State) : Host.Outcome State Fault Refusal := .next (s.bitwise o true (· ^^^ ·))
def execVandn (o : VOp) (s : State) : Host.Outcome State Fault Refusal := .next (s.bitwise o true (fun a b => a &&& ~~~b))
def execVnot (o : VOp) (s : State) : Host.Outcome State Fault Refusal := .next (s.bitwise o false (fun a _ => ~~~a))

/-- A shift or rotate word: the count is a single register under any 32-bit tag (R243). -/
def State.vShift (s : State) (o : VOp) (src : VUse) (fmt : Tag) (f : Nat → Nat → Nat → Nat) : State :=
  let w64 : Bool := o.ty.width = 64
  s.vec o.g [src, vUse o.b false .bits] o.d w64 fmt (fun l =>
    BitVec.ofNat 64 (f o.ty.width (s.vVal o.a w64 l).toNat (s.vVal o.b false l).toNat))

def execShl (o : VOp) (s : State) : Host.Outcome State Fault Refusal :=
  .next (s.vShift o (vUse o.a (o.ty.width = 64) .bits) (s.bitFmtOf [o.a] (o.ty.width = 64)) shlN)
def execShr (o : VOp) (s : State) : Host.Outcome State Fault Refusal :=
  .next (s.vShift o (vSrc o.a o.ty) o.ty (if (opSg o) then sarN else shrN))
def execRotl (o : VOp) (s : State) : Host.Outcome State Fault Refusal :=
  .next (s.vShift o (vUse o.a (o.ty.width = 64) .bits) (s.bitFmtOf [o.a] (o.ty.width = 64)) rotlN)

def execIaddi (o : VImm) (s : State) : Host.Outcome State Fault Refusal :=
  .next (s.vec o.g [vUse o.a false (.among idxTags)] o.d false ((s.grp s.cur).tagOf o.a.toNat) (fun l =>
    pairOf (s.rdV s.cur o.a.toNat l + o.imm) 0))

def execIcmp (o : VCmp) (s : State) : Host.Outcome State Fault Refusal :=
  let w64 : Bool := o.ty.width = 64
  .next (s.vecPred o.g [vSrc o.a o.ty, vSrc o.b o.ty] o.d (fun l =>
    combine o.comb (relInt o.rel (toZ o.ty.width (tagSigned o.ty) (s.vVal o.a w64 l).toNat)
      (toZ o.ty.width (tagSigned o.ty) (s.vVal o.b w64 l).toNat)) (fun p => s.pBit p l)))

/-! ### Predicates and selection (R256, R257) -/

/-- A per-lane predicate from two (R256). -/
def State.predOp (s : State) (g : Guard) (d a b : PReg) (f : Bool → Bool → Bool) : State :=
  s.vecPred g [] d (fun l => f (s.pBit a l) (s.pBit b l))

def execPand (o : POp) (s : State) : Host.Outcome State Fault Refusal := .next (s.predOp o.g o.d o.a o.b (· && ·))
def execPor (o : POp) (s : State) : Host.Outcome State Fault Refusal := .next (s.predOp o.g o.d o.a o.b (· || ·))
def execPxor (o : POp) (s : State) : Host.Outcome State Fault Refusal := .next (s.predOp o.g o.d o.a o.b (· ^^ ·))
def execPandn (o : POp) (s : State) : Host.Outcome State Fault Refusal := .next (s.predOp o.g o.d o.a o.b (fun a b => a && !b))
def execPnot (g : Guard) (d a : PReg) (s : State) : Host.Outcome State Fault Refusal := .next (s.predOp g d a a (fun a _ => !a))
def execPclr (g : Guard) (d : PReg) (s : State) : Host.Outcome State Fault Refusal := .next (s.vecPred g [] d (fun _ => false))
def execPset (g : Guard) (d : PReg) (s : State) : Host.Outcome State Fault Refusal := .next (s.vecPred g [] d (fun _ => true))
def execPfromq (g : Guard) (d : PReg) (q : QReg) (s : State) : Host.Outcome State Fault Refusal :=
  .next (s.vecPred g [] d (fun _ => s.qBit q))
def execPtest (w64 : Bool) (g : Guard) (d : PReg) (a : VReg) (s : State) : Host.Outcome State Fault Refusal :=
  .next (s.vecPred g [vUse a w64 .anyTag] d (fun l => s.vVal a w64 l ≠ 0))
def execPtov (g : Guard) (d : VReg) (a : PReg) (s : State) : Host.Outcome State Fault Refusal :=
  .next (s.vec g [] d false .n32 (fun l => if s.pBit a l then 1 else 0))

def execSel (w64 : Bool) (g : Guard) (d : VReg) (c : PReg) (a b : VReg) (s : State) : Host.Outcome State Fault Refusal :=
  .next (s.vec g [vUse a w64 .bits, vUse b w64 .bits] d w64 (s.bitFmtOf [a, b] w64) (fun l =>
    if s.pBit c l then s.vVal a w64 l else s.vVal b w64 l))

/-! ### Bit counting and the packed dot (R266, R267) -/

/-- A count of bits into a single register (R266). -/
def State.vCount (s : State) (o : VOp) (f : Nat → Nat → Nat) : State :=
  let w64 : Bool := o.ty.width = 64
  s.vec o.g [vUse o.a w64 .bits] o.d false .n32 (fun l => BitVec.ofNat 64 (f o.ty.width (s.vVal o.a w64 l).toNat))

def execPopc (o : VOp) (s : State) : Host.Outcome State Fault Refusal := .next (s.vCount o popN)
def execClz (o : VOp) (s : State) : Host.Outcome State Fault Refusal := .next (s.vCount o clzN)
def execCtz (o : VOp) (s : State) : Host.Outcome State Fault Refusal := .next (s.vCount o ctzN)
def execBrev (o : VOp) (s : State) : Host.Outcome State Fault Refusal :=
  .next (s.bitwise o false (fun a _ => BitVec.ofNat 64 (revN o.ty.width a.toNat)))

/-- c + sum of the four products, exactly, then wrapped or clamped (R267). -/
def dot4 (sg sat : Bool) (a b c : Nat) : Nat :=
  ofZ 32 sg sat ((List.range 4).foldl (fun acc j =>
    acc + toZ 8 sg (a / 2 ^ (8 * j) % 256) * toZ 8 sg (b / 2 ^ (8 * j) % 256)) (toZ 32 sg c))

def execIdp4 (o : VOp) (s : State) : Host.Outcome State Fault Refusal :=
  let rt : Tag := if (opSg o) then .i32 else .n32
  .next (s.vec o.g [vSrc o.a o.ty, vSrc o.b o.ty, vSrc o.c rt] o.d false rt (fun l =>
    BitVec.ofNat 64 (dot4 (opSg o) o.sat (s.vVal o.a false l).toNat (s.vVal o.b false l).toNat (s.vVal o.c false l).toNat)))

end Sys2Proof.Machine
end

