-- ==== Sys2Proof/Machine/Lanes.lean ====
section
/-!
DEFINITION. Operations across the lanes of a tile (R258 to R263), random numbers and their log (R264, R265, R434), and
paired words (R194 to R197).
-/
namespace Sys2Proof.Machine
open Sys2Proof

/-! ### Tiles of lanes (R38, R258) -/

/-- TILEW in force for the clause. -/
def State.tw (s : State) : Nat := (s.grp s.cur).tilew
/-- The first lane of a lane's tile. -/
def State.tileBase (s : State) (l : Nat) : Nat := l - l % s.tw
/-- The contributors of a lane's tile, ascending: its lanes in the issue's active mask. -/
def State.contributors (s : State) (l : Nat) : List Nat :=
  (lanesOf s.active).filter (fun u => s.tileBase u = s.tileBase l)

/-! ### Shuffles (R259) -/

/-- A shuffle: each lane takes its source lane's register contents, active or not. -/
def State.shuffle (s : State) (o : VW) (extra : List VUse) (src : Nat → Nat) : State :=
  s.vec o.g (vUse o.a o.w64 .bits :: extra) o.d o.w64 (s.bitFmtOf [o.a] o.w64) (fun l => s.vVal o.a o.w64 (src l))

def execShflIdx (o : VW) (b : VReg) (s : State) : Host.Outcome State Fault Refusal :=
  .next (s.shuffle o [vUse b false .bits] (fun l => s.tileBase l + (s.rdV s.cur b.toNat l).toNat % s.tw))
def execShflUp (o : VW) (n : BitVec 5) (s : State) : Host.Outcome State Fault Refusal :=
  .next (s.shuffle o [] (fun l => if n.toNat ≤ l % s.tw then l - n.toNat else l))
def execShflDown (o : VW) (n : BitVec 5) (s : State) : Host.Outcome State Fault Refusal :=
  .next (s.shuffle o [] (fun l => if l % s.tw + n.toNat < s.tw then l + n.toNat else l))
def execShflXor (o : VW) (n : BitVec 5) (s : State) : Host.Outcome State Fault Refusal :=
  .next (s.shuffle o [] (fun l =>
    if xorN (l % s.tw) n.toNat < s.tw then s.tileBase l + xorN (l % s.tw) n.toNat else l))
def execShflBcast (o : VW) (b : SReg) (s : State) : Host.Outcome State Fault Refusal :=
  .next (s.shuffle o [] (fun l => s.tileBase l + (s.rdS s.cur b.toNat).toNat % s.tw))

/-! ### Votes (R260) -/

/-- The contributors of a lane's tile whose predicate holds. -/
def State.ayes (s : State) (p : PReg) (l : Nat) : List Nat := (s.contributors l).filter (fun u => s.pBit p u)

def execVoteAny (g : Guard) (d a : PReg) (s : State) : Host.Outcome State Fault Refusal :=
  .next (s.vecPred g [] d (fun l => s.ayes a l ≠ []))
def execVoteAll (g : Guard) (d a : PReg) (s : State) : Host.Outcome State Fault Refusal :=
  .next (s.vecPred g [] d (fun l => (s.contributors l).all (fun u => s.pBit a u)))
def execVoteBallot (g : Guard) (d : VReg) (a : PReg) (s : State) : Host.Outcome State Fault Refusal :=
  .next (s.vec g [] d false .n32 (fun l => pairOf (maskOf (fun u => u ∈ s.ayes a l)) 0))
def execVoteCount (g : Guard) (d : VReg) (a : PReg) (s : State) : Host.Outcome State Fault Refusal :=
  .next (s.vec g [] d false .n32 (fun l => BitVec.ofNat 64 (s.ayes a l).length))

/-- A vote over the whole group: TILEW must be 32 (R260). -/
def State.groupVote (s : State) (eff : List Nat → State → State) : State :=
  s.scalar (s.tw = 32) (eff (lanesOf s.active))

def execVoteAnyQ (d : QReg) (a : PReg) (s : State) : Host.Outcome State Fault Refusal :=
  .next (s.groupVote (fun lanes s => s.setQBit d (lanes.any (fun u => s.pBit a u))))
def execVoteAllQ (d : QReg) (a : PReg) (s : State) : Host.Outcome State Fault Refusal :=
  .next (s.groupVote (fun lanes s => s.setQBit d (lanes.all (fun u => s.pBit a u))))
def execVoteBallotS (d : SReg) (a : PReg) (s : State) : Host.Outcome State Fault Refusal :=
  .next (s.groupVote (fun lanes s => s.writeS s.cur d.toNat (maskOf (fun u => u ∈ lanes && s.pBit a u))))

/-! ### Reductions and scans (R261) -/

/-- The value of an empty fold. -/
def redIdentity (op : RedOp) (ty : Tag) : Nat :=
  let w := (tagElems ty).1
  let fl : Bool := isFloatTag ty
  match op with
  | .add | .or | .xor => 0
  | .and => 2 ^ w - 1
  | .min => if fl then (floatFmt ty).inf false else if tagSigned ty then 2 ^ (w - 1) - 1 else 2 ^ w - 1
  | .max => if fl then (floatFmt ty).inf true else if tagSigned ty then 2 ^ (w - 1) else 0

/-- One combination. (DEDUCED, log 23.) -/
def redCombine (op : RedOp) (ty : Tag) (r : Rnd) (a b : Nat) : Nat :=
  let w := (tagElems ty).1
  let sg := tagSigned ty
  let fl : Bool := isFloatTag ty
  match op with
  | .add => if fl then fAdd (floatFmt ty) r a b else intOp2 sg false (· + ·) w a b
  | .min => if fl then fMin (floatFmt ty) a b else intOp2 sg false min w a b
  | .max => if fl then fMax (floatFmt ty) a b else intOp2 sg false max w a b
  | .and => andN a b
  | .or => orN a b
  | .xor => xorN a b

/-- The fold of lanes in ascending order; a NaN result is canonical. -/
def redFold (op : RedOp) (ty : Tag) (r : Rnd) (l : List Nat) : Nat :=
  let v := match l with
    | [] => redIdentity op ty
    | a :: t => t.foldl (redCombine op ty r) a
  if isFloatTag ty then fCanon (floatFmt ty) v else v

def RedArgs.bitwise (o : RedArgs) : Bool := o.op ∈ [RedOp.and, .or, .xor]

/-- A reduction or scan: each lane of the write mask folds the contributors a test of (lane, contributor) selects. -/
def State.fold (s : State) (op : RedOp) (ty : Tag) (r : Rnd) (g : Guard) (d a : VReg) (sel : Nat → Nat → Bool) : State :=
  let w64 : Bool := ty.width = 64
  let bw : Bool := op ∈ [RedOp.and, .or, .xor]
  s.vec g [if bw then vUse a w64 .bits else vSrc a ty] d w64 (if bw then s.bitFmtOf [a] w64 else ty) (fun l =>
    BitVec.ofNat 64 (redFold op ty r (((s.contributors l).filter (sel l)).map (fun u => (s.vVal a w64 u).toNat))))

def execTileRed (o : RedArgs) (s : State) : Host.Outcome State Fault Refusal :=
  .next (s.fold o.op o.ty o.rnd o.g o.d o.a (fun _ _ => true))
def execScan (excl : Bool) (o : RedArgs) (s : State) : Host.Outcome State Fault Refusal :=
  .next (s.fold o.op o.ty o.rnd o.g o.d o.a (fun l u => if excl then u < l else u ≤ l))

/-! ### MATCH (R262) -/

def execMatchLanes (o : VW) (pw : Option PReg) (s : State) : Host.Outcome State Fault Refusal :=
  let wm := s.wmask o.g
  .next (match s.vecFault [vDst o.d false, vUse o.a o.w64 .bits] wm with
    | some r => s.raise r wm
    | none =>
      let val := s.vVal o.a o.w64
      let s' := s.writeV s.cur o.d.toNat false wm .n32 (fun l =>
        pairOf (maskOf (fun u => u ∈ s.contributors l && val u = val l)) 0)
      match pw with
      | none => s'
      | some c => s'.writeP s.cur c.val wm (maskOf (fun l =>
          (s.contributors l).all (fun u => (s.contributors l).all (fun t => val u = val t)))))

/-! ### APPEND (R56, R263) -/

/-- The reservation of one tile: the counter grows by the selected lanes, each gets its slot. -/
def State.appendTile (s : State) (t off : Nat) (sel : List Nat) (d : Nat) (m : LaneMask) : State :=
  let base := s.scrNat s.cur t off 4
  let s := s.scrStore t (cellsOf off 4 ((base + sel.length) % 2 ^ 32))
  s.modGrp s.cur (fun gr => gr.putV d (m &&& maskOf (fun l => l ∈ sel)) (fun l =>
    BitVec.ofNat 32 (base + (sel.filter (· < l)).length)))

def execAppend (g : Guard) (d : VReg) (a : PReg) (b : SReg) (s : State) : Host.Outcome State Fault Refusal :=
  .next (s.noRegion (fun s =>
    let wm := s.wmask g
    let off := (s.rdS s.cur b.toNat).toNat
    let t := (s.grp s.cur).team
    let sel := wm &&& s.rdP s.cur a.val
    match s.vecFault [vDst d false] wm with
    | some r => s.raise r wm
    | none =>
      if off % 4 ≠ 0 then s.raise { plainFault 3 with addr := BitVec.ofNat 64 off, write := true } wm
      else if (s.team t).violates off 4 true then s.modGrp s.cur (fun gr => { gr with sfault := gr.sfault ||| sel })
      else if sel ≠ 0 && (s.team t).poisoned off 4 then
        s.raise { plainFault 18 with lanes := sel, addr := BitVec.ofNat 64 off, write := true } wm
      else
        let bases := sortOnce ((lanesOf sel).map s.tileBase)
        let s := s.modGrp s.cur (fun gr => (gr.noteWrite s.ops d.toNat).putTag s.iss.split d.toNat wm .n32)
        bases.foldl (fun s k => s.appendTile t off ((lanesOf sel).filter (fun l => s.tileBase l = k)) d.toNat sel) s))

/-! ### RAND (R264, R265, R434) -/

/-- The system address of a random-log entry through stage 2, for a write, with its translation. -/
def State.logAt (s : State) (die fn part k : Nat) : Except TrErr (Nat × Xlat) :=
  let r := s.fn fn
  let n := bitsOf r.rlcfg.toNat 4 0
  let gpa := bitsOf r.rlbase.toNat 51 9 * 512 + 512 * (k % 2 ^ n)
  match (s.walk2 die part gpa true).1 with
  | .ok l => .ok (l.base + gpa % 2 ^ l.bits, { (default : Xlat) with
      live := true, d1 := true, d2 := l.d, e2 := l.entry, gbits := l.bits, part, dgpa := l.page })
  | .error e => .error e

/-- The key of a draw in the log: LSEQ, TEAM, GROUP, draw number. -/
def State.drawKey (s : State) (g : Nat) : Nat :=
  let gr := s.grp g
  leNat (leBytes 4 gr.lseq ++ leBytes 4 gr.teamId ++ leBytes 1 gr.idx ++ leBytes 4 gr.draw)

/-- The value of lane l in the entry at a system address, if the entry has the draw's key. -/
def State.entryKey (s : State) (spa : Nat) : Nat :=
  let b (i : Nat) : Byte := s.homeByte (fun _ => true) (spa + i)
  leNat ((List.range 9).map b ++ (List.range 4).map (fun i => b (12 + i)))

/-- The log indices a draw looks at: in a region, those from the region's recorded index on; last, the next one to write. -/
def State.logSpan (s : State) (g fn : Nat) : List Nat :=
  let from' := (s.grp g).region.rlwidx
  let w := (s.fn fn).rlwidx
  if (s.grp g).region.open_ then (List.range (ringDist w from' + 1)).map (from' + ·) else [w]

/-- The pages of the log a draw needs that have not arrived (R428). -/
def State.logAbsent (s : State) (g fn part : Nat) : List Nat :=
  sortOnce ((s.logSpan g fn).filterMap (fun k => match s.logAt (coreDie (s.coreOf g)) fn part k with
    | .ok p => s.absentAt p.1
    | .error _ => none))

/-- The logged draw a replay finds between the region's recorded index and the write index. -/
def State.loggedAt (s : State) (g fn part : Nat) : Option Nat :=
  ((s.logSpan g fn).dropLast.filterMap (fun k =>
    match s.logAt (coreDie (s.coreOf g)) fn part k with
    | .ok (spa, _) => if s.entryKey spa = s.drawKey g then some spa else none
    | .error _ => none)).head?

/-- Appends a draw to the log, a write that marks its page dirty (R380); nothing when the ring is full or its entry cannot be
reached. (DEDUCED, log 52.) -/
def State.logDraw (s : State) (g fn part : Nat) (w64 : Bool) (v : Nat → DWord) : Option State :=
  let r := s.fn fn
  let n := bitsOf r.rlcfg.toNat 4 0
  if 2 ^ n ≤ ringDist r.rlwidx r.rlridx then none
  else
    match s.logAt (coreDie (s.coreOf g)) fn part r.rlwidx with
    | .error _ => none
    | .ok (spa, x) =>
      let gr := s.grp g
      let s := s.markDirty fn x
      let bytes := leBytes 4 gr.lseq ++ leBytes 4 gr.teamId ++ leBytes 1 gr.idx ++ leBytes 1 (if w64 then 1 else 0) ++
        leBytes 2 0 ++ leBytes 4 gr.draw ++ (List.range 32).flatMap (fun l => leBytes 8 (v l).toNat) ++ leBytes 240 0
      let (id, s) := s.fresh
      let s := s.arrive id (lineOf spa) { (default : Pend) with cells := cellsAt spa bytes, homeDie := spaDie spa }
      some (s.modFn fn (fun r => { r with rlwidx := (r.rlwidx + 1) % 2 ^ 32 }))

/-- RAND (R264): fresh bits for each lane, or the logged ones of a replayed draw; every draw is logged while RNDLOG is 1. -/
def execRand (w64 : Bool) (g : Guard) (d : VReg) (s : State) : Host.Outcome State Fault Refusal :=
  let wm := s.wmask g
  let fn := (s.grp s.cur).vf
  let part := s.partOf s.cur
  let fmt := rawTag w64
  let fresh (l : Nat) : DWord :=
    if w64 then Config.randBits s.freeCtr l else (Config.randBits s.freeCtr l).setWidth 32 |>.zeroExtend 64
  let write (s : State) (v : Nat → DWord) : State :=
    (s.writeV s.cur d.toNat w64 wm fmt v).modGrp s.cur (fun gr => { gr with draw := (gr.draw + 1) % 2 ^ 64 })
  .next (match s.vecFault [vDst d w64] wm with
    | some r => s.raise r wm
    | none =>
      if (s.coreRec (s.coreOf s.cur)).noiseFail then s.raise (plainFault 19) wm
      else if !(s.fn fn).rlcfg.getLsbD 63 then write s fresh
      else if s.logAbsent s.cur fn part ≠ [] then
        s.holdWord ⟨[], [], s.logAbsent s.cur fn part, [], []⟩
      else
        match s.loggedAt s.cur fn part with
        | some spa => write s (fun l => BitVec.ofNat 64
            (leNat ((List.range 8).map (fun i => s.homeByte (fun _ => true) (spa + 16 + 8 * l + i)))))
        | none =>
          match s.logDraw s.cur fn part w64 fresh with
          | none => s.raise { plainFault 19 with addr := 1 } wm
          | some s => write s fresh)

/-! ### Paired words (R194 to R197) -/

/-- What a half computes: its type, whether it moves bits under any tag, whether its second source is a shift count, and
its elementwise function. -/
structure HalfFn where
  ty : Tag
  bits : Bool
  shift : Bool
  f : Nat → Nat → Nat → Nat

/-- The arithmetic of column 0 to 5 of the float rows (R197). -/
def halfFloat (ty : Tag) (k : Nat) : HalfFn :=
  let m := floatFmt ty
  { ty, bits := false, shift := false
    f := match k with
      | 0 => fun a b _ => fAdd m .rne a b
      | 1 => fun a b _ => fSub m .rne a b
      | 2 => fun a b _ => fMul m .rne a b
      | 3 => fun a b c => fFma m .rne a b c
      | 4 => fun a b _ => fMin m a b
      | _ => fun a b _ => fMax m a b }

def halfInt (ty : Tag) (f : Nat → Nat → Nat → Nat) : HalfFn := { ty, bits := false, shift := false, f }
def halfBits (ty : Tag) (f : Nat → Nat → Nat → Nat) : HalfFn := { ty, bits := true, shift := false, f }

/-- The pair codes (R197); none for a code that is not listed. -/
def halfFn (code : Nat) : Option HalfFn :=
  let add (ty : Tag) (sat : Bool) : HalfFn := halfInt ty (fun a b _ => intOp2 (tagSigned ty) sat (· + ·) (tagElems ty).1 a b)
  let sub (ty : Tag) (sat : Bool) : HalfFn := halfInt ty (fun a b _ => intOp2 (tagSigned ty) sat (· - ·) (tagElems ty).1 a b)
  let two (ty : Tag) (f : Int → Int → Int) : HalfFn := halfInt ty (fun a b _ => intOp2 (tagSigned ty) false f 32 a b)
  match code with
  | 0x01 => some (halfBits .b32 (fun a _ _ => a))
  | 0x02 => some (add .i32 false) | 0x03 => some (sub .i32 false)
  | 0x04 => some (add .n32 false) | 0x05 => some (sub .n32 false)
  | 0x06 => some (two .i32 min) | 0x07 => some (two .i32 max)
  | 0x08 => some (two .n32 min) | 0x09 => some (two .n32 max)
  | 0x0a => some (halfBits .b32 (fun a b _ => andN a b)) | 0x0b => some (halfBits .b32 (fun a b _ => orN a b))
  | 0x0c => some (halfBits .b32 (fun a b _ => xorN a b)) | 0x0d => some (halfBits .b32 (fun a b _ => andnN 32 a b))
  | 0x0e => some { ty := .b32, bits := true, shift := true, f := fun a b _ => shlN 32 a b }
  | 0x0f => some { ty := .n32, bits := false, shift := true, f := fun a b _ => shrN 32 a b }
  | 0x10 => some { ty := .i32, bits := false, shift := true, f := fun a b _ => sarN 32 a b }
  | 0x11 => some { ty := .b32, bits := true, shift := true, f := fun a b _ => rotlN 32 a b }
  | 0x12 => some (two .i32 (· * ·)) | 0x13 => some (two .n32 (· * ·))
  | 0x14 => some (halfInt .i32 (fun a b _ => intMulHi true 32 a b)) | 0x15 => some (halfInt .n32 (fun a b _ => intMulHi false 32 a b))
  | 0x16 => some (halfInt .i32 (fun a b c => intOp3 true false (fun x y z => x * y + z) 32 a b c))
  | 0x17 => some (halfInt .n32 (fun a b c => intOp3 false false (fun x y z => x * y + z) 32 a b c))
  | 0x18 | 0x19 | 0x1a | 0x1b | 0x1c | 0x1d => some (halfFloat .f32 (code - 0x18))
  | 0x1e => some (add .i32 true) | 0x1f => some (sub .i32 true)
  | 0x20 | 0x21 | 0x22 | 0x23 | 0x24 | 0x25 => some (halfFloat .f64 (code - 0x20))
  | 0x26 => some (halfBits .b64 (fun a _ _ => a)) | 0x27 => some (halfBits .b64 (fun a b _ => xorN a b))
  | 0x28 | 0x29 | 0x2a | 0x2b | 0x2c | 0x2d => some (halfFloat .f16x2 (code - 0x28))
  | 0x2e => some (add .i16x2 false) | 0x2f => some (sub .i16x2 false)
  | 0x30 | 0x31 | 0x32 | 0x33 | 0x34 | 0x35 => some (halfFloat .bf16x2 (code - 0x30))
  | 0x36 => some (add .i8x4 false) | 0x37 => some (sub .i8x4 false)
  | 0x38 | 0x39 | 0x3a | 0x3b | 0x3c | 0x3d => some (halfFloat .f32x2 (code - 0x38))
  | 0x3e => some (halfBits .b64 (fun a b _ => andN a b)) | 0x3f => some (halfBits .b64 (fun a b _ => orN a b))
  | _ => none

/-- The operands of a half and their checks. -/
def halfUses (h : Half) (k : HalfFn) : List VUse :=
  let w64 : Bool := k.ty.width = 64
  let need : Need := if k.bits then .bits else .typed k.ty
  vDst h.d w64 :: vUse h.a w64 need ::
    ((if h.isMov then [] else [if k.shift then vUse h.b false .bits else vUse h.b w64 need]) ++
     (if h.three then [vUse h.d w64 need] else []))

/-- The format a half writes and the value of a lane. -/
def State.halfFmt (s : State) (h : Half) (k : HalfFn) : Tag :=
  let w64 : Bool := k.ty.width = 64
  if !k.bits then k.ty else s.bitFmtOf (if h.isMov || k.shift then [h.a] else [h.a, h.b]) w64
def State.halfVal (s : State) (h : Half) (k : HalfFn) (l : Nat) : DWord :=
  let w64 : Bool := k.ty.width = 64
  mapElems k.ty k.f (s.vVal h.a w64 l) (s.vVal h.b (w64 && !k.shift) l) (s.vVal h.d w64 l)

/-- The write of a half, computed from the registers before the word. -/
def State.halfWrite (s s0 : State) (h : Half) : State :=
  match halfFn h.op.toNat with
  | none => s
  | some k => s.writeV s.cur h.d.toNat (k.ty.width = 64) s.active (s0.halfFmt h k) (s0.halfVal h k)

/-- A paired word (R195): all checks of both halves, all reads, then both writes. (DEDUCED, log 28.) -/
def execPairedWord (h0 h1 : Half) (s : State) : Host.Outcome State Fault Refusal :=
  let uses (h : Half) : List VUse := match halfFn h.op.toNat with
    | none => []
    | some k => halfUses h k
  .next (match s.vecFault (uses h0 ++ uses h1) s.active with
    | some r => s.raise r s.active
    | none => (s.halfWrite s h0).halfWrite s h1)

/-! ### No instruction (R199) -/

/-- A word position that holds no defined instruction raises ILLEGAL. -/
def execUndefinedBitPattern (_w : DWord) (s : State) : Host.Outcome State Fault Refusal :=
  .next (s.raise (plainFault 4) s.active)

end Sys2Proof.Machine
end

