-- ==== Sys2Proof/Machine/Global.lean ====
section
/-!
DEFINITION. Loads, stores, atomics and prefetch of global memory and the peer window (R268 to R281), base translation
registers (R275): what happens at issue. Machine/Serve.lean performs the accesses that set out here.
-/
namespace Sys2Proof.Machine
open Sys2Proof

/-- The checks of a global word that come before translation: operands, addresses over the write mask, the counter (R269). -/
def State.global (s : State) (ok : Bool) (uses : List VUse) (wm m : LaneMask) (va : Nat → Nat) (n : Nat) (write : Bool) (c : Nat)
    (eff : State → State) : State :=
  match s.opFault ok uses wm with
  | some r => s.raise r wm
  | none =>
    match addrFault m va n with
    | some (cls, l) => s.raise { plainFault cls with addr := BitVec.ofNat 64 (va l), write } wm
    | none => if s.noRoom c then s.raise (plainFault 11) wm else eff s

/-! ### Loads (R272, R274) -/

/-- LD of global memory or the peer window. -/
def execLd (o : LdOp GAddr) (s : State) : Host.Outcome State Fault Refusal :=
  let wm := s.wmask o.g
  let n := widthBytes o.width
  let va (l : Nat) : Nat := s.gVa o.addr.base (s.gOffset o.addr l)
  let regs := dstRegs o.d.toNat (widthRegs o.width)
  .next (s.global (s.gBaseOk o.addr.base) (dstUse o.d o.width :: idxUse o.addr.idx) wm wm va n false o.c.val (fun s =>
    let g := gather (lanesOf wm) false (fun l =>
      s.orPoison n (va l) (s.orPull (s.gReach o.addr.base (s.gOffset o.addr l) false)))
    if g.waits then s.holdWord g
    else
      let s := s.tagDst regs wm o.ty
      let (id, s) := s.openOp { s.baseOp .load o.c.val with
        dst := o.d.toNat, width := n, ty := o.ty, sext := widthSext o.width } regs
      let s := s.modOp id (fun q => { q with
        lanes := g.good.foldl (fun m p => m ||| (1#32 <<< p.1)) q.lanes, flag := g.bad ≠ [] })
      let s := g.good.foldl (fun s p => s.startLoad id n p) s
      s.settle g.bad (badMask g.bad) va false true id wm))

/-- SLD of global memory: once for the group (R274). -/
def execSld (o : SldOp SGAddr) (s : State) : Host.Outcome State Fault Refusal :=
  let n := widthBytes o.width
  let off := o.addr.disp.signExtend 64
  let va (_ : Nat) : Nat := s.gVa o.addr.base off
  .next (s.global (s.gBaseOk o.addr.base && sDstOk o.d o.width) [] s.active 1 va n false o.c.val (fun s =>
    let g := gather [0] false (fun l => s.orPoison n (va l) (s.orPull (s.gReach o.addr.base off false)))
    if g.waits then s.holdWord g
    else if g.bad ≠ [] then s.settle g.bad 0 va false false 0 s.active
    else
      let (id, s) := s.issueOp { s.baseOp .sload o.c.val with dst := o.d.toNat, width := n } (sDstPlaces o.d o.width)
      let s := g.good.foldl (fun s p => s.startLoad id n p) s
      s.settle [] 0 va false false 0 s.active))

/-! ### Stores (R236, R272) -/

/-- Inside a region, a store to a peer-window or HOST page raises ILLEGAL with its address (R236). (DEDUCED, log 41.) -/
def orRegion (inRegion : Bool) (va : Nat) (r : Reach) : Reach :=
  match r with
  | .at (.hbm _ _) => if inRegion && inWindow va then .fault 4 0xff va 0 false else r
  | .at _ => if inRegion then .fault 4 0xff va 0 false else r
  | r => r

/-- A lane's store: D bits first (R380), then the region buffer or the store buffer. It answers the entry it
joined. (DEDUCED, log 15.) -/
def State.storeLane (s : State) (n v : Nat) (t : Target) : Nat × State :=
  match t with
  | .hbm spa x =>
    let s := s.markDirty (s.grp s.cur).vf x
    let (took, s) := s.regionStore s.cur 0 (lineOf spa) x (cellsOf spa n v)
    if took then (0, s) else s.sbStore s.cur 0 x (cellsOf spa n v) (lineOf spa)
  | .host h x => (s.markDirty (s.grp s.cur).vf x).sbStore s.cur 1 x (cellsOf h n v) (lineOf h)
  | .remote h off =>
    let a := h * 2 ^ 40 + off
    s.sbStore s.cur 2 default (cellsOf a n v) (lineOf a)

/-- Whether an earlier load or atomic of the group still touches a byte that a lane stores to (R125). -/
def State.lateAccess (s : State) (good : List (Nat × Target)) (n : Nat) : Bool :=
  good.any (fun p => s.before s.cur (s.accessAt .store p.1 0 n p.2))

/-- ST of global memory or the peer window. -/
def execSt (o : StOp GAddr) (s : State) : Host.Outcome State Fault Refusal :=
  let wm := s.wmask o.g
  let n := widthBytes o.width
  let c := match o.c with | none => 6 | some c => c.val
  let va (l : Nat) : Nat := s.gVa o.addr.base (s.gOffset o.addr l)
  .next (s.global (s.gBaseOk o.addr.base) (dataUse o.d o.width :: idxUse o.addr.idx) wm wm va n true c (fun s =>
    let inRegion := (s.grp s.cur).region.open_
    let g := gather (lanesOf wm) true (fun l =>
      orRegion inRegion (va l) (s.orPull (s.gReach o.addr.base (s.gOffset o.addr l) true)))
    if g.waits then s.holdWord g
    else if s.lateAccess g.good n then s.holdAgain
    else
      let s0 := s
      let (id, s) := if c < 6 then s.openOp (s.baseOp .store c) [] else (0, s)
      let (order, s) := s.laneOrder (g.good.map (·.1)) va
      let (ids, s) := order.foldl (fun (acc : List Nat × State) l =>
        match g.good.find? (fun p => p.1 = l) with
        | none => acc
        | some p =>
          let (e, s) := acc.2.storeLane n (s0.storeVal o.d.toNat n l) p.2
          (if e = 0 then acc.1 else insertOnce e acc.1, s)) ([], s)
      let s := if c < 6 then s.modOp id (fun q => { q with
          stage := if (s.grp s.cur).region.open_ then 7 else 3, flag := g.bad ≠ []
          waitOn := ids.foldl (fun w e => insertOnce e w) q.waitOn })
        else s
      s.settle g.bad (badMask g.bad) va true true id wm))

/-! ### Base translation registers (R67, R275) -/

/-- The register BT.SET gives: of a translation, without a fast path for a HOST page, or all zero for a peer-window page
(R275, R372). -/
def btArgs (d : BReg) (base lim : Nat) (wr : Bool) (x : Option Xlat) : List Nat :=
  match x with
  | none => [d.toNat, base, 0, 0, 0, if wr then 1 else 0]
  | some x =>
    let page := 2 ^ x.pbits
    let room := page - base % page
    let limit := if x.host then 0 else if lim = 0 then room else min room lim
    [d.toNat, base, x.out / 65536, limit, psizeCode x.pbits, if wr then 1 else 0]

/-- Issues the operation that writes the register; an earlier one on the same register writes nothing any more.
(DEDUCED, log 50.) -/
def State.btIssue (s : State) (d : BReg) (c : Nat) (args : List Nat) : State :=
  let s := { s with ops := s.ops.map (fun (p : Nat × Op) =>
    if p.2.grp = s.cur && p.2.kind = OpKind.btset && p.2.arg.head? = some d.toNat then (p.1, { p.2 with stopped := true }) else p) }
  let (_, s) := s.issueOp { s.baseOp .btset c with arg := args } []
  s.modGrp s.cur Group.settled

/-- BT.SET (R275): VALID clears at issue; the page is translated as a load, and as a store for `.w`. -/
def execBtSet (wr : Bool) (d : BReg) (a b : SReg) (c : CReg) (s : State) : Host.Outcome State Fault Refusal :=
  let base := (s.sVal a true).toNat
  let lim := (s.rdS s.cur b.toNat).toNat
  let va (_ : Nat) : Nat := base
  .next (s.global (sPairOk true a) [] s.active 1 va 1 false c.val (fun s =>
    let s := s.modGrp s.cur (fun gr => { gr with bts := FMap.upd gr.bts d.toNat (fun r => { r with valid := false }) })
    let fail (r : Reach) (write : Bool) : State := s.settle [(0, r)] 0 va write false 0 s.active
    if inWindow base then
      match s.reachWindow (s.partOf s.cur) base wr with
      | .at _ => s.btIssue d c.val (btArgs d base lim wr none)
      | r => fail r wr
    else
      match s.xlatVa s.cur base false, s.xlatVa s.cur base wr with
      | .walk p, _ | _, .walk p => s.holdWord ⟨[(p, false)] ++ (if wr then [(p, true)] else []), [], [], [], []⟩
      | .fault cls lv g s2, _ => fail (.fault cls lv base g s2) false
      | _, .fault cls lv g s2 => fail (.fault cls lv base g s2) wr
      | .ok x, .ok _ =>
        (if wr && !x.host then s.markDirty (s.grp s.cur).vf x else s).btIssue d c.val (btArgs d base lim wr (some x))))

/-- The register of a completed BT.SET. -/
def btOfArgs (l : List Nat) : BtReg :=
  let f (i : Nat) : Nat := (l[i]?).getD 0
  { valid := true, base := BitVec.ofNat 64 (f 1), frame := f 2, limit := f 3, psize := f 4, write := f 5 = 1, read := true }

/-! ### Prefetch (R276) -/

/-- The sector a prefetch of a lane asks for, if it does anything. -/
def State.prefetchAt (s : State) (a : GAddr) (l : Nat) : Option Nat :=
  let off := s.gOffset a l
  let va := s.gVa a.base off
  if 2 ^ 57 ≤ va || inWindow va || !s.gBaseOk a.base then none
  else
    let bt : BtReg := match a.base with
      | .bt r => s.btOf r
      | .s _ => default
    if bt.valid && off.toNat < bt.limit && bt.read then
      some (sectorOf (bt.frame * 65536 + bt.base.toNat % 2 ^ psizeBits bt.psize + off.toNat))
    else
      match s.walk (s.grp s.cur).vf (s.partOf s.cur) va false with
      | .ok x => if x.host then none else some (sectorOf (x.out + va % 2 ^ x.pbits))
      | .error _ => none

/-- PREFETCH: a fill into the L1 or the L2 sets out for each lane's sector; it never faults but for its index
register. (DEDUCED, log 49.) -/
def execPrefetch (l2 : Bool) (g : Guard) (addr : GAddr) (s : State) : Host.Outcome State Fault Refusal :=
  let wm := s.wmask g
  .next (match (s.grp s.cur).check true (idxUse addr.idx) with
    | some c => s.raise (plainFault c) wm
    | none =>
      let secs := (lanesOf wm).filterMap (s.prefetchAt addr)
      (sortOnce secs).foldl (fun s sec =>
        (s.putAcc { s.accessAt .fill 0 0 256 (.hbm (sec * 256) default) with l1 := !l2 }).2) s)

/-! ### Atomics (R277 to R281) -/

/-- An atomic of a lane as it sets out: its operation and operands. -/
structure AtomReq where
  op : AOp
  ty : Tag
  cas : Bool
  n : Nat
  b : Nat → Nat
  b2 : Nat → Nat

/-- The access of a lane's atomic. -/
def State.atomAccess (s : State) (r : AtomReq) (kind : AccKind) (op : Nat) (p : Nat × Target) : Access :=
  { s.accessAt kind p.1 op r.n p.2 with
    aop := r.op, ty := r.ty, cas := r.cas, operand := r.b p.1, operand2 := r.b2 p.1, word := s.nextId }

/-- One request of accesses that perform together, in order: the first leads the others (R281). -/
def State.sendRequest (s : State) (op : Nat) (l : List Access) : State :=
  match l with
  | [] => s
  | a :: rest =>
    let (lead, s) := s.putAcc a
    let (ids, s) := rest.foldl (fun (acc : List Nat × State) b =>
      let (id, s) := acc.2.putAcc { b with sb := lead }
      (acc.1 ++ [id], s)) ([], s)
    let s := { s with acc := FMap.upd s.acc lead (fun a => { a with members := ids }) }
    if op = 0 then s else s.modOp op (fun o => { o with waitOn := o.waitOn ++ lead :: ids })

/-- The requests of a word: one a lane, or one a line, lanes ascending (R278, R281). -/
def requests (vector : Bool) (l : List Access) : List (List Access) :=
  if !vector then l.map ([·])
  else
    let lines := sortOnce (l.map (fun a => lineOf a.addr))
    lines.map (fun n => l.filter (fun a => lineOf a.addr = n))

/-- Free entries of a core's posted-operation queue (R279). -/
def State.postedFree (s : State) (core : Nat) : Nat :=
  1024 - (s.acc.filter (fun p => p.2.kind = .posted && p.2.core = core && p.2.sb = 0)).length

/-- An atomic word on global memory: operands, addresses, the counter, translation, then its requests set out (R269,
R277 to R281). `ret` gives destination, tag and counter of a returning form. -/
def State.globalAtomic (s : State) (uses : List VUse) (wm : LaneMask) (base : GBase) (idx : VReg) (sh : BitVec 2) (r : AtomReq)
    (host vector : Bool) (ret : Option (Nat × Tag × Nat)) : State :=
  let off (l : Nat) : DWord := s.index64 idx l <<< sh.toNat
  let va (l : Nat) : Nat := s.gVa base (off l)
  let c := match ret with | none => 6 | some (_, _, c) => c
  s.global (s.gBaseOk base) (uses ++ [vUse idx false (.among idxTags)]) wm wm va r.n true c (fun s =>
    let place (l : Nat) : Reach :=
      let t := s.gReach base (off l) true
      s.orPoison r.n (va l) (if vector then orDevice (va l) t else orHostForm host (va l) t)
    let g := gather (lanesOf wm) true place
    if g.waits then s.holdWord g
    else
      match ret with
      | none =>
        let reqs := requests vector (g.good.map (s.atomAccess r .posted 0))
        if s.postedFree (s.coreOf s.cur) < reqs.length then s.parkAgain .posted reqs.length
        else (reqs.foldl (fun s q => s.sendRequest 0 q) s).settle g.bad (badMask g.bad) va true true 0 wm
      | some (d, ty, c) =>
        let regs := dstRegs d (max 1 (r.n / 4))
        let s := s.tagDst regs wm ty
        let (id, s) := s.openOp { s.baseOp .atom c with dst := d, width := r.n, ty } regs
        let s := s.modOp id (fun q => { q with
          lanes := g.good.foldl (fun m p => m ||| (1#32 <<< p.1)) q.lanes, flag := g.bad ≠ [] })
        let reqs := requests vector (g.good.map (s.atomAccess r .atomic id))
        (reqs.foldl (fun s q => s.sendRequest id q) s).settle g.bad (badMask g.bad) va true true id wm)

/-- The operand register of an atomic, read under its type; exch takes any tag of its width (R277). -/
def atomSrc (op : AOp) (ty : Tag) (b : VReg) : VUse := vUse b (ty.width = 64) (if op = .exch then .bits else .typed ty)

/-- The operand of a lane. -/
def State.atomVal (s : State) (ty : Tag) (b : VReg) (l : Nat) : Nat :=
  (s.vVal b (ty.width = 64) l).toNat % 2 ^ (8 * atomBytes ty)

/-- The request of ATOM, RED and their vector forms. -/
def State.atomReq (s : State) (op : AOp) (ty : Tag) (b : VReg) : AtomReq :=
  { op, ty, cas := false, n := atomBytes ty, b := s.atomVal ty b, b2 := fun _ => 0 }

/-- The base of a global atomic, or the peer register of a scratch one. -/
def baseSplit : ABase → Sum GBase (Option SReg)
  | .bt b => .inl (.bt b)
  | .s n => .inl (.s n)
  | .scratch => .inr none
  | .peer r => .inr (some r)

/-- ATOM (R277, R278). -/
def execAtom (o : AtomOp) (s : State) : Host.Outcome State Fault Refusal :=
  .next (s.noRegion (fun s =>
    let uses := [vDst o.d (o.ty.width = 64), atomSrc o.op o.ty o.b]
    match baseSplit o.addr.base with
    | .inl base =>
      s.globalAtomic uses (s.wmask o.g) base o.addr.idx o.addr.sh (s.atomReq o.op o.ty o.b) (hostForm o.op o.ty) false
        (some (o.d.toNat, o.ty, o.c.val))
    | .inr peer =>
      s.scrAtomic uses (s.wmask o.g) peer o.addr.idx (atomBytes o.ty) (fun l old => atomNew o.op o.ty old (s.atomVal o.ty o.b l))
        (some (o.d.toNat, o.ty, o.c.val))))

/-- RED (R277 to R279). -/
def execRed (o : RedMem) (s : State) : Host.Outcome State Fault Refusal :=
  .next (s.noRegion (fun s =>
    let uses := [atomSrc o.op o.ty o.b]
    match baseSplit o.addr.base with
    | .inl base =>
      s.globalAtomic uses (s.wmask o.g) base o.addr.idx o.addr.sh (s.atomReq o.op o.ty o.b) (hostForm o.op o.ty) false none
    | .inr peer =>
      s.scrAtomic uses (s.wmask o.g) peer o.addr.idx (atomBytes o.ty) (fun l old => atomNew o.op o.ty old (s.atomVal o.ty o.b l))
        none))

/-- VATOM (R281). -/
def execVatom (o : AtomOp) (s : State) : Host.Outcome State Fault Refusal :=
  .next (s.noRegion (fun s =>
    match baseSplit o.addr.base with
    | .inl base =>
      s.globalAtomic [vDst o.d (o.ty.width = 64), atomSrc o.op o.ty o.b] (s.wmask o.g) base o.addr.idx o.addr.sh
        (s.atomReq o.op o.ty o.b) false true (some (o.d.toNat, o.ty, o.c.val))
    | .inr _ => s.raise (plainFault 4) s.active))

/-- VRED (R281). -/
def execVred (o : RedMem) (s : State) : Host.Outcome State Fault Refusal :=
  .next (s.noRegion (fun s =>
    match baseSplit o.addr.base with
    | .inl base =>
      s.globalAtomic [atomSrc o.op o.ty o.b] (s.wmask o.g) base o.addr.idx o.addr.sh (s.atomReq o.op o.ty o.b) false true none
    | .inr _ => s.raise (plainFault 4) s.active))

/-- CAS (R280): compare value in vB.., new value in the w registers after it, old value to vD... -/
def execCas (o : CasOp) (s : State) : Host.Outcome State Fault Refusal :=
  let w := 2 ^ o.lw.toNat
  let n := 4 * w
  let val (r l : Nat) : Nat := s.storeVal (o.b.toNat + r) n l
  let uses := [vRange o.d.toNat w w .dst, vRange o.b.toNat (2 * w) w .anyTag]
  let ty : Tag := if w = 2 then .b64 else .b32
  let ret := some (o.d.toNat, ty, o.c.val)
  .next (s.noRegion (fun s =>
    match baseSplit o.addr.base with
    | .inl base =>
      s.globalAtomic uses (s.wmask o.g) base o.addr.idx o.addr.sh
        { op := .exch, ty, cas := true, n, b := val 0, b2 := val w } true false ret
    | .inr peer =>
      s.scrAtomic uses (s.wmask o.g) peer o.addr.idx n (fun l old => if old = val 0 l then val w l else old) ret))

end Sys2Proof.Machine
end

