-- ==== Sys2Proof/Machine/Serve.lean ====
section
/-!
DEFINITION. The memory system at work: accesses served at their places (R112 to R120, R124 to R128, R133 to R135), stores
becoming visible (R126), phases (R138), acknowledgements (R143), walks, ATS and PRI (R366, R375 to R378). A turn whose step
is not due changes nothing.
-/
namespace Sys2Proof.Machine
open Sys2Proof

def State.accOf (s : State) (id : Nat) : Access := FMap.get s.acc id
def State.delAcc (s : State) (id : Nat) : State := { s with acc := FMap.del s.acc id }

/-! ### Order of a group's own accesses (R125) -/

/-- Whether two atomics are lanes of one instruction, which take any order (R278). -/
def Access.sameWord (a b : Access) : Bool := a.word ≠ 0 && (a.word = b.word || (a.op ≠ 0 && a.op = b.op))

/-- Whether an earlier access of the group to a common byte, or the V of its own atomic there, must come first. -/
def State.mustWait (s : State) (id : Nat) (a : Access) : Bool :=
  s.acc.any (fun p => p.1 < id && p.2.grp = a.grp && p.2.live && p.2.kind ≠ .store && p.2.kind ≠ .fill && p.2.place = a.place &&
    !a.sameWord p.2 && p.2.addr < a.addr + a.size && a.addr < p.2.addr + p.2.size) ||
  (a.kind = .load && s.pend.any (fun p => p.2.atomic && a.grp ∈ p.2.grps && s.tick < p.2.v &&
    p.2.cells.any (fun c => a.addr ≤ c.1 && c.1 < a.addr + a.size)))

/-- Whether an access has delivered itself to its home: at once, or to a home on another die in the order of sending (R137). -/
def State.delivered (s : State) (a : Access) : Bool :=
  a.seq = 0 || a.there || s.acc.all (fun p => !(p.2.srcDie = a.srcDie && p.2.homeDie = a.homeDie && p.2.place = .hbm &&
    p.2.seq ≠ 0 && p.2.seq < a.seq && !p.2.there))

/-- Whether an access is bound for a home on another die and is tagged when it leaves (R137). -/
def Access.crosses (a : Access) : Bool := a.place = .hbm && a.srcDie < 4 && a.srcDie ≠ a.homeDie

/-- An atomic leaves its die: it takes the die's phase and its place on the path (R137). -/
def State.leave (s : State) (id : Nat) : State :=
  let (seq, s) := s.fresh
  { s with acc := FMap.upd s.acc id (fun a => { a with seq, phase := (s.die a.srcDie).oph.toNat }) }

/-- Whether a store or atomic of a team stands behind a store that the team holds, or held, under an earlier release: in the
buffer, on its way, with its V not two ticks past, or, on another die, in a phase not complete everywhere (R135). -/
def State.behindHold (s : State) (team rel : Nat) : Bool :=
  rel ≠ 0 &&
  (s.sb.any (fun p => p.2.team = team && p.2.hold ≠ 0 && p.2.release < rel) ||
   s.acc.any (fun p => p.2.kind = .store && p.2.team = team && p.2.held && p.2.rel < rel) ||
   s.pend.any (fun p => p.2.team = team && p.2.held && p.2.rel < rel && s.tick < p.2.v + 2) ||
   (s.team team).pubs.any (fun q => q.1 < rel && !s.phaseAtAll (coreDie (s.team team).core) q.2))

/-- Whether an earlier store of the same writer, the team, the hub or an engine, to one of the bytes has not
arrived (R125). (DEDUCED, log 139.) -/
def State.behindStore (s : State) (id : Nat) (a : Access) : Bool :=
  let common (l : List Host.Cell) : Bool := l.any (fun c => (lastCell a.data c.1).isSome)
  s.acc.any (fun p => p.1 < id && p.2.live && p.2.kind = .store && p.2.team = a.team && p.2.hubFn = a.hubFn &&
    p.2.place = a.place && !p.2.acked && common p.2.data) ||
  s.sb.any (fun p => p.1 < id && p.2.team = a.team && p.2.target = a.place.target && common p.2.cells)

/-! ### Loads and fills (R117, R133) -/

/-- A lane's value reaches its operation. -/
def State.giveLoad (s : State) (id : Nat) (a : Access) (v : Nat) : State :=
  (s.delAcc id).modOp a.op (fun o => { o with
    res := FMap.upd o.res a.lane (· + v * 2 ^ a.operand), waitOn := o.waitOn.filter (· ≠ id) })

/-- A lane's bytes were poisoned: its operation learns it in place of a value (R352). -/
def State.giveSpoil (s : State) (id : Nat) (a : Access) : State :=
  let s := s.delAcc id
  if a.op = 0 then s else s.modOp a.op (fun o => { o.spoil a.lane with waitOn := o.waitOn.filter (· ≠ id) })

/-- The access waits for a forced publication. -/
def State.waitForce (s : State) (id : Nat) : State :=
  { s with acc := FMap.upd s.acc id (fun a => { a with waiting := true }) }

/-- The group reads n bytes: the stores of other teams that it reads by holder forwarding, which are visible to its cluster
before their V, are noted (R131, R133). -/
def State.noteForward (s : State) (g addr n : Nat) : State :=
  let t := (s.grp g).team
  let mine (team : Nat) : Bool := team ≠ t && (s.team team).cluster = (s.team t).cluster
  let over' (l : List Host.Cell) : Bool := l.any (fun q => addr ≤ q.1 && q.1 < addr + n)
  let ids := (s.sb.filter (fun p => p.2.target = 0 && p.2.vis && mine p.2.team && over' p.2.cells)).map (·.1) ++
    (s.acc.filter (fun p => p.2.kind = .store && p.2.place = .hbm && p.2.clusterVis && mine p.2.team && over' p.2.data)).map (·.1) ++
    (s.pend.filter (fun p => p.2.clusterVis && s.tick < p.2.v && mine p.2.team && over' p.2.cells)).map (·.2.src)
  if ids = [] then s else s.modGrp g (fun gr => { gr with fwd := ids.foldl (fun l i => insertOnce i l) gr.fwd })

/-- The bytes of a load outside this package's memory: the team's buffered bytes over what the place answers (R127). -/
def State.overlaid (s : State) (a : Access) (l : List Byte) : Nat :=
  leNat (l.zipIdx.map (fun p => (s.bufByte a.place (s.observer a.grp) (a.addr + p.2)).getD p.1))

/-- The bytes of a load of device memory, or poison (R124, R352). -/
def State.takeLoad (s : State) (id : Nat) (a : Access) : State :=
  let s := s.noteForward a.grp a.addr a.size
  if s.poisoned a.addr a.size then s.giveSpoil id a
  else s.giveLoad id a (leNat (s.loadBytes (s.observer a.grp) a.addr a.size))

/-- What a load or fill of the slice leaves in the caches: the Lichen entry that served it, or the home L2, perhaps a new
Shared entry, and a lease of the die that served it; nothing of an access in the peer window (R112, R114 to R117). -/
def State.cacheLoad (s : State) (a : Access) (n : Nat) (l1 : Bool) : State :=
  let line := lineOf a.addr
  let bits := sectorBits a.addr n
  let state := s.lichenGet a.srcDie line
  if s.usesLichen a && state ≠ .invalid then
    let s := s.lichenUse a.srcDie line state bits false
    if l1 then s.grantLease a.core (s.partOf a.grp) a.srcDie a.addr else s
  else
    let s := (s.recall a.srcDie line).l2Touch a.addr n false
    let (k, s) := if s.usesLichen a then s.pick 2 else (0, s)
    let s := if k = 1 then s.lichenUse a.srcDie line .shared bits false else s
    if l1 && a.dev ≠ 0 then s.grantLease a.core (s.partOf a.grp) a.homeDie a.addr else s

/-- A load at its place (R117): from a leased copy, at the Lichen entry or the home slice, from the host, from another package. -/
def State.serveLoad (s : State) (id : Nat) (a : Access) : State :=
  match a.place with
  | .host => s.giveLoad id a (s.overlaid a (s.hostBytes a.addr a.size))
  | .remote =>
    match s.remoteRead a.addr a.size with
    | (none, s) => s
    | (some l, s) => s.giveLoad id a (s.overlaid a l)
  | .hbm =>
    let (k, s) := s.pick 2
    if a.dev ≠ 0 && s.leased a.core (sectorOf a.addr) && k = 0 then s.takeLoad id a
    else
      let (ok, s) := s.forceLine (lineOf a.addr) (s.observer a.grp) false
      if !ok then s.waitForce id else (s.cacheLoad a a.size true).takeLoad id a

/-- A prefetch's fill does nothing on a line with a pending store or under a hold (R276). -/
def State.serveFill (s : State) (id : Nat) (a : Access) : State :=
  let line := lineOf a.addr
  let s := s.delAcc id
  if s.pendingLine line || s.heldLine line then s else s.cacheLoad a 256 a.l1

/-! ### Stores (R116, R126, R135, R271) -/

/-- A store to host memory performs: all its bytes, or one naturally aligned unit of eight bytes, the rest later (R271). -/
def State.hostArrive (s : State) (id : Nat) (a : Access) : State :=
  let (k, s) := s.pick (a.data.length + 1)
  let now := match a.data[k]? with
    | none => a.data
    | some c => a.data.filter (fun d => d.1 / 8 = c.1 / 8)
  let rest := a.data.filter (fun d => d ∉ now)
  let s := s.hostStore now
  if rest = [] then ((s.delAcc id).noteArrival id 0).signalIrq a.irq
  else { s with acc := FMap.set s.acc id { a with data := rest } }

/-- A store at its place: the home slice, or the own die's Modified entry (R116, R126). The directory may grant Modified
where no other die holds the line and no store is pending. -/
def State.serveStore (s : State) (id : Nat) (a : Access) : State :=
  if s.behindHold a.team a.rel then s
  else
    match a.place with
    | .host => s.hostArrive id a
    | .remote =>
      match s.sendFlit a.addr with
      | none => s
      | some s => { s with acc := FMap.upd s.acc id (fun a => { a with acked := true }) }
    | .hbm =>
      let line := lineOf a.addr
      let o : Observer := if a.team = 0 then outside else { team := some a.team, cluster := some (s.team a.team).cluster }
      let (ok, s) := if a.forced then (true, s) else s.forceLine line o false
      if !ok then s.waitForce id
      else
        let free := !s.pendingLine line && (List.range 4).all (fun d => d = a.srcDie || s.lichenGet d line = .invalid)
        let (k, s) := if s.usesLichen a then s.pick 2 else (0, s)
        let here : Bool := s.usesLichen a && (s.lichenGet a.srcDie line = .modified || (free && k = 0))
        let secs := sortOnce (a.data.map (fun c => sectorOf c.1))
        let s := if here then secs.foldl (fun s k => s.lichenUse a.srcDie line .modified (sectorBits (256 * k) 256) true) s
          else secs.foldl (fun s k => s.l2Touch (256 * k) 256 true) ((s.recall a.srcDie line).unshare line)
        let p : Pend := { (default : Pend) with
          cells := a.data, team := a.team, cluster := (s.team a.team).cluster, clusterVis := a.clusterVis, grps := a.members
          srcDie := a.srcDie, homeDie := if here then a.srcDie else a.homeDie, phase := a.phase, op := a.op, forced := a.forced
          irq := a.irq, rel := a.rel, held := a.held, v := a.after }
        (s.delAcc id).arrive id line p

/-! ### Atomics at their place (R103, R120, R278, R280) -/

/-- The old value of an atomic reaches its operation; a RED has none. -/
def State.giveAtom (s : State) (id : Nat) (a : Access) (old : Nat) : State :=
  let s := s.delAcc id
  if a.op = 0 then s
  else s.modOp a.op (fun o => { o with res := FMap.set o.res a.lane old, waitOn := o.waitOn.filter (· ≠ id) })

/-- The new value of an access's atomic; none when a compare fails. -/
def Access.newVal (a : Access) (old : Nat) : Option Nat :=
  if a.cas then (if old = a.operand then some a.operand2 else none) else some (atomNew a.aop a.ty old a.operand)

/-- One atomic of a request performs at the home slice: it reads the newest value there and writes with its V (R126); over poison
it writes nothing (R352). -/
def State.atomAt (s : State) (id : Nat) : State :=
  let a := s.accOf id
  if s.poisoned a.addr a.size then (s.giveSpoil id a).noteArrival id 0
  else
    let old := leNat ((List.range a.size).map (fun i => s.homeByte (fun _ => true) (a.addr + i)))
    match a.newVal old with
    | none => (s.giveAtom id a old).noteArrival id 0
    | some v =>
      let s := s.markDirty (s.grp a.grp).vf a.xl
      let s := s.giveAtom id a old
      s.arrive id (lineOf a.addr) { (default : Pend) with
        cells := cellsOf a.addr a.size v, team := a.team, cluster := (s.team a.team).cluster, grps := [a.grp], srcDie := a.srcDie
        homeDie := a.homeDie, phase := a.phase, rel := a.rel, atomic := true, v := a.after }

/-- An atomic's way is cleared: the team's buffered stores to its line leave, and with them every hold they or the atomic stand
behind, as at the drain bound (R127, R128, R135). It answers whether they have all arrived and are published.
(DEDUCED, log 148.) -/
def State.clearWay (s : State) (a : Access) : Bool × State :=
  let line := lineOf a.addr
  let mine (e : SbEntry) : Bool := e.target = a.place.target && e.line = line
  let last := s.sb.foldl (fun m p =>
    if p.2.team = a.team && mine p.2 then max m (if p.2.hold ≠ 0 then p.2.release else p.2.release - 1) else m) (a.rel - 1)
  let s := s.publishEntries a.team (fun e => mine e || (e.hold ≠ 0 && e.release ≤ last)) false
  (s.acc.all (fun p => !(p.2.kind = .store && p.2.team = a.team && p.2.place = a.place && lineOf p.2.addr = line)) &&
    !s.behindHold a.team a.rel, s)

/-- The atomics of a request to an absent page go to the source, which answers each (R428). -/
def State.forward (s : State) (page : Nat) (ids : List Nat) : State :=
  ids.foldl (fun s k =>
    let a := s.accOf k
    let f : FwdAtomic := {
      gpa := page * 65536 + a.addr % 65536, size := a.size, op := a.aop, ty := a.ty, cas := a.cas, b := a.operand, c := a.operand2
      tok := k }
    { s with
      acc := FMap.set s.acc k { a with place := .remote, acked := true, sb := 0, members := [] }
      mig := { s.mig with forwarded := s.mig.forwarded ++ [f] } }) s

/-- An atomic request at its place. -/
def State.serveAtom (s : State) (id : Nat) (a : Access) : State :=
  match (if a.place = .hbm then s.absentAt a.addr else none) with
  | some p => s.forward p (id :: a.members)
  | none =>
    let (clear, s) := s.clearWay a
    if !clear then s
    else
      match a.place with
      | .host =>
        let old := leNat (s.hostBytes a.addr a.size)
        let s := match a.newVal old with
          | none => s
          | some v => (s.markDirty (s.grp a.grp).vf a.xl).hostStore (cellsOf a.addr a.size v)
        (s.giveAtom id a old).noteArrival id 0
      | .remote =>
        match s.sendFlit a.addr with
        | none => s
        | some s => { s with acc := FMap.upd s.acc id (fun a => { a with acked := true }) }
      | .hbm =>
        let line := lineOf a.addr
        let (ok, s) := s.forceLine line (s.observer a.grp) true
        if !ok then s.waitForce id
        else
          let s := ((s.recall 4 line).unshare line).l2Touch a.addr a.size true
          (id :: a.members).foldl (fun s k => s.atomAt k) s

/-- A hub store that waited for its pages is translated anew (R428). -/
def State.retranslate (s : State) (id : Nat) (a : Access) : State :=
  match s.hubReach (a.hubFn - 1) ((a.data.head?).getD (0, 0)).1 true with
  | .error e => if e.cls = 0 then s.askPull e.gpa else (s.delAcc id).noteArrival id 0
  | .ok (t, x) =>
    let (place, spa) : Place × Nat := match t with
      | .hbm spa _ => (.hbm, spa)
      | .host h _ => (.host, h)
      | .remote h off => (.remote, h * 2 ^ 40 + off)
    let s := s.markDirty (a.hubFn - 1) x
    { s with acc := FMap.set s.acc id { a with
      place, addr := spa / 1024 * 1024, homeDie := spaDie spa, data := cellsAt spa (a.data.map (·.2)), hubFn := 0
      byFn := a.hubFn, byPart := x.part + 1 } }

/-- What keeps an access from being served: its home die is in reset (R449), or its page has not arrived (R428). -/
def State.heldBack (s : State) (a : Access) : Bool :=
  a.place = .hbm && ((s.die (spaDie a.addr)).inReset || (a.kind ∈ [AccKind.load, .store, .fill] && (s.absentAt a.addr).isSome))

/-- An access that has reached its place is served there. -/
def State.serveThere (s : State) (id : Nat) : State :=
  let a := s.accOf id
  match a.kind with
  | .load => s.serveLoad id a
  | .fill => s.serveFill id a
  | .store => s.serveStore id a
  | .atomic | .posted => s.serveAtom id a

/-- An access leaves its die, arrives at its place and is served there, unless an own earlier access must come first. -/
def State.serve (s : State) (id : Nat) : State :=
  let a := s.accOf id
  let atom : Bool := a.kind = .atomic || a.kind = .posted
  if !a.live || (a.kind ≠ .store && a.sb ≠ 0) || a.acked || (a.kind = .store && s.behindStore id a) then s
  else if a.hubFn ≠ 0 then s.retranslate id a
  else if s.heldBack a then
    match s.absentAt a.addr with
    | some p => s.askPull p
    | none => s
  else if a.kind ≠ .store && (id :: a.members).any (fun k => s.mustWait k (s.accOf k)) then s
  else if atom && a.crosses && a.seq = 0 then (id :: a.members).foldl (fun s k => s.leave k) s
  else if !s.delivered a then s
  else
    let s := if a.seq ≠ 0 then (id :: a.members).foldl (fun s k =>
        { s with acc := FMap.upd s.acc k (fun a => if a.live then { a with there := true } else a) }) s
      else s
    s.serveThere id

/-- SLICE_ACCESS: an access that waits for no publication (R117). -/
def execSliceAccess (acc : Nat) (s : State) : Host.Outcome State Fault Refusal :=
  let a := s.accOf acc
  if a.live && a.place = .hbm && !spaOk a.addr then .fault (.noMemory a.addr)
  else .next (if a.waiting || a.kind = .posted then s else s.serve acc)

/-- An access that waited for a forced publication performs once the forced stores are visible (R134). -/
def execForcedAccessPerform (acc : Nat) (s : State) : Host.Outcome State Fault Refusal :=
  .next (if (s.accOf acc).waiting then s.serve acc else s)

/-- The posted-operation queue sends one entry (R279). -/
def execPostedOperationPerform (acc : Nat) (s : State) : Host.Outcome State Fault Refusal :=
  let a := s.accOf acc
  .next (if a.kind = .posted && !a.waiting then s.serve acc else s)

/-- Whether an entry stands behind a hold of its team. -/
def State.entryBehind (s : State) (e : SbEntry) : Bool :=
  s.sb.any (fun p => p.2.team = e.team && p.2.hold ≠ 0 && p.2.release < e.release)

/-- The buffer sends an entry that is not held and stands behind no hold (R128, R135). -/
def execStoreBufferDrain (entry : Nat) (s : State) : Host.Outcome State Fault Refusal :=
  let e := FMap.get s.sb entry
  .next (if e.live && e.hold = 0 && !s.entryBehind e then s.sendEntry entry false else s)

/-- An entry at its bound leaves; the holds it stands behind are published first (R128, R136). -/
def execDrainBoundExpiry (entry : Nat) (s : State) : Host.Outcome State Fault Refusal :=
  let e := FMap.get s.sb entry
  .next (if e.live && e.hold = 0 && e.issued + 16384 ≤ s.tick then
    (s.publishEntries e.team (fun q => q.hold ≠ 0 && q.release < e.release) false).sendEntry entry false
  else s)

/-! ### Completion of stores (R124 to R126) -/

/-- A store whose V has come becomes the contents of memory, in coherence order; it clears the poison of whole granules and
sends the interrupt that waited for it. A store of a group stays listed two ticks more, the margin of R131. -/
def execStoreCompletion (pend : Nat) (s : State) : Host.Outcome State Fault Refusal :=
  let p := FMap.get s.pend pend
  let first := s.pend.all (fun q => p.v < q.2.v || (p.v = q.2.v && pend ≤ q.1) ||
    q.2.cells.all (fun c => (lastCell p.cells c.1).isNone))
  .next (if p.live && p.v + (if p.grps = [] then 0 else 2) ≤ s.tick && first then
    ({ s with
      pend := FMap.del s.pend pend, mem := FMap.setMany s.mem p.cells, poison := clearPoison s.poison p.cells }).signalIrq p.irq
  else s)

/-- A copy's lease has run out (R112). -/
def execLeaseExpiry (core sector : Nat) (s : State) : Host.Outcome State Fault Refusal :=
  .next (if FMap.get s.leases (leaseKey core sector) ≤ s.tick then
    { s with leases := FMap.del s.leases (leaseKey core sector) } else s)

/-! ### Phases and acknowledgements (R138, R143) -/

/-- Whether every store of a die tagged p or lower has its V at its home (R138). -/
def State.phaseDone (s : State) (src home p : Nat) : Bool :=
  s.acc.all (fun a => !(a.2.kind ∈ [AccKind.store, .atomic, .posted] && a.2.place = .hbm && a.2.srcDie = src &&
    a.2.homeDie = home && a.2.seq ≠ 0 && phaseLe a.2.phase p)) &&
  s.pend.all (fun q => !(q.2.srcDie = src && q.2.homeDie = home && phaseLe q.2.phase p && s.tick < q.2.v))

/-- A completed-phase counter advances: the WAITs that watch it read it again within 256 ticks (R49). -/
def State.notePhaseWaits (s : State) (home src : Nat) : State :=
  { s with groups := s.groups.map (fun (p : Nat × Group) =>
      if p.2.wait.live && p.2.wait.conds.any (fun c => c.take 1 = [6] && (c.drop 2).take 2 = [home, src]) then
        (p.1, { p.2 with wait := { p.2.wait with due := min p.2.wait.due (s.tick + 256) } })
      else p) }

/-- A close marker has arrived and its stores are visible: the completed-phase counter takes its number (R138). -/
def execPhaseMarkerArrival (home src : Nat) (s : State) : Host.Outcome State Fault Refusal :=
  let d := s.die home
  .next (match d.markers.find? (fun m => m.1 = src) with
    | none => s
    | some m =>
      if s.phaseDone src home m.2.toNat then
        (s.setDie home { d with cph := FMap.set d.cph src m.2, markers := d.markers.erase m }).notePhaseWaits home src
      else s)

/-- Another package acknowledges a store or atomic: it has performed there (R143). -/
def execOrairAcknowledgement (acc : Nat) (s : State) : Host.Outcome State Fault Refusal :=
  let a := s.accOf acc
  .next (if a.live && a.acked && s.mig.forwarded.all (fun f => f.tok ≠ acc) then
    if a.kind = .store then ((s.delAcc acc).noteArrival acc 0).signalIrq a.irq
    else
      (s.giveAtom acc a (leNat ((List.range a.size).map (fun i => Config.remoteByte s.freeCtr (a.addr + i))))).noteArrival acc 0
  else s)

/-! ### Walks (R366, R369) -/

/-- The state a walk would see once every narrow hold were published. -/
def State.ifPublished (s : State) : State :=
  { s with sb := [], mem := s.sb.foldl (fun m p => if p.2.hold ≠ 0 && p.2.target = 0 then FMap.setMany m p.2.cells else m) s.mem
           pend := s.pend.map (fun p => (p.1, { p.2 with v := if p.2.forced then 0 else p.2.v })) }

/-- A walk that would read a held line makes its holder publish and waits (R134, R366). -/
def State.walkHeld (s : State) (fn part va : Nat) (write : Bool) : Bool :=
  (s.sb.any (fun p => p.2.hold ≠ 0) || s.acc.any (fun p => p.2.forced) || s.pend.any (fun p => p.2.forced && s.tick < p.2.v)) &&
  s.walk fn part va write ≠ s.ifPublished.walk fn part va write

/-- A walk on the die of a core: the caches take what it read and found (R366, R369). -/
def State.walkFor (s : State) (core fn part page : Nat) (write : Bool) : Except TrErr Xlat × State :=
  let die := coreDie core
  let (r, l) := s.walkOn die fn part (page * 65536) write
  let s := s.walkFill die l
  (r, match r with
    | .ok x => s.tlbFill core fn page x
    | .error _ => s)

/-- One walk for a held word: the group notes what it found. -/
def State.walkPage (s : State) (g : Nat) (p : Nat × Bool) : State :=
  let (r, s) := s.walkFor (s.coreOf g) (s.grp g).vf (s.partOf g) p.1 p.2
  let n : WalkNote := match r with
    | .ok _ => ⟨p.1, p.2, 0, 0, 0, false, false⟩
    | .error e => ⟨p.1, p.2, e.cls, e.level, e.gpa, e.stage2, e.final⟩
  s.modGrp g (fun gr => { gr with walked := gr.walked.filter (fun m => !(m.page = p.1 && m.write = p.2)) ++ [n] })

/-- The page a walk needs first that has not arrived (R428). -/
def State.walkAbsent (s : State) (fn part va : Nat) (write : Bool) : Option Nat :=
  match s.walk fn part va write with
  | .error e => if e.cls = 0 then some e.gpa else none
  | .ok _ => none

/-- The walks a held word waits for have run (R366, R369). (DEDUCED, log 47.) -/
def execWalkCompletion (grp : Nat) (s : State) : Host.Outcome State Fault Refusal :=
  let gr := s.grp grp
  .next (if gr.heldWalk.any (fun p => s.walkHeld gr.vf (s.partOf grp) (p.1 * 65536) p.2) then
    s.sb.foldl (fun s p => if p.2.hold ≠ 0 then s.forceTeam p.2.team else s) s
  else
    match gr.heldWalk.findSome? (fun p => s.walkAbsent gr.vf (s.partOf grp) (p.1 * 65536) p.2) with
    | some page => s.askPull page
    | none => (gr.heldWalk.foldl (fun s p => s.walkPage grp p) s).modGrp grp (fun gr => { gr with heldWalk := [] }))

/-! ### ATS and PRI (R375 to R378) -/

/-- The I/O pages an answer covers: up to 2 MiB (R375). -/
def atsCovers (ans : AtsAnswer) (page : Nat) : Bool := ans.page ≤ page && page < ans.page + 2 ^ min ans.log2 9

/-- The entries an answer puts into an ATC of 4,096 entries (R369, R377), and, for the hub's, what it refuses. -/
def DieRec.atsTake (d : DieRec) (ans : AtsAnswer) (victim : Nat) (hub : Bool) : DieRec :=
  (List.range (2 ^ min ans.log2 9)).foldl (fun d i =>
    let key := ans.fn * 2 ^ 52 + ans.page + i
    let no := (if ans.r then 0 else 1) + (if ans.w then 0 else 2)
    { d with
      atc := if ans.r || ans.w then FMap.capSet d.atc 4096 victim key { live := true, hpa := ans.hpa + i, r := ans.r, w := ans.w } else d.atc
      atcNo := if hub then FMap.set d.atcNo key no else d.atcNo }) d

/-- A Translation Completion (R377): it fills the die's ATC, and the words that asked for its pages go on; where it does not
permit their access, with the page noted as refused (R378). -/
def execAtsCompletion (ans : AtsAnswer) (s : State) : Host.Outcome State Fault Refusal :=
  let s := s.modDie ans.die (fun d => d.atsTake ans s.victim (ans.die = hubDie))
  let refuse (q : Nat × Op) : Nat × Op :=
    let asked := FMap.get q.2.res 60
    if asked ≠ 0 && atsCovers ans (asked - 1) && (s.grp q.2.grp).vf = ans.fn && coreDie q.2.core = ans.die then
      (q.1, { q.2 with res := FMap.set (FMap.set q.2.res 60 0) 61 (if ans.r && ans.w then 0 else asked) })
    else q
  .next ({ s with ops := s.ops.map refuse, groups := s.groups.map (fun (p : Nat × Group) =>
    let mine : Bool := p.2.vf = ans.fn && coreDie (s.coreOf p.1) = ans.die
    let no := p.2.heldAts.filter (fun q => mine && atsCovers ans q.1 && !(if q.2 then ans.w else ans.r))
    (p.1, { p.2 with
      heldAts := p.2.heldAts.filter (fun q => !(mine && atsCovers ans q.1)), refused := p.2.refused ++ no.map (·.1) })) })

/-- The accesses on their way that used ATC entries of a range of I/O pages at a die. -/
def State.atcUsers (s : State) (die lo n : Nat) : List Nat :=
  let hit (io : Nat) : Bool := lo < io && io ≤ lo + n
  (s.sb.filter (fun p => hit p.2.io && coreDie p.2.core = die)).map (·.1) ++
  (s.acc.filter (fun p => hit p.2.io && p.2.srcDie = die)).map (·.1)

/-- An ATS Invalidate Request removes the matching entries of every die's ATC; each die's Invalidation Completion waits for the
accesses that used them (R377). -/
def execAtsInvalidateRequest (fn page count : Nat) (s : State) : Host.Outcome State Fault Refusal :=
  let lo := fn * 2 ^ 52 + page
  .next ((List.range 4).foldl (fun s d =>
    let hit (k : Nat) : Bool := lo ≤ k && k < lo + count
    let s := s.modDie d (fun r => { r with
      atc := r.atc.filter (fun p => !hit p.1), atcNo := r.atcNo.filter (fun p => !hit p.1) })
    let (id, s) := s.fresh
    s.setOp id { (default : Op) with live := true, kind := .tlbinv, ctr := 6, arg := [2, d], waitOn := s.atcUsers d lo count }) s)

/-- A Page Request Group Response takes effect (R378): Success replays the word; a failure turns the park into a fault park of
class 15. -/
def State.priApply (s : State) (grp : Nat) (success : Bool) : State :=
  let gr := s.grp grp
  if success then s.setGrp grp { gr with park := .running, parkArg := 0, flt := default }
  else
    let f := gr.flt
    s.faultPark grp { plainFault 15 with lanes := f.lanes, addr := f.addr, write := f.write, partly := f.lanes ≠ 0 }
      f.off f.planes false false false

/-- A Page Request Group Response (R378): the requests it answers are over; for a halted group it is kept, as one more than the
answer, until the group resumes; a later one is discarded. -/
def execPriResponse (grp : Nat) (success : Bool) (s : State) : Host.Outcome State Fault Refusal :=
  let gr := s.grp grp
  let s := { s with pri := s.pri.filter (fun p => p.grp ≠ grp) }
  .next (if gr.park ≠ .page || gr.parkArg ≠ 0 then s
    else if (s.teamOf grp).halt = .running || (s.teamOf grp).halt = .halting then s.priApply grp success
    else s.setGrp grp { gr with parkArg := if success then 2 else 1 })

/-- The responses kept for the groups of a team that resumes take effect (R378). -/
def State.priKept (s : State) (t : Nat) : State :=
  (s.team t).groups.foldl (fun s g =>
    let gr := s.grp g
    if gr.park = .page && gr.parkArg ≠ 0 then s.priApply g (gr.parkArg = 2) else s) s

/-! ### Completion of variable-latency operations (R66, R185) -/

/-- Whether an earlier operation of the group on the same team's scratch touches a common byte (R125). -/
def State.scrMustWait (s : State) (id : Nat) (o : Op) : Bool :=
  s.ops.any (fun p => p.1 < id && p.2.live && p.2.grp = o.grp && p.2.kind = .scratch && (p.2.stage = 1 || p.2.stage = 2) &&
    p.2.arg.head? = o.arg.head? && (lanesOf o.lanes).any (fun l => (lanesOf p.2.lanes).any (fun m =>
      let a := (o.arg[l + 1]?).getD 0
      let b := (p.2.arg[m + 1]?).getD 0
      a < b + p.2.width && b < a + o.width)))

/-- An access to another team's scratch performs (R123, R273). -/
def State.scrPerform (s : State) (id : Nat) : State :=
  let o := s.op id
  let t := (o.arg.head?).getD 0
  let off (l : Nat) : Nat := (o.arg[l + 1]?).getD 0
  if o.stage = 1 then
    let bad := (lanesOf o.lanes).filter (fun l => (s.team t).poisoned (off l) o.width)
    let res := FMap.setMany o.res ((lanesOf o.lanes).map (fun l => (l, s.scrNat o.grp t (off l) o.width)))
    s.setOp id (bad.foldl Op.spoil { o with stage := 3, res })
  else
    let (order, s) := s.laneOrder (lanesOf o.lanes) off
    (order.foldl (fun s l => s.scrStore t (cellsOf (off l) o.width (FMap.get o.res l))) s).setOp id { o with stage := 3 }

/-- Whether an operation's results are complete: no access to come, no lane left to a replay, its stores published at dev
scope (R66, R131, R272). -/
def State.opReady (s : State) (o : Op) : Bool :=
  o.live && o.waitOn = [] && !o.flag && o.stage ≠ 7 && (o.kind ≠ .store || o.ptr = 0 || o.ptr + 2 ≤ s.tick)

end Sys2Proof.Machine
end

