-- ==== Sys2Proof/Machine/Fence.lean ====
section
/-!
DEFINITION. Fences and releases (R129 to R145, R282, R283): what a fence covers, narrow holds, publication, phases, scope
clamps, and its completion.
-/
namespace Sys2Proof.Machine
open Sys2Proof

/-! ### Holds (R132, R133) -/

/-- The team's entries a test selects are held at a level; those already held at team scope may widen (R132,
R133). (DEDUCED, log 44.) -/
def State.holdEntries (s : State) (t level : Nat) (sel : SbEntry → Bool) : State :=
  { s with sb := s.sb.map (fun (p : Nat × SbEntry) =>
      if p.2.team = t && p.2.hold < level && sel p.2 then (p.1, { p.2 with hold := level }) else p) }

/-- A team- or cluster-scope release: entries held, the team's release number moves on (R132, R133, R135). -/
def State.narrowRelease (s : State) (t level : Nat) (sel : SbEntry → Bool) : State :=
  (s.holdEntries t level sel).modTeam t (fun tm => { tm with release := tm.release + 1 })

/-- The L1 copies of lines in the cores of a team's cluster are invalidated (R133). -/
def State.dropCopies (s : State) (t : Nat) (lines : List Nat) : State :=
  let cores := (s.cluster (s.team t).cluster).cores
  { s with leases := s.leases.filter (fun p => !(p.1 / 2 ^ 32 ∈ cores && (p.1 % 2 ^ 32) / 4 ∈ lines)) }

/-! ### Phases (R138, R139) -/

/-- Whether a scope of a group's device takes in another die (R139). -/
def State.crossesDies (s : State) (g scope : Nat) : Bool :=
  3 ≤ scope || (scope = 2 && (s.part (s.partOf g)).pair)

/-- The dies a closing phase must reach. -/
def State.phaseHomes (s : State) (g scope : Nat) : List Nat :=
  let d := coreDie (s.coreOf g)
  if 3 ≤ scope then (List.range 4).filter (· ≠ d) else if s.crossesDies g scope then [pairDie d] else []

/-- A release at dev scope or wider publishes a team's entries (R131, R136, R139): it answers the phase it closes over them, where
its scope takes in another die. -/
def State.releaseTeam (s : State) (t die : Nat) (crosses : Bool) : Option (BitVec 32) × State :=
  if crosses then
    let rels := s.heldAway t (fun _ => true)
    let (p, s) := (s.sendEntries t (fun _ => true) false).closePhase die
    (some p, s.notePhase t rels p)
  else (none, s.publishTeam t)

/-! ### What a fence covers (R130, R131, R142, R143) -/

/-- The classes in a fence's pred: ld, st, at, en. -/
structure Classes where
  ld : Bool
  st : Bool
  at_ : Bool
  en : Bool
  deriving DecidableEq, Repr

def classesOf (b : BitVec 4) : Classes := { ld := b.getLsbD 0, st := b.getLsbD 1, at_ := b.getLsbD 2, en := b.getLsbD 3 }

/-- Operations of the group whose end the fence awaits. (DEDUCED, log 45.) -/
def State.fenceOps (s : State) (g : Nat) (c : Classes) : List Nat :=
  let loads : List OpKind := [.load, .sload, .paramLoad]
  (s.ops.filter (fun p => p.2.grp = g && p.2.live &&
    ((c.ld && (p.2.kind ∈ loads || (p.2.kind = .scratch && p.2.stage ≠ 2))) ||
     (c.st && p.2.kind = .scratch && p.2.stage = 2) ||
     (c.at_ && p.2.kind = .atom) ||
     (c.en && p.2.kind ∈ [OpKind.copy, .sdot])))).map (·.1)

/-- Whether a store by some groups of a team lies under the fence of a group. -/
def coversStore (g t : Nat) (c : Classes) (grps : List Nat) (team : Nat) : Bool :=
  ((c.st || c.at_) && g ∈ grps) || (c.ld && team = t)

/-- Whether a fence awaits the group's atomics: at any scope to perform, with their writes, where at lies in pred;
above team scope as own stores where st does (R131, R142). -/
def Classes.atoms (c : Classes) (scope : Nat) : Bool := c.at_ || (c.st && 1 ≤ scope)

/-- Whether a fence awaits a store by some groups of a team to a place: covered ones at dev scope and wider, and at
sys scope every one of the team to the host or another package (R131, R143). -/
def awaitsStore (g t scope : Nat) (c : Classes) (away : Bool) (grps : List Nat) (team : Nat) : Bool :=
  2 ≤ scope && ((!away && coversStore g t c grps team) || (scope = 4 && away && team = t))

/-- The entries and accesses whose arrival the fence awaits (R131, R142, R143). -/
def State.fenceStores (s : State) (g scope : Nat) (c : Classes) : List Nat :=
  let t := (s.grp g).team
  let fwd := if c.ld && 2 ≤ scope then (s.grp g).fwd else []
  (s.sb.filter (fun p => awaitsStore g t scope c (p.2.target ≠ 0) p.2.grps p.2.team || p.1 ∈ fwd)).map (·.1) ++
  (s.acc.filter (fun p =>
    (p.2.kind = .store && p.2.team ≠ 0 && (awaitsStore g t scope c (p.2.place ≠ .hbm) p.2.members p.2.team || p.1 ∈ fwd)) ||
    (p.2.kind ∈ [AccKind.atomic, .posted] &&
      ((c.atoms scope && p.2.grp = g) || (scope = 4 && p.2.place ≠ .hbm && p.2.team = t))))).map (·.1)

/-- The latest V of the covered stores and atomic writes that have arrived. (DEDUCED, log 46.) -/
def State.fenceV (s : State) (g scope : Nat) (c : Classes) : Nat :=
  let t := (s.grp g).team
  s.pend.foldl (fun v p =>
    let own : Bool := if p.2.atomic then c.atoms scope && g ∈ p.2.grps
      else 2 ≤ scope && (coversStore g t c p.2.grps p.2.team || (c.ld && p.2.src ∈ (s.grp g).fwd))
    if p.2.grps ≠ [] && own then max v p.2.v else v) 0

/-! ### FENCE (R130, R145, R282) -/

/-- The scope a fence executes at, with the demotion counted (R145). -/
def State.clampScope (s : State) (g scope : Nat) : Nat × State :=
  let most := (s.part (s.partOf g)).maxScope + 1
  if scope ≤ most then (scope, s)
  else (most, s.modFn (s.grp g).vf (fun r => { r with demote := min (r.demote + 1) (2 ^ 32 - 1) }))

/-- The holders of the stores that a group has read by holder forwarding publish them (R131). -/
def State.forceForwarded (s : State) (g : Nat) : State :=
  let others := (s.sb.filter (fun p => p.1 ∈ (s.grp g).fwd)).map (fun p => p.2.team)
  ((sortOnce others).foldl (fun s t => s.forceTeam t) s).modGrp g (fun gr => { gr with fwd := [] })

/-- The fence takes effect and parks its group; it answers the phase closed, if it closed one. A form ld.ld waits for its loads
only; at cluster scope it is a release all the same (R130, R133, R135). -/
def State.startFence (s : State) (o : FenceOp) (waitPhase : Bool) : Option (BitVec 32) × State :=
  let g := s.cur
  let t := (s.grp g).team
  let (scope, s) := s.clampScope g o.scope.toNat
  let c := classesOf o.pred
  let after := classesOf o.succ
  let ldld : Bool := o.pred = 1 && o.succ = 1
  let base : FenceRec := { (default : FenceRec) with
    live := true, scope, loads := s.fenceOps g c, own := !c.ld, succ := after.st || after.at_
    stores := if ldld then [] else s.fenceStores g scope c, vmax := if ldld then 0 else s.fenceV g scope c }
  let park (s : State) (f : FenceRec) : State := (s.parkAfter .fence 0).modGrp g (fun gr => { gr with fence := f })
  if scope = 0 then (none, park (if c.st || c.at_ then s.narrowRelease t 1 (fun _ => true) else s) base)
  else if scope = 1 then
    (none, if c.ld || c.st || c.at_ then
      park (s.narrowRelease t 2 (fun e => c.ld || g ∈ e.grps)) { base with rel := (s.team t).release + 2 }
    else park s base)
  else if ldld then (none, park s base)
  else
    let s := if c.ld then s.forceForwarded g else s
    let die := coreDie (s.coreOf g)
    let releases : Bool := c.ld || c.st || c.at_ || scope = 4
    let (p, s) := if releases then s.releaseTeam t die (s.crossesDies g scope)
      else if s.crossesDies g scope then
        let (p, s) := s.closePhase die
        (some p, s)
      else (none, s)
    (p, park s { base with
      phases := match p with
        | some p => if waitPhase then (s.phaseHomes g scope).map (fun h => (h, p.toNat)) else []
        | none => [] })

def execFence (o : FenceOp) (s : State) : Host.Outcome State Fault Refusal :=
  .next (s.noRegion (fun s => (s.startFence o true).2))

/-- The phase form (R140, R283): sD receives the phase closed as the device counts it (R427), 0 for none; the
fence does not wait for it. -/
def execFencePhase (o : FenceOp) (d : SReg) (s : State) : Host.Outcome State Fault Refusal :=
  .next (s.noRegion (fun s =>
    let (p, s) := s.startFence o false
    let off := FMap.get (s.fn (s.grp s.cur).vf).phOff (coreDie (s.coreOf s.cur))
    s.writeS s.cur d.toNat (match p with
      | some n => n + off
      | none => 0)))

/-! ### Completion (R124, R130, R131, R133, R139) -/

/-- Whether a fence reaches t_F. -/
def State.fenceDone (s : State) (g : Nat) : Bool :=
  let f := (s.grp g).fence
  let d := coreDie (s.coreOf g)
  f.loads.all (fun o => !(s.op o).live) && f.stores = [] && (f.vmax = 0 || f.vmax + 2 ≤ s.tick) &&
  f.phases.all (fun p => phaseLe p.2 (FMap.get (s.die p.1).cph d).toNat)

/-- A cluster-scope release completes: the stores it covers are visible to the cluster from now on, wherever they are, and the
cluster's L1 copies of their lines are gone (R124, R133). -/
def State.clusterShow (s : State) (g t : Nat) (f : FenceRec) : State :=
  let covers (team rel : Nat) (grps : List Nat) : Bool := team = t && rel ≠ 0 && rel < f.rel && (!f.own || g ∈ grps)
  let lines := (s.sb.filter (fun p => covers p.2.team p.2.release p.2.grps)).map (fun p => p.2.line) ++
    (s.acc.filter (fun p => p.2.kind = .store && covers p.2.team p.2.rel p.2.members)).flatMap (fun p => linesOf p.2.data) ++
    (s.pend.filter (fun p => !p.2.atomic && covers p.2.team p.2.rel p.2.grps)).flatMap (fun p => linesOf p.2.cells)
  { s with
    sb := s.sb.map (fun (p : Nat × SbEntry) => if covers p.2.team p.2.release p.2.grps then (p.1, { p.2 with vis := true }) else p)
    acc := s.acc.map (fun (p : Nat × Access) =>
      if p.2.kind = AccKind.store && covers p.2.team p.2.rel p.2.members then (p.1, { p.2 with clusterVis := true }) else p)
    pend := s.pend.map (fun (p : Nat × Pend) =>
      if !p.2.atomic && covers p.2.team p.2.rel p.2.grps then (p.1, { p.2 with clusterVis := true }) else p) }.dropCopies t lines

/-- The fence of a group reaches t_F: the group goes on, and its stores of succ become visible later than t_F (R130). -/
def State.endFence (s : State) (g : Nat) : State :=
  let gr := s.grp g
  let s := if gr.fence.rel ≠ 0 then s.clusterShow g gr.team gr.fence else s
  s.setGrp g { gr with
    park := .running, fence := default, after := if gr.fence.succ then max gr.after (s.tick + 1) else gr.after }

def execFenceCompletion (grp : Nat) (s : State) : Host.Outcome State Fault Refusal :=
  .next (if (s.grp grp).park = .fence && s.fenceDone grp then s.endFence grp else s)

end Sys2Proof.Machine
end

