-- ==== Sys2Proof/Machine/Wait.lean ====
section
/-!
DEFINITION. WAIT (R48 to R50, R227 to R229) and SPAWN (R53, R54, R234).
-/
namespace Sys2Proof.Machine
open Sys2Proof

/-! ### Conditions (R48, R228) -/

/-- A condition as read at issue: kind, relation, ARG1, ARG2, address, mask, value. -/
structure WaitCond where
  kind : Nat
  rel : Nat
  arg1 : Nat
  arg2 : Nat
  addr : Nat
  mask : Nat
  value : Nat
  deriving DecidableEq, Repr

def WaitCond.toList (c : WaitCond) : List Nat := [c.kind, c.rel, c.arg1, c.arg2, c.addr, c.mask, c.value]
def condOf (l : List Nat) : WaitCond :=
  let f (i : Nat) : Nat := (l[i]?).getD 0
  ⟨f 0, f 1, f 2, f 3, f 4, f 5, f 6⟩

/-- Condition j of the block at a scalar (R228). -/
def State.readCond (s : State) (b : Nat) : WaitCond :=
  let r (i : Nat) : Nat := (s.rdS s.cur (b + i)).toNat
  let k := bitsOf (r 0) 3 0
  let wide (i : Nat) : Nat := if k = 1 then r i + 2 ^ 32 * r (i + 1) else r i
  { kind := k, rel := bitsOf (r 0) 5 4, arg1 := bitsOf (r 0) 15 8, arg2 := bitsOf (r 0) 23 16
    addr := r 2 + 2 ^ 32 * r 3, mask := wide 4, value := wide 6 }

/-- Whether a control word and its condition are legal for a WAIT on a counter (R48, R228). -/
def State.condOk (s : State) (b c : Nat) : Bool :=
  let w := (s.rdS s.cur b).toNat
  let k := s.readCond b
  let tile (n : Nat) : Bool := n < 64 && (FMap.get (s.team (s.grp s.cur).team).tiles n).defd
  bitsOf w 31 24 = 0 && bitsOf w 7 6 = 0 &&
  (match k.kind with
   | 0 | 1 => k.rel ≠ 3 && k.arg1 = 0 && k.arg2 = 0
   | 2 => k.rel = 0 && k.arg2 = 0 && k.arg1 < 6 && k.arg1 ≠ c
   | 3 => k.rel = 0 && k.arg2 < 2 && tile k.arg1
   | 4 => k.rel = 0 && k.arg2 = 0 && tile k.arg1
   | 5 => k.rel = 0 && k.arg2 = 0 && k.arg1 < 16
   | 6 => k.rel = 0 && k.arg1 < 4 && k.arg2 < 4 && k.arg1 ≠ k.arg2
   | _ => false)

def WaitCond.isMem (c : WaitCond) : Bool := c.kind < 2
def WaitCond.size (c : WaitCond) : Nat := if c.kind = 1 then 8 else 4

/-- The address check of the memory conditions: canonical form before alignment (R105). -/
def condAddr (l : List WaitCond) : Option (Nat × Nat) :=
  let m := l.filter (·.isMem)
  match m.find? (fun c => 2 ^ 57 ≤ c.addr) with
  | some c => some (12, c.addr)
  | none => (m.find? (fun c => c.addr % c.size ≠ 0)).map (fun c => (3, c.addr))

/-! ### Evaluation (R49) -/

/-- What one condition comes to: a truth value, a fault or page request, or a read that must wait. -/
inductive CondRes where
  | val (b : Bool)
  | bad (r : Reach)
  | wait
  deriving DecidableEq, Repr

/-- The access of a monitor's read of n bytes. -/
def State.monitorAccess (s : State) (g n : Nat) (t : Target) : Access :=
  let core := s.coreOf g
  let (place, addr, x) : Place × Nat × Xlat := match t with
    | .hbm spa x => (.hbm, spa, x)
    | .host h x => (.host, h, x)
    | .remote h off => (.remote, h * 2 ^ 40 + off, default)
  { (default : Access) with
    kind := .load, place, grp := g, team := (s.grp g).team, core, addr, size := n, srcDie := coreDie core, homeDie := spaDie addr
    dev := s.devOf g x }

/-- A monitor's read of a word at device scope (R49): nothing while a hold is being forced (R134), or an own access to
the word must come first (R125). -/
def State.monitorRead (s : State) (g : Nat) (t : Target) (n : Nat) : Option Nat × State :=
  let a := s.monitorAccess g n t
  if s.mustWait s.nextId a then (none, s)
  else
    match a.place with
    | .host => (some (s.overlaid a (s.hostBytes a.addr n)), s)
    | .remote =>
      let (l, s) := s.remoteRead a.addr n
      (l.map (s.overlaid a), s)
    | .hbm =>
      let (ok, s) := s.forceLine (lineOf a.addr) (s.observer g) false
      if !ok then (none, s)
      else
        let s := (s.cacheLoad a n false).noteForward g a.addr n
        (some (leNat (s.loadBytes (s.observer g) a.addr n)), s)

/-- The relation of a memory condition (R48). -/
def WaitCond.holds (c : WaitCond) (v : Nat) : Bool :=
  let x := andN v c.mask
  match c.rel with
  | 0 => x = c.value
  | 1 => x ≠ c.value
  | _ => c.value ≤ x

/-- One condition of a group through a translation. -/
def State.evalCond (s : State) (g : Nat) (reach : Nat → Reach) (c : WaitCond) : CondRes × State :=
  let gr := s.grp g
  let tm := s.team gr.team
  match c.kind with
  | 0 | 1 =>
    match s.orPoison c.size c.addr (s.orPull (reach c.addr)) with
    | .at t =>
      match s.monitorRead g t c.size with
      | (none, s) => (.wait, s)
      | (some v, s) => (.val (c.holds v), s)
    | .walk _ | .ats _ | .pull _ => (.wait, s)
    | r => (.bad r, s)
  | 2 => (.val (FMap.get gr.ctrs c.arg1 = 0), s)
  | 3 => (.val ((FMap.get tm.tiles c.arg1).owner = (c.arg2 = 1)), s)
  | 4 => (.val (c.value ≤ (FMap.get tm.tiles c.arg1).wptr), s)
  | 5 => (.val ((FMap.get tm.barriers c.arg1).phase ≠ c.value % 65536), s)
  | _ => (.val (phaseLe c.value (FMap.get (s.die c.arg1).cph c.arg2 + FMap.get (s.fn gr.vf).phOff c.arg2).toNat), s)

/-- All conditions in order. -/
def State.evalAll (s : State) (g : Nat) (reach : Nat → Reach) (l : List WaitCond) : List CondRes × State :=
  l.foldl (fun acc c =>
    let (r, s) := acc.2.evalCond g reach c
    (acc.1 ++ [r], s)) ([], s)

/-- The outcome of an evaluation: a fault, a wait, unsatisfied, or satisfied with its index (R49). -/
inductive Evaluated where
  | bad (addr : Nat) (r : Reach)
  | wait
  | no
  | yes (idx : Nat)

/-- The lowest index of a list that a test selects. -/
def firstIdx {α : Type} (p : α → Bool) : List α → Nat → Option Nat
  | [], _ => none
  | a :: t, k => if p a then some k else firstIdx p t (k + 1)

def outcome (all : Bool) (conds : List WaitCond) (rs : List CondRes) : Evaluated :=
  let isBad (r : CondRes) : Bool := match r with
    | .bad _ => true
    | _ => false
  match (conds.zip rs).find? (fun p => isBad p.2) with
  | some (c, .bad r) => .bad c.addr r
  | _ =>
    if rs.any (· = .wait) then .wait
    else if all then (if rs.all (· = .val true) then .yes 0 else .no)
    else
      match firstIdx (· = .val true) rs 0 with
      | some k => .yes k
      | none => .no

/-! ### WAIT (R49, R50, R229) -/

/-- The WAIT ends: qd and sd are written and the counter falls (R50). -/
def State.endWait (s : State) (g id : Nat) (w : WaitRec) (q : Bool) (idx : Nat) : State :=
  (s.endOp id).modGrp g (fun gr => { ((gr.putQ w.qd q).putS w.sd (BitVec.ofNat 32 idx)) with wait := default })

/-- The operation of a group's outstanding WAIT. -/
def State.waitOp (s : State) (g : Nat) : Nat :=
  ((s.ops.find? (fun p => p.2.live && p.2.grp = g && p.2.kind = .wait)).map (·.1)).getD 0

/-- The pages the first evaluation must have translated. -/
def State.waitGather (s : State) (conds : List WaitCond) : Gathered :=
  let mem := conds.filter (·.isMem)
  gather (List.range mem.length) false (fun i => match mem[i]? with
    | some c => s.reachVa s.cur c.addr false
    | none => .page 0)

/-- A page that no TLB holds is walked on a group's die (R369). -/
def State.fillWalk (s : State) (g va : Nat) (write : Bool) : State :=
  let gr := s.grp g
  let core := s.coreOf g
  if inWindow va || 2 ^ 57 ≤ va || (s.tlbGet core gr.vf (va / 65536)).live then s
  else (s.walkFor core gr.vf (s.partOf g) (va / 65536) write).2

/-- The pages of a WAIT's memory words are walked. -/
def State.walkWords (s : State) (g : Nat) (conds : List WaitCond) : State :=
  conds.foldl (fun s c => if c.isMem then s.fillWalk g c.addr false else s) s

/-- The translation a later evaluation uses: a cached one or a fresh walk (R370). -/
def State.reachNow (s : State) (g va : Nat) (write : Bool) : Reach :=
  if inWindow va then s.reachWindow (s.partOf g) va write
  else
    let gr := s.grp g
    let x := s.tlbGet (s.coreOf g) gr.vf (va / 65536)
    let y := s.walk gr.vf (s.partOf g) va write
    if x.live && (if write then x.w else x.r) && y.toOption ≠ some x && Config.choose s.freeCtr % 2 = 0 then
      s.placeOf (s.coreOf g) gr.vf va write x gr.refused
    else
      match y with
      | .ok y => s.placeOf (s.coreOf g) gr.vf va write y gr.refused
      | .error e => if e.cls = 0 then .pull e.gpa else .fault e.cls e.level va e.gpa e.stage2

/-- The lines a WAIT's monitor watches (R49). -/
def State.watchedLines (s : State) (g : Nat) (conds : List WaitCond) : List Nat :=
  (conds.filter (·.isMem)).filterMap (fun c => match s.reachNow g c.addr false with
    | .at (.hbm spa _) => some (watchKey .hbm (lineOf spa))
    | .at (.host h _) => some (watchKey .host (lineOf h))
    | _ => none)

/-- A WAIT goes on waiting after an evaluation: its monitor watches its lines and reads again in time (R49). -/
def State.watch (s : State) (g : Nat) : State :=
  let lines := s.watchedLines g ((s.grp g).wait.conds.map condOf)
  s.modGrp g (fun gr => { gr with wait := { gr.wait with lines, due := s.readDue lines, again := false } })

/-- WAIT (R49, R227, R229). Where one condition is ILLEGAL and another misaligned, ILLEGAL comes first. (DESIGN
CHOICE, log 153.) -/
def execWait (all : Bool) (n : BitVec 2) (qd : QReg) (sd sa sb : SReg) (c : CReg) (s : State) : Host.Outcome State Fault Refusal :=
  let blocks := (List.range (n.toNat + 1)).map (fun j => sa.toNat + 8 * j)
  .next (s.noRegion (fun s =>
    let conds := blocks.map s.readCond
    if blocks.any (fun b => !s.condOk b c.val) then s.raise (plainFault 4) s.active
    else
      match condAddr conds with
      | some (cls, a) => s.raise { plainFault cls with addr := BitVec.ofNat 64 a } s.active
      | none =>
        if s.ctrFull s.cur c.val then s.raise (plainFault 11) s.active
        else
          let gt := s.waitGather conds
          if gt.waits then s.holdWord gt
          else
            let (rs, s) := s.evalAll s.cur (fun va => s.reachVa s.cur va false) conds
            let t := (s.rdS s.cur sb.toNat).toNat
            let w : WaitRec := {
              live := true, all, qd := qd.toNat, sd := sd.toNat, ctr := c.val, deadline := s.tick + t, forever := t = 2 ^ 32 - 1
              conds := conds.map (·.toList), due := 0, lines := [], again := false, off := s.iss.off }
            match outcome all conds rs with
            | .bad a r => s.settle [(0, r)] 0 (fun _ => a) false false 0 s.active
            | .wait => s.holdAgain
            | o =>
              let s := s.modGrp s.cur Group.settled
              let (id, s) := s.issueOp (s.baseOp .wait c.val) [qPlace qd.toNat, sPlace sd.toNat]
              match o with
              | .yes k => s.endWait s.cur id w true k
              | _ =>
                if t = 0 then s.endWait s.cur id w false 7
                else ((s.parkAfter .wait 0).modGrp s.cur (fun gr => { gr with wait := w })).watch s.cur))

/-- A later evaluation meets a fault: the group parks at the WAIT, whose operation ends, and replay issues it anew (R229). -/
def State.waitFault (s : State) (g a : Nat) (r : Reach) : State :=
  let w := (s.grp g).wait
  let s := (s.endOp (s.waitOp g)).modGrp g (fun gr => { gr.rewindOne with wait := default })
  match r with
  | .fault cls level addr gpa stage2 =>
    s.faultPark g { cls, lanes := 0, addr := BitVec.ofNat 64 addr, write := false, level, gpa, stage2, partly := false }
      w.off 1 false false false
  | r =>
    let ask := match r with
      | .page io => [({ grp := g, fn := (s.grp g).vf, page := io, write := false } : PageReq)]
      | _ => []
    { s with pri := s.pri ++ ask }.modGrp g (fun gr => { gr with
      park := .page, parkArg := 0, replay := 0
      flt := { (default : FaultRec) with cls := 15, planes := 1, level := 0xff, off := w.off, addr := BitVec.ofNat 64 a } })

/-- An evaluation of a parked WAIT: it completes, faults, asks for an ATS answer, or goes on waiting. -/
def State.reevaluate (s : State) (g : Nat) : State :=
  let w := (s.grp g).wait
  let conds := w.conds.map condOf
  let s := s.walkWords g conds
  let (rs, s) := s.evalAll g (fun va => s.reachNow g va false) conds
  let asks := conds.filterMap (fun c => if !c.isMem then none else
    match s.reachNow g c.addr false with
    | .ats p => some (p, false)
    | _ => none)
  match outcome w.all conds rs with
  | .bad a r => s.waitFault g a r
  | .wait => s.modGrp g (fun gr => { gr with heldAts := asks })
  | .no => s.watch g
  | .yes k => (s.endWait g (s.waitOp g) w true k).modGrp g (fun gr => { gr with park := .running })

/-- Whether a group waits at a WAIT on a core: a halt that has stopped its team suspends it (R50). -/
def State.atWait (s : State) (g : Nat) : Bool :=
  (s.grp g).park = .wait && (s.grp g).wait.live && ((s.teamOf g).halt = .running || (s.teamOf g).halt = .halting)

/-- Whether a WAIT may still be satisfied: TICKS has not reached D, or a resume owes it one evaluation (R49, R50). -/
def State.waiting (s : State) (g : Nat) : Bool :=
  let w := (s.grp g).wait
  s.atWait g && (w.again || w.forever || s.tick < w.deadline)

/-- Whether TICKS has reached a WAIT's D with no evaluation owed. -/
def State.waitOver (s : State) (g : Nat) : Bool :=
  let w := (s.grp g).wait
  s.atWait g && !w.again && !w.forever && w.deadline ≤ s.tick

/-- Whether an evaluation of a WAIT now would come to an end; one that waits for a forced publication, a translation
or a page does not. -/
def State.mayEvaluate (s : State) (g : Nat) : Bool :=
  let w := (s.grp g).wait
  let conds := w.conds.map condOf
  match outcome w.all conds (s.evalAll g (fun va => s.reachNow g va false) conds).1 with
  | .wait => false
  | _ => true

/-- Whether a WAIT is satisfied by what is evaluated at every change: counters, tiles and barrier phases (R49). -/
def State.waitChanged (s : State) (g : Nat) : Bool :=
  let w := (s.grp g).wait
  let conds := w.conds.map condOf
  let rs := (s.evalAll g (fun va => s.reachNow g va false) conds).1
  (conds.zip rs).any (fun p => 2 ≤ p.1.kind && p.1.kind ≤ 5 && p.2 = .val true) &&
    (match outcome w.all conds rs with
     | .yes _ => true
     | _ => false)

/-- The ticks that may pass before a WAIT's next evaluation, or its end, is due (R49, R50). -/
def State.waitSlack (s : State) (g n : Nat) : Nat :=
  let w := (s.grp g).wait
  if !s.atWait g then n
  else
    let n := if w.forever || w.again then n else min n (w.deadline - s.tick)
    if !s.waiting g || !s.mayEvaluate g then n
    else if w.again || s.waitChanged g then 0
    else min n (w.due - s.tick)

/-- An evaluation pass after a change of what a WAIT watches. -/
def execWaitSatisfied (grp : Nat) (s : State) : Host.Outcome State Fault Refusal :=
  .next (if s.waiting grp then s.reevaluate grp else s)

/-- A monitor reads its words again (R49). -/
def execMonitorReread (grp : Nat) (s : State) : Host.Outcome State Fault Refusal :=
  .next (if s.waiting grp then s.reevaluate grp else s)

/-- TICKS has reached D: qd is false and sd is 7 (R49). -/
def execWaitTimeout (grp : Nat) (s : State) : Host.Outcome State Fault Refusal :=
  let gr := s.grp grp
  .next (if s.waitOver grp then
    (s.endWait grp (s.waitOp grp) gr.wait false 7).modGrp grp (fun gr => { gr with park := .running })
  else s)

/-! ### SPAWN (R53, R54, R234) -/

def Bin.slots (b : Bin) : Nat := 2 ^ b.log2
/-- The free slots of a record buffer. -/
def Bin.free (b : Bin) : List Nat := (List.range b.slots).filter (· ∉ b.used)

/-- The bin of a node of a launch. -/
def State.bin (s : State) (la node : Nat) : Bin := FMap.get (s.launch la).bins node
def State.setBin (s : State) (la node : Nat) (b : Bin) : State :=
  s.modLaunch la (fun l => { l with bins := FMap.set l.bins node b })

/-- A bin fires: up to n indices, in deposit order, under its next firing number (R54, R55). -/
def Bin.fire (b : Bin) (n tick : Nat) : Bin :=
  { b with
    idx := b.idx.drop n, due := b.due ++ [(b.firings, b.idx.take n)], firings := (b.firings + 1) % 2 ^ 24, firstAt := tick }

/-- An index enters a bin; a bin that holds n indices fires (R54). -/
def State.enterBin (s : State) (la node i : Nat) : State :=
  let n := (FMap.get (s.launch la).nodes node).count
  let b := s.bin la node
  let b := { b with used := b.used ++ [i], idx := b.idx ++ [i], firstAt := if b.idx = [] then s.tick else b.firstAt }
  s.setBin la node (if n ≤ b.idx.length then b.fire n s.tick else b)

/-- The release of a SPAWN starts with its first deposit: the group's earlier accesses (R53). -/
def State.startDeposit (s : State) : State :=
  let g := s.cur
  let c : Classes := { ld := true, st := true, at_ := true, en := true }
  if (s.grp g).fence.live && (s.grp g).spawnLane ≠ 0 then s
  else
    let f : FenceRec := { (default : FenceRec) with
      live := true, scope := 2, loads := s.fenceOps g c, stores := s.fenceStores g 2 c, vmax := s.fenceV g 2 c }
    let (p, s) := (s.forceForwarded g).releaseTeam (s.grp g).team (coreDie (s.coreOf g)) (s.crossesDies g 2)
    s.modGrp g (fun gr => { gr with fence := { f with
      phases := match p with
        | some p => (s.phaseHomes g 2).map (fun h => (h, p.toNat))
        | none => [] } })

/-- The 64 bytes of a lane's record. -/
def State.spawnRecord (s : State) (a l : Nat) : List Byte :=
  (List.range 16).flatMap (fun j => leBytes 4 (s.rdV s.cur (a + j) l).toNat)

/-- One deposit: a free slot, the record in the tenant's memory, the index in the bin; or the park for a slot, or the
fault of the record's write. It answers whether the deposit was made. (DEDUCED, log 51.) -/
def State.deposit (s : State) (la node l : Nat) (bytes : List Byte) : Bool × State :=
  let b := s.bin la node
  let s := s.modGrp s.cur (fun gr => { gr with spawnLane := l + 1 })
  match b.free with
  | [] => (false, s.parkAgain .spawn l)
  | free =>
    let (k, s) := s.pick free.length
    let i := (free[k]?).getD 0
    let before := s.nextId
    match s.hubWriteVa (s.grp s.cur).vf (b.base + 64 * i) bytes 0 0 with
    | .error e =>
      let va := b.base + 64 * i
      let addr := BitVec.ofNat 64 (if e.cls = 16 then va - windowBase else va)
      (false, s.raise { cls := e.cls, lanes := 1#32 <<< l, addr, write := true, level := e.level, gpa := e.gpa, stage2 := e.stage2
                        partly := false } s.active)
    | .ok s =>
      let new := (List.range (s.nextId - before)).map (before + ·)
      let new := new.filter (fun id => (s.accOf id).live)
      let s := s.modGrp s.cur (fun gr => { gr with
        fence := { gr.fence with stores := gr.fence.stores ++ new }, deposits := gr.deposits ++ [(node, i)] })
      (true, s.enterBin la node i)

/-- The deposits of the lanes from `from` on, ascending; stops where one parks or faults. -/
def State.depositAll (s : State) (la : Nat) (b a : Nat) : List Nat → Bool × State
  | [] => (true, s)
  | l :: rest =>
    let (ok, s) := s.deposit la (s.rdV s.cur b l).toNat l (s.spawnRecord a l)
    if ok then s.depositAll la b a rest else (false, s)

def execSpawn (b a : VReg) (s : State) : Host.Outcome State Fault Refusal :=
  .next (s.noRegion (fun s =>
    let la := s.launchOf s.cur
    let start := (s.grp s.cur).spawnLane
    let uses := [vSrc b .n32, vRange a.toNat 16 1 .anyTag]
    match if start = 0 then s.vecFault uses s.active else none with
    | some r => s.raise r s.active
    | none =>
      let node (l : Nat) : Nat := (s.rdV s.cur b.toNat l).toNat
      let bad (l : Nat) : Bool :=
        63 < node l || !(FMap.get (s.launch la).nodes (node l)).live || !(s.bin la (node l)).configured
      if start = 0 && (lanesOf s.active).any bad then s.raise (plainFault 4) s.active
      else
        let s := (s.startDeposit).modGrp s.cur (fun gr => { gr with park := .running })
        let (ok, s) := s.depositAll la b.toNat a.toNat ((lanesOf s.active).filter (fun l => start ≤ l + 1))
        if !ok then s
        else if s.fenceDone s.cur then
          s.modGrp s.cur (fun gr => { gr with spawnLane := 0, deposits := [], fence := default })
        else
          let s := s.parkAgain .spawn 33
          s.modGrp s.cur (fun gr => { gr with spawnLane := 33 })))

/-- A bin's timer has run since the first index entered the empty bin (R54). -/
def execBinTimerExpiry (launch node : Nat) (s : State) : Host.Outcome State Fault Refusal :=
  let b := s.bin launch node
  let d := FMap.get (s.launch launch).nodes node
  .next (if (s.launch launch).state = .active && b.configured && b.idx ≠ [] && d.timer ≠ 0 && b.firstAt + d.timer ≤ s.tick then
    s.setBin launch node (b.fire d.count s.tick) else s)

end Sys2Proof.Machine
end

