-- ==== Sys2Proof/Machine/Tiles.lean ====
section
/-!
DEFINITION. Tiles under the engines (R69, R70, R109, R110, R284 to R286, R290): reservations, landing and the write
pointer, ownership and its return, engine faults, the accesses of engines to global memory; TILE.GIVE and TILE.TAKE.
-/
namespace Sys2Proof.Machine
open Sys2Proof

/-! ### Reservations, landing, WPTR (R110, R285) -/

def State.tile (s : State) (t n : Nat) : Tile := FMap.get (s.team t).tiles n
def State.modTile (s : State) (t n : Nat) (f : Tile → Tile) : State :=
  s.modTeam t (fun tm => { tm with tiles := FMap.upd tm.tiles n f })

/-- Whether an engine operation of any kind names a tile. -/
def State.tileBusy (s : State) (t n : Nat) : Bool :=
  s.ops.any (fun p => p.2.live && p.2.resv.any (fun r => r.1 = t && r.2.1 = n))

/-- Whether an operation that writes a tile is outstanding. -/
def State.tileWritten (s : State) (t n : Nat) : Bool :=
  s.ops.any (fun p => p.2.live && p.2.resv.any (fun r => r.1 = t && r.2.1 = n && r.2.2.1 < r.2.2.2))

/-- A range fits behind the reservation point. -/
def Tile.room (t : Tile) (need : Nat) : Bool := t.resv + need ≤ t.bytes

/-- What an operation names: team, tile, and the range it writes (empty for a tile it reads). -/
abbrev Claim : Type := Nat × Nat × Nat × Nat

/-- Reserves an extent at the reservation point (R285). -/
def State.reserve (s : State) (t n need : Nat) : Claim × State :=
  let r := (s.tile t n).resv
  ((t, n, r, r + need), s.modTile t n (fun k => { k with resv := r + need, ranges := k.ranges ++ [(r, r + need, 0, 0)] }))

/-- Where WPTR stands given the open ranges: past complete and released ones, then in steps of 64 bytes (R110, R285). -/
def advanceFrom (w : Nat) : List (Nat × Nat × Nat × Nat) → Nat × List (Nat × Nat × Nat × Nat)
  | [] => (w, [])
  | (a, b, k, rel) :: t =>
    if rel = 1 || b ≤ a + k then advanceFrom b t else (a + 64 * (k / 64), (a, b, k, rel) :: t)

def Tile.advance (t : Tile) : Tile :=
  let (w, l) := advanceFrom t.wptr t.ranges
  { t with wptr := w, ranges := l }

/-- Bytes of a claim land from its offset k on (R110). -/
def State.land (s : State) (c : Claim) (k : Nat) (bytes : List Byte) : State :=
  let (t, n, a, _) := c
  let s := s.scrStore t (cellsAt ((s.tile t n).start + a + k) bytes)
  s.modTile t n (fun tl => { tl with
    ranges := tl.ranges.map (fun (r : Claim) => if r.1 = a then (r.1, r.2.1, k + bytes.length, r.2.2.2) else r) }.advance)

/-- A claim is released unused: it counts as complete (R285, R294). -/
def State.releaseClaim (s : State) (c : Claim) : State :=
  s.modTile c.1 c.2.1 (fun tl => { tl with
    ranges := tl.ranges.map (fun (r : Claim) => if r.1 = c.2.2.1 then (r.1, r.2.1, r.2.2.1, 1) else r) }.advance)

/-- Whether WPTR has passed every range of an operation. -/
def State.passed (s : State) (o : Op) : Bool := o.resv.all (fun r => r.2.2.2 ≤ (s.tile r.1 r.2.1).wptr)

/-! ### Completion and ownership (R109) -/

/-- An engine operation ends: its counter falls, and a tile it named returns to THREAD when its flag is set and no other
operation names it (R109). -/
def State.endEngine (s : State) (id : Nat) : State :=
  let claims := (s.op id).resv
  claims.foldl (fun s c =>
    if (s.tile c.1 c.2.1).ret && !s.tileBusy c.1 c.2.1 then
      s.modTile c.1 c.2.1 (fun t => { t with owner := false, ret := false })
    else s) (s.endOp id)

/-- Operations that have landed everything end once WPTR has passed their ranges. -/
def State.sweepEngines (s : State) : State :=
  s.ops.foldl (fun s p =>
    if p.2.live && p.2.flag && p.2.kind ∈ [OpKind.meshRed, .sdot, .mdrainT] && s.passed p.2 then s.endEngine p.1 else s) s

/-- The return flag of a tile an operation names with the return modifier. -/
def State.askReturn (s : State) (ret : Bool) (c : Claim) : State :=
  if ret then s.modTile c.1 c.2.1 (fun t => { t with ret := true }) else s

/-! ### Engine reads of scratch, and engine faults (R290, R352) -/

/-- Bytes of a tile from an offset, as an engine reads them; every tile lies within the team's share (R70). -/
def State.tileBytes (s : State) (t n o k : Nat) : List Byte := Memory.bytes (s.team t).scratch ((s.tile t n).start + o) k
def State.tilePoison (s : State) (t n o k : Nat) : Bool := (s.team t).poisoned ((s.tile t n).start + o) k

/-- An engine operation stops at a fault: its group parks with the record, unless an earlier fault of the group is still
open (R290). (DEDUCED, log 54.) -/
def State.engineStop (s : State) (id : Nat) (r : Raise) : State :=
  let o := s.op id
  let gr := s.grp o.grp
  if gr.engFault || gr.park = .fault || gr.park = .page then s
  else (s.setOp id { o with stopped := true }).raiseEngine o.grp r o.off

/-! ### Engine accesses to global memory (R122, R141, R289, R369) -/

/-- Keys of an operation's notes: the I/O page asked for plus one, and the page refused plus one. -/
def askKey : Nat := 60
def refuseKey : Nat := 61

/-- Where an engine's access goes now: a fault, a place, or nothing while a walk, an ATS answer, a pull or a forced
publication is awaited. -/
def State.engReach (s : State) (id va n : Nat) (write : Bool) : Option Reach × State :=
  let o := s.op id
  let g := o.grp
  if 2 ^ 57 ≤ va then (some (.fault 12 0xff va 0 false), s)
  else if !inWindow va && s.walkHeld (s.grp g).vf (s.partOf g) va write then
    (none, s.sb.foldl (fun s p => if p.2.hold ≠ 0 then s.forceTeam p.2.team else s) s)
  else
    let s := s.fillWalk g va write
    let r := s.orPull (s.reachNow g va write)
    let r := if write then r else s.orPoison n va r
    match r with
    | .pull p => (none, s.askPull p)
    | .ats p =>
      if FMap.get o.res refuseKey = p + 1 then (some (.fault 15 0xff va 0 false), s)
      else (none, s.setOp id { o with res := FMap.set o.res askKey (p + 1) })
    | .walk _ => (none, s)
    | r => (some r, s)

/-- An engine's read of n bytes: nothing yet, a fault, or the bytes. -/
def State.engRead (s : State) (id va n : Nat) : Option (Except Raise (List Byte)) × State :=
  match s.engReach id va n false with
  | (none, s) => (none, s)
  | (some (.fault cls level addr gpa stage2), s) =>
    (some (.error { plainFault cls with level, addr := BitVec.ofNat 64 addr, gpa, stage2 }), s)
  | (some (.at (.hbm spa x)), s) =>
    let own : Bool := s.acc.any (fun p => p.2.op = id && p.2.kind = .store && p.2.data.any (fun c => spa ≤ c.1 && c.1 < spa + n)) ||
      s.pend.any (fun p => p.2.op = id && s.tick < p.2.v && p.2.cells.any (fun c => spa ≤ c.1 && c.1 < spa + n))
    if own then (none, s)
    else
      match s.homeRead (if x.window then 4 else coreDie (s.op id).core) spa n with
      | (none, s) => (none, s)
      | (some l, s) => (some (.ok l), s)
  | (some (.at (.host h _)), s) => (some (.ok (s.hostBytes h n)), s)
  | (some (.at (.remote h off)), s) =>
    match s.remoteRead (h * 2 ^ 40 + off) n with
    | (none, s) => (none, s)
    | (some l, s) => (some (.ok l), s)
  | (some _, s) => (none, s)

/-- An engine's write: nothing yet, a fault, or the state in which it has set out. -/
def State.engWrite (s : State) (id va : Nat) (bytes : List Byte) : Option (Except Raise Unit) × State :=
  let o := s.op id
  let die := coreDie o.core
  let fn := (s.grp o.grp).vf
  let send (place : Place) (x : Xlat) (cells : List Host.Cell) (s : State) : State :=
    let addr := ((cells.head?).getD (0, 0)).1
    let (seq, s) := if place = .hbm && spaDie addr ≠ die then s.fresh else (0, s)
    s.sendAcc { (default : Access) with
      live := true, kind := .store, place, core := o.core, op := id, addr, data := cells, issued := s.tick, srcDie := die
      homeDie := spaDie addr, phase := (s.die die).oph.toNat, seq, dev := s.devOf o.grp x, byFn := fn + 1, byPart := x.part + 1 }
  match s.engReach id va bytes.length true with
  | (none, s) => (none, s)
  | (some (.fault cls level addr gpa stage2), s) =>
    (some (.error { plainFault cls with level, addr := BitVec.ofNat 64 addr, gpa, stage2, write := true }), s)
  | (some (.at (.hbm spa x)), s) =>
    (some (.ok ()), send .hbm x (cellsAt spa bytes) (s.markDirty fn x))
  | (some (.at (.host h x)), s) => (some (.ok ()), (s.markDirty fn x).hostStore (cellsAt h bytes))
  | (some (.at (.remote h off)), s) => (some (.ok ()), send .remote default (cellsAt (h * 2 ^ 40 + off) bytes) s)
  | (some _, s) => (none, s)

/-! ### Checks of engine words (R109, R286) -/

/-- A copy-class word that needs every lane not exited (R286). -/
def State.fullMask (s : State) (eff : State → State) : State :=
  if s.active ||| (s.grp s.cur).exited = BitVec.allOnes 32 then eff s
  else s.raise { plainFault 9 with lanes := s.active } s.active

/-- The team of the word in issue. -/
def State.myTeam (s : State) : Nat := (s.grp s.cur).team

/-- Tiles an engine word names: defined and ENGINE-owned (R70, R109). -/
def State.tilesOk (s : State) (l : List (Nat × Nat)) : Bool :=
  l.all (fun p => (s.tile p.1 p.2).defd && (s.tile p.1 p.2).owner)

/-! ### TILE.GIVE and TILE.TAKE (R109, R284) -/

/-- A word on a defined tile outside a region. -/
def State.onTile (s : State) (t : TReg) (eff : State → State) : State :=
  s.noRegion (fun s => if (s.tile s.myTeam t.toNat).defd then eff s else s.raise (plainFault 4) s.active)

def execTileGive (t : TReg) (s : State) : Host.Outcome State Fault Refusal :=
  .next (s.onTile t (fun s => s.modTile s.myTeam t.toNat (fun k => { k with owner := true })))

/-- TILE.GIVE.RST: the only unprivileged way to lower WPTR (R284). -/
def execTileGiveRst (t : TReg) (s : State) : Host.Outcome State Fault Refusal :=
  .next (s.onTile t (fun s =>
    if s.tileBusy s.myTeam t.toNat then s.raise (plainFault 4) s.active
    else s.modTile s.myTeam t.toNat (fun k => { k with owner := true, wptr := 0, resv := 0, ranges := [] })))

/-- A tile that no engine names returns to THREAD (R109, R284). -/
def State.takeTile (s : State) (t n : Nat) : State :=
  s.modTile t n (fun k => { k with owner := false, ret := false, resv := k.wptr, ranges := [] })

def execTileTake (t : TReg) (s : State) : Host.Outcome State Fault Refusal :=
  .next (s.onTile t (fun s =>
    if !(s.tile s.myTeam t.toNat).owner then s
    else if s.tileBusy s.myTeam t.toNat then s.parkAfter .tileTake t.toNat
    else s.takeTile s.myTeam t.toNat))

/-- A parked TILE.TAKE completes when no engine operation names its tile. -/
def execTileTakeRelease (grp : Nat) (s : State) : Host.Outcome State Fault Refusal :=
  let gr := s.grp grp
  .next (if gr.park = .tileTake && !s.tileBusy gr.team gr.parkArg then
    (s.takeTile gr.team gr.parkArg).setGrp grp { gr with park := .running, parkArg := 0 }
  else s)

end Sys2Proof.Machine
end

