-- ==== Sys2Proof/Machine/Engine.lean ====
section
/-!
DEFINITION. The copy-class instructions: COPY (R287 to R290), the mesh reduction (R291 to R294), SDOT and the Mica units
(R121, R172 to R174, R295, R296).
-/
namespace Sys2Proof.Machine
open Sys2Proof

/-! ### The copy descriptor (R287, R288) -/

structure CopyDesc where
  kind : Nat
  conv : Nat
  delta : Nat
  ft : Nat
  ret : Bool
  mcast : Nat
  rows : Nat
  ts : Nat
  te : Nat
  g : Nat
  g2 : Nat
  rb : Nat
  gs : Nat
  zero : Bool
  deriving DecidableEq, Repr

/-- The descriptor of eight scalars; `zero` says its res0 bits are clear. -/
def copyDesc (l : List Nat) : CopyDesc :=
  let f (i : Nat) : Nat := (l[i]?).getD 0
  { kind := bitsOf (f 0) 31 28, conv := bitsOf (f 0) 27 24, delta := bitsOf (f 0) 23 20, ft := bitsOf (f 0) 19 15
    ret := bitOf (f 0) 12, mcast := bitsOf (f 0) 11 0, rows := bitsOf (f 1) 31 20 + 1, ts := bitsOf (f 1) 13 8
    te := bitsOf (f 1) 5 0, g := f 2 + 2 ^ 32 * f 3, g2 := f 4 + 2 ^ 32 * f 5, rb := f 6, gs := f 7
    zero := bitsOf (f 0) 14 13 = 0 && bitsOf (f 1) 19 14 = 0 && bitsOf (f 1) 7 6 = 0 }

def CopyDesc.packs (d : CopyDesc) : Bool := d.conv = 1 || d.conv = 2
def CopyDesc.de4 (d : CopyDesc) : Bool := d.conv = 2 || d.conv = 4
/-- Bytes of a global element with conversion. -/
def CopyDesc.fb (d : CopyDesc) : Nat := if d.ft = 6 then 4 else 2
def CopyDesc.fmt (d : CopyDesc) : FFmt := if d.ft = 6 then fF32 else if d.ft = 8 then fF16 else fBF16
/-- Tile bytes and exponent bytes of a row. -/
def CopyDesc.rbt (d : CopyDesc) : Nat := if d.conv = 0 then d.rb else if d.de4 then d.rb / (2 * d.fb) else d.rb / d.fb
def CopyDesc.rbe (d : CopyDesc) : Nat := d.rb / (16 * d.fb)
/-- 16-byte units of a row and of the copy. -/
def CopyDesc.upr (d : CopyDesc) : Nat := d.rb / 16
def CopyDesc.units (d : CopyDesc) : Nat := d.rows * d.upr

/-- The limits of the table of R287 on a cluster of n ranks. -/
def CopyDesc.legal (d : CopyDesc) (n : Nat) : Bool :=
  d.zero && d.kind ≤ 2 && (d.conv = 0 || (d.kind = 0 && d.packs) || (d.kind = 1 && (d.conv = 3 || d.conv = 4))) &&
  (if d.packs then 1 ≤ d.delta else d.delta = 0) && (if d.conv = 0 then d.ft = 0 else d.ft ∈ [6, 8, 9]) &&
  (!d.ret || d.kind < 2) && (if d.kind = 0 then d.mcast < 2 ^ n else d.mcast = 0) && (d.conv ≠ 0 || d.te = 0) &&
  d.g % 16 = 0 && (if d.kind = 2 then d.g2 % 16 = 0 else d.g2 = 0) &&
  d.rb % 16 = 0 && 16 ≤ d.rb && d.rb ≤ 2 ^ 21 && (d.conv = 0 || d.rb % (32 * d.fb) = 0) &&
  d.gs % 16 = 0 && (d.rows = 1 || d.rb ≤ d.gs)

/-! ### COPY at issue (R285 to R288) -/

/-- The teams a copy into tiles names. (DEDUCED, log 58.) -/
def State.copyTeams (s : State) (d : CopyDesc) : List Nat :=
  if d.mcast = 0 then [s.myTeam]
  else
    let cl := s.cluster (s.clusterOf s.cur)
    ((cl.teams.zipIdx).filter (fun p => bitOf d.mcast p.2)).map (·.1)

/-- The extents a copy writes: team, tile, bytes. (DEDUCED, log 56.) -/
def State.copyNeeds (s : State) (d : CopyDesc) : List (Nat × Nat × Nat) :=
  if d.kind ≠ 0 then []
  else (s.copyTeams d).flatMap (fun t =>
    [(t, d.ts, d.rows * d.rbt)] ++ (if d.packs then [(t, d.te, d.rows * d.rbe)] else []))

/-- The issuing team's tiles a copy names. -/
def CopyDesc.tiles (d : CopyDesc) : List Nat := if d.kind = 2 then [] else d.ts :: (if d.conv = 0 then [] else [d.te])

/-- The fault of a copy's checks before translation, in order (R66, R70, R109, R285, R288); the exponents an unpacking copy reads
must fit TE as its elements fit TS (R6). (DEDUCED, log 55.) -/
def State.copyFault (s : State) (d : CopyDesc) (c : Nat) : Option Nat :=
  let t := s.myTeam
  let cl := s.cluster (s.clusterOf s.cur)
  let mine : Bool := d.kind = 1 || (d.kind = 0 && t ∈ s.copyTeams d)
  if !d.legal (cl.rows * cl.cols) then some 4
  else if d.tiles.any (fun n => !(s.tile t n).defd) then some 4
  else if mine && d.tiles.any (fun n => !(s.tile t n).owner) then some 4
  else if d.conv ≠ 0 && ((s.tile t d.ts).tag ≠ (if d.de4 then Tag.de4x8 else .de8x4) || (s.tile t d.te).tag ≠ .b32) then some 2
  else if d.kind = 1 && ((s.tile t d.ts).bytes < d.rows * d.rbt || (d.conv ≠ 0 && (s.tile t d.te).bytes < d.rows * d.rbe)) then some 12
  else if (s.copyNeeds d).any (fun p => (s.team p.1).live && !(s.tile p.1 p.2.1).room p.2.2) then some 12
  else if s.ctrFull s.cur c then some 11
  else none

/-- The reservations of an operation, in order. -/
def State.reserveAll (s : State) (l : List (Nat × Nat × Nat)) : List Claim × State :=
  l.foldl (fun acc p =>
    let (c, s) := acc.2.reserve p.1 p.2.1 p.2.2
    (acc.1 ++ [c], s)) ([], s)

/-- COPY (R287): the descriptor is read once; the copy proceeds by its own steps. -/
def execCopy (a : SReg) (c : CReg) (s : State) : Host.Outcome State Fault Refusal :=
  .next (s.noRegion (fun s => s.fullMask (fun s =>
    let l := (List.range 8).map (fun i => (s.rdS s.cur (a.toNat + i)).toNat)
    let d := copyDesc l
    match s.copyFault d c.val with
    | some cls => s.raise (plainFault cls) s.active
    | none =>
      let t := s.myTeam
      let (claims, s) := s.reserveAll (s.copyNeeds d)
      let claims := if d.kind = 1 then d.tiles.map (fun n => (t, n, 0, 0)) else claims
      let s := claims.foldl (fun s k => s.askReturn d.ret k) s
      (s.issueOp { s.baseOp .copy c.val with arg := l, resv := claims } []).2)))

/-! ### The copy at work (R288 to R290) -/

/-- The key of a unit read and not yet delivered everywhere. -/
def unitKey (u : Nat) : Nat := 100 + u

/-- The address of a unit on a side. -/
def CopyDesc.at (d : CopyDesc) (base u : Nat) : Nat := (base + (u / d.upr) * d.gs + 16 * (u % d.upr)) % 2 ^ 64

/-- A unit is read from the source of a copy into tiles. -/
def State.copyFetch (s : State) (id : Nat) (d : CopyDesc) : State :=
  let u := (s.op id).stage
  if d.units ≤ u then s
  else
    match s.engRead id (d.at d.g u) 16 with
    | (none, s) => s
    | (some (.error r), s) => s.engineStop id r
    | (some (.ok l), s) => s.modOp id (fun o => { o with stage := u + 1, res := FMap.set o.res (unitKey u) (leNat l) })

/-- Units that make one tile block; its bytes in TS and in TE. -/
def CopyDesc.bpu (d : CopyDesc) : Nat := if d.conv = 0 then 1 else 2 * d.fb

/-- The bytes of block k for the element tile, and for the exponent tile. -/
def CopyDesc.block (d : CopyDesc) (o : Op) (k : Nat) : List Byte × List Byte :=
  let raw := (List.range d.bpu).flatMap (fun i => leBytes 16 (FMap.get o.res (unitKey (k * d.bpu + i))))
  if d.conv = 0 then (raw, [])
  else
    let n := leNat raw
    let x := (List.range 32).map (fun i => d.fmt.val (n / 2 ^ (8 * d.fb * i) % 2 ^ (8 * d.fb)))
    let (e0, e1, els) := packBlock d.de4 d.delta x
    let w := if d.de4 then 4 else 8
    let v := (els.zipIdx).foldl (fun acc p => acc + p.1 * 2 ^ (w * p.2)) 0
    (leBytes (4 * w) v, [BitVec.ofNat 8 e0, BitVec.ofNat 8 e1])

/-- Delivery of every complete block to destination i, while its tile is ENGINE-owned (R289). -/
def State.copyDeliver (s : State) (id : Nat) (d : CopyDesc) (i : Nat) (c : Claim) : State :=
  let o := s.op id
  let n := o.stage / d.bpu
  let k := FMap.get o.res i
  if !(s.tile c.1 c.2.1).owner then s
  else
    let exp : Bool := d.packs && i % 2 = 1
    let s := (List.range (n - k)).foldl (fun s j =>
      let (el, ex) := d.block o (k + j)
      let bytes := if exp then ex else el
      s.land c ((k + j) * bytes.length) bytes) s
    s.modOp id (fun o => { o with res := FMap.set o.res i n })

/-- Units that every destination has are forgotten. -/
def State.copyForget (s : State) (id : Nat) (d : CopyDesc) : State :=
  s.modOp id (fun o =>
    let m := (List.range o.resv.length).foldl (fun m i => min m (FMap.get o.res i)) o.stage
    { o with res := o.res.filter (fun p => p.1 < 100 || unitKey (m * d.bpu) ≤ p.1) })

/-- Whether tile bytes up to an offset may be read: below WPTR, or nothing writes the tile (R288). -/
def State.tileReady (s : State) (t n upTo : Nat) : Bool := upTo ≤ (s.tile t n).wptr || !s.tileWritten t n

/-- Unit u of a copy out of tiles: its bytes, none while they are not ready, or poison. -/
def State.copyOut (s : State) (t : Nat) (d : CopyDesc) (u : Nat) : Option (Except Nat (List Byte)) :=
  let r := u / d.upr
  let c := 16 * (u % d.upr)
  if d.conv = 0 then
    let o := r * d.rbt + c
    if !s.tileReady t d.ts (o + 16) then none
    else if s.tilePoison t d.ts o 16 then some (.error ((s.tile t d.ts).start + o))
    else some (.ok (s.tileBytes t d.ts o 16))
  else
    let e := c / d.fb
    let n := 16 / d.fb
    let (o, k) := if d.de4 then (r * d.rbt + e / 2, n / 2) else (r * d.rbt + e, n)
    let x := r * d.rbe + 2 * (e / 32)
    if !(s.tileReady t d.ts (o + k) && s.tileReady t d.te (x + 2)) then none
    else if s.tilePoison t d.ts o k then some (.error ((s.tile t d.ts).start + o))
    else if s.tilePoison t d.te x 2 then some (.error ((s.tile t d.te).start + x))
    else
      let v := leNat (s.tileBytes t d.ts o k)
      let ex := leNat (s.tileBytes t d.te x 2)
      let w := if d.de4 then 4 else 8
      some (.ok ((List.range n).flatMap (fun i =>
        leBytes d.fb (d.fmt.pack .rne false (deVal d.de4 (v / 2 ^ (w * i) % 2 ^ w) (ex % 256) (ex / 256))))))

/-- One unit is written to the destination of a copy. -/
def State.copyPut (s : State) (id va : Nat) (bytes : List Byte) : State :=
  match s.engWrite id va bytes with
  | (none, s) => s
  | (some (.error r), s) => s.engineStop id r
  | (some (.ok _), s) => s.modOp id (fun o => { o with stage := o.stage + 1 })

/-- An engine operation moves on while its team runs, or drains towards a halt (R403). -/
def State.engineRuns (s : State) (o : Op) : Bool := o.live && !o.stopped && (s.team o.team).halt ∈ [Halt.running, .halting]

/-- The copy engine moves the next unit (R288). -/
def execCopyProgress (op : Nat) (s : State) : Host.Outcome State Fault Refusal :=
  let o := s.op op
  let d := copyDesc o.arg
  .next (if !(o.kind = .copy && s.engineRuns o) then s
    else if d.kind = 0 then
      let s := s.copyFetch op d
      let s := ((s.op op).resv.zipIdx).foldl (fun s p => s.copyDeliver op d p.2 p.1) s
      (s.copyForget op d).sweepEngines
    else if d.units ≤ o.stage then s
    else if d.kind = 1 then
      match s.copyOut o.team d o.stage with
      | none => s
      | some (.error a) => s.engineStop op { plainFault 18 with addr := BitVec.ofNat 64 a }
      | some (.ok l) => s.copyPut op (d.at d.g o.stage) l
    else
      match s.engRead op (d.at d.g o.stage) 16 with
      | (none, s) => s
      | (some (.error r), s) => s.engineStop op r
      | (some (.ok l), s) => s.copyPut op (d.at d.g2 o.stage) l)

/-- Whether every byte of a copy has landed and its writes are published (R289). -/
def State.copyDone (s : State) (o : Op) : Bool :=
  let d := copyDesc o.arg
  d.units ≤ o.stage && (d.kind ≠ 0 || (List.range o.resv.length).all (fun i => d.units / d.bpu ≤ FMap.get o.res i)) &&
  o.waitOn = [] && (o.ptr = 0 || o.ptr + 2 ≤ s.tick) && s.passed o

def execCopyCompletion (op : Nat) (s : State) : Host.Outcome State Fault Refusal :=
  let o := s.op op
  .next (if o.kind = .copy && s.engineRuns o && s.copyDone o then s.endEngine op else s)

/-! ### Mesh trees (R291) -/

/-- The clusters' instance key. -/
def instKey (k num : Nat) : Nat := num * 4 + k

def MeshTree.parent (t : MeshTree) (r : Nat) : Nat := (t.parents[r]?).getD 0
def MeshTree.kids (t : MeshTree) (r : Nat) : List Nat :=
  ((t.parents.zipIdx).filter (fun p => p.1 = r && p.2 ≠ r)).map (·.2)

/-- Whether following parents from a rank reaches the root. -/
def reachesRoot (l : List Nat) : Nat → Nat → Bool
  | 0, r => (l[r]?).getD 0 = 0xff
  | n + 1, r => (l[r]?).getD 0 = 0xff || reachesRoot l n ((l[r]?).getD 0)

/-- A valid tree over n ranks, from the twelve bytes (R291). -/
def treeOk (l : List Nat) (n : Nat) : Bool :=
  let mine := l.take n
  (mine.filter (· = 0xff)).length = 1 &&
  (mine.zipIdx).all (fun p => p.1 = 0xff || (p.1 < n && p.1 ≠ p.2)) &&
  (List.range n).all (fun r => reachesRoot mine n r) && (l.drop n).all (· = 0)

/-- Outstanding MESH.RED operations of a test over their team: number and instance on tree k. -/
def State.meshOps (s : State) (sel : Nat → Bool) (k : Nat) : List (Nat × Nat) :=
  (s.ops.filter (fun p => p.2.live && p.2.kind = .meshRed && sel p.2.team && p.2.arg.head? = some k)).map
    (fun p => (p.1, (p.2.arg[1]?).getD 0))

def execMeshTree (k : BitVec 2) (a : SReg) (s : State) : Host.Outcome State Fault Refusal :=
  let k := k.toNat
  .next (s.noRegion (fun s =>
    let c := s.clusterOf s.cur
    let cl := s.cluster c
    let l := (List.range 3).flatMap (fun i => (leBytes 4 (s.rdS s.cur (a.toNat + i)).toNat).map (·.toNat))
    let n := cl.rows * cl.cols
    s.scalar (treeOk l n && s.meshOps (· ∈ cl.teams) k = []) (fun s =>
      s.modCluster c (fun cl => { cl with
        trees := FMap.set cl.trees k { live := true, parents := l.take n, next := [] }
        insts := cl.insts.filter (fun p => p.1 % 4 ≠ k) }))))

/-! ### MESH.RED (R292, R293) -/

/-- Codes of the reduction as they travel with a contribution. -/
def meshOpOf (n : Nat) : RedOp := match n with | 0 => .add | 1 => .min | _ => .max

/-- A rank's partial: its own value combined with its children's, in ascending rank order (R293). -/
def MeshInst.partial (i : MeshInst) (t : MeshTree) (r : Nat) : List Word :=
  let own := FMap.get i.own r
  let op := meshOpOf ((own[32]?).getD 0).toNat
  let ty : Tag := match ((own[33]?).getD 0).toNat with | 6 => .f32 | 2 => .i32 | _ => .n32
  let w (l : List Word) (j : Nat) : Nat := ((l[j]?).getD 0).toNat
  (List.range 32).map (fun j =>
    let v := (t.kids r).foldl (fun acc c => redCombine op ty .rne acc (w (FMap.get i.partials c) j)) (w own j)
    BitVec.ofNat 32 (if ty = .f32 then fCanon fF32 v else v))

/-- Whether a rank has its own value and every child's partial. -/
def MeshInst.ready (i : MeshInst) (t : MeshTree) (r : Nat) : Bool := FMap.get i.own r ≠ [] && (t.kids r).all (· ∈ i.accepted)

/-- The root's result lands in its tile once it is complete (R292). (DESIGN CHOICE, log 59.) -/
def State.meshDeliver (s : State) (c k num : Nat) : State :=
  let cl := s.cluster c
  let t := FMap.get cl.trees k
  let i := FMap.get cl.insts (instKey k num)
  match t.parents.idxOf? 0xff with
  | none => s
  | some root =>
    if !(i.live && !i.cancelled && i.ready t root) then s
    else
      let id := FMap.get i.ops root
      let bytes := (i.partial t root).flatMap (fun w => leBytes 4 w.toNat)
      let s := s.modCluster c (fun cl => { cl with insts := FMap.del cl.insts (instKey k num) })
      let s := (s.op id).resv.foldl (fun s q => s.land q 0 bytes) s
      (s.modOp id (fun o => { o with flag := true })).sweepEngines

/-- A cancelled instance that every rank has passed is forgotten. -/
def Cluster.forget (cl : Cluster) (k num : Nat) : Cluster :=
  let t := FMap.get cl.trees k
  if (FMap.get cl.insts (instKey k num)).cancelled && (List.range (cl.rows * cl.cols)).all (fun r => num < FMap.get t.next r) then
    { cl with insts := FMap.del cl.insts (instKey k num) }
  else cl

/-- The team's contribution to its next instance (R292, R294). -/
def State.meshContribute (s : State) (o : MeshOp) (c : Nat) (root : Bool) : State :=
  let g := s.cur
  let gr := s.grp g
  let k := o.k.toNat
  let t := FMap.get (s.cluster c).trees k
  let num := FMap.get t.next gr.crank
  let s := s.modCluster c (fun cl => { cl with
    trees := FMap.set cl.trees k { t with next := FMap.set t.next gr.crank (num + 1) } })
  if (FMap.get (s.cluster c).insts (instKey k num)).cancelled then s.modCluster c (fun cl => cl.forget k num)
  else
    let ident := BitVec.ofNat 32 (redIdentity (meshOpOf o.op.toNat) o.ty)
    let own : List Word := (List.range 32).map (fun l => if gr.exited.getLsbD l then ident else s.rdV g o.a.toNat l) ++
      [BitVec.ofNat 32 o.op.toNat, match o.ty with | .f32 => 6 | .i32 => 2 | _ => 3]
    let (claims, s) := if root then s.reserveAll [(gr.team, o.d.toNat, 128)] else ([], s)
    let (id, s) := s.issueOp { s.baseOp .meshRed o.c.val with arg := [k, num], resv := claims } []
    let s := s.modCluster c (fun cl => { cl with
      insts := FMap.upd cl.insts (instKey k num) (fun i => { i with
        live := true, tree := k, num, own := FMap.set i.own gr.crank own, ops := FMap.set i.ops gr.crank id }) })
    s.meshDeliver c k num

def execMeshRed (o : MeshOp) (s : State) : Host.Outcome State Fault Refusal :=
  .next (s.noRegion (fun s => s.fullMask (fun s =>
    let c := s.clusterOf s.cur
    let gr := s.grp s.cur
    let t := FMap.get (s.cluster c).trees o.k.toNat
    let root : Bool := t.parent gr.crank = 0xff
    let tl := s.tile gr.team o.d.toNat
    match s.opFault t.live [vSrc o.a o.ty] s.active with
    | some r => s.raise r s.active
    | none =>
      if root && !(tl.defd && tl.owner) then s.raise (plainFault 4) s.active
      else if root && tl.tag ≠ o.ty then s.raise (plainFault 2) s.active
      else if root && !tl.room 128 then s.raise (plainFault 12) s.active
      else if s.ctrFull s.cur o.c.val then s.raise (plainFault 11) s.active
      else if 4 ≤ (s.meshOps (· = gr.team) o.k.toNat).length then s.parkAgain .mesh o.k.toNat
      else (s.modGrp s.cur (fun gr => { gr with park := .running, parkArg := 0 })).meshContribute o c root)))

/-- A combiner accepts the partial of a child for the oldest instance in which it is complete (R292, R293). -/
def execMeshPartialAccept (cluster tree child : Nat) (s : State) : Host.Outcome State Fault Refusal :=
  let cl := s.cluster cluster
  let t := FMap.get cl.trees tree
  .next (if !(t.live && cl.halt = .running && child < t.parents.length && t.parent child ≠ 0xff) then s
    else
      match cl.insts.find? (fun p => p.2.live && p.2.tree = tree && !p.2.cancelled && child ∉ p.2.accepted && p.2.ready t child) with
      | none => s
      | some (key, i) =>
        let i' := { i with
          accepted := insertOnce child i.accepted, partials := FMap.set i.partials child (i.partial t child) }
        let s := s.setCluster cluster { cl with insts := FMap.set cl.insts key i' }
        (s.endEngine (FMap.get i.ops child)).meshDeliver cluster tree i.num)

/-! ### MESH.CANCEL (R294) -/

/-- An instance ends at every combiner and team: nothing is written, reservations are released, counters fall. -/
def State.meshCancel (s : State) (c k num : Nat) : State :=
  let cl := s.cluster c
  let i := FMap.get cl.insts (instKey k num)
  let gone : MeshInst := { (default : MeshInst) with live := true, tree := k, num, cancelled := true }
  let s := s.setCluster c { cl with insts := FMap.set cl.insts (instKey k num) gone }
  let s := i.ops.foldl (fun s p =>
    if (s.op p.2).live then ((s.op p.2).resv.foldl (fun s q => s.releaseClaim q) s).endEngine p.2 else s) s
  (s.modCluster c (fun cl => cl.forget k num)).sweepEngines

def execMeshCancel (k : BitVec 2) (s : State) : Host.Outcome State Fault Refusal :=
  let k := k.toNat
  .next (s.noRegion (fun s =>
    let c := s.clusterOf s.cur
    let gr := s.grp s.cur
    let t := FMap.get (s.cluster c).trees k
    if !t.live then s
    else
      match (s.meshOps (· = gr.team) k).getLast? with
      | some (id, num) => if (s.op id).flag then s else s.meshCancel c k num
      | none =>
        let num := FMap.get t.next gr.crank
        if (FMap.get (s.cluster c).insts (instKey k num)).cancelled then s else s.meshCancel c k num))

/-! ### SDOT (R121, R172 to R174, R295, R296) -/

structure DotDesc where
  b : Nat
  k : Nat
  n : Nat
  bs : Nat
  e : Nat
  tea : Nat
  zero : Bool
  deriving DecidableEq, Repr

def dotDesc (l : List Nat) : DotDesc :=
  let f (i : Nat) : Nat := (l[i]?).getD 0
  { b := f 0 + 2 ^ 32 * f 1, k := f 2, n := f 3, bs := f 4, e := f 5 + 2 ^ 32 * f 6, tea := f 7 % 64, zero := f 7 < 64 }

/-- The operand format of an SDOT type (R295). -/
def dotFmt (t : Tag) : MFmt :=
  match t with
  | .e4m3x4 => .e4m3 | .e5m2x4 => .e5m2 | .de8x4 => .de8 | .i8x4 => .i8 | .bf16 => .bf16 | .f16 => .f16 | _ => .f32

/-- Bytes of a row of B, and of its exponents. -/
def DotDesc.row (d : DotDesc) (f : MFmt) : Nat := d.k * mBits f / 8
def DotDesc.exps (d : DotDesc) (f : MFmt) : Nat := if f = .de8 then 2 * d.k / 32 else 0

def DotDesc.legal (d : DotDesc) (f : MFmt) : Bool :=
  d.zero && d.b % 32 = 0 && d.k % mLen f = 0 && d.row f ≤ 8192 && 1 ≤ d.n && d.n ≤ 65536 && d.bs % 32 = 0 &&
  (d.n = 1 || d.row f ≤ d.bs) && d.e % 2 = 0 && (f = .de8 || (d.e = 0 && d.tea = 0))

/-- The addresses of row i: B and exponents, with their lengths. -/
def DotDesc.spans (d : DotDesc) (f : MFmt) (i : Nat) : List (Nat × Nat) :=
  [(d.b + i * d.bs, d.row f), (d.e + i * d.bs / 16, d.exps f)].filter (fun p => p.2 ≠ 0)

/-- The 64 KiB pages of the ranges, in order. -/
def DotDesc.pages (d : DotDesc) (f : MFmt) : List Nat :=
  sortOnce ((List.range d.n).flatMap (fun i => (d.spans f i).flatMap (fun p =>
    (List.range ((p.1 + p.2 - 1) / 65536 - p.1 / 65536 + 1)).map (p.1 / 65536 + ·))))

/-- Whether a die belongs to the logical device of a group (R121). -/
def State.ownDie (s : State) (g die : Nat) : Bool :=
  let d := coreDie (s.coreOf g)
  die = d || ((s.part (s.partOf g)).pair && die = pairDie d)

/-- What the translation of B comes to: pages to walk, a fault, ADDR_RANGE, or the stack (R121, R295). -/
inductive StackRes where
  | walk (l : List (Nat × Bool))
  | fault (r : Reach)
  | range (a : Nat)
  | ok (stack : Nat)

def State.stackOf (s : State) (g : Nat) : List Nat → Option Nat → StackRes
  | [], st => .ok (st.getD 0)
  | p :: ps, st =>
    let va := p * 65536
    if inWindow va then .range va
    else
      match s.xlatVa g va false with
      | .walk q => .walk [(q, false)]
      | .fault cls lv gpa s2 => .fault (.fault cls lv va gpa s2)
      | .ok x =>
        let spa := x.out + va % 2 ^ x.pbits
        let k := spaStack spa
        if x.host || !s.ownDie g (spaDie spa) || (st.isSome && st ≠ some k) then .range va
        else s.stackOf g ps (some k)

/-- The fault of SDOT's checks 1 to 5 (R295). -/
def State.sdotFault (s : State) (o : SdotOp) (d : DotDesc) : Option Nat :=
  let f := dotFmt o.ty
  let t := s.myTeam
  let tiles := [(t, o.a.toNat), (t, o.d.toNat)] ++ (if f = .de8 then [(t, d.tea)] else [])
  if !d.legal f then some 4
  else if !s.tilesOk tiles then some 4
  else if (s.tile t o.a.toNat).tag ≠ o.ty || (f = .de8 && (s.tile t d.tea).tag ≠ .b32) ||
      (s.tile t o.d.toNat).tag ≠ (if f = .i8 then Tag.i32 else .f32) then some 2
  else if !(s.tile t o.d.toNat).room (4 * d.n) then some 12
  else if (d.spans f (d.n - 1)).any (fun p => 2 ^ 57 < p.1 + p.2) then some 12
  else if s.ctrFull s.cur o.c.val then some 11
  else none

/-- SDOT at issue (R295). (DEDUCED, log 57.) -/
def execSdot (o : SdotOp) (s : State) : Host.Outcome State Fault Refusal :=
  .next (s.noRegion (fun s => s.fullMask (fun s =>
    let l := (List.range 8).map (fun i => (s.rdS s.cur (o.b.toNat + i)).toNat)
    let d := dotDesc l
    let f := dotFmt o.ty
    let t := s.myTeam
    match s.sdotFault o d with
    | some cls => s.raise (plainFault cls) s.active
    | none =>
      match s.stackOf s.cur (d.pages f) none with
      | .walk q => s.holdWord ⟨q, [], [], [], []⟩
      | .range a => (s.modGrp s.cur Group.settled).raise { plainFault 12 with addr := BitVec.ofNat 64 a } s.active
      | .fault r => s.settle [(0, r)] 0 (fun _ => 0) false false 0 s.active
      | .ok stack =>
        let s := s.modGrp s.cur Group.settled
        let (claims, s) := s.reserveAll [(t, o.d.toNat, 4 * d.n)]
        let reads : List Claim := (t, o.a.toNat, 0, 0) :: (if f = .de8 then [(t, d.tea, 0, 0)] else [])
        (s.issueOp { s.baseOp .sdot o.c.val with arg := l ++ [stack, o.a.toNat], ty := o.ty, resv := claims ++ reads } []).2)))

/-- Keys of an SDOT: block i of A and its exponents; the snapshot of a sector of B and its mark. -/
def dotA (i : Nat) : Nat := 1000 + i
def dotE (i : Nat) : Nat := 5000 + i
def dotSec (n : Nat) : Nat := 2 ^ 60 + 2 * n

/-- A leaves for the Mica units once its tiles hold it (R296). -/
def execSdotDispatch (op : Nat) (s : State) : Host.Outcome State Fault Refusal :=
  let o := s.op op
  let d := dotDesc o.arg
  let f := dotFmt o.ty
  let t := o.team
  let a := (o.arg[9]?).getD 0
  .next (if !(o.kind = .sdot && s.engineRuns o && o.stage = 0 && d.row f ≤ (s.tile t a).wptr &&
      d.exps f ≤ (s.tile t d.tea).wptr) then s
    else if s.tilePoison t a 0 (max 1 (d.row f)) then
      s.engineStop op { plainFault 18 with addr := BitVec.ofNat 64 (s.tile t a).start }
    else if f = .de8 && s.tilePoison t d.tea 0 (max 1 (d.exps f)) then
      s.engineStop op { plainFault 18 with addr := BitVec.ofNat 64 (s.tile t d.tea).start }
    else
      let blocks := List.range (d.k / mLen f)
      let els := blocks.map (fun i => (dotA i, leNat (s.tileBytes t a (32 * i) 32)))
      let exps := if f = .de8 then blocks.map (fun i => (dotE i, leNat (s.tileBytes t d.tea (2 * i) 2))) else []
      let (seq, s) := s.fresh
      s.setOp op { o with stage := 1, dst := seq, res := FMap.setMany (FMap.setMany o.res els) exps })

/-- The sectors of a span are read, each once, as a whole (R121); a sector that is no longer in the operation's stack raises
ADDR_RANGE (R295, R430). -/
def State.snapSector (s : State) (id va : Nat) : Option (Except Raise Unit) × State :=
  let n := va / 256
  if FMap.get (s.op id).res (dotSec n + 1) = 1 then (some (.ok ()), s)
  else
    match s.engReach id va 1 false with
    | (some (.fault cls level addr gpa s2), s) =>
      (some (.error { plainFault cls with level, addr := BitVec.ofNat 64 addr, gpa, stage2 := s2 }), s)
    | (some (.at (.hbm spa _)), s) =>
      let o := s.op id
      let stack := (o.arg[8]?).getD 8
      let s := if stack = 8 then s.setOp id { o with arg := o.arg.set 8 (spaStack spa) } else s
      if !s.ownDie o.grp (spaDie spa) || (stack ≠ 8 && stack ≠ spaStack spa) then
        (some (.error { plainFault 12 with addr := BitVec.ofNat 64 va }), s)
      else
        let (ok, s) := s.forceLine (lineOf spa) outside false
        if !ok then (none, s)
        else
          let s := (s.recall 4 (lineOf spa)).l2Clean (spa - spa % 256) 256
          let v := leNat (s.loadBytes outside (spa - spa % 256) 256)
          (some (.ok ()), s.modOp id (fun o => { o with res := FMap.set (FMap.set o.res (dotSec n) v) (dotSec n + 1) 1 }))
    | (_, s) => (none, s)

/-- Every 64-byte granule a row needs, in address order; the snapshots they lie in. -/
def State.snapRow (s : State) (id : Nat) : List Nat → Option (Except Raise Unit) × State
  | [] => (some (.ok ()), s)
  | a :: l =>
    match s.engReach id a 1 false with
    | (none, s) => (none, s)
    | (some (.fault cls level addr gpa s2), s) =>
      (some (.error { plainFault cls with level, addr := BitVec.ofNat 64 addr, gpa, stage2 := s2 }), s)
    | (some _, s) =>
      match s.snapSector id a with
      | (some (.ok _), s) => s.snapRow id l
      | r => r

/-- n bytes at a virtual address from the snapshots. -/
def Op.snapNat (o : Op) (va n : Nat) : Nat :=
  leNat ((List.range n).map (fun i => BitVec.ofNat 8 (FMap.get o.res (dotSec ((va + i) / 256)) / 2 ^ (8 * ((va + i) % 256)))))

/-- The result of a row (R173). -/
def Op.rowResult (o : Op) (d : DotDesc) (f : MFmt) (i : Nat) : Nat :=
  chain f f ((List.range (d.k / mLen f)).map (fun j =>
    let ex := if f = .de8 then o.snapNat (d.e + i * d.bs / 16 + 2 * j) 2 else 0
    (⟨blockElems f (FMap.get o.res (dotA j)), FMap.get o.res (dotE j)⟩,
     ⟨blockElems f (o.snapNat (d.b + i * d.bs + 32 * j) 32), ex⟩)))

/-- The next row's result enters the destination tile; the stack serves its SDOTs in order of arrival (R172 to R174). -/
def execMicaRowResult (op : Nat) (s : State) : Host.Outcome State Fault Refusal :=
  let o := s.op op
  let d := dotDesc o.arg
  let f := dotFmt o.ty
  let first := s.ops.all (fun p => !(p.2.live && p.2.kind = .sdot && p.2.stage = 1 && !p.2.flag && p.2.arg[8]? = o.arg[8]? &&
    p.2.dst < o.dst))
  .next (if !(o.kind = .sdot && s.engineRuns o && o.stage = 1 && o.width < d.n && first) then s
    else
      let i := o.width
      let grans := (d.spans f i).flatMap (fun p =>
        (List.range ((p.1 + p.2 - 1) / 64 - p.1 / 64 + 1)).map (fun j => max p.1 ((p.1 / 64 + j) * 64)))
      match s.snapRow op grans with
      | (none, s) => s
      | (some (.error r), s) => s.engineStop op r
      | (some (.ok _), s) =>
        let v := (s.op op).rowResult d f i
        let s := match (s.op op).resv.head? with
          | some c => s.land c (4 * i) (leBytes 4 v)
          | none => s
        let low := dotSec ((d.b + (i + 1) * d.bs) / 256)
        let lowE := dotSec ((d.e + (i + 1) * d.bs / 16) / 256)
        (s.modOp op (fun o => { o with
          width := i + 1, flag := i + 1 = d.n
          res := o.res.filter (fun p => p.1 < 2 ^ 60 || low ≤ p.1 || (f = .de8 && lowE ≤ p.1)) })).sweepEngines)

end Sys2Proof.Machine
end

