-- ==== Sys2Proof/Machine/Matrix.lean ====
section
/-!
DEFINITION. The matrix queue, the array and MSM (R151 to R163, R297 to R316), gangs, the rendezvous latch and bond leases
(R158, R164 to R168, R301 to R303). A pass lands a row when it enters the row: the steps between are timing.
-/
namespace Sys2Proof.Machine
open Sys2Proof

/-! ### The core of the word in issue -/

def State.matrixOf (s : State) (core : Nat) : Matrix := (s.coreRec core).matrix
def State.modMatrix (s : State) (core : Nat) (f : Matrix → Matrix) : State :=
  s.modCore core (fun c => { c with matrix := f c.matrix })
/-- The key under which a saved team's matrix state stands among the cores. -/
def savedMatrix (team : Nat) : Nat := 1000 + team
/-- Where a team's matrix state stands: at its core, or with its saved context (R297). -/
def State.matrixKey (s : State) (t : Nat) : Nat := if (s.team t).halt = .saved then savedMatrix t else (s.team t).core
def State.myCore (s : State) : Nat := s.coreOf s.cur
def State.myMatrix (s : State) : Matrix := s.matrixOf s.myCore

/-! ### Bonds (R158, R164) -/

/-- The held bond that covers a group's core. -/
def State.heldBond (s : State) (g : Nat) : Option (Nat × Bond) :=
  let c := s.clusterOf g
  s.bonds.find? (fun p => p.2.state = .held && p.2.cluster = c && p.2.covers (s.cluster c).cols (s.grp g).crank)

/-- The bond held or forming that a group's GANG names. -/
def State.gangBond (s : State) (g : Nat) : Option BondState :=
  if !gangValid (s.grp g).gang.toNat then none
  else
    let b := s.bondAt (s.gangKey g)
    if b.state = .held || b.state = .forming then some b.state else none

/-- The cluster ranks of a bond, row by row. -/
def Bond.ranks (b : Bond) (cols : Nat) : List Nat :=
  (List.range b.rows).flatMap (fun r => (List.range b.cols).map (fun c => b.origin + r * cols + c))

/-- The teams of a bond, row by row. -/
def State.bondTeams (s : State) (b : Bond) : List Nat :=
  let cl := s.cluster b.cluster
  (b.ranks cl.cols).map (fun r => (cl.teams[r]?).getD 0)
def State.bondCores (s : State) (b : Bond) : List Nat := (s.bondTeams b).map (fun t => (s.team t).core)
/-- The member groups; 0 where a team has no such group. -/
def State.bondMembers (s : State) (b : Bond) : List Nat := (s.bondTeams b).map (fun t => ((s.team t).groups[b.gidx]?).getD 0)

/-! ### Leases that become ready (R167, R303) -/

/-- Whether a bond shares a core with a held bond. -/
def State.clashes (s : State) (b : Bond) : Bool :=
  let cores := s.bondCores b
  s.bonds.any (fun p => p.2.state = .held && (s.bondCores p.2).any (· ∈ cores))

/-- Whether a complete BOND may become HELD: empty queues, no held bond on its cores (R303). -/
def State.bondReady (s : State) (b : Bond) : Bool :=
  b.state = .forming && b.complete && (s.bondCores b).all (fun c => (s.matrixOf c).queue = []) && !s.clashes b

/-- Each complete BOND that has come to satisfy R303 is noted as ready from now on, one that no longer does as not ready
(R167). -/
def State.noteReady (s : State) : State :=
  if s.bonds.all (fun p => s.bondReady p.2 = (p.2.ready ≠ (0, 0))) then s
  else
    let (n, s) := s.fresh
    { s with bonds := s.bonds.map (fun (p : Nat × Bond) =>
        if !s.bondReady p.2 then (p.1, { p.2 with ready := (0, 0) })
        else if p.2.ready = (0, 0) then (p.1, { p.2 with ready := (s.tick + 1, n) })
        else p) }

/-! ### Checks common to the matrix words (R299) -/

/-- Steps 1 to 3 of R299: `ok` gathers what raises ILLEGAL at step 1; `joint` marks a joint word other than BOND. -/
def State.matrixWord (s : State) (ok joint : Bool) (eff : State → State) : State :=
  s.noRegion (fun s =>
    let gr := s.grp s.cur
    if !ok || (s.team gr.team).msmRows = 0 then s.raise (plainFault 4) s.active
    else s.fullMask (fun s =>
      let stranger : Bool := match s.heldBond s.cur with
        | some (_, b) => b.gidx ≠ gr.idx
        | none => false
      if stranger || (joint && gangValid gr.gang.toNat && s.gangBond s.cur = none) then s.raise (plainFault 10) s.active
      else eff s))

/-- A row scalar: FIRST and COUNT (R307); its res0 bits. -/
def rowFirst (v : Word) : Nat := bitsOf v.toNat 11 0
def rowCount (v : Word) : Nat := bitsOf v.toNat 23 12 + 1
def rowOk (v : Word) : Bool := bitsOf v.toNat 31 24 = 0

/-- Whether MSM rows lie within the allocation of the word's team (R71). -/
def State.msmRange (s : State) (wide : Bool) (v : Word) : Bool :=
  rowFirst v + rowCount v ≤ (s.team s.myTeam).msmRowsIn wide

/-- The first of a list of checks that fails. -/
def firstFault (l : List (Bool × Nat)) : Option Nat := (l.find? (fun p => !p.1)).map (·.2)

/-! ### Operations and the queue (R298) -/

/-- An operation of a matrix word of a group. -/
def State.opFor (s : State) (g off : Nat) (kind : OpKind) (ctr : Nat) : Op :=
  { (default : Op) with live := true, kind, grp := g, team := (s.grp g).team, core := s.coreOf g, off, ctr }

/-- A word enters a core's queue: an MCFG changes the configuration of later words, an MFLIP the select bit (R304,
R306). An MCFG's own entry keeps the configuration before it, for a bond that breaks (R166). -/
def State.accept (s : State) (core : Nat) (e : MEntry) : State :=
  s.modMatrix core (fun m =>
    match decode e.word with
    | .ok (.mcfg af bf) =>
      { m with af := af, bf := bf, queue := m.queue ++ [{ e with af := m.af, bf := m.bf, sel := m.sel }] }
    | .ok .mflip => { m with sel := !m.sel, queue := m.queue ++ [{ e with af := m.af, bf := m.bf, sel := !m.sel }] }
    | _ => { m with queue := m.queue ++ [{ e with af := m.af, bf := m.bf, sel := m.sel }] })

def State.queueFull (s : State) (core : Nat) : Bool := 16 ≤ (s.matrixOf core).queue.length

/-- A word that is not joint enters the queue of its core, or is held while the queue is full (R298). `op` issues its
operation. -/
def State.enqueue (s : State) (row : Word) (fill : DWord) (op : State → Nat × State) : State :=
  if s.queueFull s.myCore then s.holdAgain
  else
    let (id, s) := op s
    (s.accept s.myCore { (default : MEntry) with word := s.iss.word, grp := s.cur, op := id, row, fill }).noteReady

/-- Claims of tiles a word reads. -/
def readClaims (t : Nat) (l : List Nat) : List Claim := l.map (fun n => (t, n, 0, 0))

/-- Issues an MSTREAM of a member: only members of bond column 0 name their tiles (R302). -/
def State.streamOp (s : State) (g off : Nat) (o : MStream) (af : MFmt) (feeds : Bool) : Nat × State :=
  let t := (s.grp g).team
  let tiles := if feeds then o.a.toNat :: (if mExp af = 0 then [] else [o.e.toNat]) else []
  s.issueOp { s.opFor g off .mstream o.c.val with resv := readClaims t tiles } []

/-! ### GANG (R301) -/

/-- Whether a group is a member of a held or forming bond: one that its own GANG names (R164, R303). (DEDUCED, log 140.) -/
def State.inBond (s : State) (g : Nat) : Bool := (s.gangBond g).isSome

def State.setGang (s : State) (v : BitVec 32) : State := s.modGrp s.cur (fun gr => { gr with gang := v, joint := 0 })

def execGangSet (gidx : BitVec 5) (bc : BitVec 4) (br : BitVec 2) (origin : BitVec 4) (s : State) :
    Host.Outcome State Fault Refusal :=
  let gr := s.grp s.cur
  let cl := s.cluster (s.clusterOf s.cur)
  let b : Bond := { (default : Bond) with origin := origin.toNat, rows := br.toNat, cols := bc.toNat }
  let n := br.toNat * bc.toNat
  let ok : Bool := 2 ≤ n && n ≤ 12 && origin.toNat < cl.rows * cl.cols && origin.toNat / cl.cols + br.toNat ≤ cl.rows &&
    origin.toNat % cl.cols + bc.toNat ≤ cl.cols && gidx.toNat = gr.idx && b.covers cl.cols gr.crank && !s.inBond s.cur
  .next (s.matrixWord ok false (fun s => s.setGang (0#16 ++ 1#1 ++ gidx ++ bc ++ br ++ origin : BitVec (16+1+5+4+2+4))))

def execGangClear (s : State) : Host.Outcome State Fault Refusal :=
  .next (s.matrixWord (!s.inBond s.cur) false (fun s => s.setGang 0))

/-! ### The latch (R165, R302) -/

/-- An arrival at a latch: group, word, GANG value, row scalar, offset. -/
abbrev Arrival : Type := Nat × DWord × Nat × Nat × Nat

/-- The joint fields of an arrival (R302). -/
def jointFields (a : Arrival) : List Nat :=
  let w := a.2.1.toNat
  [bitsOf w 62 56, w % 65536, a.2.2.1, if bitsOf w 62 56 = 0x74 then a.2.2.2.1 else 0]

/-- The planes that lanes of a group occupy in its snapshot. -/
def Group.occupied (gr : Group) : Nat := planeBits gr.occupiedPlanes

/-- BOND_MISMATCH at a group that had arrived, with its own offset (R165). -/
def State.faultArrival (s : State) (a : Arrival) : State :=
  (s.modGrp a.1 Group.rewindOne).faultPark a.1 (plainFault 10) a.2.2.2.2 (s.grp a.1).occupied false false false

/-- A bond whose latch groups have left: a forming one that no arrival is left of is FREE, which R167's table does not say.
(DESIGN CHOICE, log 157.) -/
def State.leaveLatch (s : State) (gone : List Nat) : State :=
  let left := s.bonds.map (fun (p : Nat × Bond) =>
    if p.2.latch.any (fun a => a.1 ∈ gone) then
      (p.1, { p.2 with latch := p.2.latch.filter (fun a => a.1 ∉ gone), complete := false, ready := (0, 0) })
    else p)
  { s with bonds := left.filter (fun p => p.2.state ≠ .forming || p.2.latch ≠ []) }

/-- BOND_MISMATCH at every arrival of a list; the latches they stood at lose them (R165). A FORMING bond left without
arrivals is FREE. (DESIGN CHOICE, log 157.) -/
def State.mismatch (s : State) (l : List Arrival) : State :=
  l.foldl (fun s a => s.faultArrival a) (s.leaveLatch (l.map (·.1)))

/-- The latch releases its members; the instruction counts at each (R165). -/
def State.release (s : State) (key : Nat) : State :=
  let b := s.bondAt key
  let s := { s with bonds := FMap.set s.bonds key { b with latch := [], complete := false, ready := (0, 0) } }
  b.latch.foldl (fun s a => s.modGrp a.1 (fun gr =>
    if gr.park = .gang then { gr with park := .running, parkArg := 0, joint := (gr.joint + 1) % 2 ^ 32 } else gr)) s

/-- Whether some core of a bond still holds a joint entry of it. -/
def State.jointPending (s : State) (key : Nat) (b : Bond) : Bool :=
  (s.bondCores b).any (fun c => (s.matrixOf c).queue.any (fun e => e.bond = key && e.jid ≠ 0))

/-- The joint instruction of a complete latch is performed once for the bond, when every core has a free entry; UNBOND when
every earlier joint operation has landed; BOND has a step of its own (R165, R168, R298, R303). -/
def State.tryLatch (s : State) (key : Nat) : State :=
  let b := s.bondAt key
  if !b.complete then s
  else
    match decode ((b.latch.head?).map (·.2.1) |>.getD 0) with
    | .ok .bond => s
    | .ok .unbond =>
      if s.jointPending key b then s
      else
        let s := s.release key
        let s := (b.latch.map (·.1)).foldl (fun s g => s.modGrp g (fun gr => { gr with gang := 0 })) s
        { s with bonds := FMap.del s.bonds key }
    | .ok _ =>
      if (s.bondCores b).any s.queueFull then s
      else
        let (jid, s) := s.fresh
        let cols := (s.cluster b.cluster).cols
        let s := b.latch.foldl (fun s a =>
          let (g, w, _, row, off) := a
          let core := s.coreOf g
          let (id, s) := match decode w with
            | .ok (.mstream o) =>
              s.streamOp g off o (s.matrixOf core).af ((s.grp g).crank % cols = b.origin % cols)
            | _ => (0, s)
          s.accept core { (default : MEntry) with word := w, grp := g, op := id, bond := key, jid, row := BitVec.ofNat 32 row }) s
        s.release key
    | .error _ => s

/-- Every complete latch is tried: an entry has left a queue, or a bond its links. -/
def State.pumpLatches (s : State) : State := ((s.bonds.map (·.1)).foldl (fun s k => s.tryLatch k) s).noteReady

/-- The k-th arrival of a group, at whichever latch its GANG took it to, while that latch waits (R165). -/
def State.arrivalOf (s : State) (k g : Nat) : Option Arrival :=
  if (s.grp g).joint = k then (s.bonds.filter (fun p => !p.2.complete)).findSome? (fun p => p.2.latch.find? (fun a => a.1 = g))
  else none

/-- The arrivals of every member of a bond whose latch waits, if all have arrived at their k-th joint instruction (R165). -/
def State.meeting (s : State) (b : Bond) : Option (List Arrival) :=
  match b.latch with
  | [] => none
  | a :: _ => if b.complete then none else (s.bondMembers b).mapM (s.arrivalOf (s.grp a.1).joint)

/-- A latch has a new arrival. Where every member of its bond has arrived with equal joint fields, the instruction is
performed, or, for a BOND over a held bond's cores, raises BOND_MISMATCH; else every bond whose members have all
arrived, with fields that differ, raises it (R165, R167). (DEDUCED, log 62.) -/
def State.meet (s : State) (key : Nat) : State :=
  let b := s.bondAt key
  let f := (b.latch.head?).map jointFields
  let all : Bool := (s.bondMembers b).all (fun m => b.latch.any (fun a => a.1 = m)) && b.latch.all (fun a => some (jointFields a) = f)
  if all then
    if (b.latch.head?).any (fun a => decode a.2.1 = .ok .bond) && s.clashes b then s.mismatch b.latch
    else ({ s with bonds := FMap.set s.bonds key { b with complete := true } }.tryLatch key).noteReady
  else
    (s.bonds.map (·.1)).foldl (fun s k =>
      match s.meeting (s.bondAt k) with
      | some l => s.mismatch l
      | none => s) s

/-- A member arrives and parks, but at a bond that a kill has broken, where every later arrival raises BOND_MISMATCH (R165 to
R167). -/
def State.arriveLatch (s : State) (row : Nat) : State :=
  let g := s.cur
  let n := (s.grp g).gang.toNat
  let key := s.gangKey g
  let b := s.bondAt key
  let live : Bool := b.state = .held || b.state = .forming
  if !live && b.rows ≠ 0 then s.raise (plainFault 10) s.active
  else
    let b := if live then b
      else { (default : Bond) with
        state := .forming, cluster := s.clusterOf g, origin := gangOrigin n, rows := gangRows n, cols := gangCols n
        gidx := gangGidx n }
    let s := s.parkAfter .gang 0
    { s with bonds := FMap.set s.bonds key { b with latch := b.latch ++ [(g, s.iss.word, n, row, s.iss.off)] } }.meet key

/-- A joint word: at the latch of its gang's bond, or on its own core alone (R299). -/
def State.jointWord (s : State) (row : Nat) (alone : State → State) : State :=
  if gangValid (s.grp s.cur).gang.toNat then s.arriveLatch row else alone s

/-! ### BOND and UNBOND (R303) -/

def execBond (s : State) : Host.Outcome State Fault Refusal :=
  .next (s.matrixWord (gangValid (s.grp s.cur).gang.toNat) false (fun s => s.arriveLatch 0))

def execUnbond (s : State) : Host.Outcome State Fault Refusal :=
  .next (s.matrixWord (gangValid (s.grp s.cur).gang.toNat) true (fun s =>
    if s.gangBond s.cur = some .held then s.arriveLatch 0 else s.raise (plainFault 10) s.active))

/-- The physical core of a bond's origin rank. -/
def State.originCore (s : State) (b : Bond) : Nat := ((s.bondCores b).head?).getD 0

/-- Whether a ready gang comes before another that shares a core with it: it was ready at an earlier tick, or both came to be
ready by one event and its origin lies on the lower core. Two events of one tick may lie in either order (R167). -/
def State.bondFirst (s : State) (a b : Bond) : Bool :=
  (s.bondCores a).any (· ∈ s.bondCores b) &&
  (a.ready.1 < b.ready.1 || (a.ready = b.ready && s.originCore a < s.originCore b))

/-- The lease becomes HELD, unless another ready gang on its cores comes first (R167). Of two gangs of one origin and one clock,
which R167 does not order, the one of the lower GROUP goes first. (DESIGN CHOICE, log 63.) -/
def execBondHeld (cluster origin : Nat) (s : State) : Host.Outcome State Fault Refusal :=
  let beaten (b : Bond) : Bool := s.bonds.any (fun p => s.bondReady p.2 && s.bondFirst p.2 b)
  .next (match s.bonds.find? (fun p => p.2.cluster = cluster && p.2.origin = origin && s.bondReady p.2 && !beaten p.2) with
    | none => s
    | some (key, b) =>
      let m := s.matrixOf (s.originCore b)
      let s := (s.bondCores b).foldl (fun s c => s.modMatrix c (fun k => { k with af := m.af, bf := m.bf })) s
      ({ s with bonds := FMap.set s.bonds key { b with state := .held } }.release key).noteReady)

/-! ### MCFG, MFLIP, MSTREAM (R304, R306 to R308) -/

def execMcfg (_af _bf : MFmt) (s : State) : Host.Outcome State Fault Refusal :=
  .next (s.matrixWord true true (fun s => s.jointWord 0 (fun s => s.enqueue 0 0 (fun s => (0, s)))))

def execMflip (s : State) : Host.Outcome State Fault Refusal :=
  .next (s.matrixWord true true (fun s => s.jointWord 0 (fun s => s.enqueue 0 0 (fun s => (0, s)))))

/-- Whether a member's tiles feed the array: always on a core alone, in a gang only in column 0 of its rectangle (R302). -/
def State.feeds (s : State) (g : Nat) : Bool :=
  let n := (s.grp g).gang.toNat
  let cols := (s.cluster (s.clusterOf g)).cols
  !gangValid n || (s.grp g).crank % cols = gangOrigin n % cols

def execMstream (o : MStream) (s : State) : Host.Outcome State Fault Refusal :=
  let m := s.myMatrix
  let row := s.rdS s.cur o.s.toNat
  let n := rowCount row
  let e := mExp m.af
  let ok : Bool := rowOk row && (e ≠ 0 || o.e = 0) && (!o.spr || (m.af = m.bf && m.af ∈ [MFmt.e4m3, .de8]))
  .next (s.matrixWord ok true (fun s =>
    let t := s.myTeam
    let a := s.tile t o.a.toNat
    let x := s.tile t o.e.toNat
    let f : Bool := s.feeds s.cur
    let tiles := (t, o.a.toNat) :: (if e = 0 then [] else [(t, o.e.toNat)])
    match firstFault [
      (s.msmRange (mWide m.af) row, 5),
      (!f || (s.tilesOk tiles && a.rowb = (if o.spr then 19 else 31)), 4),
      (!f || (a.tag = mTag m.af && (e = 0 || x.tag = .b32)), 2),
      (!f || (n ≤ a.rows + 1 && (e = 0 || 64 * e * n ≤ x.bytes)), 12),
      (!s.ctrFull s.cur o.c.val, 11)] with
    | some c => s.raise (plainFault c) s.active
    | none => s.jointWord row.toNat (fun s => s.enqueue row 0 (fun s => s.streamOp s.cur s.iss.off o m.af true))))

/-! ### MSTAT (R305) -/

def execMstat (_t rt : Bool) (a e : TReg) (s : State) : Host.Outcome State Fault Refusal :=
  let m := s.myMatrix
  let k := mExp m.bf
  .next (s.matrixWord (k ≠ 0 || e = 0) false (fun s =>
    let t := s.myTeam
    let ta := s.tile t a.toNat
    let te := s.tile t e.toNat
    let tiles := a.toNat :: (if k = 0 then [] else [e.toNat])
    match firstFault [
      (s.tilesOk (tiles.map (fun n => (t, n))) && ta.rows = 63 && ta.rowb = 31, 4),
      (ta.tag = mTag m.bf && (k = 0 || te.tag = .b32), 2),
      (k = 0 || 4096 * k ≤ te.bytes, 12)] with
    | some c => s.raise (plainFault c) s.active
    | none => s.enqueue 0 0 (fun s =>
        let claims := readClaims t tiles
        let s := claims.foldl (fun s c => s.askReturn rt c) s
        s.issueOp { s.opFor s.cur s.iss.off .mstat 6 with resv := claims } [])))

/-! ### MZERO, MFILL, MDRAIN (R310 to R313) -/

/-- A word that fills rows. -/
def State.fillRows (s : State) (w64 ok : Bool) (row : Word) (fill : DWord) : State :=
  s.matrixWord (rowOk row && ok) false (fun s =>
    if !s.msmRange w64 row then s.raise (plainFault 5) s.active
    else s.enqueue row fill (fun s => (0, s)))

def execMzero (w64 : Bool) (a : SReg) (s : State) : Host.Outcome State Fault Refusal :=
  .next (s.fillRows w64 true (s.rdS s.cur a.toNat) 0)

def execMfill (w64 : Bool) (a b : SReg) (s : State) : Host.Outcome State Fault Refusal :=
  .next (s.fillRows w64 (sPairOk w64 b) (s.rdS s.cur a.toNat) (s.sVal b w64))

/-- Registers an MDRAIN writes. -/
def MDrainR.regs (o : MDrainR) : List Nat := (List.range (if o.ty = .f64 then 4 else 2)).map (o.d.toNat + ·)

/-- MDRAIN to registers (R313): tags at issue, bits at completion. -/
def execMdrain (o : MDrainR) (s : State) : Host.Outcome State Fault Refusal :=
  let row := s.rdS s.cur o.a.toNat
  let w64 : Bool := o.ty = .f64
  let n := if w64 then 4 else 2
  .next (s.matrixWord (rowOk row && rowCount row = 1 && o.d.toNat % n = 0) false (fun s =>
    match firstFault [
      (o.d.toNat + n ≤ 8 * (s.grp s.cur).blocks && s.msmRange (o.src = 2) row, 5),
      (!s.ctrFull s.cur o.c.val, 11)] with
    | some c => s.raise (plainFault c) s.active
    | none => s.enqueue row 0 (fun s =>
        let regs := (List.range n).map (o.d.toNat + ·)
        let s := s.modGrp s.cur (fun gr => regs.foldl (fun gr r => gr.putTag false r (BitVec.allOnes 32) o.ty) gr)
        s.issueOp { s.opFor s.cur s.iss.off .mdrain o.c.val with dst := o.d.toNat, ty := o.ty } regs)))

/-- Tile bytes of a drained row (R312). -/
def drainBytes (ty : Tag) : Nat :=
  match ty with
  | .de8x4 => 64 | .de4x8 => 32 | .e4m3x4 | .e5m2x4 | .i8x4 => 64 | .bf16x2 | .f16x2 => 128 | .f64 => 512 | _ => 256
def drainDe (ty : Tag) : Bool := ty = .de8x4 || ty = .de4x8

/-- MDRAIN to a tile (R313). -/
def execMdrainT (o : MDrainT) (s : State) : Host.Outcome State Fault Refusal :=
  let row := s.rdS s.cur o.a.toNat
  let n := rowCount row
  let de : Bool := drainDe o.ty
  .next (s.matrixWord (rowOk row) false (fun s =>
    let t := s.myTeam
    let needs := (t, o.d.toNat, n * drainBytes o.ty) :: (if de then [(t, o.e.toNat, 4 * n)] else [])
    match firstFault [
      (s.msmRange (o.src = 2) row, 5),
      (s.tilesOk (needs.map (fun p => (p.1, p.2.1))), 4),
      ((s.tile t o.d.toNat).tag = o.ty && (!de || (s.tile t o.e.toNat).tag = .b32), 2),
      (needs.all (fun p => (s.tile p.1 p.2.1).room p.2.2), 12),
      (!s.ctrFull s.cur o.c.val, 11)] with
    | some c => s.raise (plainFault c) s.active
    | none => s.enqueue row 0 (fun s =>
        let (claims, s) := s.reserveAll needs
        s.issueOp { s.opFor s.cur s.iss.off .mdrainT o.c.val with ty := o.ty, resv := claims } [])))

/-! ### MSTATUS (R314) -/

/-- Whether a bond's cores lie on both sides of the seam (R160). -/
def State.crossesSeam (s : State) (b : Bond) : Bool :=
  let dies := (s.bondCores b).map coreDie
  dies.any (fun d => some d ≠ dies.head?)

def State.statusWord (s : State) : Word :=
  let g := s.cur
  let m := s.myMatrix
  let c := s.clusterOf g
  let cols := (s.cluster c).cols
  let r := (s.grp g).crank
  let cover (st : BondState) : Option Bond :=
    (s.bonds.find? (fun p => p.2.state = st && p.2.cluster = c && p.2.covers cols r)).map (·.2)
  let (st, b) := match cover .held, cover .forming with
    | some b, _ => (2, some b)
    | none, some b => (1, some b)
    | none, none => (0, none)
  let place := match b with
    | none => 0
    | some b => (r % cols - b.origin % cols) * 2 ^ 20 + (r / cols - b.origin / cols) * 2 ^ 18 + (if s.crossesSeam b then 2 ^ 17 else 0)
  BitVec.ofNat 32 (st * 2 ^ 24 + place + (if m.sel then 2 ^ 16 else 0) + m.queue.length * 2 ^ 11 +
    m.bf.code.toNat * 16 + m.af.code.toNat)

def execMstatus (d : SReg) (c : CReg) (s : State) : Host.Outcome State Fault Refusal :=
  .next (s.matrixWord true false (fun s =>
    if s.ctrFull s.cur c.val then s.raise (plainFault 11) s.active
    else
      let v := s.statusWord
      (s.issueOp { s.baseOp .mstatus c.val with dst := d.toNat, width := 4, res := FMap.set [] 0 v.toNat } [sPlace d.toNat]).2))

/-! ### Entries at work (R298, R305, R310, R313) -/

/-- The kinds of entries that matter to their order. -/
def MEntry.isStream (e : MEntry) : Bool := majorOf e.word = 0x74
def MEntry.isStat (e : MEntry) : Bool := majorOf e.word = 0x73 && bitsOf e.word.toNat 15 12 = 0
def MEntry.isFlip (e : MEntry) : Bool := majorOf e.word = 0x73 && bitsOf e.word.toNat 15 12 = 1
def MEntry.isCfg (e : MEntry) : Bool := majorOf e.word = 0x72

/-- Whether an entry may start behind the entries before it (R153, R298). (DEDUCED, log 61.) -/
def MEntry.may (e : MEntry) (before : List MEntry) : Bool :=
  before.all (·.begun) &&
  (if e.isCfg then true
   else if e.isFlip then !before.any (·.isStat)
   else if e.isStat then !before.any (fun b => b.isStat || (b.isStream && b.sel ≠ e.sel))
   else if e.isStream then !before.any (fun b => b.isStream && b.progress < rowCount b.row)
   else before = [])

/-- The first entry of a queue that has not begun, with those before it. -/
def nextEntry (before : List MEntry) : List MEntry → Option (List MEntry × MEntry)
  | [] => none
  | e :: t => if e.begun then nextEntry (before ++ [e]) t else some (before, e)

def State.setQueueOf (s : State) (core : Nat) (q : List MEntry) : State := s.modMatrix core (fun m => { m with queue := q })

/-- An entry of a queue is replaced, or leaves it; a latch may then be released. -/
def State.updEntry (s : State) (core : Nat) (e e' : MEntry) : State :=
  s.setQueueOf core ((s.matrixOf core).queue.map (fun x => if x = e then e' else x))
def State.dropEntry (s : State) (core : Nat) (e : MEntry) : State :=
  (s.setQueueOf core ((s.matrixOf core).queue.erase e)).pumpLatches

/-- Rows of MSM as an entry names them are poisoned. -/
def State.msmBad (s : State) (t : Nat) (wide : Bool) (first n : Nat) : Bool :=
  let k := if wide then 2 else 1
  (List.range (k * n)).any (fun i => FMap.get (s.team t).msmPoison (k * first + i))

/-- Fills rows and clears their poison. -/
def Team.fill (t : Team) (wide : Bool) (first n v : Nat) : Team :=
  (List.range n).foldl (fun t i =>
    let t := (List.range 64).foldl (fun t j => t.msmSet wide (first + i) j v) t
    { t with msmPoison := FMap.fill t.msmPoison (if wide then [2 * (first + i), 2 * (first + i) + 1] else [first + i]) false }) t

/-- The tag of an MSM view. -/
def viewTag (src : Nat) : Tag := match src with | 0 => .f32 | 1 => .i32 | _ => .f64

/-- The conversion of a drained element (R312). -/
def drainElem (src : Nat) (ty : Tag) (r : Rnd) (sat : Bool) (v : Nat) : Nat :=
  if viewTag src = ty then v else cvtElem (viewTag src) ty r sat v

/-- A register-form drain delivers its row (R313). -/
def State.drainRegs (s : State) (id t first : Nat) (o : MDrainR) : State :=
  let wide : Bool := o.src = 2
  let v (j : Nat) : Nat := drainElem o.src.toNat o.ty o.rnd o.sat ((s.team t).msmGet wide first j)
  let g := (s.op id).grp
  let put (gr : Group) (r : Nat) (f : Nat → Nat) : Group := gr.putV r (~~~gr.exited) (fun l => BitVec.ofNat 32 (f l))
  let s := s.modGrp g (fun gr =>
    if o.ty = .f64 then
      put (put (put (put gr o.d.toNat v) (o.d.toNat + 1) (fun l => v l / 2 ^ 32)) (o.d.toNat + 2) (fun l => v (32 + l)))
        (o.d.toNat + 3) (fun l => v (32 + l) / 2 ^ 32)
    else put (put gr o.d.toNat v) (o.d.toNat + 1) (fun l => v (32 + l)))
  s.endOp id

/-- The bytes of a drained row for the tile, and for its exponent tile (R312, R313). -/
def State.drainRow (s : State) (t k : Nat) (o : MDrainT) : List Byte × List Byte :=
  let v (j : Nat) : Nat := (s.team t).msmGet (o.src = 2) k j
  if drainDe o.ty then
    let half (h : Nat) : List Byte × List Byte :=
      let (e0, e1, els) := packBlock (o.ty = .de4x8) o.delta.toNat ((List.range 32).map (fun j => fF32.val (v (32 * h + j))))
      let w := if o.ty = .de4x8 then 4 else 8
      (leBytes (4 * w) ((els.zipIdx).foldl (fun acc p => acc + p.1 * 2 ^ (w * p.2)) 0), [BitVec.ofNat 8 e0, BitVec.ofNat 8 e1])
    ((half 0).1 ++ (half 1).1, (half 0).2 ++ (half 1).2)
  else
    ((List.range 64).flatMap (fun j => leBytes (drainBytes o.ty / 64) (drainElem o.src.toNat o.ty o.rnd o.sat (v j))), [])

/-- A tile drain writes its next row; after the last it leaves the queue and waits for WPTR (R313). -/
def State.drainTile (s : State) (core : Nat) (e : MEntry) (o : MDrainT) : State :=
  let op := s.op e.op
  let k := e.progress
  let (el, ex) := s.drainRow op.team (rowFirst e.row + k) o
  let s := ((op.resv.zip [el, ex])).foldl (fun s p => s.land p.1 (k * p.2.length) p.2) s
  if k + 1 = rowCount e.row then
    ((s.dropEntry core e).modOp e.op (fun o => { o with flag := true })).sweepEngines
  else (s.updEntry core e { e with progress := k + 1 }).sweepEngines

/-- The next waiting entry of a core's queue performs, or starts (R298). -/
def execMatrixEntryPerform (core : Nat) (s : State) : Host.Outcome State Fault Refusal :=
  let m := s.matrixOf core
  let start (e : MEntry) : State := s.updEntry core e { e with begun := true }
  .next (if (s.team m.team).halt ≠ .running then s
    else
      match nextEntry [] m.queue with
      | none => s
      | some (before, e) =>
        let t := (s.grp e.grp).team
        let halted : Bool := e.op ≠ 0 && (s.op e.op).stopped
        if halted || !e.may before then s
        else
          match decode e.word with
          | .ok (.mcfg _ _) => s.dropEntry core e
          | .ok .mflip => s.dropEntry core e
          | .ok (.mzero w64 _) => (s.modTeam t (fun k => k.fill w64 (rowFirst e.row) (rowCount e.row) 0)).dropEntry core e
          | .ok (.mfill w64 _ _) =>
            (s.modTeam t (fun k => k.fill w64 (rowFirst e.row) (rowCount e.row) e.fill.toNat)).dropEntry core e
          | .ok (.mdrain o) =>
            if s.msmBad t (o.src = 2) (rowFirst e.row) 1 then s.engineStop e.op { plainFault 18 with addr := poisonAddr }
            else (s.drainRegs e.op t (rowFirst e.row) o).dropEntry core e
          | .ok (.mdrainT o) =>
            if e.progress = 0 && s.msmBad t (o.src = 2) (rowFirst e.row) (rowCount e.row) then
              s.engineStop e.op { plainFault 18 with addr := poisonAddr }
            else s.drainTile core e o
          | _ => start e)

/-! ### The loader (R153, R155, R305) -/

def peKey (buf : Bool) (i j : Nat) : Nat := (if buf then 4096 else 0) + 64 * i + j

/-- The K-block that tile row q brings to the p-th PE it fills: the PE's place, and its bits (R155). -/
def peOfRow (nmajor : Bool) (f : MFmt) (row q p : Nat) : (Nat × Nat) × Nat :=
  let w := mBits f
  if nmajor then ((p, q), row / 2 ^ (256 * p) % 2 ^ 256)
  else ((q, p), (List.range (mLen f)).foldl (fun acc t => acc + (row / 2 ^ (w * (64 * t + p)) % 2 ^ w) * 2 ^ (w * t)) 0)

/-- The loader reads the next row of the MSTAT in progress, or, after the last, its exponents, and the load completes. An exponent
field of DE8 keeps nothing in its upper half, and a format without exponents leaves the fields alone. (DESIGN CHOICE, log 154.) -/
def execMstatRowRead (core : Nat) (s : State) : Host.Outcome State Fault Refusal :=
  let m := s.matrixOf core
  .next (match m.queue.find? (fun e => e.isStat && e.begun) with
    | none => s
    | some e =>
      let o := s.op e.op
      match decode e.word with
      | .ok (.mstat nmajor _ a x) =>
        let q := e.progress
        let buf := !e.sel
        if !s.engineRuns o then s
        else if q < 64 then
          if (s.tile o.team a.toNat).wptr < 2048 * (q + 1) then s
          else if s.tilePoison o.team a.toNat (2048 * q) 2048 then
            s.engineStop e.op { plainFault 18 with addr := BitVec.ofNat 64 ((s.tile o.team a.toNat).start + 2048 * q) }
          else
            let row := leNat (s.tileBytes o.team a.toNat (2048 * q) 2048)
            let cells := (List.range 64).map (fun p =>
              let (k, v) := peOfRow nmajor e.bf row q p
              (peKey buf k.1 k.2, BitVec.ofNat 256 v))
            let s := s.modMatrix core (fun m => { m with pe := FMap.setMany m.pe cells })
            let s := s.updEntry core e { e with progress := q + 1 }
            if q = 63 && mExp e.bf = 0 then (s.dropEntry core { e with progress := 64 }).endEngine e.op else s
        else if (s.tile o.team x.toNat).wptr < 4096 * mExp e.bf then s
        else if s.tilePoison o.team x.toNat 0 (4096 * mExp e.bf) then
          s.engineStop e.op { plainFault 18 with addr := BitVec.ofNat 64 (s.tile o.team x.toNat).start }
        else
          let k := mExp e.bf
          let bytes := leNat (s.tileBytes o.team x.toNat 0 (4096 * k))
          let cells := (List.range 4096).map (fun i =>
            let (r, c) := if nmajor then (i % 64, i / 64) else (i / 64, i % 64)
            (peKey buf r c, BitVec.ofNat 32 (bytes / 2 ^ (8 * k * i) % 2 ^ (8 * k))))
          ((s.modMatrix core (fun m => { m with pex := FMap.setMany m.pex cells })).dropEntry core e).endEngine e.op
      | _ => s)

/-! ### A pass (R100, R151 to R163) -/

/-- The parts of a pass: rows and columns of cores, and the cores row by row. -/
structure Pass where
  rows : Nat
  cols : Nat
  cores : List Nat

def State.passOf (s : State) (core : Nat) (e : MEntry) : Pass :=
  if e.jid = 0 then ⟨1, 1, [core]⟩
  else
    let b := s.bondAt e.bond
    ⟨b.rows, b.cols, s.bondCores b⟩

/-- The entry of a pass on one of its cores. -/
def State.partOfPass (s : State) (core : Nat) (e : MEntry) : Option MEntry :=
  (s.matrixOf core).queue.find? (fun x => if e.jid = 0 then x = e else x.jid = e.jid)

/-- What the next A-row of one feeding core comes to: not yet readable, poisoned at an address, or its 64 blocks. -/
inductive FeedRes where
  | wait
  | bad (a : Nat)
  | row (l : List KBlock)

def State.feed (s : State) (e : MEntry) (o : MStream) (m : Nat) : FeedRes :=
  let t := (s.grp e.grp).team
  let k := mExp e.af
  let (n, st) := if o.spr then (1280, 1280) else (2048, 2048)
  if (s.tile t o.a.toNat).wptr < st * (m + 1) || (k ≠ 0 && (s.tile t o.e.toNat).wptr < 64 * k * (m + 1)) then .wait
  else if s.tilePoison t o.a.toNat (st * m) n then .bad ((s.tile t o.a.toNat).start + st * m)
  else if k ≠ 0 && s.tilePoison t o.e.toNat (64 * k * m) (64 * k) then .bad ((s.tile t o.e.toNat).start + 64 * k * m)
  else
    let row := leNat (s.tileBytes t o.a.toNat (st * m) n)
    let ex := if k = 0 then 0 else leNat (s.tileBytes t o.e.toNat (64 * k * m) (64 * k))
    .row ((List.range 64).map (fun i =>
      { els := if o.spr then sparseElems (row / 2 ^ (128 * i) % 2 ^ 128) (row / 2 ^ (8192 + 32 * i) % 2 ^ 32)
               else blockElems e.af (row / 2 ^ (256 * i) % 2 ^ 256)
        ex := ex / 2 ^ (8 * k * i) % 2 ^ (8 * k) }))

/-- The stationary block of a PE under a pass. -/
def State.stationary (s : State) (core : Nat) (sel : Bool) (bf : MFmt) (i j : Nat) : KBlock :=
  let m := s.matrixOf core
  { els := blockElems bf (FMap.get m.pe (peKey sel i j)).toNat, ex := (FMap.get m.pex (peKey sel i j)).toNat }

/-- A landing: M takes one chain, or the two of a split pass (R100). -/
def landing (f : MFmt) (acc spl : Bool) (old : Nat) (bf : MFmt) (l : List (KBlock × KBlock)) : Nat :=
  let m := if acc then old else 0
  if spl then landAdd f (landAdd f m (chain f bf (l.take (l.length / 2)))) (chain f bf (l.drop (l.length / 2)))
  else landAdd f m (chain f bf l)

/-- One A-row through the whole array: its sums land in the bottom cores (R159). -/
def State.landRow (s : State) (p : Pass) (parts : List MEntry) (o : MStream) (a : List (List KBlock)) (e : MEntry) (m : Nat) :
    State :=
  let wide := mWide e.af
  let k := rowFirst e.row + m
  let at' (r c : Nat) : Nat := r * p.cols + c
  (List.range p.cols).foldl (fun s c =>
    let bottom := (p.cores[at' (p.rows - 1) c]?).getD 0
    let t := (s.matrixOf bottom).team
    let col (j : Nat) : Nat :=
      let pairs := (List.range p.rows).flatMap (fun r =>
        let core := (p.cores[at' r c]?).getD 0
        let sel := ((parts[at' r c]?).getD e).sel
        (((a[r]?).getD []).zipIdx).map (fun q => (q.1, s.stationary core sel e.bf q.2 j)))
      landing e.af o.acc o.spl ((s.team t).msmGet wide k j) e.bf pairs
    s.modTeam t (fun tm =>
      let new := (List.range 64).foldl (fun tm j => tm.msmSet wide k j (col j)) tm
      if o.acc then new else { new with msmPoison := FMap.fill new.msmPoison (if wide then [2 * k, 2 * k + 1] else [k]) false })) s

/-- A pass leaves the queues of its cores and its counters fall (R152, R308). -/
def State.endPass (s : State) (p : Pass) (e : MEntry) : State :=
  p.cores.foldl (fun s c =>
    match s.partOfPass c e with
    | none => s
    | some x => (s.dropEntry c x).endEngine x.op) s

/-- The array takes the next A-row of the first pass with rows left; the row lands (R151, R152, R156). (DESIGN CHOICE, log 60.) -/
def execArrayStep (core : Nat) (s : State) : Host.Outcome State Fault Refusal :=
  .next (match (s.matrixOf core).queue.find? (fun e => e.isStream && e.begun && e.progress < rowCount e.row) with
    | none => s
    | some e =>
      match decode e.word with
      | .ok (.mstream o) =>
        let p := s.passOf core e
        let parts := p.cores.filterMap (fun c => s.partOfPass c e)
        if parts.length ≠ p.rows * p.cols || parts.any (fun x =>
            !x.begun || (s.op x.op).stopped || (s.team (s.op x.op).team).halt ≠ .running) then s
        else
          let m := e.progress
          let feeders := (List.range p.rows).filterMap (fun r => parts[r * p.cols]?)
          let feeds : List (MEntry × FeedRes) := feeders.map (fun x =>
            match decode x.word with
            | .ok (.mstream o) => (x, s.feed x o m)
            | _ => (x, .wait))
          match feeds.find? (fun f => match f.2 with
              | .bad _ => true
              | _ => false) with
          | some (x, .bad a) => s.engineStop x.op { plainFault 18 with addr := BitVec.ofNat 64 a }
          | _ =>
            let rows := feeds.filterMap (fun f => match f.2 with
              | .row l => some l
              | _ => none)
            if rows.length ≠ p.rows then s
            else
              let s := s.landRow p parts o rows e m
              let s := p.cores.foldl (fun s c =>
                match s.partOfPass c e with
                | some x => s.updEntry c x { x with progress := m + 1 }
                | none => s) s
              if m + 1 = rowCount e.row then s.endPass p { e with progress := m + 1 } else s
      | _ => s)

/-! ### Breaking a bond (R166) -/

/-- A core's queue without the joint entries of a bond: a dropped MFLIP turns the select bit back for the later
ones. (DEDUCED, log 64.) -/
def dropJoint (key : Nat) (flip : Bool) : List MEntry → List MEntry × Bool
  | [] => ([], flip)
  | e :: t =>
    if e.bond = key && e.jid ≠ 0 then dropJoint key (if e.isFlip then !flip else flip) t
    else
      let (l, f) := dropJoint key flip t
      ({ e with sel := if flip then !e.sel else e.sel } :: l, f)

/-- A member's kill breaks its bond (R166): passes end with the rows that have landed, joint entries are discarded and
their counters fall, the configuration and the select bit stand as if no discarded MCFG or MFLIP had been accepted, members
at the latch raise BOND_MISMATCH, and the links are free; later arrivals raise it too. (DEDUCED, log 141.) -/
def State.breakBond (s : State) (key : Nat) : State :=
  let b := s.bondAt key
  let s := ((s.bondTeams b).map s.matrixKey).foldl (fun s c =>
    let m := s.matrixOf c
    let dead := m.queue.filter (fun e => e.bond = key && e.jid ≠ 0)
    let (q, f) := dropJoint key false m.queue
    let cfg := match dead.find? (·.isCfg) with
      | some e => (e.af, e.bf)
      | none => (m.af, m.bf)
    let s := s.modMatrix c (fun m => { m with queue := q, sel := if f then !m.sel else m.sel, af := cfg.1, bf := cfg.2 })
    dead.foldl (fun s e => if e.op = 0 then s else s.endEngine e.op) s) s
  let s := s.mismatch b.latch
  { s with bonds := FMap.set s.bonds key { (default : Bond) with
      cluster := b.cluster, origin := b.origin, rows := b.rows, cols := b.cols, gidx := b.gidx } }.pumpLatches

end Sys2Proof.Machine
end

