-- ==== Sys2Proof/Machine/Queue.lean ====
section
/-!
DEFINITION. Queues of the hub (R383 to R389), the Frond image and its verifier (R390, R393), and the parts of the Frond
interpreter shared by its words (R391, R392).
-/
namespace Sys2Proof.Machine
open Sys2Proof

/-! ### Longer reads of the hub -/

/-- The next 4 KiB boundary after an address. -/
def pageRoom (va : Nat) : Nat := 4096 - va % 4096

/-- A hub read of n bytes over several pages. -/
def State.hubReadN (s : State) (fn : Nat) : Nat → Nat → Nat → Except TrErr (Option (List Byte)) × State
  | 0, _, _ => (.ok (some []), s)
  | fuel + 1, va, n =>
    if n = 0 then (.ok (some []), s)
    else
      let k := min n (pageRoom va)
      match s.hubReadVa fn va k with
      | (.error e, s) => (.error e, s)
      | (.ok none, s) => (.ok none, s)
      | (.ok (some l), s) =>
        match s.hubReadN fn fuel (va + k) (n - k) with
        | (.ok (some m), s) => (.ok (some (l ++ m)), s)
        | r => r

def State.hubBytes (s : State) (fn va n : Nat) : Except TrErr (Option (List Byte)) × State :=
  s.hubReadN fn (n / 4096 + 2) va n

/-- A dword of a list of bytes. -/
def dwordAt (l : List Byte) (i : Nat) : Nat := leNat ((l.drop (8 * i)).take 8)
/-- n bytes of a list from an offset, as a number. -/
def numAt (l : List Byte) (o n : Nat) : Nat := leNat ((l.drop o).take n)

/-! ### Records for the hypervisor without a parked group (R387) -/

/-- A record of a function's hub access from a source (R348, R387). -/
def State.hubRecord (s : State) (fn q src : Nat) (e : TrErr) (va : Nat) : List Byte :=
  leBytes 1 14 ++ leBytes 1 (16 + (if src = 4 then 1 else 0)) ++ leBytes 1 0 ++ leBytes 1 e.level ++ leBytes 4 q ++ leBytes 4 0 ++
  leBytes 1 0xff ++ leBytes 1 0xff ++ leBytes 1 0 ++ leBytes 1 fn ++ leBytes 8 va ++ leBytes 8 e.gpa ++ leBytes 4 0 ++
  leBytes 4 0 ++ leBytes 8 s.tick ++ leBytes 4 s.hfq.nextId ++ leBytes 12 0

/-! ### Queue state and its status word (R386, R387) -/

def codeDesc : Nat := 1
def codeVerify : Nat := 2
def codeFail : Nat := 3
def codeOverrun : Nat := 4
def codeWindow : Nat := 5
def codeFault : Nat := 6

def QState.num : QState → Nat
  | .disabled => 0
  | .run => 1
  | .wait => 2
  | .error => 3

/-- The status word (R386). -/
def Queue.statusWord (q : Queue) : Nat := q.ridx % 2 ^ 32 * 2 ^ 32 + q.word % 2 ^ 16 * 2 ^ 16 + q.code * 256 + q.state.num

/-- QFAULT with a queue and a source, the queue interrupt, and, for a stage-2 fault, a hypervisor record (R387). -/
def State.noteQueueFault (s : State) (fn q src : Nat) (e : TrErr) (va : Nat) : State :=
  let s := s.modFn fn (fun r => { r with qfault := BitVec.ofNat 64 (2 ^ 63 + src * 256 + q) })
  let s := s.signalIrq (irqQueue fn)
  if e.stage2 then s.hypOwe 0xff 0xff (s.hubRecord fn q src e va) else s

/-- The hub writes a queue's status word; a failed write leaves it unwritten (R386, R387). -/
def State.postStatus (s : State) (fn q : Nat) : State :=
  let qu := s.queue fn q
  match s.hubWriteVa fn qu.stata (leBytes 8 qu.statusWord) 0 0 with
  | .ok s => s
  | .error e => s.noteQueueFault fn q 4 e qu.stata

/-- A queue changes its state. -/
def State.setQState (s : State) (fn q : Nat) (st : QState) (code word : Nat) : State :=
  (s.modQueue fn q (fun u => { u with
    state := st, code, word, active := if st = .disabled || st = .error then false else u.active })).postStatus fn q

/-- A hub access for a queue has failed (R387). (DEDUCED, log 74.) -/
def State.queueFault (s : State) (fn q src : Nat) (e : TrErr) (va : Nat) : State :=
  (s.setQState fn q (if src < 2 then .disabled else .error) codeFault src).noteQueueFault fn q src e va

/-! ### The verifier (R393) -/

/-- The loops of a program: body start, body end (exclusive), runs. -/
def loopAt (ws : List (Option Instr)) (i : Nat) : Option (Nat × Nat × Nat) :=
  match (ws[i]?).join with
  | some (.frondLoop n len) => some (i + 1, i + 1 + len.toNat, n.toNat + 1)
  | _ => none

/-- The loops whose bodies hold a word, outermost first. -/
def loopsOver (ws : List (Option Instr)) (i : Nat) : List (Nat × Nat × Nat) :=
  (List.range ws.length).filterMap (fun j =>
    match loopAt ws j with
    | some l => if l.1 ≤ i && i < l.2.1 then some l else none
    | none => none)

/-- The displacement of a branch word. -/
def branchOf (i : Instr) : Option Nat :=
  match i with
  | .frondBeq o | .frondBne o | .frondBltu o => some o.n.toNat
  | _ => none

/-- Whether a word is acceptable at its place: decoded, windows declared, branch and loop within bounds. -/
def frondWordOk (ws : List (Option Instr)) (nwin i : Nat) : Bool :=
  match (ws[i]?).join with
  | none => false
  | some w =>
    (match w with
     | .frondLdw o | .frondStw o => o.imm.toNat < nwin
     | .frondLoop _ len =>
       let stop := i + 1 + len.toNat
       stop ≤ ws.length && (loopsOver ws i).all (fun l => stop ≤ l.2.1) && (loopsOver ws i).length < 2
     | _ => true) &&
    (match branchOf w with
     | none => true
     | some n => i + 1 + n < ws.length && (loopsOver ws (i + 1 + n)).getLast? = (loopsOver ws i).getLast?)

/-- The longest path from word i to the end of a region, and whether some path leaves the region at its end; at most
`fuel` words deep. A loop's body counts as often as it runs, at its longest path (R393). -/
def pathFrom (ws : List (Option Instr)) (stop : Nat) : Nat → Nat → Nat × Bool
  | 0, _ => (0, true)
  | fuel + 1, i =>
    if stop ≤ i then (0, true)
    else
      match (ws[i]?).join with
      | none => (0, true)
      | some .frondEnd => (1, false)
      | some (.frondFail _) => (1, false)
      | some (.frondLoop n len) =>
        let body := pathFrom ws (min stop (i + 1 + len.toNat)) fuel (i + 1)
        if body.2 then
          let rest := pathFrom ws stop fuel (i + 1 + len.toNat)
          (1 + (n.toNat + 1) * body.1 + rest.1, rest.2)
        else (1 + (n.toNat + 1) * body.1, false)
      | some w =>
        let next := pathFrom ws stop fuel (i + 1)
        match branchOf w with
        | none => (1 + next.1, next.2)
        | some n =>
          let far := pathFrom ws stop fuel (i + 1 + n)
          (1 + max next.1 far.1, next.2 || far.2)

/-- The first word that fails, if any (R393). (DEDUCED, log 65.) -/
def verifyFrond (words : List Word) (nwin : Nat) : Option Nat :=
  let ws := words.map (fun w => (decodeFrond w).toOption)
  match (List.range ws.length).find? (fun i => !frondWordOk ws nwin i) with
  | some i => some i
  | none =>
    let p := pathFrom ws ws.length (ws.length + 1) 0
    if p.2 then some (ws.length - 1) else if 256 < p.1 then some 0 else none

/-! ### Descriptors, images and reloads (R384, R385, R390) -/

/-- Whether a descriptor's fields are in range (R384). -/
def descOk (fn : Nat) (l : List Byte) : Bool :=
  let d (i : Nat) : Nat := dwordAt l i
  let b (i : Nat) : Nat := numAt l i 1
  d 0 % 64 = 0 && d 1 % 8 = 0 && d 2 % 64 = 0 && d 3 % 8 = 0 && 4 ≤ b 0x20 && b 0x20 ≤ 16 && b 0x21 ≤ 3 &&
  (b 0x22 ≤ 1 || (b 0x22 = 2 && fn = 256)) && b 0x23 ≤ 1 && (l.drop 0x24).all (· = 0)

/-- A window of an image: base and log2 of its size; unused ones are zero (R390). -/
def windowOk (l : List Byte) (used : Bool) : Bool :=
  if !used then l.all (· = 0)
  else
    let k := numAt l 8 1
    3 ≤ k && k ≤ 20 && numAt l 0 8 % 2 ^ k = 0 && (l.drop 9).all (· = 0)

def imageHeadOk (l : List Byte) : Bool :=
  let n := numAt l 4 2
  let w := numAt l 6 1
  numAt l 0 4 = 0x444e4f52 && 1 ≤ n && n ≤ 1024 && w ≤ 4 && numAt l 7 1 = 0 && (l.drop 0x48).all (· = 0) &&
  (List.range 4).all (fun i => windowOk ((l.drop (8 + 16 * i)).take 16) (i < w))

/-- The lines of device memory in which a queue's write index lies, to be watched (R388). -/
def State.indexLines (s : State) (fn va : Nat) : List Nat :=
  match s.hubReach fn va false with
  | .ok (.hbm spa _, _) => [watchKey .hbm (lineOf spa)]
  | _ => []

/-- The hub watches a queue's write index from now on (R388). -/
def State.watchIndex (s : State) (fn q : Nat) : State :=
  let lines := s.indexLines fn (s.queue fn q).widxa
  s.modQueue fn q (fun u => { u with lines, due := s.readDue lines })

/-- The program of a queue is read and verified (R385 step 3), and the queue enters RUN; the flag tells whether a read waits. -/
def State.loadProgram (s : State) (fn q skip : Nat) : Bool × State :=
  let va := (s.queue fn q).prog
  match s.hubBytes fn va 0x50 with
  | (.ok none, s) => (true, s)
  | (.error e, s) => (false, s.queueFault fn q 1 e va)
  | (.ok (some h), s) =>
    if !imageHeadOk h then (false, s.setQState fn q .disabled codeVerify 0xffff)
    else
      let n := numAt h 4 2
      match s.hubBytes fn (va + 0x50) (4 * n) with
      | (.ok none, s) => (true, s)
      | (.error e, s) => (false, s.queueFault fn q 1 e (va + 0x50))
      | (.ok (some l), s) =>
        let words := (List.range n).map (fun i => BitVec.ofNat 32 (numAt l (4 * i) 4))
        let nwin := numAt h 6 1
        let wins := (List.range nwin).map (fun i => (numAt h (8 + 16 * i) 8, numAt h (16 + 16 * i) 1))
        match verifyFrond words nwin with
        | some i => (false, s.setQState fn q .disabled codeVerify i)
        | none =>
          let s := s.modQueue fn q (fun u =>
            let r := if u.enabledOnce then u.ridx else 0
            { u with words, windows := wins, ridx := r + skip, pending := r + skip, enabledOnce := true })
          (false, (s.setQState fn q .run 0 0).watchIndex fn q)

/-- A queue at or above COUNT, or with a bad descriptor, is DISABLED with code DESC (R385). -/
def State.disableDesc (s : State) (fn q : Nat) : State :=
  let s := s.modQueue fn q (fun u => { u with stopReq := false, reloadReq := false })
  if (s.queue fn q).loaded then s.setQState fn q .disabled codeDesc 0
  else s.modQueue fn q (fun u => { u with state := .disabled, code := codeDesc, word := 0, active := false })

/-- The fields of a descriptor become the queue's (R384). -/
def Queue.describe (u : Queue) (l : List Byte) : Queue :=
  let d (i : Nat) : Nat := dwordAt l i
  let b (i : Nat) : Nat := numAt l i 1
  { u with
    loaded := true, ring := d 0, widxa := d 1, prog := d 2, stata := d 3, log2n := b 0x20, prio := b 0x21, mode := b 0x22 }

/-- Steps 2 to 4 of a reload (R385); it stays asked for, and the queue stopped, while a read waits for a forced publication, a
translation or a page. -/
def State.reload (s : State) (fn q : Nat) (v : DWord) : State :=
  let asked (s : State) : State := s.modQueue fn q (fun u => { u with reloadReq := true, reloadVal := v })
  if (s.fn fn).qtctl.toNat ≤ q then s.disableDesc fn q
  else
    let s := s.modQueue fn q (fun u => { u with active := false, reloadReq := false, stopReq := false })
    let va := (s.fn fn).qtbase.toNat + 64 * q
    match s.hubBytes fn va 64 with
    | (.ok none, s) => asked s
    | (.error e, s) => s.queueFault fn q 0 e va
    | (.ok (some l), s) =>
      let s := s.modQueue fn q (fun u => u.describe l)
      if !descOk fn l then s.setQState fn q .disabled codeDesc 0
      else if numAt l 0x23 1 % 2 = 0 then s.setQState fn q .disabled 0 0
      else
        let (waits, s) := s.loadProgram fn q (if v.getLsbD 8 then 1 else 0)
        if waits then asked s else s

/-- A reload waits for the running packet (R385 step 1). -/
def State.askReload (s : State) (fn q : Nat) (v : DWord) : State :=
  if (s.queue fn q).active then s.modQueue fn q (fun u => { u with reloadReq := true, reloadVal := v })
  else s.reload fn q v

/-- A packet has ended, at its end or by an error: a reload that waited, or the stop of a queue that falls out of the table. -/
def State.afterPacket (s : State) (fn q : Nat) : State :=
  let qu := s.queue fn q
  if qu.reloadReq then s.reload fn q qu.reloadVal
  else if qu.stopReq then s.disableDesc fn q
  else s

/-! ### Registers (R383) -/

/-- A write of QRELOAD clears QFAULT where it names the queue (R387). (DEDUCED, log 90.) -/
def execQreload (fn : Nat) (v : DWord) (s : State) : Host.Outcome State Fault Refusal :=
  let n := v.toNat
  let q := n % 64
  let f := (s.fn fn).qfault
  .next (if bitsOf n 63 9 ≠ 0 || bitsOf n 7 6 ≠ 0 then s
    else
      (if f.getLsbD 63 && f.toNat % 64 = q then s.modFn fn (fun r => { r with qfault := 0 }) else s).askReload fn q v)

/-- A write of QTCTL: queues at or above a lowered COUNT stop. -/
def execQtctl (fn : Nat) (v : DWord) (s : State) : Host.Outcome State Fault Refusal :=
  .next (if 64 < v.toNat then s
    else
      let old := (s.fn fn).qtctl.toNat
      let s := s.modFn fn (fun r => { r with qtctl := v })
      (List.range (old - v.toNat)).foldl (fun s i =>
        let q := v.toNat + i
        if (s.queue fn q).active then s.modQueue fn q (fun u => { u with stopReq := true }) else s.disableDesc fn q) s)

/-! ### The ring (R388, R389) -/

/-- The hub reads the write-index word, as it does while a packet waits (R388). (DEDUCED, log 158.) -/
def execWriteIndexRead (fn q : Nat) (s : State) : Host.Outcome State Fault Refusal :=
  let qu := s.queue fn q
  .next (if !(s.served fn && (qu.state = .run || qu.state = .wait)) then s
    else
      match s.hubBytes fn qu.widxa 8 with
      | (.ok none, s) => s
      | (.error e, s) => (s.queueFault fn q 2 e qu.widxa).afterPacket fn q
      | (.ok (some l), s) =>
        let w := leNat l % 2 ^ 32
        let s := s.watchIndex fn q
        let n := (w + 2 ^ 32 - qu.ridx % 2 ^ 32) % 2 ^ 32
        if 2 ^ qu.log2n < n then (s.setQState fn q .error codeOverrun 0).afterPacket fn q
        else s.modQueue fn q (fun u => { u with pending := u.ridx + n }))

/-- Interpreters in use (R399). -/
def State.interpreters (s : State) : Nat := (s.queues.filter (fun p => p.2.active && p.2.state = .run)).length

/-- Whether a function comes before another of its partition when work is offered (R401): the larger balance above zero, then the
smaller debt below the cap, then the lower number. -/
def State.overCap (s : State) (fn : Nat) : Bool := s.tick < (s.fn fn).overUntil
def State.fnBefore (s : State) (v w : Nat) : Bool :=
  let a := (s.fn v).balance
  let b := (s.fn w).balance
  if 0 < a then b < a || (b = a && v < w)
  else if 0 < b || s.overCap v then false
  else s.overCap w || b < a || (b = a && v < w)

/-- Whether queue p of a function comes before queue q: by PRIO, and among equals the one whose turn comes sooner, round-robin;
`kind` is 0 for clusters and launch actions, 4 for packets (R401). -/
def State.queueBefore (s : State) (fn p q kind : Nat) : Bool :=
  let a := (s.queue fn p).prio
  let b := (s.queue fn q).prio
  let wait (k : Nat) : Nat := (k + 64 - FMap.get (s.fn fn).turns (kind + a)) % 64
  a < b || (a = b && p ≠ q && wait p < wait q)

/-- A queue has had its turn (R401). -/
def State.hadTurn (s : State) (fn q kind : Nat) : State :=
  s.modFn fn (fun r => { r with turns := FMap.set r.turns (kind + (s.queue fn q).prio) ((q + 1) % 64) })

/-- Whether a queue has a packet and waits for an interpreter (R399). -/
def State.wantsInterpreter (s : State) (fn q : Nat) : Bool :=
  let qu := s.queue fn q
  s.served fn && qu.state = .run && !qu.active && !qu.reloadReq && qu.ridx < qu.pending

/-- The queues that come before one when interpreters are few: of its function, and of the functions of its partition
(R399, R401). (DESIGN CHOICE, log 66.) -/
def State.rivals (s : State) (fn q : Nat) : Nat :=
  (s.queues.filter (fun p =>
    let v := p.1 / 64
    let k := p.1 % 64
    s.wantsInterpreter v k &&
    (if v = fn then s.queueBefore fn k q 4 else v < 256 && fn < 256 && (s.fn v).leaf = (s.fn fn).leaf && s.fnBefore v fn))).length

/-- A queue with a pending packet takes an interpreter and reads the packet (R389, R391, R399); a reload that still waits for its
reads goes on instead (R385). -/
def execPacketStart (fn q : Nat) (s : State) : Host.Outcome State Fault Refusal :=
  let qu := s.queue fn q
  let va := qu.ring + 64 * (qu.ridx % 2 ^ qu.log2n)
  .next (if s.served fn && qu.reloadReq && !qu.active then s.reload fn q qu.reloadVal
    else if !(s.wantsInterpreter fn q && s.interpreters + s.rivals fn q < 32) then s
    else
      match s.hubBytes fn va 64 with
      | (.ok none, s) => s
      | (.error e, s) => s.queueFault fn q 3 e va
      | (.ok (some l), s) =>
        (s.modQueue fn q (fun u => { u with
          active := true, pc := 0, loops := [], staging := [], fregs := FMap.set [] 15 (BitVec.ofNat 64 u.ridx)
          packet := FMap.setMany [] ((List.range 8).map (fun i => (i, BitVec.ofNat 64 (dwordAt l i)))) })).hadTurn fn q 4)

/-! ### Interpreter (R391, R392) -/

def Queue.fr (q : Queue) (r : BitVec 4) : DWord := if r = 0 then 0 else FMap.get q.fregs r.toNat
def Queue.setFr (q : Queue) (r : BitVec 4) (v : DWord) : Queue :=
  if r = 0 then q else { q with fregs := FMap.set q.fregs r.toNat v }
/-- The place moves on past the word. -/
def Queue.adv (q : Queue) : Queue :=
  let (pc, loops) := frAdvance q.pc q.loops
  { q with pc, loops }

def State.curQ (s : State) : Queue := s.queue s.curFn s.curQueue
/-- A word that changes only the interpreter. -/
def State.frond (s : State) (f : Queue → Queue) : State := s.modQueue s.curFn s.curQueue (fun q => (f q).adv)

end Sys2Proof.Machine
end

