-- ==== Sys2Proof/Machine/Sched.lean ====
section
/-!
DEFINITION. The scheduler: rectangles and placement (R24, R33 to R37, R54, R55, R58, R297, R400, R401), retirement and the
completion of launches (R30, R31, R397, R398), halts, saves and resumes (R402 to R407), token budgets and heat.
-/
namespace Sys2Proof.Machine
open Sys2Proof

/-! ### What a team takes of a core (R24, R297) -/

/-- Register blocks, scratch bytes, MSM rows and resident groups. -/
structure Room where
  blocks : Nat
  share : Nat
  rows : Nat
  groups : Nat
  deriving DecidableEq, Repr

/-- A scratch size rounded up to 64 KiB (R107). -/
def shareOf (n : Nat) : Nat := (n + 65535) / 65536 * 65536

def Launch.roleOf (l : Launch) (g : Nat) : Nat := bitsOf l.rolemap (2 * g + 1) (2 * g)
def Launch.blocksOf (l : Launch) (g : Nat) : Nat := (l.blocks[l.roleOf g]?).getD 0

/-- What a team of a launch takes, and what a group spawned at a node takes. -/
def Launch.need (l : Launch) : Room :=
  { blocks := l.pool + ((List.range l.groups).map l.blocksOf).sum, share := shareOf l.scratch, rows := l.msmRows
    groups := l.groups }
def NodeDesc.need (d : NodeDesc) : Room := { blocks := d.blocks, share := shareOf d.scratch, rows := 0, groups := 1 }

/-- What a placed team takes. -/
def State.teamNeed (s : State) (t : Nat) : Room :=
  let tm := s.team t
  { blocks := tm.pool + (tm.groups.map (fun g => (s.grp g).blocks)).sum, share := tm.share, rows := tm.msmRows
    groups := tm.groups.length }

/-- The teams resident on a core. -/
def State.residents (s : State) (core : Nat) : List Nat :=
  (s.teams.filter (fun p => p.2.live && p.2.core = core && p.2.halt ≠ .saved)).map (·.1)

/-- Whether a core has room for a team (R24, R107, R297). -/
def State.coreFits (s : State) (core : Nat) (n : Room) : Bool :=
  let ns := (s.residents core).map s.teamNeed
  (ns.map (·.blocks)).sum + n.blocks ≤ 512 && (ns.map (·.share)).sum + n.share ≤ 28 * 65536 &&
  (ns.map (·.rows)).sum + n.rows ≤ 4096 && (ns.map (·.groups)).sum + n.groups ≤ 64 &&
  (n.rows = 0 || ns.all (fun k => k.rows = 0))

/-- The lowest free resident slots of a core, n of them (R24). -/
def State.freeSlots (s : State) (core n : Nat) : List Nat :=
  let used := (s.residents core).flatMap (fun t => ((s.team t).groups.map (fun g => (s.grp g).slot)))
  ((List.range 64).filter (· ∉ used)).take n

/-! ### Rectangles (R16, R33, R400) -/

def Part.hasCore (p : Part) (c : Nat) : Bool := p.cores.testBit c

/-- The first die of a partition's logical device and the columns of its mesh. -/
def Part.firstDie (p : Part) : Nat :=
  let d := coreDie (((List.range 48).find? p.hasCore).getD 0)
  if p.pair then d - d % 2 else d
def Part.width (p : Part) : Nat := if p.pair then 8 else 4

/-- The core at a column and row of a logical device. -/
def Part.coreAt (p : Part) (x y : Nat) : Nat := 12 * (p.firstDie + x / 4) + 4 * y + x % 4

/-- The rectangles of a shape, in the order in which they are taken: die, row, column of the origin. -/
def Part.rects (p : Part) (rows cols : Nat) : List (List Nat) :=
  (List.range (p.width / 4)).flatMap (fun d =>
    (List.range 3).flatMap (fun y0 =>
      (List.range 4).filterMap (fun x =>
        let x0 := 4 * d + x
        if y0 + rows ≤ 3 && x0 + cols ≤ p.width then
          some ((List.range rows).flatMap (fun i => (List.range cols).map (fun j => p.coreAt (x0 + j) (y0 + i))))
        else none)))

/-- A core the host offers: in the partition, not fenced (R25), its die not in reset. -/
def State.coreUsable (s : State) (p : Part) (c : Nat) : Bool :=
  p.hasCore c && !(s.coreRec c).fenced && !(s.die (coreDie c)).inReset

/-- Whether a core is hot (R407). -/
def State.hot (s : State) (c : Nat) : Bool := s.ras.hotLimit ≤ (s.coreRec c).temp

/-- The first rectangle of a shape in a partition whose cores have room, hot cores skipped (R400). -/
def State.findRect (s : State) (part rows cols : Nat) (n : Room) : Option (List Nat) :=
  let p := s.part part
  (p.rects rows cols).find? (fun l => l.all (fun c => s.coreUsable p c && !s.hot c && s.coreFits c n))

/-! ### Placing teams and groups (R33 to R37, R55, R72) -/

/-- A group as its team's placement makes it (R35, R36, R62 to R66, R72). -/
def newGroup (l : Launch) (team idx slot : Nat) : Group :=
  { (default : Group) with
    live := true, team, idx, role := l.roleOf idx, vf := l.fn, mode := l.mode, slot, blocks := l.blocksOf idx
    off := l.entry, mask := BitVec.allOnes 32, tilew := 32, tilewNext := 32
    gdimx := l.dimx, gdimy := l.dimy, gdimz := l.dimz, node := 0xffffffff, lseq := l.lseq }

/-- The tile descriptors a header names that lie within a share (R69, R55). -/
def Launch.tilesIn (l : Launch) (share : Nat) : FMap Tile :=
  (l.tiles.filter (fun p => p.2.base * 64 + (p.2.rows + 1) * (p.2.rowb + 1) * 64 ≤ share)).foldl
    (fun m p => FMap.set m p.1 p.2) []

/-- A team as placement makes it. (DEDUCED, log 24.) -/
def newTeam (cluster crank core share msmRows pool : Nat) (groups : List Nat) (tiles : FMap Tile) : Team :=
  { (default : Team) with live := true, cluster, crank, core, groups, share, tiles, msmRows, pool, halt := .running }

/-- The matrix state of a core whose team holds it from now on (R153, R297). -/
def newMatrix (team : Nat) : Matrix := { (default : Matrix) with held := true, team, af := .e4m3, bf := .e4m3 }

/-- A placement enlarges the scratch in use: the core's L1 copies go (R107). -/
def State.dropCore (s : State) (core share : Nat) : State :=
  if share = 0 then s else { s with leases := s.leases.filter (fun p => p.1 / 2 ^ 32 ≠ core) }

/-- The groups of a team of a launch, in GROUP order, in the lowest free slots. -/
def State.addGroups (s : State) (core : Nat) (make : Nat → Nat → Group) (n : Nat) : List Nat × State :=
  let slots := s.freeSlots core n
  (List.range n).foldl (fun (acc : List Nat × State) i =>
    let (id, s) := acc.2.fresh
    (acc.1 ++ [id], s.setGrp id (make i ((slots[i]?).getD 0)))) ([], s)

/-- The team of rank r of a new cluster at a grid point. -/
def State.addTeam (s : State) (la c r core : Nat) (p : Nat × Nat × Nat) : Nat × State :=
  let l := s.launch la
  let (t, s) := s.fresh
  let num := (p.1 + l.dimx * (p.2.1 + l.dimy * p.2.2)) * (l.rows * l.cols) + r
  let make (i slot : Nat) : Group := { newGroup l t i slot with
    crank := r, cshape := 256 * l.rows + l.cols, gridx := p.1, gridy := p.2.1, gridz := p.2.2, teamId := num }
  let (groups, s) := s.addGroups core make l.groups
  let share := shareOf l.scratch
  let s := s.setTeam t (newTeam c r core share l.msmRows l.pool groups (l.tilesIn share))
  let s := if l.msmRows = 0 then s else s.modCore core (fun k => { k with matrix := newMatrix t })
  (t, s.dropCore core share)

/-- The point of a scoreboard index (R57). -/
def Launch.point (l : Launch) (i : Nat) : Nat × Nat × Nat := (i % l.dimx, (i / l.dimx) % l.dimy, i / l.dimx / l.dimy)

/-- A cluster of a grid point on a rectangle; its teams start together (R33). -/
def State.placePoint (s : State) (la i : Nat) (rect : List Nat) : State :=
  let l := s.launch la
  let p := l.point i
  let (c, s) := s.fresh
  let (teams, s) := (rect.zipIdx).foldl (fun (acc : List Nat × State) x =>
    let (t, s) := acc.2.addTeam la c x.2 x.1 p
    (acc.1 ++ [t], s)) ([], s)
  let s := s.setCluster c { (default : Cluster) with
    live := true, launch := la, px := p.1, py := p.2.1, pz := p.2.2, rows := l.rows, cols := l.cols, cores := rect, teams
    placedAt := s.tick, halt := .running }
  s.modLaunch la (fun l => { l with placed := FMap.set l.placed i true })

/-- The one-group team of a firing (R54, R55, R62): lane i receives the i-th index in v0. -/
def State.placeFiring (s : State) (la node num core : Nat) (idx : List Nat) : State :=
  let l := s.launch la
  let d := FMap.get l.nodes node
  let (c, s) := s.fresh
  let (t, s) := s.fresh
  let lanes := maskOf (fun k => k < idx.length)
  let make (_ slot : Nat) : Group := { newGroup l t 0 slot with
    role := 0, blocks := d.blocks, off := d.entry, cshape := 0x101, teamId := 2 ^ 31 + node * 2 ^ 24 + num, node
    mask := lanes, exited := ~~~lanes
    vregs := FMap.setMany [] ((idx.zipIdx).map (fun p => (p.2, BitVec.ofNat 32 p.1))), vtags := FMap.set [] 0 .n32 }
  let (groups, s) := s.addGroups core make 1
  let share := shareOf d.scratch
  let s := s.setTeam t (newTeam c 0 core share 0 0 groups (l.tilesIn share))
  let s := s.setCluster c { (default : Cluster) with
    live := true, launch := la, rows := 1, cols := 1, cores := [core], teams := [t], placedAt := s.tick, halt := .running
    recs := idx.map (fun i => (node, i)) }
  s.dropCore core share

/-! ### Work that is ready (R54, R57, R58, R400, R405) -/

/-- A launch's saved clusters, first saved first. -/
def State.savedOf (s : State) (la : Nat) : List Nat :=
  (s.clusters.filter (fun p => p.2.live && p.2.launch = la && p.2.halt = .saved)).map (·.1)

/-- Whether a point's predecessors have retired (R58). -/
def Launch.eligible (l : Launch) (i : Nat) : Bool :=
  let p := l.point i
  l.deps.all (fun d =>
    let x := (p.1 : Int) + d.1
    let y := (p.2.1 : Int) + d.2.1
    let z := (p.2.2 : Int) + d.2.2
    let inside : Bool := 0 ≤ x && x < l.dimx && 0 ≤ y && y < l.dimy && 0 ≤ z && z < l.dimz
    !inside || FMap.get l.retired (x.toNat + l.dimx * (y.toNat + l.dimy * z.toNat)))

def Launch.points (l : Launch) : Nat := l.dimx * l.dimy * l.dimz

/-- The lowest index from `i` on that has not been placed, walking the placed ones. -/
def nextFree (i : Nat) : List Nat → Nat
  | [] => i
  | k :: ks => if k = i then nextFree (i + 1) ks else i

/-- The next point of a launch: the lowest not placed, or for a dependence launch the lowest eligible one (R58, R400). -/
def Launch.nextPoint (l : Launch) : Option Nat :=
  if l.dep then (List.range l.points).find? (fun i => !FMap.get l.placed i && l.eligible i)
  else
    let i := nextFree 0 (FMap.keys l.placed)
    if i < l.points then some i else none

/-- A deposit whose publication its SPAWN still awaits (R53). -/
def State.unpublished (s : State) (la node i : Nat) : Bool :=
  s.groups.any (fun p => p.2.deposits ≠ [] && s.launchOf p.1 = la && (node, i) ∈ p.2.deposits && !s.fenceDone p.1)

/-- The next firing of each bin of a launch, where its records are published: node, number, indices (R54). -/
def State.dueFirings (s : State) (la : Nat) : List (Nat × Nat × List Nat) :=
  (s.launch la).bins.filterMap (fun b =>
    match b.2.due with
    | [] => none
    | f :: _ => if f.2.any (s.unpublished la b.1) then none else some (b.1, f.1, f.2))

/-- Work a launch offers to the dispatcher. -/
inductive Work where
  | resume (cluster : Nat) (rect : List Nat)
  | firing (node num : Nat) (idx : List Nat) (core : Nat)
  | point (i : Nat) (rect : List Nat)
  deriving DecidableEq, Repr

/-- Whether a rectangle has room for every team of a saved cluster. -/
def State.resumeRect (s : State) (c : Nat) : Option (List Nat) :=
  let cl := s.cluster c
  let part := (s.launch cl.launch).part
  let p := s.part part
  (p.rects cl.rows cl.cols).find? (fun l => (l.zip cl.teams).all (fun x =>
    s.coreUsable p x.1 && !s.hot x.1 && ((s.team x.2).live = false || s.coreFits x.1 (s.teamNeed x.2))))

/-- Scoreboards and bins in use, of 16 and 2,048 (R400). -/
def State.boards (s : State) : Nat := (s.launches.filter (fun p => p.2.hasBoard && p.2.dep)).length
def State.binsUsed (s : State) : Nat := ((s.launches.filter (fun p => p.2.hasBoard)).map (fun p => p.2.nodes.length)).sum

/-- Whether a launch may place its points: it holds, or can take, its scoreboard and bins. -/
def State.boardOk (s : State) (l : Launch) : Bool :=
  l.hasBoard || ((!l.dep || s.boards < 16) && s.binsUsed + l.nodes.length ≤ 2048)

/-- What a launch would place next: saved clusters and firings, in an order R400 leaves open, before new points. (DESIGN CHOICE,
log 66.) -/
def State.workOf (s : State) (la : Nat) : Option Work :=
  let l := s.launch la
  let stopping : Bool := s.pcBusy && s.pcOp = 3 && s.pcPart = l.part && s.pcStage ≠ 0
  if l.state ≠ .active || (s.part l.part).state ≠ .running || stopping then none
  else
    let back := (s.savedOf la).filterMap (fun c => (s.resumeRect c).map (fun r => Work.resume c r))
    let due := (s.dueFirings la).filterMap (fun (f : Nat × Nat × List Nat) =>
      (s.findRect l.part 1 1 (FMap.get l.nodes f.1).need).map (fun r => Work.firing f.1 f.2.1 f.2.2 ((r.head?).getD 0)))
    match back ++ due with
    | [w] => some w
    | w :: w' :: ws => some (((w :: w' :: ws)[Config.choose (s.freeCtr + 2 ^ 141) % (ws.length + 2)]?).getD w)
    | [] =>
      if s.savedOf la ≠ [] || s.dueFirings la ≠ [] || !s.boardOk l then none
      else
        match l.nextPoint with
        | none => none
        | some i => (s.findRect l.part l.rows l.cols l.need).map (fun r => .point i r)

/-! ### Whose work comes first (R400, R401, R414) -/

/-- Whether launch a's work is offered a rectangle before launch b's: by function, by queue, and within a queue the earlier launch
(R400, R401). -/
def State.launchBefore (s : State) (a b : Nat) : Bool :=
  let x := s.launch a
  let y := s.launch b
  x.part = y.part && a ≠ b &&
    (if x.fn = y.fn then if x.queue = y.queue then a < b else s.queueBefore x.fn x.queue y.queue 0
    else s.fnBefore x.fn y.fn)

/-- Whether a launch may place its next work now: no launch with work that fits comes before it, and its function is not
over its cap (R401). -/
def State.mayPlace (s : State) (la : Nat) : Bool :=
  let l := s.launch la
  (l.fn = 256 || 0 < (s.fn l.fn).balance || !s.overCap l.fn) &&
  !s.launches.any (fun p => s.launchBefore p.1 la && (s.workOf p.1).isSome)

/-! ### Resuming a saved cluster (R34, R74, R171, R316, R405) -/

/-- A group of a team that runs again after a halt: MOVED, and one evaluation of its WAIT is due (R50, R74). -/
def Group.awake (gr : Group) (moved : BitVec 3) : Group :=
  { gr with moved := gr.moved ||| moved, wait := { gr.wait with again := gr.wait.live } }

/-- A saved team takes its core again: slots anew, MOVED, its matrix state, the PRI answers kept for its groups (R24, R50,
R74, R378). -/
def State.resumeTeam (s : State) (t core : Nat) : State :=
  let tm := s.team t
  if !tm.live then s
  else
    let slots := s.freeSlots core tm.groups.length
    let moved : BitVec 3 := if core = tm.core then 4 else 5
    let s := (tm.groups.zipIdx).foldl (fun s (p : Nat × Nat) => s.modGrp p.1 (fun gr => { (gr.awake moved) with
      slot := (slots[p.2]?).getD 0 })) s
    let s := (s.setTeam t { tm with core, halt := .running }).priKept t
    let s := { s with ops := s.ops.map (fun (p : Nat × Op) => if p.2.team = t then (p.1, { p.2 with core := core }) else p) }
    let s := if tm.msmRows = 0 then s
      else
        let m := (s.coreRec (savedMatrix t)).matrix
        (s.setCore (savedMatrix t) default).modCore core (fun k => { k with matrix := m })
    s.dropCore core tm.share

/-- The cluster runs again on a rectangle; its bonds are held again before any member issues (R171). -/
def State.resumeCluster (s : State) (c : Nat) (rect : List Nat) : State :=
  let cl := s.cluster c
  let s := (cl.teams.zip rect).foldl (fun s p => s.resumeTeam p.1 p.2) s
  let s := { s with bonds := s.bonds.map (fun (p : Nat × Bond) =>
    if p.2.cluster = c && p.2.state = BondState.saved then (p.1, { p.2 with state := .held }) else p) }
  s.setCluster c { cl with
    cores := rect, halt := .running, holdHalt := false, placedAt := s.tick }

/-- A launch takes its scoreboard and bins with its first placement (R400). -/
def State.takeBoard (s : State) (la : Nat) : State := s.modLaunch la (fun l => { l with hasBoard := true })

/-- A launch's queue has had its turn (R401). -/
def State.tookTurn (s : State) (la : Nat) : State := s.hadTurn (s.launch la).fn (s.launch la).queue 0

/-- The dispatcher places the next cluster of a launch: a saved one first, else the next point. -/
def execClusterPlacement (launch : Nat) (s : State) : Host.Outcome State Fault Refusal :=
  .next (if !s.mayPlace launch then s
    else
      match s.workOf launch with
      | some (.resume c r) => (s.tookTurn launch).resumeCluster c r
      | some (.point i r) => ((s.tookTurn launch).takeBoard launch).placePoint launch i r
      | _ => s)

/-- A bin's due firing is placed as a one-group team (R54, R55). -/
def execSpawnedGroupPlacement (launch : Nat) (s : State) : Host.Outcome State Fault Refusal :=
  .next (if !s.mayPlace launch then s
    else
      match s.workOf launch with
      | some (.firing node num idx core) =>
        let s := s.modLaunch launch (fun l => { l with bins := FMap.upd l.bins node (fun b => { b with due := b.due.tail }) })
        (s.tookTurn launch).placeFiring launch node num core idx
      | _ => s)

end Sys2Proof.Machine
end

