-- ==== Sys2Proof/Machine/Retire.lean ====
section
/-!
DEFINITION. The ends of work: the completion of a launch and its completion word (R397, R398), the retirement of teams and
clusters (R30, R31), and the kill of groups and launches (R351).
-/
namespace Sys2Proof.Machine
open Sys2Proof

/-! ### Completion of a launch (R30, R397, R398) -/

def stateDone : Nat := 1
def stateRejected : Nat := 2
def stateKilled : Nat := 3

/-- The completion word of a launch (R397). -/
def completionWord (lseq code st : Nat) : Nat := lseq % 2 ^ 32 * 2 ^ 32 + code % 256 * 256 + st

/-- A completion word is written, with the interrupt that waits for it; a write that faults is left out (R395, R397). -/
def State.complete (s : State) (fn va lseq code st irq : Nat) : State :=
  if va = 0 then s.signalIrq irq
  else
    match s.hubWriteVa fn va (leBytes 8 (completionWord lseq code st)) 0 irq with
    | .ok s => s
    | .error _ => s.signalIrq irq

/-- A launch ends: its word, its interrupt; its scoreboard and bins are free. -/
def State.endLaunch (s : State) (la : Nat) (st : LaunchState) (code : Nat) : State :=
  let l := s.launch la
  let word := if st = .done then stateDone else stateKilled
  (s.complete l.fn l.cwva l.lseq code word (if l.intr then irqQueue l.fn else 0)).setLaunch la { l with
    state := st, hasBoard := false, placed := [], retired := [], bins := [] }

/-- The live clusters of a launch. -/
def State.clustersOf (s : State) (la : Nat) : List Nat :=
  (s.clusters.filter (fun p => p.2.live && p.2.launch = la)).map (·.1)

/-- DONE when every point and spawned group has retired and every bin is empty; KILLED once no group remains (R30,
R398). -/
def State.checkLaunch (s : State) (la : Nat) : State :=
  let l := s.launch la
  if s.clustersOf la ≠ [] then s
  else if l.state = .killing then s.endLaunch la .killed l.killClass
  else if (l.state = .active || l.state = .halted) && l.retired.length = l.points &&
    l.bins.all (fun b => b.2.idx = [] && b.2.due = []) then s.endLaunch la .done 0
  else s

/-! ### Halt actions that wait for a cluster (R405) -/

/-- A cluster has stopped and been saved or held, or is gone: the HALT actions that waited for it go on. -/
def State.noteHalted (s : State) (c : Nat) : State :=
  (s.ops.filter (fun p => p.2.kind = .hubHalt && c ∈ p.2.waitOn)).foldl (fun s p =>
    let w := p.2.waitOn.filter (· ≠ c)
    if w = [] then (s.setOp p.1 default).signalIrq ((p.2.arg[2]?).getD 0) else s.setOp p.1 { p.2 with waitOn := w }) s

/-! ### Retirement (R30, R31) -/

/-- Whether every outstanding piece of a team's work is done and its stores are published at device scope
(R31). (DEDUCED, log 77.) -/
def State.teamQuiet (s : State) (t : Nat) : Bool :=
  let tm := s.team t
  tm.groups.all (fun g => (s.grp g).ctrs.all (fun c => c.2 = 0)) &&
  s.ops.all (fun p => p.2.team ≠ t || !p.2.live) &&
  s.acc.all (fun p => p.2.team ≠ t && p.2.grp ∉ tm.groups) &&
  s.pend.all (fun p => p.2.team ≠ t || p.2.v + 2 ≤ s.tick)

/-- A group after its team has retired: nothing but what its registers hold (R336). -/
def Group.gone (gr : Group) : Group :=
  { (default : Group) with vregs := gr.vregs, vtags := gr.vtags, sregs := gr.sregs, pregs := gr.pregs, qregs := gr.qregs }

/-- A team's resources are free: its groups are gone, its record keeps the scratch fault masks and what its MSM rows
hold (R31, R111, R336). -/
def State.freeTeam (s : State) (t : Nat) : State :=
  let tm := s.team t
  let s := tm.groups.foldl (fun s g => s.modGrp g Group.gone) s
  let s := if tm.msmRows = 0 then s
    else if tm.halt = .saved then s.setCore (savedMatrix t) default
    else s.modCore tm.core (fun k => { k with matrix := default })
  s.setTeam t { (default : Team) with cluster := tm.cluster, crank := tm.crank, sfaults := tm.sfaults, msm := tm.msm }

/-- A cluster without live teams retires: its point's bit is set, or its record slots are free again (R30, R58, R396). -/
def State.retireCluster (s : State) (c : Nat) : State :=
  let cl := s.cluster c
  if cl.teams.any (fun t => (s.team t).live) then s
  else
    let s := (s.setCluster c default).noteHalted c
    let s := { s with bonds := s.bonds.filter (fun p => p.2.cluster ≠ c) }
    let s := s.modLaunch cl.launch (fun l =>
      if cl.recs = [] then { l with retired := FMap.set l.retired (cl.px + l.dimx * (cl.py + l.dimy * cl.pz)) true }
      else { l with bins := l.bins.map (fun (b : Nat × Bin) =>
        (b.1, { b.2 with used := b.2.used.filter (fun i => (b.1, i) ∉ cl.recs) })) })
    s.checkLaunch cl.launch

/-- The team retires; barriers of its cluster no longer wait for it (R31, R232). -/
def State.retireTeam (s : State) (t : Nat) : State :=
  let c := (s.team t).cluster
  let s := s.freeTeam t
  let s := (List.range 4).foldl (fun s k => s.cbarCheck c k) s
  s.retireCluster c

/-- Whether a team's release is complete on the other die of a pair-mode device: the phase that its retirement closed is complete
there (R139, R144). -/
def State.retiredPhase (s : State) (t : Nat) : Bool :=
  let tm := s.team t
  let die := coreDie tm.core
  !(s.part (s.launch (s.cluster tm.cluster).launch).part).pair ||
    (tm.retPhase ≠ 0 && phaseLe (tm.retPhase - 1) (FMap.get (s.die (pairDie die)).cph die).toNat)

/-- Retirement is a release at device scope: the team's buffered stores leave first; when all is done its die's phase closes, in a
pair-mode device, and the team retires once the phase is complete. Held and halted teams do not retire unless their launch is
being killed (R31, R139, R144, R356). -/
def execTeamRetirement (team : Nat) (s : State) : Host.Outcome State Fault Refusal :=
  let tm := s.team team
  let may : Bool := tm.live && tm.groups.all (fun g => (s.grp g).retired) &&
    (tm.halt = .running || (s.launch (s.cluster tm.cluster).launch).state = .killing)
  .next (if !may then s
    else if s.sb.any (fun p => p.2.team = team) then s.publishTeam team
    else if !s.teamQuiet team then s
    else if s.retiredPhase team then s.retireTeam team
    else if tm.retPhase = 0 then
      let (p, s) := s.closePhase (coreDie tm.core)
      s.modTeam team (fun tm => { tm with retPhase := p.toNat + 1 })
    else s)

/-! ### Kills (R50, R166, R224, R351) -/

/-- The operations of a group that a kill ends at once: its WAIT, and engine operations that a fault had stopped. One that a park
left partly done no longer waits for its other lanes. -/
def State.endStopped (s : State) (g : Nat) : State :=
  let dead := (s.ops.filter (fun p => p.2.grp = g && p.2.live && (p.2.kind = .wait || p.2.stopped))).map (·.1)
  let s := { s with
    cores := s.cores.map (fun (c : Nat × CoreRec) =>
      (c.1, { c.2 with matrix := { c.2.matrix with queue := c.2.matrix.queue.filter (fun e => e.op = 0 || e.op ∉ dead) } }))
    ops := s.ops.map (fun (p : Nat × Op) =>
      if p.2.grp = g && p.2.kind ∈ [OpKind.load, .sload, .paramLoad, .store, .atom, .scratch] then (p.1, { p.2 with flag := false })
      else p) }
  dead.foldl (fun s id => if (s.op id).kind = .wait then s.endOp id else s.endEngine id) s

/-- A park ends before its record was written: the record still waits for its place in its queue. (DEDUCED, log 85.) -/
def State.keepRecord (s : State) (g : Nat) : State :=
  let f := (s.grp g).flt
  if !(f.owed || f.withheld) then s
  else
    let r : LateRec := { held := f.withheld, key := s.recordKeyOf g, bytes := s.recordBytes g f }
    (s.modFq (s.queueOf g) (fun q => { q with late := q.late ++ [r] })).modGrp g (fun gr => { gr with
      flt := { gr.flt with owed := false, withheld := false } })

/-- KILL: every lane exits; a held bond breaks, an outstanding WAIT ends, other operations complete (R351). -/
def State.killGroup (s : State) (g : Nat) : State :=
  if !(s.grp g).live then s
  else
    let s := match s.bondOf g with
      | some key => s.breakBond key
      | none => s
    let s := ((s.keepRecord g).leaveLatch [g]).endStopped g
    let s := s.modGrp g (fun gr => { gr with wait := default, engFault := false })
    if (s.grp g).retired then s else s.retireGroup g

/-- A killed team goes on, its lanes off, so that its operations complete; the operations of a saved one, which is on no core, end
(R351, R361). -/
def State.freeHalt (s : State) (t : Nat) : State :=
  if (s.team t).halt = .saved then
    ((s.ops.filter (fun p => p.2.team = t && p.2.live)).map (·.1)).foldl (fun s id => s.endEngine id) s
  else s.modTeam t (fun tm => { tm with halt := .running })

/-- What a kill does to a cluster of its launch: a halt of it is over, unless it is saved. -/
def State.freeCluster (s : State) (c : Nat) : State :=
  let s := (s.cluster c).teams.foldl (fun s t => if (s.team t).live then s.freeHalt t else s) s
  s.modCluster c (fun cl => { cl with halt := if cl.halt = .saved then .saved else .running })

/-- KILLLAUNCH: every group of the launch is killed, no further point starts, pending bins are discarded (R351, R398). -/
def State.killLaunch (s : State) (la cls : Nat) : State :=
  let l := s.launch la
  if l.state ∉ [LaunchState.active, .halted] then s
  else
    let s := s.setLaunch la { l with state := .killing, killClass := cls, bins := [] }
    let grps := (s.groups.filter (fun p => p.2.live && s.launchOf p.1 = la)).map (·.1)
    let s := grps.foldl (fun s g => s.killGroup g) s
    let s := (s.clustersOf la).foldl (fun s c => s.freeCluster c) s
    s.checkLaunch la

end Sys2Proof.Machine
end

