-- ==== Sys2Proof/Machine/Ack.lean ====
section
/-!
DEFINITION. Acting on a parked group: what REPLAY, RESUME, KILL and KILLLAUNCH do (R351), the park a FAULTID names (R361),
withheld records (R349, R350) and injection (R374).
-/
namespace Sys2Proof.Machine
open Sys2Proof

/-- Whether a group waits in a fault park, of a word or of an engine operation. -/
def Group.faulted (gr : Group) : Bool := gr.live && (gr.park = .fault || gr.engFault)

/-- The group whose current record bears a FAULTID: in the hypervisor queue, or in a function's fault queue (R361). -/
def State.parkOf (s : State) (hyp : Bool) (fn id : Nat) : Option Nat :=
  (s.groups.find? (fun p => p.2.faulted && id ≠ 0 && p.2.flt.faultId = id && p.2.flt.hyp = hyp && (hyp || p.2.vf = fn))).map
    (·.1)

/-! ### Records that wait (R349, R350) -/

/-- The withheld records of a group's queue are written while slots are free, in the order of R346. -/
def execWithheldRecordWrite (grp : Nat) (s : State) : Host.Outcome State Fault Refusal :=
  .next (if (s.grp grp).faulted && (s.grp grp).flt.withheld then s.flushRecords (s.queueOf grp)
    else ((s.fns.map (fun (p : Nat × FnRec) => some p.1)) ++ [none]).foldl (fun s q => s.flushRecords q) s)

/-! ### REPLAY and RESUME (R351) -/

/-- The word after the one the group stands at; within a position that issues once per plane, the next plane. -/
def Group.skipWord (gr : Group) : Group :=
  if gr.morePlanes then { gr with planeFrom := gr.planeFrom + 1 }
  else if gr.word = gr.count then
    { gr with inClause := false, off := gr.nextClause, planeFrom := 0, word := gr.word + 1, posTags := [], brDests := [] }
  else { gr with planeFrom := 0, word := gr.word + 1, posTags := [], brDests := [] }

/-- The fault park ends; what the word's translations found is forgotten. -/
def Group.endPark (gr : Group) : Group :=
  { gr with
    park := if gr.engFault then gr.park else .running, parkArg := if gr.engFault then gr.parkArg else 0, engFault := false
    flt := default, walked := [], refused := [], heldWalk := [], heldAts := [], held := false }

/-- The engine operations of a group that a fault has stopped go on from where they stand (R290). -/
def State.restartEngines (s : State) (g : Nat) : State :=
  { s with ops := s.ops.map (fun (p : Nat × Op) =>
      if p.2.grp = g && p.2.stopped then (p.1, { p.2 with stopped := false }) else p) }

/-- A register drain that met poison is passed over by RESUME: no destination is written (R351, R352). -/
def State.dropDrains (s : State) (g : Nat) : State :=
  let dead := (s.ops.filter (fun p => p.2.grp = g && p.2.stopped && p.2.kind = .mdrain)).map (·.1)
  let s := { s with cores := s.cores.map (fun (c : Nat × CoreRec) =>
    (c.1, { c.2 with matrix := { c.2.matrix with queue := c.2.matrix.queue.filter (fun e => e.op = 0 || e.op ∉ dead) } })) }
  dead.foldl (fun s id => s.endOp id) s

/-- REPLAY: the faulting word runs again, for the reported lanes alone where it performed in part; a header is fetched
again; an engine operation goes on; a group that REGION.ABORT has rolled back stays parked (R361). (DEDUCED, log 86.) -/
def State.replayFault (s : State) (g : Nat) : State :=
  if (s.grp g).flt.rolled then s else (s.restartEngines g).modGrp g Group.endPark

/-- RESUME: the group goes on at the next word, the unfinished lanes unwritten; a fault at a header, or of an engine
operation, ends as REPLAY does, and a group that was rolled back goes on at the region's start. -/
def State.resumeFault (s : State) (g : Nat) : State :=
  let gr := s.grp g
  if gr.engFault then ((s.dropDrains g).restartEngines g).modGrp g Group.endPark
  else if gr.flt.atHeader || gr.flt.rolled then s.modGrp g Group.endPark
  else
    let s := if gr.replayOp = 0 then s else s.modOp gr.replayOp (fun o => { o with flag := false })
    s.modGrp g (fun gr => { (gr.endPark.skipWord) with replay := 0, replayOp := 0, spawnLane := 0 })

/-- A member of a held bond whose last lanes a scratch violation switched off retires at the end of its park (R166). -/
def Group.lastViolation (gr : Group) : Bool :=
  gr.flt.cls = 10 && gr.switchedOff ≠ 0 && (gr.exited ||| gr.switchedOff) = BitVec.allOnes 32

/-- An action on a parked group: 0 REPLAY, 1 RESUME, 2 KILL, 3 KILLLAUNCH (R351). -/
def State.ackFault (s : State) (g act : Nat) : State :=
  let gr := s.grp g
  let s := if act = 1 || (act = 0 && !gr.flt.rolled) then s.keepRecord g else s
  if act = 3 then s.killLaunch (s.launchOf g) gr.flt.cls
  else if act = 2 || gr.lastViolation then s.killGroup g
  else if act = 0 then s.replayFault g
  else s.resumeFault g

/-! ### Injection (R374) -/

/-- INJECT: the stage-2 park of a function becomes a park of its own fault queue, under a new FAULTID. -/
def State.inject (s : State) (fn id : Nat) : State :=
  match s.parkOf true fn id with
  | none => s
  | some g =>
    let gr := s.grp g
    if gr.vf ≠ fn || gr.flt.cls ≠ 14 then s
    else
      let s := s.keepRecord g
      let new := (s.fn fn).fq.nextId
      let s := s.modFn fn (fun r => { r with fq := { r.fq with lastId := new } })
      s.modGrp g (fun gr => { gr with flt := { gr.flt with
        cls := 13, level := 0xff, stage2 := false, gpa := 0, faultId := new, hyp := false, owed := true, withheld := false } })

end Sys2Proof.Machine
end

