-- ==== Sys2Proof/Machine/Control.lean ====
section
/-!
DEFINITION. Control transfers, planes, barriers, register blocks, regions, special registers and lane reads (R217 to R226,
R230 to R233, R235 to R237).
-/
namespace Sys2Proof.Machine
open Sys2Proof

/-! ### Control transfer (R219 to R225) -/

/-- Plane length of the current kernel. -/
def State.plen (s : State) : Nat := (s.launch (s.launchOf s.cur)).plen
/-- A target offset: a multiple of 8 below PLEN (R219). -/
def State.targetOk (s : State) (off : Nat) : Bool := off % 8 = 0 && off < s.plen

/-- A branch: the lanes of this issue take their next offsets; after the last plane of the position the group divides
with reconvergence offset J, or raises STACK_OVERFLOW (R44, R46, R221). -/
def State.branch (s : State) (tgt : Nat → Nat) (j : Nat) : State :=
  let gr := s.grp s.cur
  let dests := (lanesOf s.active).foldl (fun m l => FMap.set m l (tgt l + 1)) gr.brDests
  if s.iss.lastPlane then
    match dividePath gr.path (fun l => FMap.get dests l - 1) j with
    | none => s.raise (plainFault 7) s.active
    | some p => s.setGrp s.cur ((gr.setPath p).goto p.off)
  else s.setGrp s.cur { gr with brDests := dests }

/-- After the last plane of the position the whole path goes to one offset. -/
def State.jump (s : State) (off : Nat) : State :=
  if s.iss.lastPlane then s.modGrp s.cur (fun gr => gr.goto off) else s

def execBra (g : Guard) (join : BitVec 16) (target : BitVec 29) (s : State) : Host.Outcome State Fault Refusal :=
  let t := target.toNat * 8
  let taken := s.wmask g
  .next (if s.targetOk t then s.branch (fun l => if taken.getLsbD l then t else s.iss.next) (join.toNat * 8)
    else s.raise (plainFault 4) s.active)

def execBraQ (q : QReg) (target : BitVec 29) (s : State) : Host.Outcome State Fault Refusal :=
  let t := target.toNat * 8
  .next (if s.targetOk t then s.branch (fun _ => if s.qBit q then t else s.iss.next) 0
    else s.raise (plainFault 4) s.active)

/-- BRX (R222): BRANCH_INDEX before any lane branches, then ILLEGAL for a bad table entry, then the division. -/
def execBrx (g : Guard) (bound : BitVec 8) (a : VReg) (b : SReg) (uns : Bool) (join : BitVec 16) (s : State) :
    Host.Outcome State Fault Refusal :=
  let sel := s.wmask g
  .next (match s.vecFault [vSrc a (if uns then .n32 else .i32)] sel with
    | some r => s.raise r sel
    | none =>
      let idx (l : Nat) : Nat := (s.rdV s.cur a.toNat l).toNat
      let bad := sel &&& maskOf (fun l => bound.toNat ≤ idx l)
      if bad ≠ 0 then s.raise { plainFault 8 with lanes := bad } sel
      else
        let tgt (l : Nat) : Nat := (s.rdS s.cur (b.toNat + idx l)).toNat
        if (lanesOf sel).any (fun l => !s.targetOk (tgt l)) then s.raise (plainFault 4) sel
        else s.branch (fun l => if sel.getLsbD l then tgt l else s.iss.next) (join.toNat * 8))

def execCall (d : SReg) (target : BitVec 29) (s : State) : Host.Outcome State Fault Refusal :=
  let t := target.toNat * 8
  .next (s.scalar (s.targetOk t) (fun s => (s.writeS s.cur d.toNat (BitVec.ofNat 32 s.iss.next)).jump t))

/-- RET (R223); the first one clears TRAPPED (R347). -/
def execRet (a : SReg) (s : State) : Host.Outcome State Fault Refusal :=
  let t := (s.rdS s.cur a.toNat).toNat
  .next (s.scalar (s.targetOk t) (fun s => (s.modGrp s.cur Group.clearTrapped).jump t))

/-- EXIT (R224): a member of a held bond that would retire raises BOND_MISMATCH before any lane exits (R166). -/
def execExit (g : Guard) (s : State) : Host.Outcome State Fault Refusal :=
  let sel := s.wmask g
  .next (if ((s.grp s.cur).exited ||| sel) = BitVec.allOnes 32 && (s.bondOf s.cur).isSome then s.raise (plainFault 10) sel
    else s.exitLanes s.cur sel)

/-- TRAP (R225): the handler's entry, or a park with the code in the address field. -/
def execTrap (code : Word) (s : State) : Host.Outcome State Fault Refusal :=
  let gr := s.grp s.cur
  let park : State := (s.rewind).faultPark s.cur { plainFault 1 with addr := code.zeroExtend 64 } s.iss.off s.iss.planes
    gr.trapped false false
  .next (match s.trapEntry s.cur with
    | some e => if gr.trapped then park else s.enterTrap e 1 (BitVec.ofNat 32 s.iss.next) code gr.mask
    | none => park)

/-! ### Planes (R226) -/

def execPlaneSet (g : Guard) (k : BitVec 3) (s : State) : Host.Outcome State Fault Refusal :=
  let m := s.wmask g
  .next (s.modGrp s.cur (fun gr => { gr with planes := FMap.fill gr.planes (lanesOf m) k.toNat }))

def execPlaneSel (g : Guard) (a : VReg) (s : State) : Host.Outcome State Fault Refusal :=
  let m := s.wmask g
  .next (match s.vecFault [vSrc a .n32] m with
    | some r => s.raise r m
    | none =>
      let v (l : Nat) : Nat := (s.rdV s.cur a.toNat l).toNat
      if (lanesOf m).any (fun l => 8 ≤ v l) then s.raise (plainFault 4) m
      else s.modGrp s.cur (fun gr => { gr with
        planes := FMap.setMany gr.planes ((lanesOf m).map (fun l => (l, v l))) }))

/-! ### Barriers (R230 to R232) -/

/-- An arrival at a team slot; `sync` parks the group until the phase advances. -/
def State.barArrive (s : State) (slot : Nat) (sync : Bool) : State :=
  s.noRegion (fun s =>
    let t := (s.grp s.cur).team
    let b := FMap.get (s.team t).barriers slot
    let s := if sync then s.parkAfter .barrier slot else s
    let s := s.modTeam t (fun tm => { tm with barriers := FMap.set tm.barriers slot { b with arrivals := b.arrivals + 1 } })
    s.barCheck t slot)

def execBarSync (slot : BitVec 4) (s : State) : Host.Outcome State Fault Refusal := .next (s.barArrive slot.toNat true)
def execBarArrive (slot : BitVec 4) (s : State) : Host.Outcome State Fault Refusal := .next (s.barArrive slot.toNat false)

def execBarExpect (slot : BitVec 4) (a : SReg) (s : State) : Host.Outcome State Fault Refusal :=
  let n := (s.rdS s.cur a.toNat).toNat
  .next (s.noRegion (fun s => s.scalar (1 ≤ n && n ≤ 32) (fun s =>
    let t := (s.grp s.cur).team
    let s := s.modTeam t (fun tm => { tm with
      barriers := FMap.upd tm.barriers slot.toNat (fun b => { b with own := true, expected := n }) })
    s.barCheck t slot.toNat)))

/-- An arrival at a cluster slot (R232). -/
def State.cbarArrive (s : State) (k : Nat) (sync : Bool) : State :=
  s.noRegion (fun s =>
    let t := (s.grp s.cur).team
    let c := (s.team t).cluster
    let s := if sync then s.parkAfter .barrier (16 + k) else s
    let s := s.modCluster c (fun cl => { cl with
      arrivals := FMap.upd cl.arrivals (cbarKey k (s.team t).crank) (· + 1) })
    s.cbarCheck c k)

def execCbarSync (k : BitVec 2) (s : State) : Host.Outcome State Fault Refusal := .next (s.cbarArrive k.toNat true)
def execCbarArrive (k : BitVec 2) (s : State) : Host.Outcome State Fault Refusal := .next (s.cbarArrive k.toNat false)

/-! ### Register blocks (R37, R233) -/

/-- Whether an outstanding operation of the group has a destination at or above a vector register (R233). -/
def State.busyAbove (s : State) (g r : Nat) : Bool :=
  s.ops.any (fun p => p.2.live && p.2.grp = g && p.2.places.any (fun k => r ≤ k && k < 256))

/-- RGIVE n (R37, R233): parks until no outstanding operation writes the blocks given. -/
def execRgive (n : BitVec 6) (s : State) : Host.Outcome State Fault Refusal :=
  let n := n.toNat
  .next (s.noRegion (fun s =>
    let gr := s.grp s.cur
    s.scalar (1 ≤ n && n < gr.blocks) (fun s =>
      let r := 8 * (gr.blocks - n)
      if s.busyAbove s.cur r then s.parkAgain .rgive r
      else
        let s := s.modTeam gr.team (fun tm => { tm with pool := tm.pool + n })
        s.setGrp s.cur { gr.dropRegs r with blocks := gr.blocks - n })))

/-- RCLAIM n (R37, R233): parks the group in the line of claimants until the pool holds n blocks. -/
def execRclaim (n : BitVec 6) (s : State) : Host.Outcome State Fault Refusal :=
  let n := n.toNat
  .next (s.noRegion (fun s =>
    let gr := s.grp s.cur
    s.scalar (1 ≤ n && gr.blocks + n ≤ 32) (fun s =>
      let tm := s.team gr.team
      if tm.claimants = [] && n ≤ tm.pool then
        (s.setTeam gr.team { tm with pool := tm.pool - n }).setGrp s.cur (gr.claim n)
      else
        (s.parkAfter .rclaim n).setTeam gr.team { tm with claimants := tm.claimants ++ [(s.cur, n)] })))

/-- The head of a team's line of claimants is served (R37, R61). -/
def execRclaimGrant (team : Nat) (s : State) : Host.Outcome State Fault Refusal := .next (s.serveClaim team)

/-- A group parked at RGIVE goes on when nothing writes the blocks it gives (R61, R233). -/
def execRgiveRelease (grp : Nat) (s : State) : Host.Outcome State Fault Refusal :=
  let gr := s.grp grp
  .next (if gr.park = .rgive && !s.busyAbove grp gr.parkArg then s.setGrp grp { gr with park := .running, parkArg := 0 } else s)

/-! ### Idempotent regions (R235 to R237) -/

/-- What REGION.BEGIN records for a rollback (R235, R265). -/
def Group.recordRegion (gr : Group) (nblk nscal va sb rlw : Nat) : Region :=
  let inV (r : Nat) : Bool := va ≤ r && r < va + 8 * nblk
  { open_ := true, start := gr.off, va, nblk, sb, nscal
    vregs := gr.vregs.filter (fun p => inV (p.1 / 32)), vtags := gr.vtags.filter (fun p => inV p.1)
    sregs := gr.sregs.filter (fun p => sb ≤ p.1 && p.1 < sb + nscal), pregs := gr.pregs, qregs := gr.qregs
    planes := gr.planes, tilew := gr.tilewNext, off := gr.off, mask := gr.mask, recOff := gr.recOff, stack := gr.stack
    draw := gr.draw, rlwidx := rlw }

def execRegionBegin (nblk : BitVec 5) (nscal : BitVec 7) (a : VReg) (b : SReg) (s : State) : Host.Outcome State Fault Refusal :=
  .next (s.noRegion (fun s =>
    let gr := s.grp s.cur
    if 8 * gr.blocks < a.toNat + 8 * nblk.toNat then s.raise (plainFault 5) s.active
    else
      s.setGrp s.cur { gr with
        region := gr.recordRegion nblk.toNat nscal.toNat a.toNat b.toNat (s.fn gr.vf).rlwidx, regionStores := [] }))

def execRegionEnd (s : State) : Host.Outcome State Fault Refusal := .next (s.closeRegion s.cur)

/-- A rollback (R237): the region's stores are dropped, its loads cancelled with the counters at zero, the recorded state
returns with the lanes of its masks, every other register is zero, and the group stands at the region start,
inside the region again (R59, R404). (DEDUCED, log 76.) -/
def State.rollback (s : State) (g : Nat) : State :=
  let gr := s.grp g
  let r := gr.region
  if !r.open_ then s
  else
    let loads : List OpKind := [.load, .sload, .paramLoad, .scratch, .sfu, .btset]
    let dead := (s.ops.filter (fun p => p.2.grp = g && (p.2.kind ∈ loads || p.2.stage = 7))).map (·.1)
    let ops := s.ops.filter (fun (p : Nat × Op) => p.1 ∉ dead)
    let s := { s with
      ops := ops.map (fun (p : Nat × Op) => if p.2.grp = g then (p.1, { p.2 with ctr := 6 }) else p)
      acc := s.acc.filter (fun (p : Nat × Access) => !(p.2.kind = AccKind.load && p.2.op ∈ dead)) }
    let back := r.stack.foldl (fun m e => m ||| e.mask) r.mask
    s.setGrp g { gr with
      exited := gr.exited &&& ~~~back
      vregs := r.vregs, vtags := r.vtags, sregs := r.sregs, pregs := r.pregs, qregs := r.qregs, planes := r.planes
      vpoison := [], tilewNext := r.tilew, off := r.off, mask := r.mask, recOff := r.recOff, stack := r.stack
      draw := r.draw, ctrs := [], inClause := false, word := 0, planeFrom := 0, posTags := [], brDests := []
      notReady := [], clobber := [], regionStores := [], replay := 0, replayOp := 0
      held := false, heldWalk := [], heldAts := [], walked := [], refused := [] }

/-! ### Special registers and lane reads (R72 to R74, R217, R218) -/

/-- The package tick count as a virtual device reads it. Every core and slice reads the same count: of the skew of up
to 2 ticks that R28 allows between them the model takes 0. (DESIGN CHOICE, log 165.) -/
def State.ticks (s : State) (g : Nat) : DWord := BitVec.ofInt 64 ((s.tick : Int) + (s.fn (s.grp g).vf).tickOff)

/-- The value of a group's special register (R72). -/
def State.specialReg (s : State) (g num : Nat) : Word :=
  let gr := s.grp g
  let n (v : Nat) : Word := BitVec.ofNat 32 v
  match num with
  | 0x02 => n gr.idx
  | 0x03 => gr.teamReg
  | 0x04 => n gr.role
  | 0x05 => n gr.tilewNext
  | 0x06 => n gr.crank
  | 0x07 => n gr.cshape
  | 0x08 => n gr.gridx
  | 0x09 => n gr.gridy
  | 0x0a => n gr.gridz
  | 0x0b => n gr.gdimx
  | 0x0c => n gr.gdimy
  | 0x0d => n gr.gdimz
  | 0x10 => n (s.coreOf g)
  | 0x11 => n (coreDie (s.coreOf g))
  | 0x12 => gr.moved.zeroExtend 32
  | 0x13 => loWord (s.ticks g)
  | 0x14 => hiWord (s.ticks g)
  | 0x15 => gr.gang
  | 0x16 => if (s.fn gr.vf).rlcfg.getLsbD 63 then 1 else 0
  | 0x17 => n gr.node
  | 0x18 => n gr.lseq
  | 0x19 => gr.sfault
  | _ => 0

/-- GETS (R73, R218). -/
def execGets (dst : GetsDst) (num : BitVec 8) (s : State) : Host.Outcome State Fault Refusal :=
  let k := num.toNat
  .next (match dst with
    | .s d => s.scalar (k ∈ specialRegs && 2 ≤ k) (fun s => s.writeS s.cur d.toNat (s.specialReg s.cur k))
    | .s64 d => s.scalar (k = 0x13 && sPairOk true d) (fun s => s.writeSW s.cur d.toNat true (s.ticks s.cur))
    | .v d => s.scalar (k ∈ specialRegs) (fun s => s.vec .always [] d false .n32 (fun l =>
        match k with
        | 0x00 => BitVec.ofNat 64 l
        | 0x01 => BitVec.ofNat 64 (FMap.get (s.grp s.cur).planes l)
        | _ => pairOf (s.specialReg s.cur k) 0)))

/-- SETS (R38, R73, R74): TILEW from the next clause header, MOVED by writing ones. -/
def execSets (num : BitVec 8) (a : SReg) (s : State) : Host.Outcome State Fault Refusal :=
  let v := s.rdS s.cur a.toNat
  .next (match num.toNat with
    | 0x05 => s.scalar (v.toNat ∈ [2, 4, 8, 16, 32]) (fun s => s.modGrp s.cur (fun gr => { gr with tilewNext := v.toNat }))
    | 0x12 => s.scalar (v.toNat < 8) (fun s => s.modGrp s.cur (fun gr => { gr with moved := gr.moved &&& ~~~(v.setWidth 3) }))
    | _ => s.raise (plainFault 4) s.active)

/-- SLANE (R217): one lane of a vector register, read as bits under any tag. (DEDUCED, log 25; DEDUCED, log 26.) -/
def execSlane (w64 : Bool) (d : SReg) (a : VReg) (sel : LaneSel) (s : State) : Host.Outcome State Fault Refusal :=
  let l := match sel with
    | .lane n => n.toNat
    | .reg r _ => (s.rdS s.cur r.toNat).toNat % 32
    | .first => lowLane s.active
  .next (match s.opFault (sPairOk w64 d) [vUse a w64 .anyTag] (1#32 <<< l) with
    | some r => s.raise r s.active
    | none => s.writeSW s.cur d.toNat w64 (s.vVal a w64 l))

end Sys2Proof.Machine
end

