-- ==== Sys2Proof/Machine/Halt.lean ====
section
/-!
DEFINITION. Halts of clusters (R169, R316, R402 to R406), token budgets (R401), temperature and thermal migration (R407),
the arithmetic clock (R29).
-/
namespace Sys2Proof.Machine
open Sys2Proof

/-! ### Halts (R402 to R405) -/

/-- A request halts a whole cluster, unless its launch is being killed. -/
def State.requestHalt (s : State) (c : Nat) (hold : Bool) : State :=
  let cl := s.cluster c
  if cl.live && cl.halt = .running && (s.launch cl.launch).state ≠ .killing then s.setCluster c { cl with halt := .halting, holdHalt := hold, haltAt := s.tick } else s

/-- The latches of a halted cluster close: members that wait stand again at their joint words; a held bond is breaking, one
that was forming is gone (R169). -/
def State.closeLatches (s : State) (c : Nat) : State :=
  let mine := s.bonds.filter (fun p => p.2.cluster = c)
  let s := (mine.flatMap (fun p => p.2.latch)).foldl (fun s a => s.modGrp a.1 (fun gr =>
    if gr.park = .gang then { gr.rewindOne with park := .running, parkArg := 0 } else gr)) s
  { s with bonds := (s.bonds.filter (fun p => p.2.cluster ≠ c || p.2.state ≠ .forming)).map (fun (p : Nat × Bond) =>
      if p.2.cluster = c && p.2.state = BondState.held then
        (p.1, { p.2 with state := BondState.breaking, latch := [], complete := false, ready := (0, 0) })
      else p) }

/-- Every core of the cluster has stopped issuing; groups inside a region are rolled back (R403, R404). -/
def execClusterStop (cluster : Nat) (s : State) : Host.Outcome State Fault Refusal :=
  let cl := s.cluster cluster
  .next (if !(cl.live && cl.halt = .halting && cl.teams.any (fun t => (s.team t).live && (s.team t).halt = .running)) then s
    else
      let s := s.closeLatches cluster
      let teams := cl.teams.filter (fun t => (s.team t).live)
      let s := (teams.flatMap (fun t => (s.team t).groups)).foldl (fun s g => s.rollback g) s
      teams.foldl (fun s t => s.modTeam t (fun tm => { tm with halt := .halting })) s)

/-- Operations that must end before a context is taken; the others are saved with it (R79, R316, R353). -/
def OpKind.mustEnd (k : OpKind) : Bool := k ∉ [OpKind.wait, .copy, .meshRed, .sdot, .mstream, .mdrain, .mdrainT, .mstat]

/-- Whether a stopped team's context can be taken: its operations done or of the kinds that are saved, no load of the
stationary buffers under way, its stores published (R79, R136, R316, R403). -/
def State.contextReady (s : State) (t : Nat) : Bool :=
  let tm := s.team t
  s.ops.all (fun p => p.2.team ≠ t || !p.2.live || !p.2.kind.mustEnd) &&
  s.acc.all (fun p => p.2.team ≠ t && p.2.grp ∉ tm.groups) &&
  s.sb.all (fun p => p.2.team ≠ t) && s.pend.all (fun p => p.2.team ≠ t || p.2.v + 2 ≤ s.tick) &&
  (tm.msmRows = 0 || (s.matrixOf tm.core).queue.all (fun e => !(e.isStat && e.begun)))

/-- An operation as the saved context holds it: an SDOT starts its reads again. -/
def Op.saved (o : Op) : Op := if o.kind = .sdot then { o with stage := 0, res := [] } else o

/-- A team's context is taken; its core is free (R353, R405). -/
def State.saveTeam (s : State) (t : Nat) : State :=
  let tm := s.team t
  let s := if tm.msmRows = 0 then s
    else
      let m := (s.coreRec tm.core).matrix
      (s.modCore tm.core (fun k => { k with matrix := default })).setCore (savedMatrix t) { (default : CoreRec) with matrix := m }
  let s := { s with ops := s.ops.map (fun (p : Nat × Op) => if p.2.team = t then (p.1, p.2.saved) else p) }
  s.setTeam t { tm with halt := .saved }

/-- After the drains: the store buffer publishes; then the contexts are taken and saved, or held (R403, R405). -/
def execHaltCompletion (cluster : Nat) (s : State) : Host.Outcome State Fault Refusal :=
  let cl := s.cluster cluster
  let teams := cl.teams.filter (fun t => (s.team t).live)
  .next (if !(cl.live && cl.halt = .halting && teams.all (fun t => (s.team t).halt = .halting)) then s
    else if teams.any (fun t => s.sb.any (fun p => p.2.team = t)) then teams.foldl (fun s t => s.publishTeam t) s
    else if !teams.all s.contextReady then s
    else
      let s := { s with bonds := s.bonds.map (fun (p : Nat × Bond) =>
        if p.2.cluster = cluster && p.2.state = BondState.breaking then (p.1, { p.2 with state := BondState.saved }) else p) }
      let s := if cl.holdHalt then teams.foldl (fun s t => s.modTeam t (fun tm => { tm with halt := .held })) s
        else teams.foldl (fun s t => s.saveTeam t) s
      (s.setCluster cluster { cl with halt := if cl.holdHalt then .held else .saved }).noteHalted cluster)

/-! ### Token budgets (R401) -/

/-- The functions bound to a partition. -/
def State.fnsOf (s : State) (part : Nat) : List Nat :=
  (s.fns.filter (fun p => p.2.bound && p.2.leaf = part && p.1 < 256)).map (·.1)

/-- Cores on which a function holds a resident team. -/
def State.coresHeld (s : State) (fn : Nat) : Nat :=
  ((List.range 48).filter (fun c => (s.residents c).any (fun t => (s.launch (s.cluster (s.team t).cluster).launch).fn = fn))).length

/-- The end of a partition's period. -/
def Part.boundary (p : Part) : Nat := p.periodStart + p.period * 1000

/-- Whether a launch has work that fits nowhere free. -/
def State.blocked (s : State) (la : Nat) : Bool :=
  let l := s.launch la
  let work : Bool := s.savedOf la ≠ [] || s.dueFirings la ≠ [] || (s.boardOk l && l.nextPoint.isSome)
  l.state = .active && work && (s.workOf la).isNone

/-- While a function over its cap keeps another's ready work out, its clusters are pre-empted, newest launch first, one
at a time (R401). -/
def State.enforce (s : State) (part : Nat) : State :=
  let fns := s.fnsOf part
  let waits : Bool := s.launches.any (fun p =>
    p.2.part = part && p.2.fn ∈ fns && 0 < (s.fn p.2.fn).balance && !s.overCap p.2.fn && s.blocked p.1)
  let mine := s.clusters.filter (fun p =>
    let l := s.launch p.2.launch
    p.2.live && l.part = part && l.fn ∈ fns && s.overCap l.fn)
  if !waits || mine.any (fun p => p.2.halt = .halting) then s
  else
    let run := mine.filter (fun p => p.2.halt = .running)
    let newest := run.foldl (fun n p => max n p.2.launch) 0
    match (run.filter (fun p => p.2.launch = newest)).getLast? with
    | some p => s.requestHalt p.1 false
    | none => s

/-- A function's balance after some core-microseconds; at or below twice its budget in debt it is over its cap to the end of
the next period. -/
def FnRec.spend (r : FnRec) (p : Part) (n : Nat) : FnRec :=
  let b := r.balance - n
  { r with balance := b, overUntil := if b ≤ -2 * (r.budget : Int) then p.boundary + p.period * 1000 else r.overUntil }

/-- A microsecond ends: every function pays one core-microsecond for each core it holds a resident team on. (DEDUCED, log 78.) -/
def execTokenConsumption (s : State) : Host.Outcome State Fault Refusal :=
  .next (if s.tick < s.usNext then s
    else
      let s := { s with usNext := (s.tick / 1000 + 1) * 1000 }
      let bound := s.fns.filter (fun p => p.2.bound && p.1 < 256)
      let s := bound.foldl (fun s p => s.modFn p.1 (fun r => r.spend (s.part r.leaf) (s.coresHeld p.1))) s
      (s.parts.filter (fun p => p.2.state = .running)).foldl (fun s p => s.enforce p.1) s)

/-- A function at its partition's boundary: the test before the refill, the budget in force from now on, the refill. -/
def FnRec.refill (r : FnRec) (stop : Nat) : FnRec :=
  let owes : Bool := r.balance ≤ -2 * (r.budget : Int)
  let b := r.budgetNext
  { r with overUntil := if owes then stop else r.overUntil, budget := b, balance := min (r.balance + b) b }

/-- A partition's period ends, once its last microsecond has been paid for (R401). -/
def execPeriodBoundary (part : Nat) (s : State) : Host.Outcome State Fault Refusal :=
  let p := s.part part
  .next (if !(p.state = .running && p.boundary ≤ s.tick && (s.tick < s.usNext || s.fnsOf part = [])) then s
    else
      let q := { p with periodStart := p.boundary, period := p.periodNext, tbud := p.tbudNext }
      let s := s.setPart part q
      let s := (s.fnsOf part).foldl (fun s v => s.modFn v (fun r => r.refill q.boundary)) s
      s.enforce part)

/-! ### Heat and the clock (R29, R407) -/

/-- Whether a cluster is to be moved: all its cores hot for 50 microseconds, resident for 2 ms, and a cool rectangle of its
shape free. -/
def State.tooHot (s : State) (c : Nat) (cl : Cluster) : Bool :=
  cl.live && cl.halt = .running && cl.placedAt + 2000000 ≤ s.tick &&
  cl.cores.all (fun k => (s.coreRec k).hotFrom ≠ 0 && (s.coreRec k).hotFrom + 49999 ≤ s.tick) && (s.resumeRect c).isSome

/-- Since when a core is hot, from what it held and its temperature. -/
def hotSince (limit tick degrees old : Nat) : Nat := if degrees < limit then 0 else if old = 0 then tick + 1 else old

/-- The host sets the limit at which a core is hot (R407). (DESIGN CHOICE, log 5.) -/
def State.setHotLimit (s : State) (degrees : Nat) : State :=
  let s := { s with ras := { s.ras with hotLimit := degrees } }
  (List.range 48).foldl (fun s c => s.modCore c (fun k => { k with hotFrom := hotSince degrees s.tick k.temp k.hotFrom })) s

/-- A core reports its junction temperature. (DESIGN CHOICE, log 5; DEDUCED, log 80.) -/
def execTemperatureReport (core degrees : Nat) (s : State) : Host.Outcome State Fault Refusal :=
  .next (if 48 ≤ core then s
    else
      let s := s.modCore core (fun k => { k with
        temp := degrees, hotFrom := hotSince s.ras.hotLimit s.tick degrees k.hotFrom })
      (s.clusters.filter (fun p => core ∈ p.2.cores)).foldl (fun s p =>
        if s.tooHot p.1 p.2 then s.requestHalt p.1 false else s) s)

/-- The power manager steps a die's arithmetic clock, to a value it chooses, in MHz; PWRNOW reports the lowest clock and a
power the model leaves free (R29, R446, R451). (DESIGN CHOICE, log 79; DESIGN CHOICE, log 134.) -/
def execClockStep (die : Nat) (s : State) : Host.Outcome State Fault Refusal :=
  .next (if 4 ≤ die then s
    else
      let (k, s) := s.pick 2500
      let s := s.modDie die (fun d => { d with clock := k + 1 })
      let low := (List.range 4).foldl (fun m d => min m (s.die d).clock) 65535
      let (w, s) := s.pick 65536
      { s with ras := { s.ras with pwrNow := BitVec.ofNat 64 (low * 65536 + w) } })

end Sys2Proof.Machine
end

