-- ==== Sys2Proof/Machine/Actions.lean ====
section
/-!
DEFINITION. Queue actions (R394 to R396): the fields of each block, the validation of kernel images (R175 to R178), and the
Frond word `act` that issues them (R392). An action that must wait leaves its word to run again.
-/
namespace Sys2Proof.Machine
open Sys2Proof

/-- The dwords of an action's block. -/
def actDword (a : ActOp) (i : Nat) : Nat :=
  match i with
  | 0 => a.d0.toNat
  | 1 => a.d1.toNat
  | 2 => a.d2.toNat
  | 3 => a.d3.toNat
  | 4 => a.d4.toNat
  | 5 => a.d5.toNat
  | 6 => a.d6.toNat
  | _ => a.d7.toNat

def stOk : Nat := 0
def stKind : Nat := 1
def stMode : Nat := 2
def stField : Nat := 3
def stHeader : Nat := 4
/-- (DEDUCED, log 72.) -/
def stShape : Nat := 5
def stResource : Nat := 6
def stDepCycle : Nat := 7
def stDepSize : Nat := 8
def stDepNone : Nat := 9
def stImage : Nat := 10
def stNotFound : Nat := 11

/-- What an action comes to: it waits, or it ends with a status (R395). -/
inductive Acted where
  | wait (s : State)
  | done (status : Nat) (s : State)

/-! ### Fields (R394) -/

def actBarrier (a : ActOp) : Bool := a.d0.getLsbD 8
def actIntr (a : ActOp) : Bool := a.d0.getLsbD 9
def actIrq (a : ActOp) : Nat := if actIntr a then irqQueue a.fn else 0

/-- Dwords from i on are zero. -/
def restZero (a : ActOp) (i : Nat) : Bool := (List.range (8 - i)).all (fun k => actDword a (i + k) = 0)

/-- Dword 0 of a block of a kind: TYPE, bits 15:10 zero, nothing at or above bit `top`. -/
def headOk0 (a : ActOp) (kind top : Nat) : Bool :=
  let d := actDword a 0
  d % 256 = kind && bitsOf d 15 10 = 0 && d < 2 ^ top

def launchFields (a : ActOp) (kind : Nat) : Bool :=
  let d (i : Nat) : Nat := actDword a i
  headOk0 a kind 48 && d 1 % 64 = 0 && d 2 % 16 = 0 && bitsOf (d 3) 19 0 ≠ 0 && bitsOf (d 3) 39 20 ≠ 0 &&
  bitsOf (d 3) 59 40 ≠ 0 && d 3 < 2 ^ 60 && d 4 % 8 = 0 && restZero a 5

/-- Whether the fields of an action of a kind lie within R394. -/
def fieldsOk (a : ActOp) (kind : Nat) : Bool :=
  let d (i : Nat) : Nat := actDword a i
  match kind with
  | 1 | 2 => launchFields a kind
  | 3 => headOk0 a 3 16 && d 1 % 16 = 0 && d 2 % 16 = 0 && d 3 % 16 = 0 && d 3 < 2 ^ 32 && restZero a 4
  | 4 => headOk0 a 4 17 && d 1 % 8 = 0 && restZero a 3
  | 5 => headOk0 a 5 18 && bitsOf (d 0) 17 16 < 3 && d 1 % 8 = 0 && restZero a 4
  | 6 => headOk0 a 6 22 && d 1 % 64 = 0 && d 2 ≤ 16 && restZero a 3
  | 7 => headOk0 a 7 16 && d 1 % 8 = 0 && restZero a 2
  | 8 => headOk0 a 8 16 && bitsOf (d 1) 31 10 = 0 && d 2 < 64 && restZero a 3
  | 9 => headOk0 a 9 16 && bitsOf (d 1) 39 37 = 0 && bitsOf (d 1) 63 48 = 0 && bitsOf (d 1) 35 32 < 4 && restZero a 2
  | _ => headOk0 a 10 16 && bitsOf (d 1) 31 9 = 0 && d 2 < 64 && restZero a 3

/-- Step 1 of an action: KIND, MODE or FIELD, the lowest that applies (R395). -/
def State.actPrecheck (s : State) (a : ActOp) (kind : Nat) : Nat :=
  let mode := (s.queue a.fn a.q).mode
  let d1 := actDword a 1
  if kind = 0 || 10 < kind then stKind
  else if 8 ≤ kind && mode = 0 then stMode
  else if (kind = 8 || kind = 10) && mode = 1 && d1 % 256 ≠ a.fn then stMode
  else if !fieldsOk a kind then stField
  else if kind = 9 && mode = 1 && bitsOf d1 47 36 ≠ 0 then stField
  else stOk

/-! ### Reads of the hub for an action -/

/-- A read of guest memory by an action: failed, waiting for a forced publication, or the bytes. -/
inductive Got where
  | bad
  | wait
  | ok (l : List Byte)

def State.actRead (s : State) (fn va n : Nat) : Got × State :=
  match s.hubBytes fn va n with
  | (.error _, s) => (.bad, s)
  | (.ok none, s) => (.wait, s)
  | (.ok (some l), s) => (.ok l, s)

/-! ### The kernel header (R175 to R178) -/

/-- A signed byte. -/
def signedByte (n : Nat) : Int := if 128 ≤ n then (n : Int) - 256 else n

/-- The dependence vectors of a header, all four (R176). -/
def headerDeps (h : List Byte) : List (Int × Int × Int) :=
  (List.range 4).map (fun i =>
    (signedByte (numAt h (0x48 + 3 * i) 1), signedByte (numAt h (0x49 + 3 * i) 1), signedByte (numAt h (0x4a + 3 * i) 1)))

/-- A launch record with the fields of a header (R176); tables come later. -/
def parseHeader (h : List Byte) : Launch :=
  let n (o k : Nat) : Nat := numAt h o k
  { (default : Launch) with
    planes := n 6 1, code := n 8 4, plen := n 0xc 4, stride := n 0x10 4, entry := n 0x14 4
    trap := if n 0x18 4 = 0xffffffff then none else some (n 0x18 4)
    groups := n 0x1c 1, rows := n 0x1d 1 / 16, cols := n 0x1d 1 % 16, pool := n 0x1e 2, rolemap := n 0x20 8
    blocks := (List.range 4).map (fun k => n (0x28 + k) 1), scratch := n 0x2c 4, msmRows := n 0x30 2, paramLen := n 0x32 2
    deps := (headerDeps h).take (n 0x3a 1) }

/-- An offset of a clause: a multiple of 8 below PLEN (R178). -/
def Launch.clauseOff (l : Launch) (o : Nat) : Bool := o % 8 = 0 && o < l.plen

/-- The fields of the header (R176, R178), the tables and the shape apart. -/
def headerOk (h : List Byte) (l : Launch) (len : Nat) : Bool :=
  let n (o k : Nat) : Nat := numAt h o k
  128 ≤ len && n 0 4 = 0x4b4e4c42 && n 4 2 = 1 && 1 ≤ l.planes && l.planes ≤ 8 && n 7 1 = 0 && l.code % 64 = 0 &&
  128 ≤ l.code && l.plen ≠ 0 && l.plen % 8 = 0 && (l.planes = 1 || (l.stride % 64 = 0 && l.plen ≤ l.stride)) &&
  l.clauseOff l.entry && (l.trap.all l.clauseOff) && 1 ≤ l.groups && l.groups ≤ 32 && l.pool ≤ 512 &&
  (List.range l.groups).all (fun g => 1 ≤ l.blocksOf g && l.blocksOf g ≤ 32) && l.msmRows % 64 = 0 && l.msmRows ≤ 4096 &&
  l.paramLen ≤ 4096 && n 0x34 2 ≤ 64 && n 0x36 2 ≤ 1024 && n 0x38 2 ≤ 64 && n 0x3a 1 ≤ 4 && n 0x3b 1 = 0 &&
  n 0x3c 4 % 8 = 0 && n 0x40 4 % 8 = 0 && n 0x44 4 % 8 = 0 && (h.drop 0x54).all (· = 0) &&
  ((headerDeps h).zipIdx).all (fun (p : (Int × Int × Int) × Nat) =>
    let c (x : Int) : Bool := -15 ≤ x && x ≤ 15
    if p.2 < n 0x3a 1 then c p.1.1 && c p.1.2.1 && c p.1.2.2 else p.1 = (0, 0, 0)) &&
  l.code + (if l.planes = 1 then 0 else (l.planes - 1) * l.stride) + l.plen ≤ len &&
  n 0x3c 4 + 8 * n 0x34 2 ≤ len && n 0x40 4 + 8 * n 0x36 2 ≤ len && n 0x44 4 + 16 * n 0x38 2 ≤ len

/-- A tile-table entry: its descriptor, or none when the entry is in breach (R70, R177). -/
def parseTile (share e : Nat) : Option (Nat × Tile) :=
  let t : Tile := { (default : Tile) with
    defd := true, tag := (Tag.ofCode (BitVec.ofNat 5 (bitsOf e 12 8))).getD .b32, base := bitsOf e 50 36, rows := bitsOf e 27 16
    rowb := bitsOf e 35 28 }
  if bitsOf e 63 51 = 0 && bitsOf e 15 13 = 0 && bitsOf e 12 8 < 22 && e % 256 < 64 &&
    t.base * 64 + (t.rows + 1) * (t.rowb + 1) * 64 ≤ share then some (e % 256, t) else none

/-- A patch-table entry (R177, R178). -/
def parsePatch (l : Launch) (e : Nat) : Option (Nat × Nat × Nat × Bool) :=
  let w := bitsOf e 50 48
  let woff := bitsOf e 31 0
  let poff := bitsOf e 47 32
  if bitsOf e 63 56 = 0 && bitsOf e 54 51 = 0 && w ∈ [1, 2, 4] && l.clauseOff woff && poff + w ≤ l.paramLen then
    some (woff, poff, w, bitOf e 55) else none

/-- A node-table entry (R177, R178). -/
def parseNode (l : Launch) (lo hi : Nat) : Option (Nat × NodeDesc) :=
  let d : NodeDesc := {
    live := true, count := bitsOf lo 15 8, blocks := bitsOf lo 23 16, entry := bitsOf lo 63 32, timer := bitsOf hi 31 0
    scratch := bitsOf hi 63 32 }
  if lo % 256 < 64 && 1 ≤ d.count && d.count ≤ 32 && 1 ≤ d.blocks && d.blocks ≤ 32 && bitsOf lo 31 24 = 0 && l.clauseOff d.entry
  then some (lo % 256, d) else none

/-- Every entry parsed, or none. -/
def allSome {α : Type} : List (Option α) → Option (List α)
  | [] => some []
  | none :: _ => none
  | some a :: t => (allSome t).map (a :: ·)

/-- No key twice. -/
def noTwice {α : Type} (l : List (Nat × α)) : Bool := (sortOnce (l.map (·.1))).length = l.length

/-- The launch with its tables; none for a breach of R178. -/
def parseTables (l : Launch) (tiles patches nodes : List Byte) : Option Launch :=
  let share := shareOf l.scratch
  let ts := allSome ((List.range (tiles.length / 8)).map (fun i => parseTile share (dwordAt tiles i)))
  let ps := allSome ((List.range (patches.length / 8)).map (fun i => parsePatch l (dwordAt patches i)))
  let ns := allSome ((List.range (nodes.length / 16)).map (fun i =>
    parseNode l (dwordAt nodes (2 * i)) (dwordAt nodes (2 * i + 1))))
  match ts, ps, ns with
  | some ts, some ps, some ns =>
    if noTwice ts && noTwice ns then some { l with tiles := ts, patches := ps, nodes := FMap.setMany [] ns } else none
  | _, _, _ => none

/-- Whether a vector is lexicographically negative: the first nonzero component of (dz, dy, dx) is (R57). -/
def lexNegative (v : Int × Int × Int) : Bool :=
  if v.2.2 ≠ 0 then decide (v.2.2 < 0) else if v.2.1 ≠ 0 then decide (v.2.1 < 0) else decide (v.1 < 0)

/-- The checks of step 3 past the header: shape, resources, dependences; the lowest code that applies, 0 for none. -/
def State.launchCode (s : State) (l : Launch) (dep : Bool) : Nat :=
  let host : Bool := l.fn = 256 && !s.hostPart.getLsbD 63
  let p := s.part l.part
  let cap := p.scrMax * 65536
  if !(1 ≤ l.rows && l.rows ≤ 3 && 1 ≤ l.cols && l.cols ≤ (if p.pair then 8 else 4) && l.rows * l.cols ≤ 12) then stShape
  else if host || 512 < l.need.blocks || cap < shareOf l.scratch || l.nodes.any (fun d => cap < shareOf d.2.scratch) ||
    !(p.rects l.rows l.cols).any (fun r => r.all (fun c => p.hasCore c && !(s.coreRec c).fenced)) then stResource
  else if dep && l.deps.any (fun v => !lexNegative v) then stDepCycle
  else if dep && 1048576 < l.points then stDepSize
  else if dep && l.deps = [] then stDepNone
  else stOk

/-! ### LAUNCH and LAUNCH.DEP (R396) -/

/-- What validating a launch comes to. -/
inductive Validated where
  | wait
  | code (n : Nat)
  | ok (l : Launch)

/-- A table of a kernel image is read, where it lies within the image (R395 step 2). -/
def State.readTable (s : State) (a : ActOp) (len o n : Nat) : Got × State :=
  if o + n ≤ len then s.actRead a.fn (actDword a 1 + o) n else (.ok [], s)

/-- The reads of a kernel image: the header and its three tables; failed, waiting, or the four. -/
def State.readImage (s : State) (a : ActOp) (len : Nat) : Except Got (List Byte × List Byte × List Byte × List Byte) × State :=
  match s.actRead a.fn (actDword a 1) (min 128 len) with
  | (.ok h, s) =>
    match s.readTable a len (numAt h 0x3c 4) (8 * numAt h 0x34 2) with
    | (.ok tiles, s) =>
      match s.readTable a len (numAt h 0x40 4) (8 * numAt h 0x36 2) with
      | (.ok patches, s) =>
        match s.readTable a len (numAt h 0x44 4) (16 * numAt h 0x38 2) with
        | (.ok nodes, s) => (.ok (h, tiles, patches, nodes), s)
        | (r, s) => (.error r, s)
      | (r, s) => (.error r, s)
    | (r, s) => (.error r, s)
  | (r, s) => (.error r, s)

/-- Steps 2 to 4 of a launch: the image is read, checked, the parameter block copied (R395). (DEDUCED, log 71.) -/
def State.validate (s : State) (a : ActOp) (dep : Bool) : Validated × State :=
  let d (i : Nat) : Nat := actDword a i
  let len := bitsOf (d 0) 47 16
  match s.readImage a len with
  | (.error .wait, s) => (.wait, s)
  | (.error _, s) => (.code stImage, s)
  | (.ok (h, tiles, patches, nodes), s) =>
    let l := parseHeader h
    if !headerOk h l len then (.code stHeader, s)
    else
      match parseTables l tiles patches nodes with
      | none => (.code stHeader, s)
      | some l =>
        let l := { l with
          fn := a.fn, part := s.leafOfFn a.fn, dimx := bitsOf (d 3) 19 0, dimy := bitsOf (d 3) 39 20
          dimz := bitsOf (d 3) 59 40 }
        let c := s.launchCode l dep
        if c ≠ 0 then (.code c, s)
        else
          match s.actRead a.fn (d 2) l.paramLen with
          | (.bad, s) => (.code stImage, s)
          | (.wait, s) => (.wait, s)
          | (.ok ps, s) =>
            (.ok { l with
              params := FMap.setMany [] ((List.range ps.length).zip ps), image := d 1
              dep, deps := if dep then l.deps else [] }, s)

/-- A launch action: the launch becomes active, or is rejected with its completion word (R395 to R397). Every launch action
takes the next LSEQ and the queue's pending bin set, and is its queue's turn (R401). (DEDUCED, log 70.) -/
def State.actLaunch (s : State) (a : ActOp) (dep : Bool) : Acted :=
  let qu := s.queue a.fn a.q
  let take (s : State) : State := (s.modQueue a.fn a.q (fun u => { u with lseq := (u.lseq + 1) % 2 ^ 32, bins := [] })).hadTurn a.fn a.q 0
  let cwva := actDword a 4
  match s.validate a dep with
  | (.wait, s) => .wait s
  | (.code c, s) =>
    .done c ((take s).complete a.fn cwva qu.lseq c stateRejected (actIrq a))
  | (.ok l, s) =>
    let (id, s) := s.fresh
    .done stOk ((take s).setLaunch id { l with
      state := .active, queue := a.q, mode := qu.mode, lseq := qu.lseq, cwva, intr := actIntr a, bins := qu.bins })

/-! ### Earlier actions of the queue (R394, R396) -/

/-- The launches of a queue that have not completed. -/
def State.openLaunches (s : State) (fn q : Nat) : FMap Launch :=
  s.launches.filter (fun p => p.2.fn = fn && p.2.queue = q && p.2.state ∈ [LaunchState.active, .halted, .killing])
def State.launchesOpen (s : State) (fn q : Nat) : Bool := !(s.openLaunches fn q).isEmpty

/-- Whether a store of the hub is visible everywhere. -/
def State.hubStored (s : State) (o : Op) : Bool :=
  o.kind = .hubStore && o.stage = 0 && o.waitOn = [] && (o.ptr = 0 || o.ptr + 2 ≤ s.tick)

/-- Whether a SIGNAL or MARK of the hub has completed: its stores are visible everywhere. One that waits for earlier actions
is at stage 1, one that has acted at stage 2. -/
def State.hubOpDone (s : State) (o : Op) : Bool :=
  s.hubStored o ||
  (o.kind = .hubStore && o.stage = 2 && o.waitOn.all (fun k => !(s.op k).live || s.hubStored (s.op k)))

/-- The COPY, SIGNAL, MARK and HALT actions of a queue that have not completed. -/
def State.openActions (s : State) (fn q : Nat) : FMap Op :=
  s.ops.filter (fun p => p.2.live && p.2.kind ∈ [OpKind.hubCopy, .hubStore, .hubHalt] && p.2.arg.take 2 = [fn, q] &&
    !s.hubOpDone p.2)
def State.actionsOpen (s : State) (fn q : Nat) : Bool := !(s.openActions fn q).isEmpty

/-- The finished stores of a queue are forgotten. -/
def State.sweepActions (s : State) : State :=
  { s with ops := s.ops.filter (fun p => !(p.2.kind = .hubStore && s.hubOpDone p.2)) }

/-! ### SIGNAL and MARK -/

/-- The stores that set out since an object number: a later action of the queue waits for them. -/
def State.noteStores (s : State) (fn q before : Nat) : State :=
  let new := (List.range (s.nextId - before)).map (before + ·)
  let new := new.filter (fun id => (FMap.get s.acc id).live)
  if new = [] then s
  else
    let (id, s) := s.fresh
    s.setOp id { (default : Op) with live := true, kind := .hubStore, ctr := 6, waitOn := new, arg := [fn, q] }

/-- A 64-bit store by an action: a release at sys scope, for every earlier action has completed. -/
def State.actStore (s : State) (a : ActOp) (va v : Nat) : Acted :=
  let s := s.sweepActions
  let before := s.nextId
  match s.hubWriteVa a.fn va (leBytes 8 v) 0 (actIrq a) with
  | .error _ => .done stImage s
  | .ok s => .done stOk (s.noteStores a.fn a.q before)

/-- A 64-bit add by an action, an atomic at the word's home; another package adds to its own memory. -/
def State.actAdd (s : State) (a : ActOp) (va v : Nat) : Acted :=
  match s.hubReach a.fn va true with
  | .error e => if e.cls = 0 then .wait (s.askPull e.gpa) else .done stImage s
  | .ok (.remote _ _, _) => s.actStore a va v
  | .ok (.host h _, x) =>
    .done stOk (((s.markDirty a.fn x).hostStore (cellsOf h 8 ((leNat (s.hostBytes h 8) + v) % 2 ^ 64))).signalIrq (actIrq a))
  | .ok (.hbm spa _, x) =>
    if s.poisoned spa 8 then .done stImage s
    else
      let (ok, s) := s.forceLine (lineOf spa) outside true
      if !ok then .wait s
      else
        let s := ((s.sweepActions).hubFill a.fn va true).markDirty a.fn x
        let s := ((s.recall 4 (lineOf spa)).unshare (lineOf spa)).l2Touch spa 8 true
        let old := leNat ((List.range 8).map (fun i => s.homeByte (fun _ => true) (spa + i)))
        let (id, s) := s.fresh
        let s := s.arrive id (lineOf spa) { (default : Pend) with
          cells := cellsOf spa 8 ((old + v) % 2 ^ 64), homeDie := spaDie spa, irq := actIrq a }
        let (op, s) := s.fresh
        .done stOk (s.setOp op { (default : Op) with
          live := true, kind := .hubStore, ctr := 6, ptr := s.visTime (spaDie spa) (lineOf spa), arg := [a.fn, a.q] })

/-- A SIGNAL (kind 4) stores or adds; a MARK stores the tick count as the function's device counts it. -/
def State.signalNow (s : State) (a : ActOp) (kind : Nat) : Acted :=
  if kind = 7 then s.actStore a (actDword a 1) (s.tickOf a.fn)
  else if a.d0.getLsbD 16 then s.actAdd a (actDword a 1) (actDword a 2)
  else s.actStore a (actDword a 1) (actDword a 2)

/-- What a waiting SIGNAL or MARK keeps: the action. -/
def actNums (a : ActOp) (kind : Nat) : List Nat :=
  [a.fn, a.q, kind, a.d0.toNat, a.d1.toNat, a.d2.toNat, a.d3.toNat, a.d4.toNat, a.d5.toNat, a.d6.toNat, a.d7.toNat]

/-- The SIGNAL or MARK is accepted, its address translated, and waits in the hub for every action open now
(R396). (DEDUCED, log 68.) -/
def State.deferSignal (s : State) (a : ActOp) (kind : Nat) : Acted :=
  match s.hubReach a.fn (actDword a 1) true with
  | .error e => if e.cls = 0 then .wait (s.askPull e.gpa) else .done stImage s
  | .ok (t, _) =>
    if (match t with | .hbm spa _ => a.d0.getLsbD 16 && kind = 4 && s.poisoned spa 8 | _ => false) then .done stImage s
    else
      let ls := (s.openLaunches a.fn a.q).map (fun p => (p.1, 1))
      let os := (s.openActions a.fn a.q).map (·.1)
      let (id, s) := s.fresh
      .done stOk (s.setOp id { (default : Op) with
        live := true, kind := .hubStore, ctr := 6, stage := 1, waitOn := os, res := ls, arg := actNums a kind })

def State.actSignal (s : State) (a : ActOp) (kind : Nat) : Acted :=
  if s.launchesOpen a.fn a.q || s.actionsOpen a.fn a.q then s.deferSignal a kind else s.signalNow a kind

/-- The waiting SIGNAL or MARK of a queue that is this action, once every action it waited for has completed. -/
def State.readySignal (s : State) (a : ActOp) (kind : Nat) : Option Nat :=
  (s.ops.find? (fun p => p.2.live && p.2.kind = .hubStore && p.2.stage = 1 && p.2.arg = actNums a kind &&
    p.2.waitOn.all (fun k => !(s.op k).live || s.hubOpDone (s.op k)) &&
    p.2.res.all (fun l => (s.launch l.1).state ∉ [LaunchState.active, .halted, .killing]))).map (·.1)

/-- A waiting SIGNAL or MARK acts; while its address does not translate it goes on waiting. -/
def State.fireSignal (s : State) (a : ActOp) (kind id : Nat) : State :=
  let before := s.nextId
  match s.signalNow a kind with
  | .wait s' => s'
  | .done c s' =>
    if c ≠ stOk then s
    else
      let new := (List.range (s'.nextId - before)).map (before + ·)
      s'.modOp id (fun o => { o with stage := 2, waitOn := new.filter (fun k => (s'.op k).live), res := [] })

/-! ### COPY -/

/-- Whether every page of a span translates for an access, unpoisoned where it is read. -/
def State.spanOk (s : State) (fn va n : Nat) (write : Bool) : Bool :=
  (List.range ((va % 4096 + n + 4095) / 4096)).all (fun i =>
    let start := if i = 0 then va else va - va % 4096 + 4096 * i
    let stop := min (va + n) (va - va % 4096 + 4096 * (i + 1))
    match s.hubReach fn start write with
    | .error e => e.cls = 0
    | .ok (.hbm spa _, _) => write || !s.poisoned spa (stop - start)
    | .ok _ => true)

/-- COPY: an operation of the hub's copy function, in 16-byte units in ascending order (R288). (DESIGN CHOICE, log 73.) -/
def State.actCopy (s : State) (a : ActOp) : Acted :=
  let src := actDword a 1
  let dst := actDword a 2
  let n := actDword a 3
  if !(s.spanOk a.fn src n false && s.spanOk a.fn dst n true) then .done stImage s
  else
    let (id, s) := s.fresh
    .done stOk (s.setOp id { (default : Op) with
      live := true, kind := .hubCopy, ctr := 6, arg := [a.fn, a.q, actIrq a, src, dst, n] })

/-- The next unit of a queue COPY moves, or, after the last, the operation completes once every byte is published at sys
scope. A unit that reads what an earlier unit wrote waits until that is visible (R288). -/
def execQueueCopyCompletion (op : Nat) (s : State) : Host.Outcome State Fault Refusal :=
  let o := s.op op
  let arg (i : Nat) : Nat := (o.arg[i]?).getD 0
  .next (if !(o.live && o.kind = .hubCopy) then s
    else if 16 * o.stage < arg 5 && arg 3 < arg 4 && arg 4 < arg 3 + 16 * o.stage + 16 && !(o.waitOn = [] && o.ptr ≤ s.tick) then
      s
    else if 16 * o.stage < arg 5 then
      match s.hubReadVa (arg 0) (arg 3 + 16 * o.stage) 16 with
      | (.ok (some l), s) =>
        let before := s.nextId
        match s.hubWriteVa (arg 0) (arg 4 + 16 * o.stage) l 0 0 with
        | .error _ => s
        | .ok s =>
          let new := (List.range (s.nextId - before)).map (before + ·)
          let new := new.filter (fun id => (FMap.get s.acc id).live)
          s.modOp op (fun o => { o with stage := o.stage + 1, waitOn := o.waitOn ++ new })
      | (_, s) => s
    else if o.waitOn = [] && (o.ptr = 0 || o.ptr + 2 ≤ s.tick) then (s.setOp op default).signalIrq (arg 2)
    else s)

/-! ### WAITSIG -/

/-- WAITSIG: the queue enters WAIT and its interpreter is free. -/
def State.actWaitsig (s : State) (a : ActOp) (dst : Nat) : Acted :=
  let va := actDword a 1
  match s.hubReach a.fn va false with
  | .error e => if e.cls = 0 then .wait (s.askPull e.gpa) else .done stImage s
  | .ok (.hbm spa _, _) => if s.poisoned spa 8 then .done stImage s else .done stOk (enter s va)
  | .ok _ => .done stOk (enter s va)
where
  enter (s : State) (va : Nat) : State :=
    (s.modQueue a.fn a.q (fun u => { u with
      wsAddr := va, wsVal := a.d2, wsMask := a.d3, wsRel := bitsOf (actDword a 0) 17 16, wsDst := dst
      wsIntr := actIntr a, wsLines := s.indexLines a.fn va, wsDue := s.readDue (s.indexLines a.fn va) })).setQState a.fn a.q .wait 0 0

/-- Whether a watched word meets the relation. -/
def Queue.wsHolds (q : Queue) (v : Nat) : Bool :=
  let m := (BitVec.ofNat 64 v &&& q.wsMask).toNat
  match q.wsRel with
  | 0 => m = q.wsVal.toNat
  | 1 => m ≠ q.wsVal.toNat
  | _ => q.wsVal.toNat ≤ m

/-- The hub reads the watched word; when it meets its relation and an interpreter is free, the program continues after its
`act` (R396, R399). -/
def execWaitsigSatisfied (fn q : Nat) (s : State) : Host.Outcome State Fault Refusal :=
  let qu := s.queue fn q
  .next (if !(s.served fn && qu.state = .wait) then s
    else
      match s.hubReadVa fn qu.wsAddr 8 with
      | (.ok (some l), s) =>
        let lines := s.indexLines fn qu.wsAddr
        let s := s.modQueue fn q (fun u => { u with wsLines := lines, wsDue := s.readDue lines })
        if !(qu.wsHolds (leNat l) && s.interpreters < 32) then s
        else
          let s := s.modQueue fn q (fun u => if u.active then (u.setFr (BitVec.ofNat 4 u.wsDst) 0).adv else u)
          (s.setQState fn q .run 0 0).signalIrq (if qu.wsIntr then irqQueue fn else 0)
      | (_, s) => s)

/-! ### BIN.CONFIG, HALT, RESUME, FLTACK -/

def State.actBinConfig (s : State) (a : ActOp) : Acted :=
  let b : Bin := { (default : Bin) with configured := true, base := actDword a 1, log2 := actDword a 2 }
  .done stOk ((s.modQueue a.fn a.q (fun u => { u with
    bins := FMap.set u.bins (bitsOf (actDword a 0) 21 16) b })).signalIrq (actIrq a))

/-- The launches a HALT or RESUME names. -/
def State.namedLaunches (s : State) (a : ActOp) : List Nat :=
  let d1 := actDword a 1
  (s.launches.filter (fun p => p.2.fn = d1 % 256 && p.2.state ∈ [LaunchState.active, .halted] &&
    (bitOf d1 8 || (p.2.queue = actDword a 2 && p.2.lseq = bitsOf d1 63 32)))).map (·.1)

/-- HALT: every cluster of the launches halts; without HOLD the launch waits for a RESUME (R405). (DEDUCED, log 75.) -/
def State.actHalt (s : State) (a : ActOp) : Acted :=
  let hold := bitOf (actDword a 1) 9
  match s.namedLaunches a with
  | [] => .done stNotFound s
  | ls =>
    let s := ls.foldl (fun s la => (s.clustersOf la).foldl (fun s c => s.requestHalt c hold)
      (if hold then s else s.modLaunch la (fun l => { l with state := .halted }))) s
    let left := (ls.flatMap s.clustersOf).filter (fun c => (s.cluster c).halt = .halting)
    if left = [] then .done stOk (s.signalIrq (actIrq a))
    else
      let (id, s) := s.fresh
      .done stOk (s.setOp id { (default : Op) with
        live := true, kind := .hubHalt, ctr := 6, waitOn := left, arg := [a.fn, a.q, actIrq a] })

def State.actResume (s : State) (a : ActOp) : Acted :=
  match s.namedLaunches a with
  | [] => .done stNotFound s
  | ls => .done stOk ((ls.foldl (fun s la => s.modLaunch la (fun l => { l with state := .active })) s).signalIrq (actIrq a))

/-- FLTACK: the FLT.ACK of the queue's mode (R361). -/
def State.actFltack (s : State) (a : ActOp) : Acted :=
  let d1 := actDword a 1
  let mode := (s.queue a.fn a.q).mode
  let hyp : Bool := (mode = 2 && !bitOf d1 36) || (mode = 1 && a.fn = 256)
  let fn := if mode = 2 then bitsOf d1 47 40 else a.fn
  match s.parkOf hyp fn (d1 % 2 ^ 32) with
  | none => .done stNotFound s
  | some g => .done stOk ((s.ackFault g (bitsOf d1 35 32)).signalIrq (actIrq a))

/-! ### An action, whole -/

/-- The action of a kind: the checks of its fields, BARRIER, its effect. `dst` is the Frond register a WAITSIG's status goes
to. -/
def State.act (s : State) (a : ActOp) (kind dst : Nat) : Acted :=
  let c := s.actPrecheck a kind
  if c ≠ 0 then
    .done c (if c = stField && (kind = 1 || kind = 2) then
      (s.modQueue a.fn a.q (fun u => { u with lseq := (u.lseq + 1) % 2 ^ 32, bins := [] })).hadTurn a.fn a.q 0 else s)
  else if actBarrier a && s.launchesOpen a.fn a.q then .wait s
  else
    match kind with
    | 1 => s.actLaunch a false
    | 2 => s.actLaunch a true
    | 3 => s.actCopy a
    | 4 => s.actSignal a 4
    | 5 => s.actWaitsig a dst
    | 6 => s.actBinConfig a
    | 7 => s.actSignal a 7
    | 8 => s.actHalt a
    | 9 => s.actFltack a
    | _ => s.actResume a

/-- An action on its own: the queue keeps its status. (DEDUCED, log 69.) -/
def State.actRow (s : State) (a : ActOp) (kind : Nat) : State :=
  match s.act a kind 0 with
  | .wait s => s
  | .done c s => s.modQueue a.fn a.q (fun u => { u with status := c })

def execLaunch (a : ActOp) (s : State) : Host.Outcome State Fault Refusal := .next (s.actRow a 1)
def execLaunchDep (a : ActOp) (s : State) : Host.Outcome State Fault Refusal := .next (s.actRow a 2)
def execQueueCopy (a : ActOp) (s : State) : Host.Outcome State Fault Refusal := .next (s.actRow a 3)
/-- SIGNAL and MARK: one that waits in the hub acts once what it waited for has completed; else the action is issued. -/
def State.signalRow (s : State) (a : ActOp) (kind : Nat) : State :=
  if s.ops.any (fun p => p.2.live && p.2.kind = .hubStore && p.2.stage = 1 && p.2.arg = actNums a kind) then
    match s.readySignal a kind with
    | none => s
    | some id => s.fireSignal a kind id
  else s.actRow a kind

def execSignal (a : ActOp) (s : State) : Host.Outcome State Fault Refusal := .next (s.signalRow a 4)
def execWaitsig (a : ActOp) (s : State) : Host.Outcome State Fault Refusal := .next (s.actRow a 5)
def execBinConfig (a : ActOp) (s : State) : Host.Outcome State Fault Refusal := .next (s.actRow a 6)
def execMark (a : ActOp) (s : State) : Host.Outcome State Fault Refusal := .next (s.signalRow a 7)
def execHalt (a : ActOp) (s : State) : Host.Outcome State Fault Refusal := .next (s.actRow a 8)
def execFltack (a : ActOp) (s : State) : Host.Outcome State Fault Refusal := .next (s.actRow a 9)
def execResume (a : ActOp) (s : State) : Host.Outcome State Fault Refusal := .next (s.actRow a 10)

/-- The block an `act` reads: the packet or the staging block. -/
def Queue.block (q : Queue) (fn n : Nat) (packet : Bool) : ActOp :=
  let m := if packet then q.packet else q.staging
  { fn, q := n, d0 := FMap.get m 0, d1 := FMap.get m 1, d2 := FMap.get m 2, d3 := FMap.get m 3, d4 := FMap.get m 4
    d5 := FMap.get m 5, d6 := FMap.get m 6, d7 := FMap.get m 7 }

/-- `act`: the action of kind fA; fD receives its status. A WAITSIG stands at the word until its condition holds. -/
def execFrondAct (o : FrI) (s : State) : Host.Outcome State Fault Refusal :=
  let q := s.curQ
  let kind := (q.fr o.a).toNat
  .next (match s.act (q.block s.curFn s.curQueue (o.imm.getLsbD 0)) kind o.d.toNat with
    | .wait s => s
    | .done c s =>
      let s := s.modQueue s.curFn s.curQueue (fun u => { u with status := c })
      if kind = 5 && c = stOk then s else s.frond (fun u => u.setFr o.d (BitVec.ofNat 64 c)))

end Sys2Proof.Machine
end

