-- ==== Sys2Proof/Machine/Priv.lean ====
section
/-!
DEFINITION. The privileged registers (R344, R368, R411, R414, R422, R434) and the privileged words but CSAVE and CREST
(R356 to R362, R371, R372, R382).
-/
namespace Sys2Proof.Machine
open Sys2Proof

/-! ### Partitions as the registers see them (R408, R414) -/

/-- A leaf: a partition with no children (R408). -/
def State.isLeaf (s : State) (p : Nat) : Bool :=
  (s.part p).state ≠ .unused && s.parts.all (fun c => c.2.state = .unused || c.2.parent ≠ p)

/-- Whether a die takes part in a partition's cores. -/
def Part.onDie (p : Part) (d : Nat) : Bool := (List.range 48).any (fun c => p.hasCore c && coreDie c = d)

/-- A queue's descriptor is read again as its command context is loaded: a running queue reloads, after its packet; one that is
stopped takes the descriptor's fields (R385). -/
def State.rereadDesc (s : State) (fn q : Nat) : State :=
  let u := s.queue fn q
  if !u.loaded then s
  else if u.state = .run || u.state = .wait then s.askReload fn q 0
  else
    let va := (s.fn fn).qtbase.toNat + 64 * q
    match s.hubBytes fn va 64 with
    | (.ok none, s) => s
    | (.error e, s) => s.queueFault fn q 0 e va
    | (.ok (some l), s) => if descOk fn l then s.modQueue fn q (fun u => u.describe l) else s

/-- A function's command context is loaded: the descriptors of its queues are read again (R385, R399). (DEDUCED, log 83.) -/
def State.loadContext (s : State) (fn : Nat) : State :=
  let s := (List.range 64).foldl (fun s q => s.rereadDesc fn q) s
  s.modFn fn (fun r => { r with loaded := true })

/-- Pages of a migrating device that the destination does not own yet (R422). -/
def State.migPages (s : State) : Nat :=
  (s.mig.pages.filter (fun p => p.2 = .absent || p.2 = .frozen || p.2 = .clean)).length

/-- The code of a migration state (R424). -/
def MigState.num : MigState → Nat
  | .idle => 0
  | .prepare => 1
  | .halt => 2
  | .ship => 3
  | .resume => 4
  | .pull => 5
  | .done => 6
  | .failed => 7

/-! ### Numbers, modes, access (R344) -/

/-- The function whose registers 0x20 to 0x32 and 0x58 to 0x5b a group reaches (R368). -/
def Group.regFn (gr : Group) : Nat := if gr.mode = 2 then gr.hvsel else gr.vf

/-- Whether a value is zero outside the fields hi..lo of a list. -/
def onlyBits (v : DWord) (fields : List (Nat × Nat)) : Bool :=
  (List.range 64).all (fun i => !v.getLsbD i || fields.any (fun f => f.2 ≤ i && i ≤ f.1))

/-! ### Reads (R357); write-only registers read as zero (R9) -/

def State.readPriv (s : State) (g num : Nat) : DWord :=
  let gr := s.grp g
  let n (v : Nat) : DWord := BitVec.ofNat 64 v
  let q := (s.fn gr.vf).fq
  let f := s.fn gr.regFn
  match num with
  | 0x00 => n gr.mode
  | 0x01 => if gr.vf = 256 then 0x100 else n gr.vf
  | 0x02 => n (s.partOf g)
  | 0x08 => q.base
  | 0x09 => q.cfg
  | 0x0a => n q.widx
  | 0x0b => n q.ridx
  | 0x0c => n q.held
  | 0x10 => s.hfq.base
  | 0x11 => s.hfq.cfg
  | 0x12 => n s.hfq.widx
  | 0x13 => n s.hfq.ridx
  | 0x14 => n s.hfq.held
  | 0x20 => f.s1root
  | 0x24 => f.dlbase
  | 0x25 => f.dlcfg
  | 0x26 => n f.dlwidx
  | 0x27 => n f.dlridx
  | 0x2f => n gr.hvsel
  | 0x30 => if f.bound then n (2 ^ 63 + f.leaf) else n f.leaf
  | 0x31 => n f.budgetNext
  | 0x32 => n f.demote
  | 0x40 => s.pctBase
  | 0x41 => s.pcarg0
  | 0x42 => s.pcarg1
  | 0x43 => s.pcarg2
  | 0x45 => n ((if s.pcBusy then 2 ^ 63 else 0) + s.pcResult)
  | 0x46 => s.hostPart
  | 0x47 => s.lichenReg
  | 0x48 => s.s2sel
  | 0x49 => s.hs1root
  | 0x50 => s.mig.area
  | 0x51 => s.mig.peer
  | 0x53 => n (s.migPages % 2 ^ 32 * 65536 + s.mig.code * 256 + s.mig.state.num)
  | 0x54 => n s.mig.grace
  | 0x58 => f.rlbase
  | 0x59 => f.rlcfg
  | 0x5a => n f.rlwidx
  | 0x5b => n f.rlridx
  | _ => 0

/-! ### Writes (R344, R357, R368, R411, R414, R422, R434) -/

/-- A register value if it is admitted. -/
def when? (ok : Bool) (s : State) : Option State := if ok then some s else none

/-- A queue configuration: EN with LOG2N between bounds. -/
def cfgOk (v : DWord) (fields : List (Nat × Nat)) (hi : Nat) : Bool :=
  onlyBits v fields && (!v.getLsbD 63 || (4 ≤ v.toNat % 32 && v.toNat % 32 ≤ hi))

/-- Whether a read index lies beyond the write index: ahead of it by less than half the range. (DEDUCED, log 82.) -/
def beyond (widx v : Nat) : Bool := v ≠ widx && ringDist v widx < 2 ^ 31

/-- A write to a function's fault queue ends its suspension (R350). -/
def State.fqWrite (s : State) (v : Nat) (f : FaultQueue → FaultQueue) : State :=
  s.modFn v (fun r => { r with fq := { f r.fq with suspended := false } })

/-- The sum of the budgets of a partition's functions, one of them replaced (R410). -/
def State.budgets (s : State) (part v b : Nat) : Nat :=
  ((s.fnsOf part).map (fun w => if w = v then b else (s.fn w).budgetNext)).sum

/-- VFBIND: only a leaf holds bound functions (R408, R411, R413, R414). (DEDUCED, log 161.) -/
def State.writeVfbind (s : State) (v : Nat) (x : DWord) : Option State :=
  let leaf := bitsOf x.toNat 5 0
  let en := x.getLsbD 63
  let busy : Bool := s.launches.any (fun p => p.2.fn = v && p.2.state ∈ [LaunchState.active, .halted, .killing]) ||
    (List.range 64).any (fun q => (s.queue v q).state = .run || (s.queue v q).state = .wait)
  let toHost : Bool := s.hostPart.getLsbD 63 && bitsOf s.hostPart.toNat 5 0 = leaf && en
  if !onlyBits x [(5, 0), (63, 63)] || busy || toHost || (en && !s.isLeaf leaf) then none
  else
    let s := s.modFn v (fun r => { r with bound := en, leaf, budget := r.budgetNext, balance := r.budgetNext, loaded := false })
    some (if en && (s.part leaf).state = .running then s.loadContext v else s)

/-- VFBUD: the bound of R410, by the TBUD that comes into force with it; in force at the next period boundary,
or at once while no period runs (R413). -/
def State.writeVfbud (s : State) (v : Nat) (x : DWord) : Option State :=
  let r := s.fn v
  let b := x.toNat
  if !onlyBits x [(31, 0)] || (r.bound && (s.part r.leaf).tbudNext < s.budgets r.leaf v b) then none
  else
    let idle : Bool := !r.bound || (s.part r.leaf).state ≠ .running
    some (s.modFn v (fun r => { r with budgetNext := b, budget := if idle then b else r.budget }))

/-- HOSTPART (R414). (DEDUCED, log 88.) -/
def State.writeHostpart (s : State) (x : DWord) : Option State :=
  let leaf := bitsOf x.toNat 5 0
  when? (onlyBits x [(5, 0), (63, 63)] && (!x.getLsbD 63 || (s.isLeaf leaf && s.fnsOf leaf = []))) { s with hostPart := x }

/-- LICHEN: a die's size changes only while no partition runs on it (R115, R411). -/
def State.writeLichen (s : State) (x : DWord) : Option State :=
  let size (d : Nat) : Nat := bitsOf x.toNat (5 * d + 4) (5 * d)
  let changed (d : Nat) : Bool := size d ≠ (s.die d).lichenSize
  let runs (d : Nat) : Bool := s.parts.any (fun p => p.2.state = .running && p.2.onDie d)
  let dies := List.range 4
  if !onlyBits x [(19, 0)] || dies.any (fun d => 16 < size d) || dies.any (fun d => changed d && runs d) then none
  else
    let s := dies.foldl (fun s d => if changed d then
      s.modDie d (fun r => { r with lichenSize := size d, lichen := [] }) else s) s
    some { s with lichenReg := x }

/-- PCMD: a command starts unless one runs (R411, R412). (DEDUCED, log 98.) -/
def State.writePcmd (s : State) (x : DWord) : Option State :=
  let op := x.toNat % 256
  when? (onlyBits x [(13, 0)] && !s.pcBusy && 1 ≤ op && op ≤ 11) { s with
    pcBusy := true, pcOp := op, pcPart := bitsOf x.toNat 13 8, pcStage := 0, pcResult := 0 }

/-- MGPEER's ROLE: whether this package is the destination (R422). -/
def State.migDest (s : State) : Bool := s.mig.peer.getLsbD 24

/-- MGCMD: the commands R424 accepts in the present state and role. -/
def State.writeMgcmd (s : State) (x : DWord) : Option State :=
  let st := s.mig.state
  let ok : Bool := match x.toNat % 256 with
    | 1 => st = .idle
    | 2 => st = .prepare && !s.migDest
    | 3 => st = .done
    | 4 => st ∈ [MigState.prepare, .halt, .ship, .failed]
    | _ => false
  when? (onlyBits x [(7, 0)] && ok) { s with mig := { s.mig with cmd := x.toNat % 256, cmdAt := s.tick } }

/-- The smallest random-log index an open region of a function has recorded (R434). -/
def State.oldestDraw (s : State) (fn : Nat) : Option Nat :=
  s.groups.foldl (fun acc p =>
    if p.2.live && p.2.vf = fn && p.2.region.open_ then
      match acc with
      | none => some p.2.region.rlwidx
      | some k => some (if beyond p.2.region.rlwidx k then p.2.region.rlwidx else k)
    else acc) none

/-- A write of a privileged register by a group; none where it raises ILLEGAL and changes nothing. -/
def State.writePriv (s : State) (g num : Nat) (x : DWord) : Option State :=
  let gr := s.grp g
  let v := gr.regFn
  let n := x.toNat
  let fn (ok : Bool) (f : FnRec → FnRec) : Option State := when? ok (s.modFn v f)
  if !gr.mayName num then none
  else
    match num with
    | 0x08 => when? (onlyBits x [(63, 12)]) (s.fqWrite gr.vf (fun q => { q with base := x }))
    | 0x09 => when? (cfgOk x [(4, 0), (8, 8), (63, 63)] 16) (s.fqWrite gr.vf (fun q => { q with cfg := x }))
    | 0x0b => when? (onlyBits x [(31, 0)] && !beyond (s.fn gr.vf).fq.widx n) (s.fqWrite gr.vf (fun q => { q with ridx := n }))
    | 0x10 => when? (onlyBits x [(63, 12)]) { s with hfq := { s.hfq with base := x } }
    | 0x11 => when? (cfgOk x [(4, 0), (8, 8), (63, 63)] 16) { s with hfq := { s.hfq with cfg := x } }
    | 0x13 => when? (onlyBits x [(31, 0)] && !beyond s.hfq.widx n) { s with hfq := { s.hfq with ridx := n } }
    | 0x20 => fn (onlyBits x [(51, 16), (0, 0)]) (fun r => { r with s1root := x })
    | 0x24 => fn (onlyBits x [(51, 16)]) (fun r => { r with dlbase := x })
    | 0x25 => fn (cfgOk x [(4, 0), (8, 8), (63, 63)] 20) (fun r =>
        { r with dlcfg := (x &&& ~~~0x100) ||| (if x.getLsbD 8 then 0 else r.dlcfg &&& 0x100) })
    | 0x27 => fn (onlyBits x [(31, 0)]) (fun r => { r with dlridx := n })
    | 0x2e => when? (onlyBits x [(31, 0)]) (s.inject v n)
    | 0x2f => when? (onlyBits x [(7, 0)]) (s.setGrp g { gr with hvsel := n })
    | 0x30 => s.writeVfbind v x
    | 0x31 => s.writeVfbud v x
    | 0x40 => when? (onlyBits x [(51, 12)]) { s with pctBase := x }
    | 0x41 => some { s with pcarg0 := x }
    | 0x42 => some { s with pcarg1 := x }
    | 0x43 => some { s with pcarg2 := x }
    | 0x44 => s.writePcmd x
    | 0x46 => s.writeHostpart x
    | 0x47 => s.writeLichen x
    | 0x48 => when? (onlyBits x [(5, 0)]) { s with s2sel := x }
    | 0x49 => when? (onlyBits x [(51, 16), (0, 0)]) { s with hs1root := x }
    | 0x50 => when? (onlyBits x [(51, 12)] && s.mig.state = .idle) { s with mig := { s.mig with area := x } }
    | 0x51 => when? (onlyBits x [(24, 0)] && s.mig.state = .idle) { s with mig := { s.mig with peer := x } }
    | 0x52 => s.writeMgcmd x
    | 0x54 => when? (onlyBits x [(15, 0)]) { s with mig := { s.mig with grace := n } }
    | 0x58 => fn (onlyBits x [(51, 9)] && !((s.fn v).rlcfg.getLsbD 63 && (s.fn v).rlbase ≠ x)) (fun r => { r with rlbase := x })
    | 0x59 => fn (cfgOk x [(4, 0), (63, 63)] 16 && !((s.fn v).rlcfg.getLsbD 63 && (s.fn v).rlcfg.toNat % 32 ≠ n % 32))
        (fun r => { r with rlcfg := x })
    | 0x5b => fn (onlyBits x [(31, 0)] && ((s.oldestDraw v).all (fun k => !beyond k n))) (fun r => { r with rlridx := n })
    | _ => none

/-! ### RDPS and WRPS (R357) -/

def execRdps (d : SReg) (num : BitVec 8) (s : State) : Host.Outcome State Fault Refusal :=
  .next (s.inMode 1 (fun s => s.scalar (sPairOk true d && (s.grp s.cur).mayName num.toNat)
    (fun s => s.writeSW s.cur d.toNat true (s.readPriv s.cur num.toNat))))

def execWrps (num : BitVec 8) (a : SReg) (s : State) : Host.Outcome State Fault Refusal :=
  .next (s.inMode 1 (fun s =>
    match if sPairOk true a then s.writePriv s.cur num.toNat (s.sVal a true) else none with
    | some s => s
    | none => s.raise (plainFault 4) s.active))

/-- A register write as a step of its own; one that would raise ILLEGAL changes nothing. (DEDUCED, log 132.) -/
def State.privRow (s : State) (g num : Nat) (x : DWord) : State :=
  if (s.grp g).live && 1 ≤ (s.grp g).mode then (s.writePriv g num x).getD s else s

def execVfbind (grp : Nat) (v : DWord) (s : State) : Host.Outcome State Fault Refusal := .next (s.privRow grp 0x30 v)
def execVfbud (grp : Nat) (v : DWord) (s : State) : Host.Outcome State Fault Refusal := .next (s.privRow grp 0x31 v)
def execHostpart (grp : Nat) (v : DWord) (s : State) : Host.Outcome State Fault Refusal := .next (s.privRow grp 0x46 v)
def execLichen (grp : Nat) (v : DWord) (s : State) : Host.Outcome State Fault Refusal := .next (s.privRow grp 0x47 v)
def execInject (grp : Nat) (v : DWord) (s : State) : Host.Outcome State Fault Refusal := .next (s.privRow grp 0x2e v)
def execFqbase (grp : Nat) (v : DWord) (s : State) : Host.Outcome State Fault Refusal := .next (s.privRow grp 0x08 v)
def execFqcfg (grp : Nat) (v : DWord) (s : State) : Host.Outcome State Fault Refusal := .next (s.privRow grp 0x09 v)
def execFqridx (grp : Nat) (v : DWord) (s : State) : Host.Outcome State Fault Refusal := .next (s.privRow grp 0x0b v)

/-! ### TRET (R358) -/

def execTret (skip : Bool) (s : State) : Host.Outcome State Fault Refusal :=
  .next (s.inMode 1 (fun s =>
    let gr := s.grp s.cur
    if gr.trapped && gr.stack.length = gr.trapRet.depth then s.setGrp s.cur (gr.trapReturn skip)
    else s.raise (plainFault 4) s.active))

/-! ### TLBINV, HARVEST, ATCINV (R360, R371, R372, R382) -/

/-- Stores a group has issued that are not yet published at dev scope. -/
def State.storesOut (s : State) (g : Nat) : Bool :=
  s.sb.any (fun p => g ∈ p.2.grps) || s.acc.any (fun p => p.2.kind = .store && g ∈ p.2.members) ||
  s.pend.any (fun p => g ∈ p.2.grps && s.tick < p.2.v + 2)

/-- R371: the word is held, its group's stores on their way, until they are published; then its effect. -/
def State.afterStores (s : State) (eff : State → State) : State :=
  if s.storesOut s.cur then (s.publishTeam (s.grp s.cur).team).holdAgain else eff s

/-- Whether the page of a register's base, of its own size, meets `n` pages of 64 KiB from page `lo` (R372). -/
def BtReg.meets (b : BtReg) (lo n : Nat) : Bool :=
  let size := 2 ^ (psizeBits b.psize - 16)
  let page := b.base.toNat / 65536 / size * size
  page < lo + n && lo < page + size

/-- The base translation registers of the groups a test selects lose the fast path where their page meets the range, and so do
those that a BT.SET under way will set (R372). -/
def State.slowBts (s : State) (sel : Nat → Group → Bool) (lo n : Nat) : State :=
  { s with
    groups := s.groups.map (fun (p : Nat × Group) =>
      if sel p.1 p.2 then
        (p.1, { p.2 with
          walked := [], bts := p.2.bts.map (fun (b : Nat × BtReg) => if b.2.meets lo n then (b.1, { b.2 with limit := 0 }) else b) })
      else p)
    ops := s.ops.map (fun (p : Nat × Op) =>
      if p.2.kind = OpKind.btset && sel p.2.grp (s.grp p.2.grp) && (btOfArgs p.2.arg).meets lo n then
        (p.1, { p.2 with arg := p.2.arg.set 3 0 })
      else p) }

/-- What an invalidation waits for: the stores buffered, the accesses on their way and the stores not yet visible that used a
translation of a function, or of a partition (both as one more than their number), and the stores that regions hold (R360). -/
def State.usersOf (s : State) (byFn byPart : Nat) : List Nat :=
  let mine (f p : Nat) : Bool := (byFn ≠ 0 && f = byFn) || (byPart ≠ 0 && p = byPart)
  (s.sb.filter (fun p => mine p.2.byFn p.2.byPart)).map (·.1) ++ (s.acc.filter (fun p => mine p.2.byFn p.2.byPart)).map (·.1) ++
  (s.pend.filter (fun p => s.tick < p.2.v && p.2.src ≠ 0)).map (·.2.src) ++
  (s.groups.filter (fun p => p.2.regionStores ≠ [] && mine (p.2.vf + 1) (s.partOf p.1 + 1))).map (fun p => regionMark p.1)

/-- Whether what an invalidation waits for has performed. -/
def State.performed (s : State) (id : Nat) : Bool :=
  !(FMap.get s.acc id).live && !(FMap.get s.sb id).live && s.pend.all (fun p => p.2.src ≠ id || p.2.v ≤ s.tick) &&
  (id < 2 ^ 62 || (s.grp (id - 2 ^ 62)).regionStores = [])

/-- An invalidation's operation. -/
def State.invOp (s : State) (c : CReg) (waitOn : List Nat) : State :=
  (s.issueOp { s.baseOp .tlbinv c.val with waitOn } []).2

/-- The stage-1 translations of a function that meet `n` pages from page `lo`, and what walk caches hold of its tree. -/
def State.dropStage1 (s : State) (fn lo n : Nat) : State :=
  ((s.tlbDrop (fun f p _ => f = fn && lo ≤ p && p < lo + n)).walkDrop (fun t => t = fn) (fun _ _ => false)).slowBts
    (fun _ gr => gr.vf = fn) lo n

/-- Every translation through a partition's stage 2 whose guest page lies in a range, with what the walk caches and
nested TLBs hold of it; all its registers slow down. -/
def State.dropStage2 (s : State) (part : Nat) (lo n : Nat) : State :=
  ((s.tlbDrop (fun _ _ x => x.part = part && x.gpa < lo + n && lo < x.gpa + 2 ^ x.gbits)).walkDrop
    (fun _ => true) (fun p _ => p = part)).slowBts (fun g gr => gr.live && s.partOf g = part) 0 (2 ^ 48)

/-- The range checks of an invalidation: 1 to 2^24 pages. -/
def pagesOk (n : Nat) : Bool := 1 ≤ n && n ≤ 2 ^ 24

/-- The S2SEL leaf, if it is one. -/
def State.s2Leaf (s : State) : Option Nat :=
  let p := bitsOf s.s2sel.toNat 5 0
  if s.isLeaf p then some p else none

/-- Whether an operation may take a counter, else COUNTER_RANGE. -/
def State.withCtr (s : State) (c : CReg) (eff : State → State) : State :=
  if s.ctrFull s.cur c.val then s.raise (plainFault 11) s.active else eff s

/-- (DEDUCED, log 81.) -/
def execTlbinv (kind : BitVec 2) (a b : SReg) (c : CReg) (s : State) : Host.Outcome State Fault Refusal :=
  .next (s.inMode (if kind.toNat < 2 then 1 else 2) (fun s =>
    let k := kind.toNat
    let va := (s.sVal a true).toNat
    let n := (s.rdS s.cur b.toNat).toNat
    let ranged : Bool := k = 1 || k = 2
    s.scalar (!ranged || (sPairOk true a && pagesOk n)) (fun s => s.withCtr c (fun s => s.afterStores (fun s =>
      let fn := (s.grp s.cur).vf
      if k < 2 then
        (if k = 0 then s.dropStage1 fn 0 (2 ^ 48) else s.dropStage1 fn (va / 65536) n).invOp c (s.usersOf (fn + 1) 0)
      else
        match s.s2Leaf with
        | none => s.invOp c []
        | some leaf =>
          let waitOn := s.usersOf 0 (leaf + 1)
          (if k = 2 then s.dropStage2 leaf (va / 65536 * 65536) (n * 65536) else s.dropStage2 leaf 0 (2 ^ 57)).invOp c waitOn)))))

/-- The stage-2 leaf entry that covers a guest page, if the walk reaches one. -/
def State.leafEntry2 (s : State) (part gpa : Nat) : Option Leaf :=
  match (s.leaf2 4 part gpa).1 with
  | .ok (l, _) => some l
  | .error _ => none

/-- Test and clear of the D bits of the stage-2 leaves over a range (R382). -/
def State.clearD2 (s : State) (part lo pages : Nat) : State :=
  (List.range pages).foldl (fun s i =>
    match s.leafEntry2 part (lo + 65536 * i) with
    | some l => s.writeD l.entry false
    | none => s) s

def execHarvest (a b : SReg) (c : CReg) (s : State) : Host.Outcome State Fault Refusal :=
  .next (s.inMode 2 (fun s =>
    let gpa := (s.sVal a true).toNat
    let n := (s.rdS s.cur b.toNat).toNat
    s.scalar (sPairOk true a && pagesOk n && gpa % 65536 = 0) (fun s => s.withCtr c (fun s => s.afterStores (fun s =>
      match s.s2Leaf with
      | none => s.invOp c []
      | some leaf =>
        let waitOn := s.usersOf 0 (leaf + 1)
        ((s.clearD2 leaf gpa n).dropStage2 leaf gpa (n * 65536)).invOp c waitOn)))))

def execAtcinv (a b : SReg) (c : CReg) (s : State) : Host.Outcome State Fault Refusal :=
  .next (s.inMode 1 (fun s =>
    let page := (s.sVal a true).toNat / 4096
    let n := (s.rdS s.cur b.toNat).toNat
    s.scalar (sPairOk true a) (fun s => s.withCtr c (fun s => s.afterStores (fun s =>
      let fn := (s.grp s.cur).vf
      let lo := fn * 2 ^ 52 + page
      let waitOn := (List.range 5).flatMap (fun d => s.atcUsers d lo n) ++
        (s.groups.filter (fun p => p.2.regionStores ≠ [] && p.2.vf = fn)).map (fun p => regionMark p.1)
      let s := (List.range 4).foldl (fun s d => s.modDie d (fun r => { r with
        atc := r.atc.filter (fun p => !(lo ≤ p.1 && p.1 < lo + n)), atcNo := r.atcNo.filter (fun p => !(lo ≤ p.1 && p.1 < lo + n)) })) s
      s.invOp c waitOn)))))

/-- The counter of an invalidation falls when every access that used a removed translation has performed (R360); a die's
Invalidation Completion is then sent (R377). -/
def execInvalidationCompletion (op : Nat) (s : State) : Host.Outcome State Fault Refusal :=
  let o := s.op op
  .next (if o.live && o.kind = .tlbinv && o.ptr ≤ s.tick && o.waitOn.all s.performed then
      let s := s.endOp op
      if o.arg.head? = some 2 then s.modDie ((o.arg[1]?).getD 0) (fun d => { d with invSent := d.invSent + 1 }) else s
    else s)

/-! ### FLT.ACK (R361) -/

def execFltAck (act : BitVec 2) (vfq : Bool) (d : QReg) (a : SReg) (s : State) : Host.Outcome State Fault Refusal :=
  .next (s.inMode (if vfq then 2 else 1) (fun s =>
    let gr := s.grp s.cur
    let hyp : Bool := gr.mode = 2 && !vfq
    let fn := if gr.mode = 2 then gr.hvsel else gr.vf
    match s.parkOf hyp fn (s.rdS s.cur a.toNat).toNat with
    | some g => (s.writeQ s.cur d.toNat true).ackFault g act.toNat
    | none => s.writeQ s.cur d.toNat false))

/-! ### Words that name a group by its handle (R356) -/

/-- The group a handle names. -/
def State.byHandle (s : State) (h : Nat) : Option Nat :=
  (s.groups.find? (fun p => p.2.live && (s.team p.2.team).halt ≠ .saved && s.coreOf p.1 = bitsOf h 11 6 && p.2.slot = bitsOf h 5 0)).map
    (·.1)

/-- A word over a handle: res0 bits, and a group of another function in GUEST mode, raise ILLEGAL (R343, R356). -/
def State.onHandle (s : State) (a : SReg) (eff : Option Nat → State → State) : State :=
  let h := (s.rdS s.cur a.toNat).toNat
  let gr := s.grp s.cur
  let g := s.byHandle h
  let foreign : Bool := match g with
    | some k => gr.mode = 1 && (s.grp k).vf ≠ gr.vf
    | none => false
  s.scalar (h < 4096 && !foreign) (eff g)

/-- Whether a CSAVE or CREST on a team is outstanding (R359). -/
def State.contextBusy (s : State) (t : Nat) : Bool :=
  s.ops.any (fun p => p.2.live && p.2.kind ∈ [OpKind.csave, .crest] && p.2.arg.head? = some t)

/-- A held-halted team of the named group (R356). -/
def State.heldTeam (s : State) (g : Option Nat) : Option Nat :=
  match g with
  | some k => let t := (s.grp k).team; if (s.team t).halt = .held then some t else none
  | none => none

/-- The word waits for a context operation on its team, else takes effect (R359). -/
def State.afterContext (s : State) (t : Nat) (eff : State → State) : State :=
  if s.contextBusy t then s.parkAgain .priv t else eff s

/-- A held team continues in place; its cluster's bonds are held again (R74, R171, R361). -/
def State.releaseHeld (s : State) (t : Nat) : State :=
  let tm := s.team t
  let s := tm.groups.foldl (fun s g => s.modGrp g (fun gr => gr.awake 4)) s
  let s := (s.setTeam t { tm with halt := .running }).priKept t
  let cl := s.cluster tm.cluster
  let s := { s with bonds := s.bonds.map (fun (p : Nat × Bond) =>
    if p.2.cluster = tm.cluster && p.2.state = BondState.saved then (p.1, { p.2 with state := BondState.held }) else p) }
  if cl.teams.all (fun t => !(s.team t).live || (s.team t).halt = .running) then
    s.setCluster tm.cluster { cl with halt := .running, holdHalt := false }
  else s

/-- HALT.ACK: RESUME, or DISCARD, which ends the launch as KILLLAUNCH does (R361). (DEDUCED, log 84.) -/
def execHaltAck (discard : Bool) (d : QReg) (a : SReg) (s : State) : Host.Outcome State Fault Refusal :=
  .next (s.inMode 1 (fun s => s.onHandle a (fun g s =>
    match s.heldTeam g with
    | none => s.writeQ s.cur d.toNat false
    | some t => s.afterContext t (fun s =>
        let s := s.writeQ s.cur d.toNat true
        if discard then s.killLaunch (s.cluster (s.team t).cluster).launch 0 else s.releaseHeld t))))

/-- REGION.ABORT (R361). -/
def execRegionAbort (d : QReg) (a : SReg) (s : State) : Host.Outcome State Fault Refusal :=
  .next (s.inMode 1 (fun s => s.onHandle a (fun g s =>
    match g with
    | none => s.writeQ s.cur d.toNat false
    | some k =>
      let gr := s.grp k
      let t := gr.team
      s.afterContext t (fun s =>
        if ((s.team t).halt = .held || gr.faulted) && gr.region.open_ then
          ((s.rollback k).modGrp k (fun gr => { gr with flt := { gr.flt with rolled := gr.faulted } })).writeQ s.cur d.toNat true
        else s.writeQ s.cur d.toNat false))))

/-- TILE.RESET (R70, R362). -/
def execTileReset (a : SReg) (t : TReg) (s : State) : Host.Outcome State Fault Refusal :=
  .next (s.inMode 1 (fun s => s.onHandle a (fun g s =>
    match s.heldTeam g with
    | none => s.raise (plainFault 4) s.active
    | some tm => if !(s.tile tm t.toNat).defd then s.raise (plainFault 4) s.active else s.afterContext tm (fun s =>
        let k := t.toNat
        let dead := (s.ops.filter (fun p => p.2.live && p.2.team = tm &&
          p.2.kind ∈ [OpKind.copy, .sdot, .mdrainT] && p.2.resv.any (fun c => c.1 = tm && c.2.1 = k))).map (·.1)
        let s := { s with cores := s.cores.map (fun (c : Nat × CoreRec) =>
          (c.1, { c.2 with matrix := { c.2.matrix with queue := c.2.matrix.queue.filter (fun e => e.op = 0 || e.op ∉ dead) } })) }
        let s := dead.foldl (fun s id => s.endOp id) s
        s.modTile tm k (fun x => { x with wptr := 0, resv := 0, owner := false, ranges := [] })))))

/-! ### PHASE.SET (R362) -/

/-- Whether a die holds a resident team or a store on its way to or from another die. -/
def State.dieBusy (s : State) (d : Nat) : Bool :=
  (List.range 12).any (fun i => s.residents (12 * d + i) ≠ []) ||
  s.acc.any (fun p => p.2.kind = .store && p.2.srcDie ≠ p.2.homeDie && (p.2.srcDie = d || p.2.homeDie = d)) ||
  s.pend.any (fun p => p.2.srcDie ≠ p.2.homeDie && (p.2.srcDie = d || p.2.homeDie = d) && s.tick < p.2.v)

def execPhaseSet (completed : Bool) (a b : SReg) (s : State) : Host.Outcome State Fault Refusal :=
  .next (s.inMode 2 (fun s =>
    let x := (s.rdS s.cur a.toNat).toNat
    let v := s.rdS s.cur b.toNat
    let d := bitsOf x 1 0
    let src := bitsOf x 9 8
    if completed then
      s.scalar (d ≠ src && !s.dieBusy d && !s.dieBusy src) (fun s => s.modDie d (fun r => { r with cph := FMap.set r.cph src v }))
    else s.scalar (!s.dieBusy d) (fun s => s.modDie d (fun r => { r with oph := v }))))

end Sys2Proof.Machine
end

