-- ==== Sys2Proof/Machine/Context.lean ====
section
/-!
DEFINITION. Context images (R353 to R355) and the words that write and read them, CSAVE and CREST (R359); the completion
of the variable-latency operations (R66, R185). What an image has no place for keeps its present value.
-/
namespace Sys2Proof.Machine
open Sys2Proof

/-! ### Pieces of an image -/

/-- Bytes with fields (offset, size, value) laid into n of them, the others zero. -/
def packFields (n : Nat) (l : List (Nat × Nat × Nat)) : List Byte :=
  leBytes n ((l.map (fun f => f.2.2 % 2 ^ (8 * f.2.1) * 2 ^ (8 * f.1))).sum)

def padTo (n : Nat) (l : List Byte) : List Byte := l ++ List.replicate (n - l.length) 0
/-- Zero bytes up to the next multiple of n. -/
def alignTo (n : Nat) (l : List Byte) : List Byte := padTo ((l.length + n - 1) / n * n) l

/-- Words of a table from a key on, and back. -/
def wordsImg (m : FMap Word) (lo n : Nat) : List Byte :=
  (List.range n).flatMap (fun i => leBytes 4 (FMap.get m (lo + i)).toNat)
def wordsOf (img : Memory) (a lo n : Nat) : FMap Word :=
  FMap.setMany [] ((List.range n).map (fun i => (lo + i, BitVec.ofNat 32 (Memory.nat img (a + 4 * i) 4))))

def recCode (r : Option Nat) : Nat := r.getD 0xffffffff
def recOf (n : Nat) : Option Nat := if n = 0xffffffff then none else some n

/-- The divergence stack, entry 0 deepest, in 32 places (R354). -/
def stackImg (l : List DivEntry) : List Byte :=
  padTo 512 (l.reverse.flatMap (fun e =>
    leBytes 4 e.off ++ leBytes 4 e.mask.toNat ++ leBytes 4 (recCode e.recOff) ++ leBytes 4 0))
def stackOfImg (img : Memory) (a depth : Nat) : List DivEntry :=
  ((List.range depth).map (fun i =>
    let w (j : Nat) : Nat := Memory.nat img (a + 16 * i + 4 * j) 4
    { off := w 0, mask := BitVec.ofNat 32 (w 1), recOff := recOf (w 2) })).reverse

def predsImg (p : FMap LaneMask) (q : BitVec 4) : List Byte := wordsImg p 0 12 ++ leBytes 16 q.toNat

def planesImg (m : FMap Nat) : List Byte := (List.range 32).flatMap (fun l => leBytes 1 (FMap.get m l))
def planesOfImg (img : Memory) (a : Nat) : FMap Nat :=
  FMap.setMany [] ((List.range 32).map (fun l => (l, Memory.nat img (a + l) 1)))

/-! ### Plane snapshots (R40, R187) -/

/-- PLANE of the lanes with the snapshot of the clause in force: bits 2:0 PLANE, bits 6:4 what the snapshot differs
by, bit 7 for a lane that is in the snapshot and no longer active. (DESIGN CHOICE, log 93.) -/
def snapByte (plane snap : Nat) (active : Bool) : Nat :=
  if snap = noPlane then plane else plane % 8 + 16 * ((plane % 8) ^^^ (snap % 8)) + (if active then 0 else 128)
def planeOfByte (n : Nat) : Nat := n % 8
def snapOfByte (n : Nat) (active : Bool) : Nat := if active || bitOf n 7 then (n % 8) ^^^ (n / 16 % 8) else noPlane

/-- The snapshot that TRET restores (R358): three bits a lane, and the lanes it has. (DESIGN CHOICE, log 93.) -/
def snapImg (snap : List Nat) : List Byte :=
  leBytes 12 (((List.range 32).map (fun l => (snap[l]?).getD 0 % 8 * 8 ^ l)).sum)
def snapLanes (snap : List Nat) : LaneMask := maskOf (fun l => (snap[l]?).getD noPlane ≠ noPlane)
def snapOfImg (n : Nat) (lanes : LaneMask) : List Nat :=
  (List.range 32).map (fun l => if lanes.getLsbD l then n / 8 ^ l % 8 else noPlane)

def tagsImg (m : FMap Tag) (lo n : Nat) : List Byte := (List.range n).flatMap (fun r => leBytes 1 (FMap.get m (lo + r)).code.toNat)
def tagOfCode (c : Nat) : Tag := (Tag.all.find? (fun t => t.code.toNat = c)).getD .b32
def tagsOfImg (img : Memory) (a lo n : Nat) : FMap Tag :=
  FMap.setMany [] ((List.range n).map (fun r => (lo + r, tagOfCode (Memory.nat img (a + r) 1))))

def btImg (b : BtReg) : List Byte :=
  let bit (x : Bool) : Nat := if x then 1 else 0
  leBytes 16 (b.base.toNat * 2 ^ 71 + b.frame * 2 ^ 35 + b.limit * 32 + b.psize * 8 + bit b.write * 4 + bit b.read * 2 + bit b.valid)
def btOfImg (n : Nat) : BtReg :=
  { valid := bitOf n 0, base := BitVec.ofNat 64 (n / 2 ^ 71), frame := bitsOf n 70 35, limit := bitsOf n 34 5, psize := bitsOf n 4 3
    write := bitOf n 2, read := bitOf n 1 }

/-! ### A group's image (R354) -/

/-- The code of a park (R61); the halt's where there is none, since an image is of a halted team. -/
def Park.num : Park → Nat
  | .running => 15 | .wait => 1 | .header => 2 | .rclaim => 3 | .rgive => 4 | .barrier => 5 | .posted => 6 | .spawn => 7
  | .mesh => 8 | .fence => 9 | .gang => 10 | .tileTake => 11 | .page => 12 | .priv => 13 | .fault => 14
def Park.ofNum (n : Nat) : Park :=
  ([Park.running, .wait, .header, .rclaim, .rgive, .barrier, .posted, .spawn, .mesh, .fence, .gang, .tileTake, .page, .priv,
    .fault][n]?).getD .running

/-- The code that an image records for a group (R61, R354): a fault of an engine operation alone counts as a fault park. -/
def Group.parkCode (gr : Group) : Nat := if gr.park = .running && gr.engFault then 14 else gr.park.num

/-- The word position: 0 at a clause header, else one more than the index of the next word. (DESIGN CHOICE, log 93.) -/
def Group.position (gr : Group) : Nat := if gr.inClause then gr.word + 1 else 0
/-- FLAGS; bit 7 tells an engine operation's fault. (DESIGN CHOICE, log 93.) -/
def Group.flagBits (gr : Group) : Nat :=
  let bit (b : Bool) (n : Nat) : Nat := if b then 2 ^ n else 0
  bit gr.trapped 0 + bit gr.faulted 1 + bit (gr.faulted && (gr.flt.withheld || gr.flt.owed)) 2 + bit gr.engFault 7 + bit gr.region.open_ 3 + bit (gr.wait.live && !gr.wait.forever) 4 +
  bit (gr.park = .barrier) 5 + bit (gr.park = .gang) 6

/-- The 128 bytes of a group's header; `ahead` is what the TICKS of its device are ahead of the package's. TILEW is the value last
written; a SPAWN that waits for publication alone has next lane 32. (DESIGN CHOICE, log 162; DESIGN CHOICE, log 163.) -/
def Group.headImg (gr : Group) (ahead : Int) : List Byte :=
  let t := gr.trapRet
  let r := gr.region
  packFields 128 ([
    (0x00, 1, gr.blocks), (0x01, 1, gr.tilewNext), (0x02, 1, gr.role), (0x03, 1, gr.flagBits),
    (0x04, 4, if gr.inClause then gr.clause else gr.off), (0x08, 1, gr.position), (0x09, 1, gr.stack.length),
    (0x0a, 1, if gr.inClause then planeBits gr.occupiedPlanes else 0), (0x0b, 1, gr.parkCode), (0x0c, 4, gr.mask.toNat),
    (0x10, 4, recCode gr.recOff), (0x14, 4, gr.gang.toNat), (0x18, 1, gr.moved.toNat), (0x1c, 4, gr.sfault.toNat),
    (0x20, 4, if gr.faulted then gr.flt.faultId else 0),
    (0x28, 8, if gr.wait.live && !gr.wait.forever then (((gr.wait.deadline : Int) + ahead) % 2 ^ 64).toNat else 0), (0x30, 8, gr.draw)] ++
    (if gr.trapped then
      [(0x38, 4, t.off), (0x3c, 4, t.mask.toNat), (0x40, 4, recCode t.recOff), (0x44, 4, t.clause), (0x48, 1, t.word),
       (0x49, 1, t.depth), (0x4a, 1, planeBits (sortOnce (t.snap.filter (· ≠ noPlane)))), (0x4b, 1, t.tilew)]
     else []) ++
    (if r.open_ then
      [(0x50, 1, r.va), (0x51, 1, r.nblk), (0x52, 1, r.sb), (0x53, 1, r.nscal), (0x54, 4, r.start), (0x58, 4, r.rlwidx)]
     else []) ++
    [(0x60, 4, gr.joint), (0x64, 1, if gr.spawnLane = 0 then 0xff else gr.spawnLane - 1)])

/-- What a region has recorded: 64 bytes of path, TILEW and draw number, the live-in scalars in their places, predicates,
stack, planes and tags as a group's, then the live-in blocks. -/
def Region.image (r : Region) : List Byte :=
  packFields 64 [(0, 4, r.off), (4, 4, r.mask.toNat), (8, 4, recCode r.recOff), (12, 1, r.stack.length), (13, 1, r.tilew), (16, 8, r.draw)] ++
  wordsImg r.sregs 0 128 ++ predsImg r.pregs r.qregs ++ stackImg r.stack ++ planesImg r.planes ++ tagsImg r.vtags 0 256 ++
  wordsImg r.vregs (32 * r.va) (256 * r.nblk)

def regionSize (nblk : Nat) : Nat := 64 + 512 + 64 + 512 + 32 + 256 + 1024 * nblk

/-- What an overwritten destination holds in an image: a free value, by the operation it was the destination of (R186). (DESIGN
CHOICE, log 22.) -/
def openWord (m k : Nat) : Word := Config.freeWord (2 ^ 60 + m) k

/-- A group with the free values of its overwritten destinations in place (R186). -/
def Group.definite (gr : Group) : Group :=
  gr.clobber.foldl (fun gr p =>
    if p.2 = 0 then gr
    else if p.1 < 256 then { gr with vregs := FMap.setMany gr.vregs ((List.range 32).map (fun l => (32 * p.1 + l, openWord p.2 (32 * p.1 + l)))) }
    else if p.1 < 384 then { gr with sregs := FMap.set gr.sregs (p.1 - 256) (openWord p.2 (32 * p.1)) }
    else gr.putQ (p.1 - 384) ((openWord p.2 (32 * p.1)).getLsbD 0)) gr

/-- PLANE with the snapshot, as the image holds them. -/
def Group.planesImg (gr : Group) : List Byte :=
  (List.range 32).flatMap (fun l => leBytes 1 (snapByte (FMap.get gr.planes l)
    (if gr.inClause then (gr.snap[l]?).getD noPlane else noPlane) (gr.mask.getLsbD l)))

/-- Predicates and counters, with the snapshot that TRET restores behind them. -/
def Group.predsCtrsImg (gr : Group) : List Byte :=
  let snap := if gr.trapped then gr.trapRet.snap else []
  wordsImg gr.pregs 0 12 ++ padTo 4 (leBytes 1 gr.qregs.toNat) ++ snapImg (if gr.trapped then gr.trapRet.snap else []) ++
  padTo 8 ((List.range 6).flatMap (fun c => leBytes 1 (FMap.get gr.ctrs c))) ++ padTo 8 (leBytes 4 (snapLanes snap).toNat)

/-- A group's image, rounded up to 1 KiB; a withheld record is its last 64 bytes. -/
def State.groupImg (s : State) (g : Nat) : List Byte :=
  let gr := (s.grp g).definite
  let main := padTo 0x800 (gr.headImg (s.fn gr.vf).tickOff ++ wordsImg gr.sregs 0 128 ++ gr.predsCtrsImg ++
    (List.range 8).flatMap (fun b => btImg (FMap.get gr.bts b)) ++ stackImg gr.stack ++ gr.planesImg ++ tagsImg gr.vtags 0 256) ++
    wordsImg gr.vregs 0 (256 * gr.blocks) ++ (if gr.region.open_ then gr.region.image else [])
  if bitOf gr.flagBits 2 then
    let l := alignTo 1024 (main ++ List.replicate 64 0)
    l.take (l.length - 64) ++ s.recordBytes g gr.flt
  else alignTo 1024 main

/-! ### A team's image (R353) -/

def tileImg (t : Tile) : List Byte :=
  let bit (x : Bool) : Nat := if x then 1 else 0
  leBytes 16 (t.wptr * 2 ^ 106 + t.tag.code.toNat * 2 ^ 101 + bit t.owner * 2 ^ 100 + bit t.defd * 2 ^ 99 + t.base * 2 ^ 49 +
    t.rows * 2 ^ 37 + t.rowb * 2 ^ 29)

/-- Kinds that the ENGINE section holds, by their codes. -/
def engineKinds : List OpKind := [.copy, .sdot, .mdrainT]

/-- The saved engine operations of a team, oldest first. -/
def State.engineOps (s : State) (t : Nat) : List (Nat × Op) :=
  s.ops.filter (fun p => p.2.live && p.2.team = t && p.2.kind ∈ engineKinds)

/-- The queue entry of an operation. (DESIGN CHOICE, log 91.) -/
def State.entryOf (s : State) (core op : Nat) : Option MEntry := (s.matrixOf core).queue.find? (fun e => e.op = op && op ≠ 0)

/-- Progress of an engine operation: units read, rows landed, rows written. -/
def State.progressOf (s : State) (id : Nat) (o : Op) : Nat :=
  match o.kind with
  | .copy =>
    let d := copyDesc o.arg
    if d.kind = 0 then (List.range o.resv.length).foldl (fun m i => min m (FMap.get o.res i * d.bpu)) o.stage else o.stage
  | .sdot => o.width
  | _ => match s.entryOf o.core id with
    | some e => e.progress
    | none => o.width

/-- The scalars an engine operation read: the descriptor, or the row scalar. -/
def State.scalarsOf (s : State) (id : Nat) (o : Op) : List Nat :=
  if o.kind = .mdrainT then
    match s.entryOf o.core id with
    | some e => [e.row.toNat]
    | none => o.arg.take 1
  else o.arg.take 8

/-- The claims of an operation in an image: its own team's first. -/
def ownFirst (t : Nat) (l : List Claim) : List Claim := l.filter (·.1 = t) ++ l.filter (·.1 ≠ t)

/-- 64 bytes: GROUP, counter, kind, offset, scalars, progress, the first five reservation starts. -/
def State.engineImg (s : State) (id : Nat) (o : Op) : List Byte :=
  packFields 64 ([(0, 1, (s.grp o.grp).idx), (1, 1, o.ctr), (2, 1, engineKinds.idxOf o.kind), (4, 4, o.off),
    (40, 8, s.progressOf id o)] ++
    ((s.scalarsOf id o).zipIdx.map (fun p => (8 + 4 * p.2, 4, p.1))) ++
    (((ownFirst o.team o.resv).take 5).zipIdx.map (fun p => (48 + 3 * p.2, 3, p.1.2.2.1))))

/-- A PE row in the K-major layout: element t of PE p at place 64 t + p (R155). -/
def peRowImg (m : Matrix) (buf : Bool) (i : Nat) : List Byte :=
  let w := mBits m.bf
  leBytes 2048 ((List.range 64).foldl (fun acc p =>
    let v := (FMap.get m.pe (peKey buf i p)).toNat
    (List.range (mLen m.bf)).foldl (fun acc t => acc + v / 2 ^ (w * t) % 2 ^ w * 2 ^ (w * (64 * t + p))) acc) 0)

def entryImg (idx : Nat) (e : MEntry) : List Byte :=
  packFields 16 [(0, 8, e.word.toNat), (8, 4, e.row.toNat), (12, 1, idx), (13, 1, if e.begun then 1 else 0), (14, 2, e.progress)]

/-- Configuration at 0, the queue at 256, the buffers from 5,632: elements, then four bytes of exponents a PE.
(DESIGN CHOICE, log 92.) -/
def State.matrixImg (s : State) (m : Matrix) : List Byte :=
  let buf (b : Bool) : List Byte := (List.range 64).flatMap (peRowImg m b) ++
    (List.range 4096).flatMap (fun k => leBytes 4 (FMap.get m.pex ((if b then 4096 else 0) + k)).toNat)
  padTo 256 (packFields 4 [(0, 1, m.af.code.toNat), (1, 1, m.bf.code.toNat), (2, 1, if m.sel then 1 else 0), (3, 1, m.queue.length)]) ++
  padTo 5376 (m.queue.flatMap (fun e => entryImg (s.grp e.grp).idx e)) ++ buf false ++ buf true

def State.teamHead (s : State) (t : Nat) : List Byte :=
  let tm := s.team t
  let waits : List Nat := tm.claimants.map (fun c => (s.grp c.1).idx)
  let place (i : Nat) : Nat := (waits[i]?).getD 0xff
  packFields 256 ([(0x00, 8, (s.launch (s.cluster tm.cluster).launch).image), (0x08, 1, tm.groups.length), (0x0a, 2, tm.pool),
    (0x0c, 4, tm.share), (0x10, 2, tm.msmRows), (0x12, 1, (s.engineOps t).length)] ++
    (List.range 32).map (fun i => (0x20 + i, 1, place i)))

/-- The image of a team. -/
def State.teamImg (s : State) (t : Nat) : List Byte :=
  let tm := s.team t
  let tiles := List.range 64
  s.teamHead t ++ tiles.flatMap (fun n => tileImg (s.tile t n)) ++
  tiles.flatMap (fun n => leBytes 4 ((s.tile t n).resv + (if (s.tile t n).ret then 2 ^ 31 else 0))) ++
  padTo 256 ((List.range 16).flatMap (fun b =>
    let k := FMap.get tm.barriers b
    leBytes 2 (tm.expected b) ++ leBytes 2 k.arrivals ++ leBytes 2 k.phase ++ leBytes 2 0)) ++
  alignTo 256 ((s.engineOps t).flatMap (fun p => s.engineImg p.1 p.2)) ++
  (if tm.msmRows = 0 then [] else s.matrixImg (s.matrixOf tm.core) ++ wordsImg tm.msm 0 (64 * tm.msmRows)) ++
  (List.range tm.share).map (FMap.get tm.scratch) ++ tm.groups.flatMap s.groupImg

/-! ### Reading an image back (R355) -/

/-- Where the sections of a team's image start: engine, matrix, MSM, scratch, groups. -/
def sections (n msmRows share : Nat) : List Nat :=
  let e := 256 + 1280 + 256
  let m := e + (64 * n + 255) / 256 * 256
  let r := m + (if msmRows = 0 then 0 else 300544)
  [e, m, r, r + 256 * msmRows, r + 256 * msmRows + share]
def secAt (l : List Nat) (i : Nat) : Nat := (l[i]?).getD 0

/-- The length of the group image whose header lies at an offset. -/
def groupLen (rd : Nat → Nat) (a : Nat) : Nat :=
  let region := if bitOf (rd (a + 3)) 3 then regionSize (rd (a + 0x51)) else 0
  (0x800 + 1024 * rd a + region + (if bitOf (rd (a + 3)) 2 then 64 else 0) + 1023) / 1024 * 1024

/-- The offsets of n group images, and the end of the last. -/
def groupOffs (rd : Nat → Nat) (a : Nat) : Nat → List Nat
  | 0 => [a]
  | n + 1 => a :: groupOffs rd (a + groupLen rd a) n

/-- A clause's header as the group's code holds it now. -/
def State.headerAt (s : State) (g off : Nat) : DWord :=
  match s.codeWord g (((lanesOf (s.grp g).mask).head?).elim 0 (fun l => FMap.get (s.grp g).planes l)) off with
  | .word h => h
  | _ => 0

/-- The region an image holds. -/
def regionOfImg (img : Memory) (h a : Nat) : Region :=
  let n (o k : Nat) : Nat := Memory.nat img (h + o) k
  let f (o k : Nat) : Nat := Memory.nat img (a + o) k
  { open_ := true, start := n 0x54 4, va := n 0x50 1, nblk := n 0x51 1, sb := n 0x52 1, nscal := n 0x53 1, rlwidx := n 0x58 4
    off := f 0 4, mask := BitVec.ofNat 32 (f 4 4), recOff := recOf (f 8 4), tilew := f 13 1, draw := f 16 8
    sregs := wordsOf img (a + 64) 0 128, pregs := wordsOf img (a + 576) 0 12, qregs := BitVec.ofNat 4 (f 624 1)
    stack := stackOfImg img (a + 640) (f 12 1), planes := planesOfImg img (a + 1152), vtags := tagsOfImg img (a + 1184) 0 256
    vregs := wordsOf img (a + 1440) (32 * n 0x50 1) (256 * n 0x51 1) }

/-- An operation outstanding again after a restore, which its counter already counts: its destinations are not ready. -/
def State.issueAgain (s : State) (o : Op) (places : List Nat) : Nat × State :=
  let (id, s) := s.fresh
  (id, (s.setOp id { o with live := true, places }).modGrp o.grp (fun gr =>
    { gr with notReady := FMap.setMany gr.notReady (places.map (fun p => (p, markOf id o.ctr))) }))

/-- The word that a restored group issued last. -/
def State.lastWord (s : State) (g : Nat) : Except DecodeError Instr := decode (s.headerAt g ((s.grp g).clause + 8 * (s.grp g).word))

/-- The WAIT a restored group stands at, where the group in place stands at none, its conditions read from the
restored scalars (R228). -/
def State.rebuildWait (s : State) (g d : Nat) (flag : Bool) : State :=
  let gr := s.grp g
  let off := gr.clause + 8 * gr.word
  let old := s.iss
  let s := { s with iss := { s.iss with grp := g } }
  let s := match s.lastWord g with
    | .ok (.wait all n qd sd sa _ c) =>
      let conds := (List.range (n.toNat + 1)).map (fun j => s.readCond (sa.toNat + 8 * j))
      let w : WaitRec := {
        live := true, all, qd := qd.toNat, sd := sd.toNat, ctr := c.val, deadline := d, forever := !flag
        conds := conds.map WaitCond.toList, due := 0, lines := [], again := true, off }
      ((s.issueAgain { s.opFor g off .wait c.val with team := gr.team } [qPlace qd.toNat, sPlace sd.toNat]).2).modGrp g
        (fun gr => { gr with wait := w })
    | _ => s
  { s with iss := old }

/-- What the other parks of a restored group wait for, from the word it issued last (R61). -/
def State.rebuildPark (s : State) (g : Nat) : State :=
  let gr := s.grp g
  let arg (n : Nat) : State := s.setGrp g { gr with parkArg := n }
  match gr.park, s.lastWord g with
  | .barrier, .ok (.barSync slot) => arg slot.toNat
  | .barrier, .ok (.cbarSync k) => arg (16 + k.toNat)
  | .tileTake, .ok (.tileTake t) => arg t.toNat
  | .rclaim, .ok (.rclaim n) => arg n.toNat
  | .fence, .ok (.fence o) | .fence, .ok (.fencePhase o _) => s.setGrp g { gr with fence := { (default : FenceRec) with
      live := true, scope := o.scope.toNat, loads := s.fenceOps g (classesOf o.pred) } }
  | .rgive, _ =>
    match decode (s.headerAt g (gr.clause + 8 + 8 * gr.word)) with
    | .ok (.rgive n) => arg (8 * (gr.blocks - n.toNat))
    | _ => s
  | _, _ => s

/-- What a record of an image says of its park. -/
def FaultRec.ofImg (f : FaultRec) (img : Memory) (a : Nat) : FaultRec :=
  let n (o k : Nat) : Nat := Memory.nat img (a + o) k
  { f with
    cls := n 0 1, write := bitOf (n 1 1) 0, nested := bitOf (n 1 1) 1, engine := bitOf (n 1 1) 2, team := bitOf (n 1 1) 3
    stage2 := bitOf (n 1 1) 4, planes := n 2 1, level := n 3 1, off := n 4 4, lanes := BitVec.ofNat 32 (n 8 4), core := n 12 1
    slot := n 13 1, addr := BitVec.ofNat 64 (n 16 8), gpa := n 24 8, time := n 40 8, faultId := n 48 4, owed := false, withheld := true }

/-- A queue counts the withheld records of a restored group anew (R349). -/
def State.recount (s : State) (g : Nat) (was : Bool) (f : FaultRec) : State :=
  let s := if was then s.modFq (s.queueOf g) (fun q => { q with held := q.held - 1 }) else s
  let s := s.modGrp g (fun gr => { gr with flt := f })
  if f.withheld then s.modFq (s.queueOf g) (fun q => { q with held := q.held + 1 }) else s

/-- A group as its image of `len` bytes gives it (R355). The width in force becomes the one last written.
(DESIGN CHOICE, log 162.) -/
def State.groupOfImg (s : State) (g : Nat) (img : Memory) (a len : Nat) : State :=
  let n (o k : Nat) : Nat := Memory.nat img (a + o) k
  let b := n 0 1
  let flags := n 3 1
  let pos := n 8 1
  let bytes := planesOfImg img (a + 0x550)
  let gr := s.grp g
  let park := Park.ofNum (n 0x0b 1)
  let mask := BitVec.ofNat 32 (n 0x0c 4)
  let stack := stackOfImg img (a + 0x350) (n 0x09 1)
  let snap := (List.range 32).map (fun l => snapOfByte (FMap.get bytes l) (mask.getLsbD l))
  let ret : TrapRet := { (default : TrapRet) with
    off := n 0x38 4, mask := BitVec.ofNat 32 (n 0x3c 4), recOff := recOf (n 0x40 4), clause := n 0x44 4, word := n 0x48 1
    depth := n 0x49 1, snap := snapOfImg (n 0x2b4 12) (BitVec.ofNat 32 (n 0x2c8 4)), tilew := n 0x4b 1 }
  let f : FaultRec := if bitOf flags 2 then gr.flt.ofImg img (a + len - 64)
    else { gr.flt with faultId := n 0x20 4, withheld := false, owed := false }
  let s := s.setGrp g { gr with
    blocks := b, tilewNext := n 1 1, tilew := n 1 1, trapped := bitOf flags 0, inClause := pos ≠ 0, off := n 4 4, clause := n 4 4
    word := pos - 1, stack, mask, recOff := recOf (n 0x10 4), exited := ~~~(stack.foldl (fun m e => m ||| e.mask) mask)
    gang := BitVec.ofNat 32 (n 0x14 4), sfault := BitVec.ofNat 32 (n 0x1c 4), draw := n 0x30 8, joint := n 0x60 4
    spawnLane := if n 0x64 1 = 0xff then 0 else n 0x64 1 + 1, sregs := wordsOf img (a + 0x80) 0 128
    pregs := wordsOf img (a + 0x280) 0 12, qregs := BitVec.ofNat 4 (n 0x2b0 1)
    ctrs := FMap.setMany [] ((List.range 6).map (fun c => (c, n (0x2c0 + c) 1)))
    bts := FMap.setMany [] ((List.range 8).map (fun k => (k, btOfImg (n (0x2d0 + 16 * k) 16))))
    planes := FMap.setMany [] ((List.range 32).map (fun l => (l, planeOfByte (FMap.get bytes l))))
    snap := if pos = 0 then gr.snap else snap, vtags := tagsOfImg img (a + 0x570) 0 256, vregs := wordsOf img (a + 0x800) 0 (256 * b), vpoison := []
    park := if bitOf flags 7 && park = .fault then .running else park, engFault := bitOf flags 7, wait := default, fence := default
    parkArg := 0, trapRet := if bitOf flags 0 then ret else default
    region := if bitOf flags 3 then regionOfImg img a (a + 0x800 + 1024 * b) else default, regionStores := []
    planeFrom := 0, morePlanes := false, posTags := [], brDests := [], replay := 0, replayOp := 0, held := false, heldWalk := []
    heldAts := [], walked := [], refused := [], clobber := gr.clobber.filter (fun p => (s.op (markOp p.2)).live) }
  let s := s.recount g gr.flt.withheld f
  let h := s.headerAt g (n 4 4)
  let k := s.headerAt g ret.clause
  let s := s.modGrp g (fun gr => { gr with
    nextClause := gr.clause + 8 * headCount h + 16, count := headCount h, cls := headClass h, unif := headUnif h
    yields := headYield h
    trapRet := if gr.trapped then { gr.trapRet with
        nextClause := ret.clause + 8 * headCount k + 16, count := headCount k, cls := headClass k, unif := headUnif k
        yields := headYield k } else gr.trapRet })
  let d := (((n 0x28 8 : Int) - (s.fn gr.vf).tickOff) % 2 ^ 64).toNat
  if park ≠ .wait then { s with ops := s.ops.filter (fun p => !(p.2.grp = g && p.2.kind = .wait)) }
  else if gr.wait.live then s.modGrp g (fun r => { r with wait := { gr.wait with deadline := d, forever := !bitOf flags 4 } })
  else s.rebuildWait g d (bitOf flags 4)

def tileOfImg (n w : Nat) (ranges : List (Nat × Nat × Nat × Nat)) : Tile :=
  { defd := bitOf n 99, owner := bitOf n 100, tag := tagOfCode (bitsOf n 105 101), wptr := n / 2 ^ 106, base := bitsOf n 63 49
    rows := bitsOf n 48 37, rowb := bitsOf n 36 29, resv := bitsOf w 21 0, ret := bitOf w 31, ranges }

/-- The tiles and extents an engine operation of a team names, from its scalars and its word. -/
def State.claimsOf (s : State) (t : Nat) (kind : OpKind) (l : List Nat) (w : DWord) : List (Nat × Nat × Nat) :=
  match kind with
  | .copy =>
    let d := copyDesc l
    let cl := s.cluster (s.team t).cluster
    let ts := if d.mcast = 0 then [t] else ((cl.teams.zipIdx).filter (fun p => bitOf d.mcast p.2)).map (·.1)
    if d.kind = 0 then ts.flatMap (fun k => [(k, d.ts, d.rows * d.rbt)] ++ (if d.packs then [(k, d.te, d.rows * d.rbe)] else []))
    else if d.kind = 1 then d.tiles.map (fun n => (t, n, 0))
    else []
  | .sdot =>
    match decode w with
    | .ok (.sdot o) => [(t, o.d.toNat, 4 * (dotDesc l).n), (t, o.a.toNat, 0)] ++
        (if dotFmt o.ty = .de8 then [(t, (dotDesc l).tea, 0)] else [])
    | _ => []
  | _ =>
    match decode w with
    | .ok (.mdrainT o) =>
      let n := rowCount (BitVec.ofNat 32 ((l.head?).getD 0))
      (t, o.d.toNat, n * drainBytes o.ty) :: (if drainDe o.ty then [(t, o.e.toNat, 4 * n)] else [])
    | _ => []

/-- Bytes of claim i that progress k of an operation has landed. -/
def landedBytes (kind : OpKind) (l : List Nat) (w : DWord) (i k : Nat) : Nat :=
  match kind with
  | .copy =>
    let d := copyDesc l
    if d.conv = 0 then 16 * k else if i % 2 = 1 then 2 * (k / d.bpu) else k / d.bpu * (if d.de4 then 16 else 32)
  | .sdot => 4 * k
  | _ =>
    match decode w with
    | .ok (.mdrainT o) => if i = 1 then 4 * k else k * drainBytes o.ty
    | _ => 0

/-- An engine operation of an image: the operation with its claims, and the tile ranges of its own team that it opens.
Starts that the image has no place for are those of the operation in place of `old`, else the tiles' WPTR. (DESIGN
CHOICE, log 91.) -/
def State.engineOfImg (s : State) (t : Nat) (img : Memory) (a : Nat) (old : List Op) : Op × List (Nat × Nat × Nat × Nat × Nat) :=
  let n (o k : Nat) : Nat := Memory.nat img (a + o) k
  let tm := s.team t
  let g := (tm.groups[n 0 1]?).getD 0
  let kind := (engineKinds[n 2 1]?).getD .copy
  let l := (List.range 8).map (fun i => n (8 + 4 * i) 4)
  let w := s.headerAt g (n 4 4)
  let k := n 40 8
  let needs := s.claimsOf t kind l w
  let own := ownFirst t (needs.map (fun p => (p.1, p.2.1, p.2.2, 0)))
  let was := old.find? (fun o => o.grp = g && o.kind = kind && o.off = n 4 4 && o.arg.take 8 = l)
  let startOf (p : Nat × Nat × Nat) : Nat :=
    let i := own.idxOf (p.1, p.2.1, p.2.2, 0)
    if p.2.2 = 0 then 0 else if i < 5 then n (48 + 3 * i) 3
    else match was.bind (fun o => o.resv.find? (fun c => c.1 = p.1 && c.2.1 = p.2.1)) with
      | some c => c.2.2.1
      | none => (s.tile p.1 p.2.1).wptr
  let claims : List Claim := needs.map (fun p => (p.1, p.2.1, startOf p, startOf p + p.2.2))
  let (arg, ty) : List Nat × Tag := match decode w with
    | .ok (.sdot o) =>
      let d := dotDesc l
      let stack := match s.stackOf g (d.pages (dotFmt o.ty)) none with
        | .ok k => k
        | _ => 0
      (l ++ [stack, o.a.toNat], o.ty)
    | .ok (.mdrainT o) => (l.take 1, o.ty)
    | _ => (l, .b32)
  let d := copyDesc l
  let o : Op := { (default : Op) with
    live := true, kind, grp := g, team := t, core := tm.core, off := n 4 4, ctr := n 1 1, arg, ty, resv := claims
    stage := if kind = .copy then k else 0, width := if kind = .copy then 0 else k
    res := if kind = .copy && d.kind = 0 then FMap.setMany [] ((List.range claims.length).map (fun i => (i, k / d.bpu))) else []
    flag := if kind = .sdot then (dotDesc l).n ≤ k else kind = .mdrainT && rowCount (BitVec.ofNat 32 ((l.head?).getD 0)) ≤ k }
  (o, (claims.zipIdx.filter (fun p => p.1.1 = t && p.1.2.2.1 < p.1.2.2.2)).map (fun p =>
    (p.1.2.1, p.1.2.2.1, p.1.2.2.2, landedBytes kind l w p.2 k, 0)))

/-- A PE row of a buffer of an image. -/
def peRowOf (bf : MFmt) (buf : Bool) (i v : Nat) : List (Nat × BitVec 256) :=
  let w := mBits bf
  (List.range 64).map (fun p => (peKey buf i p, BitVec.ofNat 256 ((List.range (mLen bf)).foldl (fun acc t =>
    acc + v / 2 ^ (w * (64 * t + p)) % 2 ^ w * 2 ^ (w * t)) 0)))

/-- The matrix state of an image but its queue. -/
def matrixOfImg (t : Nat) (img : Memory) (a : Nat) : Matrix :=
  let af := (MFmt.ofCode (BitVec.ofNat 4 (Memory.nat img a 1))).getD .e4m3
  let bf := (MFmt.ofCode (BitVec.ofNat 4 (Memory.nat img (a + 1) 1))).getD .e4m3
  let base (b : Bool) : Nat := a + 5632 + (if b then 147456 else 0)
  { (default : Matrix) with
    held := true, team := t, af, bf, sel := Memory.nat img (a + 2) 1 = 1
    pe := FMap.setMany [] ([false, true].flatMap (fun b =>
      (List.range 64).flatMap (fun i => peRowOf bf b i (Memory.nat img (base b + 2048 * i) 2048))))
    pex := FMap.setMany [] ([false, true].flatMap (fun b => (List.range 4096).map (fun k =>
      ((if b then 4096 else 0) + k, BitVec.ofNat 32 (Memory.nat img (base b + 131072 + 4 * k) 4))))) }

/-- The queue of an image: each entry with its operation, the tile drains taking theirs from the ENGINE section. The bond,
fill value and formats of an entry are those of the entry that stands at its place, where that is the same word. -/
def State.queueOfImg (s : State) (t : Nat) (img : Memory) (a : Nat) (old : List MEntry) (sel : Bool) (drains : List Nat) : List MEntry × State :=
  let tm := s.team t
  let m := s.matrixOf tm.core
  let (q, s, _) := (List.range (Memory.nat img (a + 3) 1)).foldl (fun (acc : List MEntry × State × List Nat) i =>
    let (q, s, drains) := acc
    let n (o k : Nat) : Nat := Memory.nat img (a + 256 + 16 * i + o) k
    let w := BitVec.ofNat 64 (n 0 8)
    let g := (tm.groups[n 12 1]?).getD 0
    let e : MEntry := { (default : MEntry) with
      word := w, grp := g, row := BitVec.ofNat 32 (n 8 4), af := m.af, bf := m.bf, sel, begun := n 13 1 = 1, progress := n 14 2 }
    let e := match old[i]? with
      | some p => if p.word = w && p.grp = g then { e with bond := p.bond, jid := p.jid, fill := p.fill, af := p.af, bf := p.bf, sel := p.sel } else e
      | none => e
    let add (kind : OpKind) (ctr : Nat) (tiles : List Nat) : List MEntry × State × List Nat :=
      let (id, s) := s.fresh
      (q ++ [{ e with op := id }], s.setOp id { (default : Op) with
        live := true, kind, grp := g, team := t, core := tm.core, ctr, resv := readClaims t tiles }, drains)
    match decode w with
    | .ok (.mstream o) =>
      add .mstream o.c.val (if s.feeds g then o.a.toNat :: (if mExp e.af = 0 then [] else [o.e.toNat]) else [])
    | .ok (.mstat _ _ x y) => add .mstat 6 (x.toNat :: (if mExp e.bf = 0 then [] else [y.toNat]))
    | .ok (.mdrainT _) => (q ++ [{ e with op := (drains.head?).getD 0 }], s, drains.drop 1)
    | .ok (.mdrain o) =>
      let regs := (List.range (if o.ty = .f64 then 4 else 2)).map (o.d.toNat + ·)
      let (id, s) := s.issueAgain { s.opFor g 0 .mdrain o.c.val with team := t, dst := o.d.toNat, ty := o.ty } regs
      (q ++ [{ e with op := id }], s, drains)
    | _ => (q ++ [e], s, drains)) ([], s, drains)
  (q, s)

/-- What an image restores (R355). (DESIGN CHOICE, log 95; DESIGN CHOICE, log 96.) -/
def State.restore (s : State) (t : Nat) (img : Memory) : State :=
  let tm := s.team t
  let n (o k : Nat) : Nat := Memory.nat img o k
  let count := n 0x12 1
  let sec := sections count tm.msmRows tm.share
  let gone : List OpKind := [.copy, .sdot, .mdrainT, .mdrain, .mstream, .mstat]
  let was := (s.ops.filter (fun p => p.2.team = t && p.2.kind ∈ gone)).map (·.2)
  let s := { s with ops := s.ops.filter (fun p => !(p.2.team = t && p.2.kind ∈ gone)) }
  let s := ((tm.groups.zip (groupOffs (fun a => n a 1) (secAt sec 4) tm.groups.length))).foldl (fun s p => s.groupOfImg p.1 img p.2 (groupLen (fun a => n a 1) p.2)) s
  let (ids, spans, s) := (List.range count).foldl (fun (acc : List Nat × List (Nat × Nat × Nat × Nat × Nat) × State) i =>
    let (ids, spans, s) := acc
    let (o, l) := s.engineOfImg t img (secAt sec 0 + 64 * i) was
    let (id, s) := s.fresh
    (ids ++ [id], spans ++ l, s.setOp id o)) ([], [], s)
  let ranges (k : Nat) : List (Nat × Nat × Nat × Nat) :=
    let mine := (spans.filter (fun p => p.1 = k)).map (·.2)
    (sortOnce (mine.map (·.1))).flatMap (fun a => mine.filter (fun r => r.1 = a))
  let tiles := FMap.setMany [] ((List.range 64).map (fun k => (k, tileOfImg (n (256 + 16 * k) 16) (n (1280 + 4 * k) 4) (ranges k))))
  let s := tm.groups.foldl (fun s g => s.rebuildPark g) s
  let bars := FMap.setMany [] ((List.range 16).map (fun b =>
    let old := FMap.get tm.barriers b
    let e := n (1536 + 8 * b) 2
    (b, ({ own := old.own || e ≠ tm.groups.length, expected := e, arrivals := n (1538 + 8 * b) 2, phase := n (1540 + 8 * b) 2 } : Barrier))))
  let line := ((List.range 32).map (fun i => n (0x20 + i) 1)).takeWhile (· ≠ 0xff)
  let s := s.modTeam t (fun tm => { tm with
    tiles, barriers := bars, pool := n 0x0a 2
    claimants := line.map (fun i => let g := (tm.groups[i]?).getD 0; (g, (s.grp g).parkArg))
    msm := if tm.msmRows = 0 then tm.msm else wordsOf img (secAt sec 2) 0 (64 * tm.msmRows)
    scratch := FMap.setMany [] ((List.range tm.share).map (fun a => (a, FMap.get img (secAt sec 3 + a))))
    scratchPoison := [], msmPoison := [] })
  if tm.msmRows = 0 then s
  else
    let old := (s.matrixOf tm.core).queue
    let m := matrixOfImg t img (secAt sec 1)
    let drains := ids.filter (fun id => (s.op id).kind = .mdrainT && !(s.op id).flag)
    let s := s.modMatrix tm.core (fun _ => m)
    let (q, s) := s.queueOfImg t img (secAt sec 1) old m.sel drains
    s.modMatrix tm.core (fun m => { m with queue := q })

/-- Whether an image's header is that of the team, its group roles and block counts fit, and its ENGINE and matrix content
stays within the team's tiles and rows (R355). -/
def State.imageFits (s : State) (t : Nat) (img : Memory) : Bool :=
  let tm := s.team t
  let n (o k : Nat) : Nat := Memory.nat img o k
  let count := n 0x12 1
  let sec := sections count tm.msmRows tm.share
  let offs := (groupOffs (fun a => n a 1) (secAt sec 4) tm.groups.length).take tm.groups.length
  n 0 8 = (s.launch (s.cluster tm.cluster).launch).image && n 8 1 = tm.groups.length && n 0x0c 4 = tm.share && n 0x10 2 = tm.msmRows &&
  (tm.groups.zip offs).all (fun p => n (p.2 + 2) 1 = (s.grp p.1).role) &&
  n 0x0a 2 + (offs.map (fun a => n a 1)).sum = (s.teamNeed t).blocks &&
  (List.range count).all (fun i =>
    let (o, _) := s.engineOfImg t img (secAt sec 0 + 64 * i) []
    n (secAt sec 0 + 64 * i) 1 < tm.groups.length && o.resv.all (fun c =>
      let d := n (256 + 16 * c.2.1) 16
      c.1 ≠ t || (bitOf d 99 && c.2.2.2 ≤ (bitsOf d 48 37 + 1) * (bitsOf d 36 29 + 1) * 64))) &&
  (tm.msmRows = 0 || (n (secAt sec 1 + 3) 1 ≤ 16 && (List.range (n (secAt sec 1 + 3) 1)).all (fun i =>
    let e := secAt sec 1 + 256 + 16 * i
    let row := BitVec.ofNat 32 (n (e + 8) 4)
    n (e + 12) 1 < tm.groups.length && (rowFirst row + rowCount row ≤ tm.msmRows || n (e + 8) 4 = 0))))

/-- An image restored, or none where R355 rejects it: its res0 bits are clear when the restored team writes the same image, MOVED
and withheld records apart. (DESIGN CHOICE, log 94.) -/
def State.tryRestore (s : State) (t : Nat) (img : Memory) (len : Nat) : Option State :=
  if !s.imageFits t img then none
  else
    let s' := s.restore t img
    let tm := s.team t
    let sec := sections (Memory.nat img 0x12 1) tm.msmRows tm.share
    let rd (a : Nat) : Nat := Memory.nat img a 1
    let offs := groupOffs rd (secAt sec 4) tm.groups.length
    let moved := offs.map (· + 0x18)
    let noted (i : Nat) : Bool := offs.any (fun a => bitOf (rd (a + 3)) 2 && a + groupLen rd a - 64 ≤ i && i < a + groupLen rd a)
    let own := s'.teamImg t
    if own.length = len && own.zipIdx.all (fun p => FMap.get img p.2 = p.1 || noted p.2 || (p.2 ∈ moved && (FMap.get img p.2).toNat < 8)) then some s'
    else none

/-! ### CSAVE and CREST (R359) -/

/-- The pieces of a range that lie each within 4 KiB: address and length. -/
def chunksOf (va n : Nat) : List (Nat × Nat) :=
  if n = 0 then []
  else (List.range ((va + n - 1) / 4096 - va / 4096 + 1)).map (fun i =>
    let a := max va ((va / 4096 + i) * 4096)
    (a, min (va + n) ((va / 4096 + i + 1) * 4096) - a))

/-- The bytes an address of the issuing group holds now, as the length of an image is read; zero where none is reached. -/
def State.peek (s : State) (va : Nat) : Nat :=
  match s.reachNow s.cur va false with
  | .at (.hbm spa _) => (s.loadByte outside spa).toNat
  | .at (.host h _) => (s.hostByte h).toNat
  | _ => 0

/-- The length of the image at an address for a team. -/
def State.imageLen (s : State) (t va : Nat) : Nat :=
  let tm := s.team t
  let a := secAt (sections (s.peek (va + 0x12)) tm.msmRows tm.share) 4
  ((groupOffs (fun o => s.peek (va + o)) a tm.groups.length).getLast?).getD 0

/-- The common issue of a context word: its checks, the translation of every piece, then its effect on the places. -/
def State.contextWord (s : State) (a b : SReg) (c : CReg) (write : Bool) (len : State → Nat → Nat → Nat)
    (eff : Nat → Nat → List (Nat × Nat × Target) → State → State) : State :=
  s.inMode 1 (fun s => s.onHandle a (fun g s =>
    let va := (s.sVal b true).toNat
    match if sPairOk true b && va % 256 = 0 then s.heldTeam g else none with
    | none => s.raise (plainFault 4) s.active
    | some t => s.afterContext t (fun s =>
      let parts := chunksOf va (len s t va)
      let at' (i : Nat) : Nat × Nat := (parts[i]?).getD (0, 0)
      match parts.find? (fun p => 2 ^ 57 < p.1 + p.2) with
      | some p => s.settle [(0, .fault 12 0xff p.1 0 false)] 0 (fun _ => p.1) write false 0 s.active
      | none => s.withCtr c (fun s =>
      let gt := gather (List.range parts.length) write (fun i =>
          let p := at' i
          let r := s.orPull (s.reachVa s.cur p.1 write)
          if write then r else s.orPoison p.2 p.1 r)
      if gt.waits then s.holdWord gt
      else if gt.bad ≠ [] then s.settle gt.bad 0 (fun i => (at' i).1) write false 0 s.active
      else eff t va (gt.good.map (fun p => ((at' p.1).1, (at' p.1).2, p.2))) (s.modGrp s.cur Group.settled)))))

/-- (DEDUCED, log 97.) -/
def execCsave (a b : SReg) (c : CReg) (s : State) : Host.Outcome State Fault Refusal :=
  .next (s.contextWord a b c true (fun s t _ => (s.teamImg t).length) (fun t va parts s =>
    let img := s.teamImg t
    let (id, s) := s.issueOp { s.baseOp .csave c.val with arg := [t] } []
    parts.foldl (fun s p =>
      let bytes := (img.drop (p.1 - va)).take p.2.1
      match p.2.2 with
      | .hbm spa x =>
        let s := s.markDirty (s.grp s.cur).vf x
        (linesOf (cellsAt spa bytes)).foldl (fun s line =>
          s.sendAcc { s.accessAt .store 0 id 0 p.2.2 with team := 0, addr := line * 1024, data := cellsOfLine (cellsAt spa bytes) line }) s
      | .host h x => (s.markDirty (s.grp s.cur).vf x).sendAcc { s.accessAt .store 0 id 0 p.2.2 with team := 0, data := cellsAt h bytes }
      | .remote h off => s.sendAcc { s.accessAt .store 0 id 0 p.2.2 with team := 0, data := cellsAt (h * 2 ^ 40 + off) bytes }) s))

/-- A place as numbers. -/
def Target.code : Target → List Nat
  | .hbm spa _ => [0, spa]
  | .host h _ => [1, h]
  | .remote h off => [2, h * 2 ^ 40 + off]

def execCrest (a b : SReg) (c : CReg) (s : State) : Host.Outcome State Fault Refusal :=
  .next (s.contextWord a b c false (fun s t va => s.imageLen t va) (fun t _ parts s =>
    (s.issueOp { s.baseOp .crest c.val with
      arg := t :: s.iss.planes :: parts.flatMap (fun p => p.2.2.code ++ [p.2.1]) } []).2))

/-- The bytes of an image's pieces, or none while a narrow hold is being published. -/
def State.readParts (s : State) : List Nat → Option (List Byte) × State
  | k :: a :: n :: rest =>
    let (l, s) : Option (List Byte) × State :=
      match k with
      | 0 => s.hubRead a n
      | 1 => (some (s.hostBytes a n), s)
      | _ => s.remoteRead a n
    match l with
    | none => (none, s)
    | some l =>
      match s.readParts rest with
      | (some r, s) => (some (l ++ r), s)
      | r => r
  | _ => (some [], s)

/-- A CREST applies its image; a rejected one raises ILLEGAL for the issuing group beside its own park (R355, R359).
(DESIGN CHOICE, log 160.) -/
def State.applyCrest (s : State) (id : Nat) : State :=
  let o := s.op id
  let t := (o.arg.head?).getD 0
  let gr := s.grp o.grp
  if gr.faulted || gr.park = .page then s
  else
  match s.readParts (o.arg.drop 2) with
  | (none, s) => s
  | (some l, s) =>
    let s := s.endOp id
    match s.tryRestore t ((cellsAt 0 l).filter (fun c => c.2 ≠ 0)) l.length with
    | some s => s
    | none => s.faultParkAs o.grp (plainFault 4) o.off ((o.arg[1]?).getD 0) false false true false

/-! ### Completion of variable-latency operations (R66, R185, R359) -/

/-- Kinds that complete by their results alone. -/
def plainKinds : List OpKind := [.load, .sload, .paramLoad, .store, .atom, .sfu, .btset, .scratch, .mstatus]

/-- The results of an operation arrive and its counter falls. -/
def execVariableLatencyCompletion (op : Nat) (s : State) : Host.Outcome State Fault Refusal :=
  let o := s.op op
  .next (if o.kind = .csave && o.live then
      if o.waitOn = [] && (o.ptr = 0 || o.ptr + 2 ≤ s.tick) then s.endOp op else s
    else if o.kind = .crest && o.live then s.applyCrest op
    else if !(o.kind ∈ plainKinds && s.opReady o) then s
    else if o.kind = .scratch && (o.stage = 1 || o.stage = 2) && s.scrMustWait op o then s
    else
      let s := if o.kind = .scratch && (o.stage = 1 || o.stage = 2) then s.scrPerform op else s
      let s := match o.kind with
        | .btset => if o.stopped then s else
            s.modGrp o.grp (fun gr => { gr with bts := FMap.set gr.bts ((o.arg.head?).getD 0) (btOfArgs o.arg) })
        | .store => s
        | .scratch => if o.stage = 2 || (o.stage = 3 && o.dst = 0 && o.width = 0) then s else s.deliver op
        | _ => s.deliver op
      s.endOp op)

end Sys2Proof.Machine
end

