-- ==== Sys2Proof/Machine/FloatOps.lean ====
section
/-!
DEFINITION. Floating-point, special-function and conversion words (R246 to R254).
-/
namespace Sys2Proof.Machine
open Sys2Proof

/-! ### Arithmetic (R246 to R248) -/

def execFadd (o : VOp) (s : State) : Host.Outcome State Fault Refusal :=
  .next (s.elementwise o 2 (fun a b _ => fAdd (floatFmt o.ty) o.rnd a b))
def execFsub (o : VOp) (s : State) : Host.Outcome State Fault Refusal :=
  .next (s.elementwise o 2 (fun a b _ => fSub (floatFmt o.ty) o.rnd a b))
def execFmul (o : VOp) (s : State) : Host.Outcome State Fault Refusal :=
  .next (s.elementwise o 2 (fun a b _ => fMul (floatFmt o.ty) o.rnd a b))
def execFfma (o : VOp) (s : State) : Host.Outcome State Fault Refusal :=
  .next (s.elementwise o 3 (fun a b c => fFma (floatFmt o.ty) o.rnd a b c))
def execFnma (o : VOp) (s : State) : Host.Outcome State Fault Refusal :=
  .next (s.elementwise o 3 (fun a b c => fNma (floatFmt o.ty) o.rnd a b c))

/-- An F32 word with an immediate (R246). -/
def State.fImm (s : State) (o : VImm) (f : Nat → Nat → Nat) : State :=
  s.vec o.g [vSrc o.a .f32] o.d false .f32 (fun l => BitVec.ofNat 64 (f (s.rdV s.cur o.a.toNat l).toNat o.imm.toNat))

def execFaddi (o : VImm) (s : State) : Host.Outcome State Fault Refusal := .next (s.fImm o (fAdd fF32 .rne))
def execFmuli (o : VImm) (s : State) : Host.Outcome State Fault Refusal := .next (s.fImm o (fMul fF32 .rne))

def execFmin (o : VOp) (s : State) : Host.Outcome State Fault Refusal :=
  .next (s.elementwise o 2 (fun a b _ => fMin (floatFmt o.ty) a b))
def execFmax (o : VOp) (s : State) : Host.Outcome State Fault Refusal :=
  .next (s.elementwise o 2 (fun a b _ => fMax (floatFmt o.ty) a b))
def execFabs (o : VOp) (s : State) : Host.Outcome State Fault Refusal :=
  .next (s.elementwise o 1 (fun a _ _ => fAbs (floatFmt o.ty) a))
def execFneg (o : VOp) (s : State) : Host.Outcome State Fault Refusal :=
  .next (s.elementwise o 1 (fun a _ _ => fNeg (floatFmt o.ty) a))
def execFcopysign (o : VOp) (s : State) : Host.Outcome State Fault Refusal :=
  .next (s.elementwise o 2 (fun a b _ => fCopySign (floatFmt o.ty) a b))

/-- The single element of a floating operand in a lane (R80). -/
def State.fVal (s : State) (t : Tag) (r : VReg) (l : Nat) : Nat := elemOf (s.vVal r (t.width = 64) l) (tagElems t).1 0

def execFcmp (o : VCmp) (s : State) : Host.Outcome State Fault Refusal :=
  .next (s.vecPred o.g [vSrc o.a o.ty, vSrc o.b o.ty] o.d (fun l =>
    combine o.comb (relFloat o.rel ((floatFmt o.ty).val (s.fVal o.ty o.a l)) ((floatFmt o.ty).val (s.fVal o.ty o.b l)))
      (fun p => s.pBit p l)))

def execFclass (o : VOp) (s : State) : Host.Outcome State Fault Refusal :=
  .next (s.vec o.g [vSrc o.a o.ty] o.d false .n32 (fun l => BitVec.ofNat 64 (fClass (floatFmt o.ty) (s.fVal o.ty o.a l))))

/-! ### Special functions (R249, R250) -/

/-- A special function: checks, COUNTER_RANGE, then an outstanding operation that holds the results; the destination's
tag is set at issue (R66, R185, R249). -/
def State.special (s : State) (o : SfuOp) (f : Nat → Nat) : State :=
  let w64 : Bool := o.ty.width = 64
  let wm := s.wmask o.g
  match s.vecFault [vDst o.d w64, vSrc o.a o.ty] wm with
  | some r => s.raise r wm
  | none =>
    if s.ctrFull s.cur o.c.val then s.raise (plainFault 11) wm
    else
      let res := (lanesOf wm).map (fun l => (l, f (s.vVal o.a w64 l).toNat))
      let op : Op := { (default : Op) with
        kind := .sfu, grp := s.cur, team := (s.grp s.cur).team, core := s.coreOf s.cur, off := s.iss.off, ctr := o.c.val
        dst := o.d.toNat, width := if w64 then 8 else 4, ty := o.ty, lanes := wm, res := FMap.setMany [] res }
      let (_, s) := s.issueOp op (if w64 then [o.d.toNat, o.d.toNat + 1] else [o.d.toNat])
      s.modGrp s.cur (fun gr =>
        let gr := gr.putTag s.iss.split o.d.toNat wm o.ty
        if w64 then gr.putTag s.iss.split (o.d.toNat + 1) wm o.ty else gr)

def execRcp (o : SfuOp) (s : State) : Host.Outcome State Fault Refusal := .next (s.special o (fRcp (floatFmt o.ty) o.rnd))
def execSqrt (o : SfuOp) (s : State) : Host.Outcome State Fault Refusal := .next (s.special o (fSqrt (floatFmt o.ty) o.rnd))
def execRsqrt (o : SfuOp) (s : State) : Host.Outcome State Fault Refusal := .next (s.special o (fRsqrt fF32))
def execExp2 (o : SfuOp) (s : State) : Host.Outcome State Fault Refusal := .next (s.special o fExp2)
def execLog2 (o : SfuOp) (s : State) : Host.Outcome State Fault Refusal := .next (s.special o fLog2)
def execSinpi (o : SfuOp) (s : State) : Host.Outcome State Fault Refusal := .next (s.special o fSinPi)
def execCospi (o : SfuOp) (s : State) : Host.Outcome State Fault Refusal := .next (s.special o fCosPi)
def execTanh (o : SfuOp) (s : State) : Host.Outcome State Fault Refusal := .next (s.special o fTanh)

/-! ### Conversions (R251 to R254) -/

/-- The result of a CVT in a register or pair: element 0, or both elements of a packed pair (R251). -/
def cvtVal (o : CvtOp) (v : DWord) : DWord :=
  let (sw, _) := tagElems o.src
  let (dw, _) := tagElems o.dst
  if cvtPair o.src o.dst then fromElems dw 2 (fun j => cvtElem o.src o.dst o.rnd o.sat (elemOf v sw j))
  else fromElems dw 1 (fun _ => cvtElem o.src o.dst o.rnd o.sat (elemOf v sw o.j.toNat))

def execCvt (o : CvtOp) (s : State) : Host.Outcome State Fault Refusal :=
  .next (s.vec o.g [vSrc o.a o.src] o.d (o.dst.width = 64) o.dst (fun l => cvtVal o (s.vVal o.a (o.src.width = 64) l)))

/-- The unit tag of a packed type (R253). -/
def unitTag : Tag → Tag
  | .f16x2 => .f16
  | .bf16x2 => .bf16
  | .f32x2 => .f32
  | t => t

/-- PACK gathers element 0 of n registers (R253). -/
def execPack (o : VTy) (s : State) : Host.Outcome State Fault Refusal :=
  let (w, n) := tagElems o.ty
  .next (s.vec o.g [vRange o.a.toNat n 1 (.typed (unitTag o.ty))] o.d (o.ty.width = 64) o.ty (fun l =>
    fromElems w n (fun j => (s.rdV s.cur (o.a.toNat + j) l).toNat % 2 ^ w)))

/-- UNPACK spreads the elements over n registers (R253). -/
def execUnpack (o : VTy) (s : State) : Host.Outcome State Fault Refusal :=
  let (w, n) := tagElems o.ty
  let w64 : Bool := o.ty.width = 64
  let wm := s.wmask o.g
  .next (match s.vecFault [vRange o.d.toNat n (if w64 then 2 else 1) .dst, vSrc o.a o.ty] wm with
    | some r => s.raise r wm
    | none => (List.range n).foldl (fun t j =>
        t.writeV s.cur (o.d.toNat + j) false wm (unitTag o.ty) (fun l => BitVec.ofNat 64 (elemOf (s.vVal o.a w64 l) w j))) s)

/-- BLK.PACK (R254). (DEDUCED, log 34.) -/
def execBlkPack (o : BlkOp) (s : State) : Host.Outcome State Fault Refusal :=
  let wm := s.wmask o.g
  .next (match s.vecFault [vDst o.d false, vSrc o.a o.fty] wm with
    | some r => s.raise r wm
    | none =>
      let x := (List.range 32).map (fun l =>
        if wm.getLsbD l then (floatFmt o.fty).val (s.fVal o.fty o.a l) else .fin false 0 0)
      let (e0, e1, els) := packBlock o.de4 o.delta.toNat x
      let el (i : Nat) : Nat := (els[i]?).getD 0
      let tag : Tag := if o.de4 then .de4x8 else .de8x4
      let n := if o.de4 then 8 else 4
      let w := if o.de4 then 4 else 8
      let old (l : Nat) : DWord := pairOf (FMap.get (s.grp s.cur).vregs (32 * o.d.toNat + l)) 0
      let s' := s.writeV s.cur o.d.toNat false wm tag (fun l =>
        if !o.cmp then BitVec.ofNat 64 (el l) else if l < 32 / n then fromElems w n (fun j => el (n * l + j)) else old l)
      s'.writeS s.cur o.s.toNat (BitVec.ofNat 32 (e1 * 256 + e0)))

/-- BLK.UNPACK (R254). -/
def execBlkUnpack (o : BlkOp) (s : State) : Host.Outcome State Fault Refusal :=
  let tag : Tag := if o.de4 then .de4x8 else .de8x4
  let n := if o.de4 then 8 else 4
  let w := if o.de4 then 4 else 8
  let e := (s.rdS s.cur o.s.toNat).toNat
  .next (s.vec o.g [vSrc o.a tag] o.d false o.fty (fun l =>
    let el := if o.cmp then elemOf (s.vVal o.a false (l / n)) w (l % n) else elemOf (s.vVal o.a false l) w 0
    BitVec.ofNat 64 ((floatFmt o.fty).pack o.rnd false (deVal o.de4 el (e % 256) (e / 256 % 256)))))

end Sys2Proof.Machine
end

