-- ==== Sys2Proof/Machine/Frond.lean ====
section
/-!
DEFINITION. The Frond words but `act` (R392): arithmetic, packet, staging and window accesses, branches, loops and ends.
-/
namespace Sys2Proof.Machine
open Sys2Proof

/-! ### Arithmetic on 64 bits -/

def execFrondMovi (o : FrI) (s : State) : Host.Outcome State Fault Refusal :=
  .next (s.frond (fun q => q.setFr o.d (o.imm.zeroExtend 64)))
def execFrondAddi (o : FrI) (s : State) : Host.Outcome State Fault Refusal :=
  .next (s.frond (fun q => q.setFr o.d (q.fr o.a + o.imm.signExtend 64)))
def execFrondAndi (o : FrI) (s : State) : Host.Outcome State Fault Refusal :=
  .next (s.frond (fun q => q.setFr o.d (q.fr o.a &&& o.imm.zeroExtend 64)))

/-- A word of the R-form: fD := f (fA, fB). -/
def State.frondBin (s : State) (o : FrR) (f : DWord → DWord → DWord) : State :=
  s.frond (fun q => q.setFr o.d (f (q.fr o.a) (q.fr o.b)))

def execFrondAdd (o : FrR) (s : State) : Host.Outcome State Fault Refusal := .next (s.frondBin o (fun a b => a + b))
def execFrondSub (o : FrR) (s : State) : Host.Outcome State Fault Refusal := .next (s.frondBin o (fun a b => a - b))
def execFrondAnd (o : FrR) (s : State) : Host.Outcome State Fault Refusal := .next (s.frondBin o (fun a b => a &&& b))
def execFrondOr (o : FrR) (s : State) : Host.Outcome State Fault Refusal := .next (s.frondBin o (fun a b => a ||| b))
def execFrondXor (o : FrR) (s : State) : Host.Outcome State Fault Refusal := .next (s.frondBin o (fun a b => a ^^^ b))
/-- The count of a shift is fB[5:0]. -/
def execFrondShl (o : FrR) (s : State) : Host.Outcome State Fault Refusal :=
  .next (s.frondBin o (fun a b => a <<< (b.toNat % 64)))
def execFrondShr (o : FrR) (s : State) : Host.Outcome State Fault Refusal :=
  .next (s.frondBin o (fun a b => a >>> (b.toNat % 64)))

/-! ### The packet, the staging block and the windows -/

def execFrondLdp (o : FrI) (s : State) : Host.Outcome State Fault Refusal :=
  .next (s.frond (fun q => q.setFr o.d (FMap.get q.packet (o.imm.toNat / 8))))
def execFrondSts (o : FrI) (s : State) : Host.Outcome State Fault Refusal :=
  .next (s.frond (fun q => { q with staging := FMap.set q.staging o.imm.toNat (q.fr o.d) }))

/-- The address of a window access: base_w + ((fA and (size_w - 1)) and not 7). -/
def Queue.windowVa (q : Queue) (w : Nat) (a : DWord) : Nat :=
  let p := (q.windows[w]?).getD (0, 3)
  let off := a.toNat % 2 ^ p.2
  p.1 + (off - off % 8)

/-- A failed window access stops the queue; its packet is not consumed. -/
def State.windowFault (s : State) : State :=
  (s.setQState s.curFn s.curQueue .error codeWindow 0).afterPacket s.curFn s.curQueue

/-- `ldw`; while a hold on the line is being forced the word waits. -/
def execFrondLdw (o : FrI) (s : State) : Host.Outcome State Fault Refusal :=
  let va := s.curQ.windowVa o.imm.toNat (s.curQ.fr o.a)
  .next (match s.hubReadVa s.curFn va 8 with
    | (.error _, s) => s.windowFault
    | (.ok none, s) => s
    | (.ok (some l), s) => s.frond (fun q => q.setFr o.d (BitVec.ofNat 64 (leNat l))))

def execFrondStw (o : FrI) (s : State) : Host.Outcome State Fault Refusal :=
  let va := s.curQ.windowVa o.imm.toNat (s.curQ.fr o.a)
  .next (match s.hubWriteVa s.curFn va (leBytes 8 (s.curQ.fr o.d).toNat) 0 0 with
    | .error _ => s.windowFault
    | .ok s => s.frond id)

/-! ### Branches, loops, ends -/

/-- A branch: taken, the program goes on n words after the next one; a branch stays in its loop body (R393). -/
def State.frondBranch (s : State) (o : FrB) (taken : Bool) : State :=
  if taken then s.modQueue s.curFn s.curQueue (fun q => { q with pc := q.pc + 1 + o.n.toNat }) else s.frond id

def execFrondBeq (o : FrB) (s : State) : Host.Outcome State Fault Refusal :=
  .next (s.frondBranch o (s.curQ.fr o.a = s.curQ.fr o.b))
def execFrondBne (o : FrB) (s : State) : Host.Outcome State Fault Refusal :=
  .next (s.frondBranch o (s.curQ.fr o.a ≠ s.curQ.fr o.b))
def execFrondBltu (o : FrB) (s : State) : Host.Outcome State Fault Refusal :=
  .next (s.frondBranch o ((s.curQ.fr o.a).toNat < (s.curQ.fr o.b).toNat))

/-- `loop`: the next len words run n + 1 times, the field holding one less than the count. -/
def execFrondLoop (n : BitVec 7) (len : BitVec 11) (s : State) : Host.Outcome State Fault Refusal :=
  .next (s.modQueue s.curFn s.curQueue (fun q =>
    let l : FrLoop := { first := q.pc + 1, last := q.pc + len.toNat, left := n.toNat + 1 }
    { q with pc := q.pc + 1, loops := l :: q.loops }))

/-- `end`: the packet is consumed (R389). -/
def execFrondEnd (s : State) : Host.Outcome State Fault Refusal :=
  let s := s.modQueue s.curFn s.curQueue (fun q => { q with ridx := q.ridx + 1, active := false })
  .next ((s.postStatus s.curFn s.curQueue).afterPacket s.curFn s.curQueue)

/-- `fail`: the queue stops with the code; its packet is not consumed. -/
def execFrondFail (code : BitVec 18) (s : State) : Host.Outcome State Fault Refusal :=
  let s := s.setQState s.curFn s.curQueue .error codeFail (code.toNat % 65536)
  .next (s.afterPacket s.curFn s.curQueue)

end Sys2Proof.Machine
end

