-- ==== Sys2Proof/Machine/Partitions.lean ====
section
/-!
DEFINITION. The partition commands (R408 to R421): each performs while PCSTAT shows it BUSY, and ends with its RESULT.
-/
namespace Sys2Proof.Machine
open Sys2Proof

/-! ### Results (R412) -/

def pcOk : Nat := 0
def pcState : Nat := 1
def pcLimit : Nat := 2
def pcFrame : Nat := 3
def pcField : Nat := 4

/-- A command ends. -/
def State.pcEnd (s : State) (r : Nat) : State := { s with pcBusy := false, pcResult := r, pcStage := 0 }

/-- The command of a code goes on, with its partition. -/
def State.onCommand (s : State) (op : Nat) (eff : Nat → State → State) : State :=
  if s.pcBusy && s.pcOp = op then eff s.pcPart s else s

/-! ### Descriptors (R409, R410) -/

/-- The partition a descriptor describes. -/
def partOfDesc (l : List Byte) : Part :=
  let n := leNat l
  let b (o : Nat) : Nat := bitsOf n (8 * o + 7) (8 * o)
  { (default : Part) with
    pair := bitOf n 1, guar := bitOf n 2, maxScope := bitsOf n 5 4, parent := b 1, cores := bitsOf n 79 32, scrMax := b 10
    lease := 16 * b 11, l2occ := [b 12, b 13, b 14, b 15], chan := [b 16, b 17, b 18, b 19], fab := b 20
    period := bitsOf n 191 176, periodNext := bitsOf n 191 176, tbud := bitsOf n 223 192, tbudNext := bitsOf n 223 192
    frMax := bitsOf n 255 224, s2root := bitsOf n 307 272 * 65536, desc := l }

/-- The res0 bits and field limits of R409. (DEDUCED, log 99.) -/
def partDescOk (l : List Byte) : Bool :=
  let n := leNat l
  let p := partOfDesc l
  let res0 : List (Nat × Nat) := [(7, 6), (3, 3), (31, 16), (175, 168), (271, 256), (319, 308), (511, 320)]
  bitOf n 0 && p.maxScope ≠ 0 && (p.parent < 64 || p.parent = 0xff) && p.scrMax ≤ 28 && 16 ≤ p.lease && p.lease ≤ 1024 &&
  p.l2occ.all (· ≤ 128) && p.chan.all (· ≤ 64) && p.fab ≤ 64 && 10 ≤ p.period && p.period ≤ 10000 &&
  res0.all (fun r => bitsOf n r.1 r.2 = 0)

def Part.coreList (p : Part) : List Nat := (List.range 48).filter p.hasCore
/-- Whether the cores lie on one die, or with PAIR on the two dies of one pair (R410). -/
def Part.extentOk (p : Part) : Bool :=
  let dies := p.coreList.map coreDie
  dies ≠ [] && dies.all (fun d => if p.pair then some (d / 2) = dies.head?.map (· / 2) else some d = dies.head?)

/-- The numbers in use, one of them with a new descriptor. -/
def State.partsWith (s : State) (k : Nat) (p : Part) : List (Nat × Part) :=
  (k, p) :: s.parts.filter (fun q => q.2.state ≠ .unused && q.1 ≠ k)

/-- What the children of a parent may hold together (R410). -/
def budgetsOk (p : Part) (kids : List Part) : Bool :=
  let total (f : Part → Nat) : Nat := (kids.map f).sum
  (List.range 4).all (fun d => total (fun k => (k.l2occ[d]?).getD 0) ≤ (p.l2occ[d]?).getD 0 &&
    total (fun k => (k.chan[d]?).getD 0) ≤ (p.chan[d]?).getD 0) &&
  total (·.fab) ≤ p.fab && total (·.tbudNext) ≤ p.tbudNext && total (·.frMax) ≤ p.frMax && kids.all (fun k => k.scrMax ≤ p.scrMax)

/-- Whether the cores of a list of partitions are disjoint. -/
def coresDisjoint : List Part → Bool
  | [] => true
  | p :: ps => ps.all (fun q => p.cores &&& q.cores = 0) && coresDisjoint ps

/-- The frames a partition holds. -/
def State.framesOf (s : State) (p : Nat) : Nat := (s.frames.filter (fun f => f.2.st = 1 && f.2.owner = p)).length

/-- The clusters of a partition's launches. -/
def State.partClusters (s : State) (k : Nat) : List (Nat × Cluster) :=
  s.clusters.filter (fun c => c.2.live && (s.launch c.2.launch).part = k)

/-- Whether a number holds what only a leaf may hold: frames, bound functions, the host context, teams (R408). -/
def State.holdsWork (s : State) (k : Nat) : Bool :=
  s.framesOf k ≠ 0 || s.fnsOf k ≠ [] || (s.hostPart.getLsbD 63 && bitsOf s.hostPart.toNat 5 0 = k) || s.partClusters k ≠ []

/-- R408 and R410 for a descriptor of number k. Frames of a die that a leaf leaves are kept. (DESIGN CHOICE, log 164.) -/
def State.limitsOk (s : State) (k : Nat) (p : Part) : Bool :=
  let all := s.partsWith k p
  let kidsOf (n : Nat) : List Part := (all.filter (fun q => q.2.parent = n)).map (·.2)
  let nest : Bool := p.parent = 0xff ||
    all.any (fun q => q.1 = p.parent && q.1 ≠ k && q.2.parent = 0xff &&
      budgetsOk q.2 (kidsOf q.1) && coresDisjoint (kidsOf q.1) && p.cores &&& q.2.cores = p.cores && !s.holdsWork q.1)
  let kids := kidsOf k
  let guar (d : Nat) : Nat := ((all.filter (fun q => q.2.guar && kidsOf q.1 = [])).map (fun q => (q.2.l2occ[d]?).getD 0)).sum
  p.coreList.all (fun c => !(s.coreRec c).fenced) && nest && coresDisjoint (kidsOf 0xff) && budgetsOk' p kids && coresDisjoint kids && kids.all (fun q => q.cores &&& p.cores = q.cores) &&
  (kids = [] || p.parent = 0xff) && p.coreList ≠ [] && (kids ≠ [] || p.extentOk) &&
  (List.range 4).all (fun d => guar d ≤ 128) && p.tbudNext ≤ p.coreList.length * p.periodNext &&
  s.framesOf k ≤ p.frMax && ((s.fnsOf k).map (fun v => (s.fn v).budgetNext)).sum ≤ p.tbudNext
where
  budgetsOk' (p : Part) (kids : List Part) : Bool := kids = [] || budgetsOk p kids

/-- Descriptor k as the hub reads it by system address; none while a hold on its line is being published. -/
def State.readDesc (s : State) (k : Nat) : Option (List Byte) × State := s.hubRead (s.pctBase.toNat + 64 * k) 64

/-- A command that reads its descriptor: the code it fails with, else its effect. -/
def State.withDesc (s : State) (k : Nat) (ok : Bool) (eff : Part → State → State) : State :=
  if !ok then s.pcEnd pcState
  else
    match s.readDesc k with
    | (none, s) => s
    | (some l, s) =>
      if !partDescOk l then s.pcEnd pcField
      else if !s.limitsOk k (partOfDesc l) then s.pcEnd pcLimit
      else (eff (partOfDesc l) s).pcEnd pcOk

/-- The address of the descriptor of the command names memory. -/
def State.descFault (s : State) (op : Nat) : Option Nat :=
  let a := s.pctBase.toNat + 64 * s.pcPart
  if s.pcBusy && s.pcOp = op && !spaOk a then some a else none

/-! ### CREATE, START, STOP, UPDATE, DESTROY -/

/-- (DEDUCED, log 103.) -/
def execCreate (s : State) : Host.Outcome State Fault Refusal :=
  match s.descFault 1 with
  | some a => .fault (.noMemory a)
  | none => .next (s.onCommand 1 (fun k s => s.withDesc k ((s.part k).state = .unused) (fun p s =>
      { s.setPart k { p with state := .stopped, key := s.nextKey } with nextKey := s.nextKey + 1 })))

def execStart (s : State) : Host.Outcome State Fault Refusal :=
  .next (s.onCommand 2 (fun k s =>
    if !((s.part k).state = .stopped && s.isLeaf k) then s.pcEnd pcState
    else
      let s := s.modPart k (fun p => { p with state := .running, periodStart := s.tick, period := p.periodNext, tbud := p.tbudNext })
      let s := (s.fnsOf k).foldl (fun s v => (s.modFn v (fun r => { r with
        budget := r.budgetNext, balance := r.budgetNext })).loadContext v) s
      s.pcEnd pcOk))

/-- STOP: the clusters halt; once all are saved or held the contexts are unloaded (R399, R412). -/
def execStop (s : State) : Host.Outcome State Fault Refusal :=
  .next (s.onCommand 3 (fun k s =>
    if (s.part k).state ≠ .running then s.pcEnd pcState
    else if s.pcStage = 0 then
      { (s.partClusters k).foldl (fun s c => s.requestHalt c.1 false) s with pcStage := 1 }
    else
      let s := (s.partClusters k).foldl (fun s c => s.requestHalt c.1 false) s
      if (s.partClusters k).any (fun c => c.2.halt ≠ .saved && c.2.halt ≠ .held) then s
      else
        let s := (s.fnsOf k).foldl (fun s v => s.modFn v (fun r => { r with loaded := false })) s
        (s.modPart k (fun p => { p with state := .stopped })).pcEnd pcOk))

/-- UPDATE: what takes effect at once, and what waits for the period boundary (R418). (DEDUCED, log 100.) -/
def Part.updated (old new : Part) : Part :=
  let idle : Bool := old.state ≠ .running
  { new with
    state := old.state, key := old.key, periodStart := old.periodStart
    period := if idle then new.period else old.period, tbud := if idle then new.tbud else old.tbud }

def execUpdate (s : State) : Host.Outcome State Fault Refusal :=
  match s.descFault 4 with
  | some a => .fault (.noMemory a)
  | none => .next (s.onCommand 4 (fun k s => s.withDesc k ((s.part k).state ≠ .unused) (fun p s =>
      let gone := (s.part k).coreList.filter (fun c => !p.hasCore c)
      let s := s.modPart k (fun old => old.updated p)
      (s.partClusters k).foldl (fun s c => if c.2.cores.any (· ∈ gone) then s.requestHalt c.1 false else s) s)))

/-- Whether a number has children. -/
def State.hasKids (s : State) (k : Nat) : Bool := s.parts.any (fun c => c.2.state ≠ .unused && c.2.parent = k)

def execDestroy (s : State) : Host.Outcome State Fault Refusal :=
  .next (s.onCommand 5 (fun k s =>
    let ok : Bool := (s.part k).state = .stopped && !s.hasKids k && s.framesOf k = 0 && s.fnsOf k = [] &&
      s.exports.all (fun e => !(e.2.live && e.2.part = k))
    if !ok then s.pcEnd pcState
    else ({ s.setPart k Part.reset with imports := s.imports.filter (fun i => i.2.part ≠ k) }).pcEnd pcOk))

/-! ### Frames (R419 to R421) -/

/-- The frames of a command's range; none where its arguments are not as R412 requires. -/
def State.pcFrames (s : State) (k : Nat) : Option (Nat × Nat) :=
  let a := s.pcarg0.toNat
  let n := s.pcarg1.toNat
  if s.isLeaf k && a % 65536 = 0 && 1 ≤ n then some (a / 65536, n) else none

/-- The dies of a partition's logical device (R21). -/
def Part.dies (p : Part) : List Nat := if p.pair then [p.firstDie, p.firstDie + 1] else [p.firstDie]

/-- Bytes of a range of frames read as zero, without poison. -/
def State.zeroFrames (s : State) (f n : Nat) : State :=
  let inside (a : Nat) : Bool := f ≤ frameOf a && frameOf a < f + n
  { s with
    mem := s.mem.filter (fun p => !inside p.1), poison := s.poison.filter (fun p => !inside (64 * p.1))
    pend := s.pend.map (fun (p : Nat × Pend) => (p.1, { p.2 with cells := p.2.cells.filter (fun c => !inside c.1) })) }

def State.setFrames (s : State) (f n : Nat) (v : Frame) : State :=
  { s with frames := FMap.fill s.frames ((List.range n).map (f + ·)) v }

def execAssign (s : State) : Host.Outcome State Fault Refusal :=
  .next (s.onCommand 6 (fun k s =>
    match s.pcFrames k with
    | none => s.pcEnd pcState
    | some (f, n) =>
      let p := s.part k
      let free : Bool := f + n ≤ 2 ^ 23 && (List.range n).all (fun i =>
        (s.frame (f + i)).st = 0 && spaDie ((f + i) * 65536) ∈ p.dies)
      if !free || p.frMax < s.framesOf k + n then s.pcEnd pcFrame
      else (((s.zeroFrames f n).setFrames f n { st := 1, owner := k })).pcEnd pcOk))

/-- FREE, first part: the frames become SCRUB, what resolves to them is removed, narrow holds on them are forced (R421). -/
def execFree (s : State) : Host.Outcome State Fault Refusal :=
  .next (s.onCommand 7 (fun k s =>
    if s.pcStage ≠ 0 then s
    else
      match s.pcFrames k with
      | none => s.pcEnd pcState
      | some (f, n) =>
        if !(f + n ≤ 2 ^ 23 && (List.range n).all (fun i => s.frameOwned (f + i) k)) then s.pcEnd pcFrame
        else
          let s := s.setFrames f n { st := 2, owner := k }
          let s := s.tlbDrop (fun _ _ x => !x.host && x.out < (f + n) * 65536 && f * 65536 < x.out + 2 ^ x.pbits)
          let s := (s.walkDrop (fun _ => true) (fun p _ => p = k)).slowBts (fun g gr => gr.live && s.partOf g = k) 0 (2 ^ 48)
          let s := s.sb.foldl (fun s e =>
            if e.2.hold ≠ 0 && f ≤ frameOf (1024 * e.2.line) && frameOf (1024 * e.2.line) < f + n then s.forceTeam e.2.team else s) s
          { s with pcStage := 1 + f * 2 ^ 24 + n }))

/-- Whether an access to a range of frames has not performed. -/
def State.framesBusy (s : State) (f n : Nat) : Bool :=
  let inside (a : Nat) : Bool := f ≤ frameOf a && frameOf a < f + n
  s.sb.any (fun e => e.2.target = 0 && inside (1024 * e.2.line)) ||
  s.acc.any (fun a => a.2.place = .hbm && (inside a.2.addr || a.2.data.any (fun c => inside c.1))) ||
  s.pend.any (fun p => s.tick < p.2.v && p.2.cells.any (fun c => inside c.1)) ||
  s.ops.any (fun o => o.2.live && o.2.kind = .crest && o.2.arg.any inside) ||
  s.groups.any (fun g => g.2.regionStores.any (fun r => r.1 = 0 && r.2.2.1.any (fun c => inside c.1)))

/-- FREE, second part: once every access has performed, copies are dropped, the memory is zero, the frames are FREE. -/
def execFreeScrub (s : State) : Host.Outcome State Fault Refusal :=
  .next (s.onCommand 7 (fun _ s =>
    let f := (s.pcStage - 1) / 2 ^ 24
    let n := (s.pcStage - 1) % 2 ^ 24
    if s.pcStage = 0 || s.framesBusy f n then s
    else
      let inside (a : Nat) : Bool := f ≤ frameOf a && frameOf a < f + n
      let s := { s with
        leases := s.leases.filter (fun p => !inside (256 * (p.1 % 2 ^ 32)))
        dies := s.dies.map (fun (d : Nat × DieRec) => (d.1, { d.2 with
          lichen := d.2.lichen.filter (fun p => !inside (1024 * p.2.line))
          l2 := (d.2.l2.map (fun (p : Nat × List L2Line) => (p.1, p.2.filter (fun (l : L2Line) => !inside (1024 * l.line))))).filter
            (fun p => p.2 ≠ []) })) }
      (((s.zeroFrames f n).setFrames f n default)).pcEnd pcOk))

/-! ### Exports and imports (R118, R119, R412) -/

/-- The logical device of a partition as a handle names it (R118). -/
def Part.device (p : Part) : Nat := if p.pair then 4 + p.firstDie / 2 else p.firstDie

def mkHandle (node device serial size : Nat) : DWord := BitVec.ofNat 64 (node * 2 ^ 52 + device * 2 ^ 48 + serial * 2 ^ 24 + size)

def execExportMem (s : State) : Host.Outcome State Fault Refusal :=
  .next (s.onCommand 8 (fun k s =>
    let gpa := s.pcarg0.toNat
    let n := s.pcarg1.toNat
    if !(s.isLeaf k && gpa % 65536 = 0 && 1 ≤ n && n < 2 ^ 24 && s.nextSerial < 2 ^ 24) then s.pcEnd pcState
    else
      let h := mkHandle (s.ras.fabNode.toNat % 4096) (s.part k).device s.nextSerial n
      ({ s with
        exports := FMap.set s.exports s.nextSerial { (default : Export) with live := true, part := k, gpa, size := n * 65536, handle := h }
        nextSerial := s.nextSerial + 1, pcarg0 := h }).pcEnd pcOk))

/-- Whether a handle may be imported: one of another package, or of an export that stands here. -/
def State.handleOk (s : State) (h : DWord) : Bool :=
  handleNode h ≠ s.ras.fabNode.toNat % 4096 ||
  (let e := FMap.get s.exports (handleSerial h); e.live && !e.revoked && e.handle = h)

/-- The accesses in flight when a mapping changed: the command waits for them. -/
def State.oldAccesses (s : State) (mark : Nat) : Bool :=
  s.acc.any (fun a => a.1 < mark) || s.sb.any (fun e => e.1 < mark && e.2.target = 2)

/-- A mapping command: its check and change at once, its end when every access under way has performed. (DEDUCED, log 102.) -/
def State.mapCommand (s : State) (code : Nat) (eff : State → State) : State :=
  if s.pcStage = 0 then (if code ≠ pcOk then s.pcEnd code else { eff s with pcStage := s.nextId + 1 })
  else if s.oldAccesses (s.pcStage - 1) then s
  else s.pcEnd pcOk

/-- The window offset of PCARG1. -/
def State.pcWindow (s : State) : Nat := bitsOf s.pcarg1.toNat 39 16 * 65536

/-- (DEDUCED, log 101.) -/
def execImportMem (s : State) : Host.Outcome State Fault Refusal :=
  .next (s.onCommand 9 (fun k s =>
    let woff := s.pcWindow
    let part0 := bitsOf s.pcarg2.toNat 23 0 * 65536
    let size := bitsOf s.pcarg2.toNat 47 24 * 65536
    let h := s.pcarg0
    let mine : List (Nat × Import) := s.imports.filter (fun i => i.2.live && (s.part i.2.part).device = (s.part k).device)
    let clear (i : Import) : Bool := i.part ≠ k || i.woff + i.size ≤ woff || woff + size ≤ i.woff
    let code : Nat :=
      if !onlyBits s.pcarg1 [(39, 16), (0, 0)] || !onlyBits s.pcarg2 [(47, 0)] then pcField
      else if !(s.isLeaf k && s.handleOk h && 65536 ≤ size && part0 + size ≤ bitsOf h.toNat 23 0 * 65536 && woff + size ≤ 2 ^ 40) then
        pcState
      else if 4096 ≤ (mine.filter (fun i => clear i.2)).length then pcLimit
      else pcOk
    s.mapCommand code (fun s =>
      let i : Import := { live := true, part := k, woff, size, ro := s.pcarg1.getLsbD 0, handle := h, part0, revoked := false, moved := false }
      { s with imports := FMap.set (s.imports.filter (fun p => clear p.2)) (k * 2 ^ 24 + woff / 65536) i })))

def execRevoke (s : State) : Host.Outcome State Fault Refusal :=
  .next (s.onCommand 10 (fun k s =>
    let h := s.pcarg0
    let n := handleSerial h
    let e := FMap.get s.exports n
    s.mapCommand (if e.live && e.part = k && e.handle = h && !e.revoked then pcOk else pcState) (fun s =>
      { s with
        exports := FMap.set s.exports n { e with live := false, revoked := true }
        imports := s.imports.map (fun (i : Nat × Import) => if i.2.handle = h then (i.1, { i.2 with revoked := true }) else i) })))

def execUnmap (s : State) : Host.Outcome State Fault Refusal :=
  .next (s.onCommand 11 (fun k s =>
    let key := k * 2 ^ 24 + s.pcWindow / 65536
    let there : Bool := (FMap.get s.imports key).live
    let code : Nat := if !onlyBits s.pcarg1 [(39, 16), (0, 0)] then pcField else if there then pcOk else pcState
    s.mapCommand code (fun s => { s with imports := FMap.del s.imports key })))

end Sys2Proof.Machine
end

