-- ==== Sys2Proof/Machine/Migration.lean ====
section
/-!
DEFINITION. Live migration (R422 to R435): this hub as source or destination. What the other package sends is the inbox,
what it is sent the outbox. At the source a page is ABSENT while it is not CLEAN, FROZEN in its hand-over, then GONE.
-/
namespace Sys2Proof.Machine
open Sys2Proof

/-- This package's leaf of the migration (R422). -/
def State.migLeaf (s : State) : Nat := bitsOf s.mig.peer.toNat 23 18

def State.modMig (s : State) (f : Migration → Migration) : State := { s with mig := f s.mig }

/-! ### Agreement at PREPARE (R423, R425) -/

/-- The pages a stage-2 tree maps below a table, with R and W. -/
def State.s2Tree (s : State) : Nat → Nat → Nat → Nat → List (Nat × Bool × Bool)
  | 0, _, _, _ => []
  | fuel + 1, level, table, gpa =>
    (List.range (2 ^ levelBits level)).flatMap (fun i =>
      let e := s.readEntry (table + 8 * i)
      let a := gpa + i * 2 ^ levelShift level
      if !entryOk true level e then []
      else if bitOf e 1 then s.s2Tree fuel (level + 1) (entryAddr e) a
      else (List.range (2 ^ (levelShift level - 16))).map (fun k => (a / 65536 + k, bitOf e 2, bitOf e 3)))

def State.s2Pages (s : State) (part : Nat) : List (Nat × Bool × Bool) := s.s2Tree 4 0 (s.part part).s2root 0

/-- The system address of a guest page of a leaf. -/
def State.pageSpa (s : State) (part page : Nat) : Option Nat :=
  (s.leafEntry2 part (page * 65536)).map (fun l => l.base + page * 65536 % 2 ^ l.bits)

/-- Whether a page of the other package's tree stands in this leaf's, with the same permissions, on a frame of the leaf. -/
def State.sameMap (s : State) (part : Nat) (p : Nat × Bool × Bool) : Bool :=
  match s.leafEntry2 part (p.1 * 65536), s.pageSpa part p.1 with
  | some l, some spa => l.r = p.2.1 && l.w = p.2.2 && s.frameOwned (frameOf spa) part
  | _, _ => false

/-- Whether the shapes of a leaf's launches fit on the other package's cores. -/
def State.shapesFit (s : State) (part : Nat) (p : PeerLeaf) : Bool :=
  let q : Part := { (default : Part) with cores := p.cores, pair := p.pair }
  s.launches.all (fun l => l.2.part ≠ part || l.2.state ∉ [LaunchState.active, .halted, .killing] ||
    (q.rects l.2.rows l.2.cols).any (fun r => r.all q.hasCore))

/-- The code of a PREPARE (R425), 0 where the packages agree. (DEDUCED, log 106.) -/
def State.prepareCode (s : State) (p : PeerLeaf) : Nat :=
  let leaf := s.migLeaf
  let own := s.part leaf
  if !p.accepts || (if s.migDest then own.state ≠ .stopped else !p.stopped) then 1
  else if p.pair ≠ own.pair || (!s.migDest && !s.shapesFit leaf p) then 2
  else if p.vfs ≠ (s.fnsOf leaf).length then 4
  else if !(if s.migDest then p.s2map.all (s.sameMap leaf) else (s.s2Pages leaf).all (· ∈ p.s2map)) then 3
  else 0

/-- PREPARE: the checks, then pre-copy starts with every page of the device still to send. -/
def execPrepare (p : PeerLeaf) (s : State) : Host.Outcome State Fault Refusal :=
  .next (if !(s.mig.cmd = 1 && s.mig.state = .idle) then s
    else
      let code := s.prepareCode p
      let pages := (if s.migDest then p.s2map else s.s2Pages s.migLeaf).map (·.1)
      if code ≠ 0 then s.modMig (fun m => { m with cmd := 0, state := .failed, code })
      else s.modMig (fun m => { m with
        cmd := 0, state := .prepare, code := 0, pages := FMap.fill [] pages .absent, pulls := [], home := [], stash := [], outbox := []
        heldAtomics := [], forwarded := [] }))

/-- The other package has not answered within 10 ms (R425). -/
def execPeerTimeout (s : State) : Host.Outcome State Fault Refusal :=
  .next (if s.mig.cmd = 1 && s.mig.state = .idle && s.mig.cmdAt + 10000000 ≤ s.tick then
    s.modMig (fun m => { m with cmd := 0, state := .failed, code := 1 }) else s)

/-! ### Pages at the source (R429, R433) -/

/-- The bytes of a frame that are not zero, by offset, and its poisoned granules. -/
def State.frameCells (s : State) (spa : Nat) : List Host.Cell :=
  ((List.range 65536).map (fun i => (i, s.homeByte (fun _ => true) (spa + i)))).filter (fun c => c.2 ≠ 0)
def State.framePoison (s : State) (spa : Nat) : List Nat :=
  (List.range 1024).filter (fun i => FMap.get s.poison (spa / 64 + i))

/-- A page is sent. -/
def State.sendPage (s : State) (page spa : Nat) : State :=
  s.modMig (fun m => { m with outbox := m.outbox ++ [.page page (s.frameCells spa) (s.framePoison spa)] })

/-- Whether the D bit of the leaf entry of a page is set. -/
def State.dirty2 (s : State) (part page : Nat) : Bool := (s.leafEntry2 part (page * 65536)).any (·.d)

/-- Clean pages of a leaf entry whose D bit is set are to be sent again. (DEDUCED, log 104.) -/
def State.respread (s : State) (part page : Nat) : State :=
  match s.leafEntry2 part (page * 65536) with
  | none => s
  | some l =>
    if !l.d then s
    else
      let first := page * 65536 / 2 ^ l.bits * 2 ^ l.bits / 65536
      s.modMig (fun m => { m with pages := m.pages.map (fun (p : Nat × PageOwn) =>
        if first ≤ p.1 && p.1 < first + 2 ^ (l.bits - 16) && p.2 = PageOwn.clean then (p.1, PageOwn.absent) else p) })

/-- The pusher: in PREPARE a page's D bit is tested and cleared and the page sent, once every access to it has performed
(R433); in PULL the page is handed over (R429). (DEDUCED, log 105.) -/
def execPagePush (page : Nat) (s : State) : Host.Outcome State Fault Refusal :=
  let leaf := s.migLeaf
  .next (if s.migDest || FMap.get s.mig.pages page ≠ .absent then s
    else if s.mig.state = .prepare then
      match s.pageSpa leaf page with
      | none => s
      | some spa =>
        if s.framesBusy (frameOf spa) 1 then s
        else
          let s := s.respread leaf page
          let s := (s.clearD2 leaf (page * 65536) 1).dropStage2 leaf (page * 65536) 65536
          (s.sendPage page spa).modMig (fun m => { m with pages := FMap.set m.pages page .clean })
    else if s.mig.state = .pull then s.modMig (fun m => { m with pages := FMap.set m.pages page .frozen })
    else s)

/-- A pull request reaches the source: the page freezes, or joins its hand-over. -/
def execPagePullRequest (page : Nat) (s : State) : Host.Outcome State Fault Refusal :=
  .next (if !s.migDest && s.mig.state = .pull && FMap.get s.mig.pages page = .absent then
    s.modMig (fun m => { m with pages := FMap.set m.pages page .frozen }) else s)

/-- After the drain the frozen page is sent, once. -/
def execPageTransfer (page : Nat) (s : State) : Host.Outcome State Fault Refusal :=
  .next (if !s.migDest && s.mig.state = .pull && FMap.get s.mig.pages page = .frozen && page ∉ s.mig.pulls then
    match s.pageSpa s.migLeaf page with
    | none => s
    | some spa => (s.sendPage page spa).modMig (fun m => { m with pulls := insertOnce page m.pulls })
  else s)

/-- An atomic performs on a guest page of this package's leaf: its old value. -/
def State.atomicHere (s : State) (f : FwdAtomic) : Nat × State :=
  match s.pageSpa s.migLeaf (f.gpa / 65536) with
  | none => (0, s)
  | some base =>
    let spa := base + f.gpa % 65536
    let a : Access := { (default : Access) with aop := f.op, ty := f.ty, cas := f.cas, operand := f.b, operand2 := f.c }
    let old := leNat ((List.range f.size).map (fun i => s.homeByte (fun _ => true) (spa + i)))
    match a.newVal old with
    | none => (old, s)
    | some v =>
      let (id, s) := ((s.recall 4 (lineOf spa)).unshare (lineOf spa)).fresh
      (old, s.arrive id (lineOf spa) { (default : Pend) with cells := cellsOf spa f.size v, homeDie := spaDie spa })

/-- A forwarded atomic reaches the source (R428, R429): it performs, is held while its page is frozen, or goes back once
the page is gone. -/
def execForwardedAtomic (f : FwdAtomic) (s : State) : Host.Outcome State Fault Refusal :=
  .next (if s.migDest || s.mig.state ≠ .pull then s
    else
      match FMap.get s.mig.pages (f.gpa / 65536) with
      | .absent =>
        let (old, s) := s.atomicHere f
        s.modMig (fun m => { m with outbox := m.outbox ++ [.atomicResult f.tok old] })
      | .frozen => s.modMig (fun m => { m with heldAtomics := m.heldAtomics ++ [f] })
      | _ => s.modMig (fun m => { m with outbox := m.outbox ++ [.heldAtomics [f]] }))

/-! ### The end of a forwarded atomic at the destination (R428, R429) -/

/-- The answer to a forwarded atomic: its old value arrives. -/
def State.atomicAnswer (s : State) (tok old : Nat) : State :=
  let s := s.modMig (fun m => { m with forwarded := m.forwarded.filter (fun f => f.tok ≠ tok) })
  let a := s.accOf tok
  if a.live then (s.giveAtom tok a old).noteArrival tok 0 else s

/-- Atomics that the source held perform here, in order. -/
def State.performHeld (s : State) (l : List FwdAtomic) : State :=
  l.foldl (fun s f => let (old, s) := s.atomicHere f; s.atomicAnswer f.tok old) s

/-! ### Pages at the destination -/

/-- A page that arrived is laid down in its frame. -/
def State.layPage (s : State) (page : Nat) (cells : List Host.Cell) (poison : List Nat) : State :=
  match s.pageSpa s.migLeaf page with
  | none => s
  | some spa =>
    let s := s.zeroFrames (frameOf spa) 1
    { s with
      mem := FMap.setMany s.mem (cells.map (fun c => (spa + c.1, c.2)))
      poison := FMap.fill s.poison (poison.map (spa / 64 + ·)) true }

/-- DONE once no page is left to move (R424). -/
def State.migSettle (s : State) : State :=
  if s.mig.state = .pull && s.migPages = 0 then s.modMig (fun m => { m with state := .done }) else s

/-- The flip (R429): at the destination the page that has arrived is OWNED and the atomics held for it perform; at the
source the page is GONE and its held atomics go back. (DEDUCED, log 112.) -/
def execPageFlip (page : Nat) (s : State) : Host.Outcome State Fault Refusal :=
  .next (if s.mig.state ≠ .pull then s
    else if s.migDest then
      match s.mig.inbox with
      | .page n cells poison :: .heldAtomics l :: rest =>
        if n ≠ page || FMap.get s.mig.pages page ≠ .absent then s
        else
          let s := s.layPage page cells poison
          let s := s.modMig (fun m => { m with
            inbox := rest, pages := FMap.set m.pages page .owned, pulls := m.pulls.filter (· ≠ page) })
          (s.performHeld l).migSettle
      | _ => s
    else if FMap.get s.mig.pages page = .frozen && page ∈ s.mig.pulls then
      let mine := s.mig.heldAtomics.filter (fun f => f.gpa / 65536 = page)
      (s.modMig (fun m => { m with
        pages := FMap.set m.pages page .gone, pulls := m.pulls.filter (· ≠ page)
        heldAtomics := m.heldAtomics.filter (fun f => f.gpa / 65536 ≠ page)
        outbox := m.outbox ++ [.heldAtomics mine] })).migSettle
    else s)

/-! ### HALT and SHIP at the source (R424, R426) -/

/-- The launches of a leaf that are not over. -/
def State.launchesOf (s : State) (part : Nat) : List Nat :=
  (s.launches.filter (fun l => l.2.part = part && l.2.state ∈ [LaunchState.active, .halted, .killing])).map (·.1)

/-- Teams and groups of a leaf. -/
def State.teamsOf (s : State) (part : Nat) : List Nat :=
  (s.partClusters part).flatMap (fun c => c.2.teams.filter (fun t => (s.team t).live))
def State.groupsOf (s : State) (part : Nat) : List Nat := (s.teamsOf part).flatMap (fun t => (s.team t).groups)

/-- Kinds of operations that a queue owns. -/
def OpKind.ofQueue (k : OpKind) : Bool := k ∈ [OpKind.hubCopy, .hubStore, .hubHalt]

/-- The operations of a leaf's groups and queues. -/
def State.opsOf (s : State) (part : Nat) : List (Nat × Op) :=
  let fns := s.fnsOf part
  let grps := s.groupsOf part
  s.ops.filter (fun o => o.2.live && (if o.2.kind.ofQueue then ((o.2.arg.head?).any (· ∈ fns)) else o.2.grp ∈ grps))

/-- Whether every store to the leaf's frames, and every access of its groups, is done. -/
def State.leafQuiet (s : State) (part : Nat) : Bool :=
  let mine (a : Nat) : Bool := (s.frame (frameOf a)).owner = part
  s.acc.all (fun a => !(a.2.place = .hbm && (mine a.2.addr || a.2.data.any (fun c => mine c.1))) && a.2.hubFn = 0 &&
    (a.2.grp = 0 || s.partOf a.2.grp ≠ part)) &&
  s.sb.all (fun e => s.partClusters part |>.all (fun c => e.2.team ∉ c.2.teams)) &&
  s.pend.all (fun p => p.2.v + 2 ≤ s.tick || p.2.cells.all (fun c => !mine c.1))

/-- A die's phase number as a leaf's device counts it. -/
def State.devicePhase (s : State) (part d : Nat) : Nat :=
  ((s.die d).oph + FMap.get (s.fn (((s.fnsOf part).head?).getD 256)).phOff d).toNat

/-- Everything that ships, in the order of R426. -/
def State.shipment (s : State) (part : Nat) (dirty : List Nat) : List ShipItem :=
  let fns := s.fnsOf part
  let las := s.launchesOf part
  let cls := s.partClusters part
  let teams := s.teamsOf part
  fns.flatMap (fun v => ((List.range 64).filter (fun q => (s.queue v q).loaded)).map (fun q => .queue (qKey v q) (s.queue v q))) ++
  las.map (fun l => .launch l (s.launch l)) ++ cls.map (fun c => .cluster c.1 c.2) ++
  (s.bonds.filter (fun b => cls.any (fun c => c.1 = b.2.cluster))).map (fun b => .bond b.1 b.2) ++
  teams.flatMap (fun t => .team t (s.team t) :: (s.team t).groups.map (fun g => .group g (s.grp g))) ++
  (s.opsOf part).map (fun o => .op o.1 o.2) ++
  (teams.filter (fun t => (s.team t).msmRows ≠ 0)).map (fun t => .matrix t (s.matrixOf (savedMatrix t))) ++
  [.pages dirty, .imports (s.imports.filter (fun i => i.2.live && i.2.part = part)),
   .exports (s.exports.filter (fun e => e.2.live && e.2.part = part))] ++
  fns.map (fun v => .fn v (s.fn v)) ++
  [.phases ((List.range 4).map (s.devicePhase part)), .tick s.tick, .last]

/-- Exports of a leaf freeze or thaw (R431). -/
def State.freezeExports (s : State) (part : Nat) (b : Bool) : State :=
  { s with exports := s.exports.map (fun (e : Nat × Export) => if e.2.part = part then (e.1, { e.2 with frozen := b }) else e) }

/-- HALT at the source: the clusters halt and the exports freeze; once all are saved and every store is published, the
items are sent and p is STOPPED. -/
def execMigrationHalt (s : State) : Host.Outcome State Fault Refusal :=
  let p := s.migLeaf
  let halt (s : State) : State := (s.partClusters p).foldl (fun s c => s.requestHalt c.1 false) s
  .next (if s.migDest then s
    else if s.mig.state = .prepare && s.mig.cmd = 2 then
      ((halt s).freezeExports p true).modMig (fun m => { m with cmd := 0, state := .halt })
    else if s.mig.state ≠ .halt then s
    else
      let s := halt s
      if (s.partClusters p).any (fun c => c.2.halt ≠ .saved) || !s.leafQuiet p then s
      else
        let s := s.modMig (fun m => { m with pages := m.pages.map (fun (q : Nat × PageOwn) =>
          if q.2 = PageOwn.clean && s.dirty2 p q.1 then (q.1, PageOwn.absent) else q) })
        let dirty := (s.mig.pages.filter (fun q => q.2 = .absent)).map (·.1)
        let items := s.shipment p dirty
        let s := (s.fnsOf p).foldl (fun s v => s.modFn v (fun r => { r with loaded := false })) s
        (s.modPart p (fun q => { q with state := .stopped })).modMig (fun m => { m with
          state := .ship, outbox := m.outbox ++ items }))

/-! ### Objects of the device at the destination (R427)

Objects keep their numbers, moved up by a base beyond every number in use here. -/

structure Renum where
  base : Nat
  part : Nat
  fns : List (Nat × Nat)
  shift : Int

def Renum.id (r : Renum) (n : Nat) : Nat := if n = 0 then 0 else n + r.base
def Renum.fn (r : Renum) (v : Nat) : Nat := ((r.fns.find? (fun p => p.1 = v)).map (·.2)).getD v
/-- A tick of the source as this package counts it. -/
def Renum.time (r : Renum) (t : Nat) : Nat := ((t : Int) + r.shift).toNat
def Renum.mark (r : Renum) (m : Nat) : Nat := if m = 0 then 0 else m + 8 * r.base
def Renum.bond (r : Renum) (k : Nat) : Nat := if k = 0 then 0 else r.id (k / 2 ^ 15) * 2 ^ 15 + k % 2 ^ 15
def Renum.bin (r : Renum) (b : Bin) : Bin := { b with firstAt := r.time b.firstAt }

def Renum.group (r : Renum) (g : Group) : Group :=
  { g with
    team := r.id g.team, vf := r.fn g.vf, moved := 7, replayOp := r.id g.replayOp
    bts := g.bts.map (fun (b : Nat × BtReg) => (b.1, { b.2 with limit := 0 }))
    wait := { g.wait with deadline := r.time g.wait.deadline, due := 0, lines := [], again := g.wait.live }
    fence := { g.fence with loads := [], stores := [], vmax := 0, phases := [] }
    notReady := g.notReady.map (fun (p : Nat × Nat) => (p.1, r.mark p.2))
    clobber := g.clobber.map (fun (p : Nat × Nat) => (p.1, r.mark p.2))
    held := false, heldWalk := [], heldAts := [], walked := [], refused := [], fwd := [], after := 0 }

def Renum.claim (r : Renum) (c : Nat × Nat × Nat × Nat) : Nat × Nat × Nat × Nat := (r.id c.1, c.2)

def Renum.op (r : Renum) (o : Op) : Op :=
  let arg := if o.kind.ofQueue then (match o.arg with | v :: t => r.fn v :: t | [] => []) else if o.kind = .sdot then o.arg.set 8 8 else o.arg
  { o with grp := r.id o.grp, team := r.id o.team, resv := o.resv.map r.claim, waitOn := if o.kind = .hubHalt || (o.kind = .hubStore && o.stage = 1) then o.waitOn.map r.id else []
           res := if o.kind = .hubStore then o.res.map (fun (p : Nat × Nat) => (r.id p.1, p.2)) else o.res
           ptr := 0, arg }

def Renum.matrix (r : Renum) (m : Matrix) : Matrix :=
  { m with team := r.id m.team, queue := m.queue.map (fun e => { e with grp := r.id e.grp, op := r.id e.op, bond := r.bond e.bond, jid := r.id e.jid }) }

/-- One item takes its place. (DESIGN CHOICE, log 108.) -/
def State.placeItem (s : State) (r : Renum) (i : ShipItem) : State :=
  match i with
  | .fn v f => s.modFn (r.fn v) (fun o => { o with
      demote := f.demote, s1root := f.s1root, dlbase := f.dlbase, dlcfg := f.dlcfg, dlwidx := f.dlwidx, dlridx := f.dlridx
      rlbase := f.rlbase, rlcfg := f.rlcfg, rlwidx := f.rlwidx, rlridx := f.rlridx, qtbase := f.qtbase, qtctl := f.qtctl
      qfault := f.qfault, fq := f.fq, turns := f.turns, tickOff := f.tickOff - r.shift, loaded := true })
  | .queue key q => s.setQueue (r.fn (key / 64)) (key % 64) { q with
      bins := q.bins.map (fun (b : Nat × Bin) => (b.1, r.bin b.2)), due := s.tick, lines := [], wsDue := s.tick, wsLines := [] }
  | .launch id l => s.setLaunch (r.id id) { l with
      fn := r.fn l.fn, part := r.part, bins := l.bins.map (fun (b : Nat × Bin) => (b.1, r.bin b.2)) }
  | .cluster id c => s.setCluster (r.id id) { c with
      launch := r.id c.launch, teams := c.teams.map r.id, placedAt := s.tick
      insts := c.insts.map (fun (k : Nat × MeshInst) => (k.1, { k.2 with ops := k.2.ops.map (fun (p : Nat × Nat) => (p.1, r.id p.2)) })) }
  | .team id t => s.setTeam (r.id id) { t with
      cluster := r.id t.cluster, groups := t.groups.map r.id, retired := t.retired.map r.id
      claimants := t.claimants.map (fun p => (r.id p.1, p.2)), forceLines := [], pubs := [], retPhase := 0 }
  | .group id g => s.setGrp (r.id id) (r.group g)
  | .op id o => s.setOp (r.id id) (r.op o)
  | .bond key b => { s with bonds := FMap.set s.bonds (r.bond key) { b with cluster := r.id b.cluster, ready := (0, 0) } }
  | .matrix t m => s.setCore (savedMatrix (r.id t)) { (default : CoreRec) with matrix := r.matrix m }
  | .pages dirty => s.modMig (fun m => { m with pages := m.pages.map (fun (p : Nat × PageOwn) =>
      (p.1, if p.1 ∈ dirty then PageOwn.absent else PageOwn.owned)) })
  | .imports l => l.foldl (fun s p =>
      let i := p.2
      { s with imports := FMap.set s.imports (r.part * 2 ^ 24 + i.woff / 65536) { i with
          part := r.part, revoked := i.revoked || !s.handleOk i.handle } }) s
  | .phases l => (s.fnsOf r.part).foldl (fun s v => (l.zipIdx).foldl (fun s p =>
      let low := ((List.range 4).filter (· ≠ p.2)).foldl (fun (m : BitVec 32) h =>
        let c := FMap.get (s.die h).cph p.2
        if phaseLe m.toNat c.toNat then m else c) ((s.die p.2).oph - 1)
      s.modFn v (fun f => { f with phOff := FMap.set f.phOff p.2 (BitVec.ofNat 32 p.1 - 1 - low) })) s) s
  | _ => s

/-- The largest number an item uses. -/
def ShipItem.top : ShipItem → Nat
  | .launch id _ => id
  | .cluster id _ => id
  | .team id _ => id
  | .group id _ => id
  | .op id _ => id
  | .matrix _ m => m.queue.foldl (fun n e => max n e.jid) 0
  | _ => 0

/-- The device's exports become exports of the leaf here, with new handles (R432): the pairs. -/
def State.reexport (s : State) (part : Nat) (l : List (Nat × Export)) : List (Nat × Nat) × State :=
  l.foldl (fun (acc : List (Nat × Nat) × State) p =>
    let (pairs, s) := acc
    let h := mkHandle (s.ras.fabNode.toNat % 4096) (s.part part).device s.nextSerial (p.2.size / 65536)
    (pairs ++ [(p.2.handle.toNat, h.toNat)], { s with
      exports := FMap.set s.exports s.nextSerial { (default : Export) with live := true, part, gpa := p.2.gpa, size := p.2.size, handle := h }
      nextSerial := s.nextSerial + 1 })) ([], s)

/-- The pairs of handles are written to the migration area, ending with a zero pair. -/
def State.writePairs (s : State) (l : List (Nat × Nat)) : State :=
  s.hubStore (cellsAt s.mig.area.toNat (l.flatMap (fun p => leBytes 8 p.1 ++ leBytes 8 p.2) ++ leBytes 16 0)) 0 0

/-- The frames of the arriving device by guest page. (DEDUCED, log 109.) -/
def State.homeOf (s : State) (part : Nat) : FMap Nat :=
  FMap.setMany [] (s.mig.pages.filterMap (fun p => (s.pageSpa part p.1).map (fun spa => (frameOf spa, p.1 + 1))))

/-- The last item has come: every object takes its place, q starts, and its launches resume under R400 (R427). -/
def State.resumeHere (s : State) : State :=
  let items : List ShipItem := s.mig.stash
  let q := s.migLeaf
  let olds := sortOnce (items.filterMap (fun i => match i with
    | .fn v _ => some v
    | _ => none))
  let halt := (items.findSome? (fun i => match i with
    | .tick t => some t
    | _ => none)).getD 0
  let r : Renum := { base := s.nextId, part := q, fns := olds.zip (s.fnsOf q), shift := (s.tick : Int) - halt }
  let s := { s with nextId := s.nextId + (items.foldl (fun (n : Nat) (i : ShipItem) => max n i.top) 0) + 1 }
  let s := items.foldl (fun (s : State) (i : ShipItem) => s.placeItem r i) s
  let exps := (items.findSome? (fun i => match i with
    | .exports l => some l
    | _ => none)).getD []
  let (pairs, s) := s.reexport q exps
  let s := s.writePairs pairs
  let s := s.modPart q (fun p => { p with state := .running, periodStart := s.tick, period := p.periodNext, tbud := p.tbudNext })
  let s := (s.fnsOf q).foldl (fun (s : State) v => s.modFn v (fun f => { f with budget := f.budgetNext, balance := f.budgetNext })) s
  (s.modMig (fun m => { m with
    state := .pull, stash := [], home := s.homeOf q, outbox := m.outbox ++ [ShipItem.handles pairs, ShipItem.last] })).migSettle

/-- The destination has everything: this package drops its copy of the device, serves pulls, and forwards its peers (R424). -/
def State.leaveHere (s : State) : State :=
  let p := s.migLeaf
  let teams := s.teamsOf p
  let grps := s.groupsOf p
  let ops := (s.opsOf p).map (·.1)
  let cls := (s.partClusters p).map (·.1)
  let las := s.launchesOf p
  let s := { s with
    groups := s.groups.filter (fun g => g.1 ∉ grps), ops := s.ops.filter (fun o => o.1 ∉ ops)
    cores := s.cores.filter (fun c => teams.all (fun t => c.1 ≠ savedMatrix t))
    teams := s.teams.filter (fun t => t.1 ∉ teams), clusters := s.clusters.filter (fun c => c.1 ∉ cls)
    bonds := s.bonds.filter (fun b => b.2.cluster ∉ cls), launches := s.launches.filter (fun l => l.1 ∉ las)
    exports := s.exports.map (fun (e : Nat × Export) =>
      if e.2.part = p then (e.1, { e.2 with graceEnd := s.tick + s.mig.grace * 1000000 }) else e) }
  (s.modMig (fun m => { m with
    state := .pull, pages := m.pages.map (fun (q : Nat × PageOwn) => if q.2 = PageOwn.clean then (q.1, PageOwn.gone) else q) })).migSettle

/-- The source learns the new handles: accesses on the old ones are forwarded (R432). -/
def State.takeHandles (s : State) (l : List (Nat × Nat)) : State :=
  let s := s.writePairs l
  { s with exports := s.exports.map (fun (e : Nat × Export) =>
      match l.find? (fun p => p.1 = e.2.handle.toNat && e.2.part = s.migLeaf) with
      | some p => (e.1, { e.2 with frozen := false, moved := true, newHandle := BitVec.ofNat 64 p.2 })
      | none => e) }

/-- The next item from the other package (R426, R427). (DESIGN CHOICE, log 107.) -/
def execShipItemReceive (s : State) : Host.Outcome State Fault Refusal :=
  let drop (s : State) (rest : List ShipItem) : State := s.modMig (fun m => { m with inbox := rest })
  .next (match s.mig.inbox with
    | [] => s
    | i :: rest =>
      if !s.migDest then
        match i with
        | .handles l => if s.mig.state ∈ [MigState.ship, .pull, .done] then (drop s rest).takeHandles l else s
        | .last => if s.mig.state = .ship then (drop s rest).leaveHere else s
        | _ => drop s rest
      else
        match s.mig.state, i with
        | .prepare, .page n cells poison =>
          ((drop s rest).layPage n cells poison).modMig (fun m => { m with pages := FMap.set m.pages n .clean })
        | .ship, .last => (drop s rest).resumeHere
        | .prepare, i | .ship, i => (drop s rest).modMig (fun m => { m with state := .ship, stash := m.stash ++ [i] })
        | .pull, .page _ _ _ => s
        | _, .atomicResult tok old => (drop s rest).atomicAnswer tok old
        | _, .heldAtomics l => (drop s rest).performHeld l
        | _, _ => drop s rest)

/-! ### DONE, ABORT, grace and failure (R424, R432, R435) -/

/-- The hub returns to IDLE. -/
def State.migIdle (s : State) : State :=
  s.modMig (fun m => { m with
    state := .idle, code := 0, cmd := 0, pages := [], pulls := [], home := [], stash := [], heldAtomics := [] })

def execMigrationDone (s : State) : Host.Outcome State Fault Refusal :=
  .next (if s.mig.cmd = 3 && s.mig.state = .done then s.migIdle else s)

/-- Before RESUME the source runs p again, its saved clusters resuming under R405; the destination's q is STOPPED. -/
def State.restoreLeaf (s : State) : State :=
  let p := s.migLeaf
  if s.migDest then s.modPart p (fun q => { q with state := .stopped })
  else
    let s := (s.modPart p (fun q => { q with state := .running })).freezeExports p false
    (s.fnsOf p).foldl (fun s v => if (s.fn v).loaded then s else s.loadContext v) s

/-- The abort of a migration in a state that admits one. (DEDUCED, log 110.) -/
def State.abortMigration (s : State) : State :=
  if s.mig.state ∈ [MigState.prepare, .halt, .ship] then s.restoreLeaf.migIdle else s.migIdle

def execAbort (s : State) : Host.Outcome State Fault Refusal :=
  .next (if s.mig.cmd = 4 && s.mig.state ∈ [MigState.prepare, .halt, .ship, .failed] then s.abortMigration else s)

/-- Forwarding on old handles ends (R432). -/
def execGraceWindowExpiry (s : State) : Host.Outcome State Fault Refusal :=
  let over' (e : Export) : Bool := e.live && e.moved && e.graceEnd ≤ s.tick
  let gone := (s.exports.filter (fun e => over' e.2)).map (fun e => e.2.handle)
  .next { s with
    exports := s.exports.map (fun (e : Nat × Export) => if over' e.2 then (e.1, { e.2 with live := false }) else e)
    imports := s.imports.map (fun (i : Nat × Import) => if i.2.handle ∈ gone then (i.1, { i.2 with moved := true }) else i) }

/-- A forwarded atomic that will not be answered: its group parks with POISON beside whatever it waits for. (DEDUCED, log 111.) -/
def State.loseAtomic (s : State) (f : FwdAtomic) : State :=
  let a := s.accOf f.tok
  let o := s.op a.op
  let s := s.delAcc f.tok
  let s := if a.op ≠ 0 && o.live then s.modOp a.op (fun o => { o with waitOn := o.waitOn.filter (· ≠ f.tok) }) else s
  let gr := s.grp a.grp
  if !gr.live || gr.faulted then s
  else s.faultParkAs a.grp { plainFault 18 with lanes := 1#32 <<< a.lane, addr := BitVec.ofNat 64 f.gpa, write := true } o.off 1
    false false true false

/-- The path to the other package has failed (R435). -/
def State.linkFailure (s : State) : State :=
  let failed (s : State) : State := s.modMig (fun m => { m with state := .failed, code := 5, cmd := 0 })
  if s.mig.state ∈ [MigState.prepare, .halt, .ship] then failed s.restoreLeaf
  else if s.mig.state = .pull then
    if !s.migDest then failed s
    else
      let lost := (s.mig.pages.filter (fun p => p.2 = .absent)).map (·.1)
      let s := lost.foldl (fun s p =>
        match s.pageSpa s.migLeaf p with
        | some spa => { s with poison := FMap.fill s.poison ((List.range 1024).map (spa / 64 + ·)) true }
        | none => s) s
      let s := s.modMig (fun m => { m with
        pages := m.pages.map (fun (p : Nat × PageOwn) => if p.2 = PageOwn.absent then (p.1, PageOwn.poisoned) else p), pulls := [] })
      let s := s.mig.forwarded.foldl (fun s f => s.loseAtomic f) s
      failed (s.modMig (fun m => { m with forwarded := [] }))
  else s

def execMigrationLinkFailure (s : State) : Host.Outcome State Fault Refusal := .next s.linkFailure

end Sys2Proof.Machine
end

