-- ==== Sys2Proof/Machine/Crypto.lean ====
section
/-!
DEFINITION. SHA-512, ECDSA over P-521 and CRC-64, the standard functions that R436, R438 and R442 name without giving
their constants.
-/
namespace Sys2Proof.Machine
open Sys2Proof

/-! ### Numbers and bytes -/

/-- The number whose big-endian bytes are given. -/
def beNat (l : List Byte) : Nat := leNat l.reverse
/-- The n big-endian bytes of a number. -/
def beBytes (n v : Nat) : List Byte := (leBytes n v).reverse

/-- The greatest number below 2^72 whose k-th power is at most n. -/
def rootFloor (k n : Nat) : Nat :=
  (List.range 72).foldr (fun i acc => if (acc + 2 ^ i) ^ k ≤ n then acc + 2 ^ i else acc) 0

/-- The primes below 410: the first 80. -/
def smallPrimes : List Nat := (List.range 410).filter (fun p => 2 ≤ p && (List.range p).all (fun d => d < 2 || p % d ≠ 0))

/-! ### SHA-512 -/

/-- The round constants: the fractions of the cube roots of the first 80 primes. -/
def shaK : List DWord := smallPrimes.map (fun p => BitVec.ofNat 64 (rootFloor 3 (p * 2 ^ 192)))
/-- The initial value: the fractions of the square roots of the first 8 primes. -/
def shaH : List DWord := (smallPrimes.take 8).map (fun p => BitVec.ofNat 64 (rootFloor 2 (p * 2 ^ 128)))

/-- The message with its padding and its length in bits. -/
def shaPad (l : List Byte) : List Byte :=
  l ++ [0x80] ++ List.replicate ((239 - l.length % 128) % 128) 0 ++ beBytes 16 (8 * l.length)

/-- The 80 words of a block, newest first. -/
def shaSchedule (block : List Byte) : List DWord :=
  let w0 := (List.range 16).foldl (fun acc i => BitVec.ofNat 64 (beNat ((block.drop (8 * i)).take 8)) :: acc) []
  (List.range 64).foldl (fun (w : List DWord) _ =>
    let x (i : Nat) : DWord := (w[i]?).getD 0
    let s0 := (x 14).rotateRight 1 ^^^ (x 14).rotateRight 8 ^^^ x 14 >>> 7
    let s1 := (x 1).rotateRight 19 ^^^ (x 1).rotateRight 61 ^^^ x 1 >>> 6
    (s1 + x 6 + s0 + x 15) :: w) w0

/-- One round over the eight working variables. -/
def shaRound (v : List DWord) (kw : DWord × DWord) : List DWord :=
  match v with
  | [a, b, c, d, e, f, g, h] =>
    let s1 := e.rotateRight 14 ^^^ e.rotateRight 18 ^^^ e.rotateRight 41
    let t1 := h + s1 + ((e &&& f) ^^^ (~~~e &&& g)) + kw.1 + kw.2
    let s0 := a.rotateRight 28 ^^^ a.rotateRight 34 ^^^ a.rotateRight 39
    let t2 := s0 + ((a &&& b) ^^^ (a &&& c) ^^^ (b &&& c))
    [t1 + t2, a, b, c, d + t1, e, f, g]
  | v => v

/-- The hash value after n blocks. -/
def shaBlocks : Nat → List Byte → List DWord → List DWord
  | 0, _, h => h
  | n + 1, l, h =>
    let v := (shaK.zip (shaSchedule (l.take 128)).reverse).foldl shaRound h
    shaBlocks n (l.drop 128) (List.zipWith (· + ·) h v)

/-- SHA-512 of a message, as the number of its big-endian bytes. (PRESUMED, log 115.) -/
def sha512 (l : List Byte) : Nat :=
  let m := shaPad l
  (shaBlocks (m.length / 128) m shaH).foldl (fun acc w => acc * 2 ^ 64 + w.toNat) 0

/-! ### The curve P-521: y^2 = x^3 - 3 x + b over 2^521 - 1; `none` is the point at infinity -/

def curveP : Nat := 2 ^ 521 - 1
def curveB : Nat :=
  0x0051953eb9618e1c9a1f929a21a0b68540eea2da725b99b315f3b8b489918ef109e156193951ec7e937b1652c0bd3bb1bf073573df883d2c34f1ef451fd46b503f00
def curveN : Nat :=
  0x01fffffffffffffffffffffffffffffffffffffffffffffffffffffffffffffffffa51868783bf2f966b7fcc0148f709a5d03bb5c9b8899c47aebb6fb71e91386409
def curveGx : Nat :=
  0x00c6858e06b70404e9cd9e3ecb662395b4429c648139053fb521f828af606b4d3dbaa14b5e77efe75928fe1dc127a2ffa8de3348b3c1856a429bf97e7e31c2e5bd66
def curveGy : Nat :=
  0x011839296a789a3bc0045c8a5fb42c7d1bd998f54449579b446817afbd17273e662c97ee72995ef42640c550b9013fad0761353c7086a272c24088be94769fd16650

/-- b^e modulo m for an exponent below 2^522. -/
def powMod (m b e : Nat) : Nat :=
  (List.range 522).foldr (fun i acc => let q := acc * acc % m; if bitOf e i then q * b % m else q) 1
/-- The inverse modulo a prime. -/
def invMod (m a : Nat) : Nat := powMod m a (m - 2)

/-- The sum of two points. -/
def pointAdd (a b : Option (Nat × Nat)) : Option (Nat × Nat) :=
  match a, b with
  | none, q => q
  | q, none => q
  | some (x1, y1), some (x2, y2) =>
    let third (k : Nat) : Option (Nat × Nat) :=
      let x := (k * k + 2 * curveP - x1 - x2) % curveP
      some (x, (k * (x1 + curveP - x) + curveP - y1) % curveP)
    if x1 = x2 then
      if (y1 + y2) % curveP = 0 then none else third ((3 * x1 * x1 + curveP - 3) * invMod curveP (2 * y1) % curveP)
    else third ((y2 + curveP - y1) * invMod curveP ((x2 + curveP - x1) % curveP) % curveP)

/-- A multiple of a point. -/
def pointMul (k : Nat) (q : Option (Nat × Nat)) : Option (Nat × Nat) :=
  (List.range 522).foldr (fun i acc => let d := pointAdd acc acc; if bitOf k i then pointAdd d q else d) none

def curveG : Option (Nat × Nat) := some (curveGx, curveGy)

/-! ### ECDSA on a 512-bit digest -/

/-- The signature (r, s) of a digest under a private key and a nonce, each brought into 1..n-1. -/
def ecdsaSign (digest key nonce : Nat) : Nat × Nat :=
  let d := 1 + key % (curveN - 1)
  let k := 1 + nonce % (curveN - 1)
  let r := ((pointMul k curveG).getD (0, 0)).1 % curveN
  (r, invMod curveN k * ((digest + r * d) % curveN) % curveN)

/-- Whether (r, s) is a signature of a digest under a public key. -/
def ecdsaVerify (digest : Nat) (key : Nat × Nat) (r s : Nat) : Bool :=
  if r = 0 || s = 0 || curveN ≤ r || curveN ≤ s then false
  else
    let w := invMod curveN s
    match pointAdd (pointMul (digest * w % curveN) curveG) (pointMul (r * w % curveN) (some key)) with
    | none => false
    | some (x, _) => x % curveN = r

/-! ### CRC-64 of ECMA-182 -/

/-- One byte more, most significant bit first. -/
def crcByte (crc : DWord) (b : Byte) : DWord :=
  (List.range 8).foldl (fun (c : DWord) _ => if c.msb then (c <<< 1) ^^^ 0x42f0e1eba9ea3693#64 else c <<< 1)
    (crc ^^^ (b.setWidth 64 <<< 56))

def crc64 (l : List Byte) : DWord := l.foldl crcByte 0

end Sys2Proof.Machine
end

