-- ==== Sys2Proof/Machine/Ras.lean ====
section
/-!
DEFINITION. Resets and secure boot (R436, R437), attestation (R438), error records, spares and die resets (R445 to R450),
the Orair ports (R442 to R444), and the writes of the host's registers (R383, R446).
-/
namespace Sys2Proof.Machine
open Sys2Proof

def State.modRas (s : State) (f : Ras → Ras) : State := { s with ras := f s.ras }

/-! ### Secure boot (R436, R437) -/

def bootOk : Nat := 0
def bootHeader : Nat := 1
def bootRevoked : Nat := 2
def bootSvn : Nat := 3
def bootSignature : Nat := 4

/-- A field of the firmware header in the boot flash. -/
def State.flashNum (s : State) (o n : Nat) : Nat := Memory.nat s.flash o n

/-- Whether the header's fields are in range and its res0 bytes zero. -/
def State.flashHeaderOk (s : State) : Bool :=
  let len := s.flashNum 0x00c 4
  s.flashNum 0x000 4 = 0x57464c41 && s.flashNum 0x004 2 = 1 && s.flashNum 0x006 1 ≤ 3 && s.flashNum 0x007 1 = 0 &&
  len % 64 = 0 && len ≤ 2 ^ 26 && s.flashNum 0x010 0xf0 = 0 && s.flashNum 0x184 0x7c = 0

/-- SHA-512 over the header's first 256 bytes and the body. -/
def State.flashDigest (s : State) : Nat :=
  sha512 (Memory.bytes s.flash 0 0x100 ++ Memory.bytes s.flash 0x200 (s.flashNum 0x00c 4))

/-- What BOOTST reports of the image in the flash. (DEDUCED, log 114.) -/
def State.bootCode (s : State) : Nat :=
  let slot := s.flashNum 0x006 1
  let sig (o : Nat) : Nat := beNat (Memory.bytes s.flash o 66)
  if !s.flashHeaderOk then bootHeader
  else if s.ras.revoked.getLsbD slot then bootRevoked
  else if s.flashNum 0x008 4 < s.ras.minSvn then bootSvn
  else if !ecdsaVerify s.flashDigest (Config.publicKey (FMap.get s.ras.keyHash slot)) (sig 0x100) (sig 0x142) then bootSignature
  else bootOk

/-- A reset of the package and its boot: every register at its reset value, HBM zero and free of poison; the flash, the
fuses and the host's memory stay. A rejected image leaves the hub in RECOVERY and the dies in reset. (DEDUCED, log 113.) -/
def State.boot (s : State) : State :=
  let code := s.bootCode
  let ras : Ras := { Ras.reset with
    keyHash := s.ras.keyHash, minSvn := s.ras.minSvn, revoked := s.ras.revoked, bootSt := code
    svn := if code = bootOk then s.flashNum 0x008 4 else 0, measure := if code = bootOk then s.flashDigest else 0 }
  { State.reset with
    agenda := s.agenda, freeCtr := s.freeCtr, flash := s.flash, hostMem := s.hostMem, ras
    dies := State.reset.dies.map (fun (d : Nat × DieRec) => (d.1, { d.2 with inReset := code ≠ bootOk })) }

def execColdReset (s : State) : Host.Outcome State Fault Refusal := .next s.boot
def execFunctionReset (s : State) : Host.Outcome State Fault Refusal := .next s.boot

/-- Signed firmware raises the fused minimum (R437). (DEDUCED, log 130.) -/
def execFuseCommand (svn : Nat) (s : State) : Host.Outcome State Fault Refusal :=
  .next (if s.ras.bootSt = bootOk then s.modRas (fun r => { r with minSvn := max r.minSvn (svn % 2 ^ 32) }) else s)

/-! ### Attestation (R438) -/

/-- A report without its signature. -/
def State.reportBody (s : State) (leaf : Nat) (nonce : List Byte) (desc : Nat) : List Byte :=
  leBytes 4 1 ++ leBytes 4 leaf ++ leBytes 4 s.ras.svn ++ nonce ++ beBytes 64 s.ras.measure ++ beBytes 64 desc ++ leBytes 176 0

/-- The 512 bytes of a report, signed with the key of this firmware. -/
def State.report (s : State) (leaf : Nat) (nonce : List Byte) (desc : Nat) : List Byte :=
  let body := s.reportBody leaf nonce desc
  let sig := ecdsaSign (sha512 body) (Config.attestKey s.ras.measure) (Config.attestNonce s.freeCtr)
  body ++ beBytes 66 sig.1 ++ beBytes 66 sig.2

/-- ATTREQ: a package report for the host. The request stands while a hold on the nonce's line is being
published. (DEDUCED, log 118.) -/
def State.attest (s : State) (v : DWord) : State :=
  let a := v.toNat
  let put (x : DWord) (s : State) : State := s.modRas (fun r => { r with attReq := x })
  if s.ras.bootSt ≠ bootOk then s
  else if !spaOk a || !spaOk (a + 1023) || s.poisoned a 64 then put (v ||| 1) s
  else
    match s.hubRead a 64 with
    | (none, s) => put v s
    | (some nonce, s) => put 0 (s.hubStore (cellsAt (a + 512) (s.report 0xff nonce 0)) 0 0)

def execAttestationRequest (v : DWord) (s : State) : Host.Outcome State Fault Refusal := .next (s.attest v)

/-- The hash of a leaf's descriptor as last accepted, or zero (R438). -/
def Part.descHash (p : Part) : Nat := if p.desc = [] then 0 else sha512 p.desc

/-- A hub write over a page boundary; nothing is written when a part of it faults. -/
def State.hubWriteN (s : State) (fn va : Nat) (bytes : List Byte) : Except TrErr State :=
  let k := pageRoom va
  match s.hubWriteVa fn va (bytes.take k) 0 0 with
  | .error e => .error e
  | .ok s => if bytes.length ≤ k then .ok s else s.hubWriteVa fn (va + k) (bytes.drop k) 0 0

/-- A virtual function's request: a report of its own leaf, through its two stages. -/
def State.attestVf (s : State) (vf : Nat) (v : DWord) : State :=
  let f := s.fn vf
  let put (x : DWord) (s : State) : State := s.modFn vf (fun r => { r with attreq := x })
  if s.ras.bootSt ≠ bootOk || 256 ≤ vf then s
  else if !f.bound then put (v ||| 1) s
  else
    match s.hubBytes vf v.toNat 64 with
    | (.error _, s) => put (v ||| 1) s
    | (.ok none, s) => put v s
    | (.ok (some nonce), s) =>
      match s.hubWriteN vf (v.toNat + 512) (s.report f.leaf nonce (s.part f.leaf).descHash) with
      | .error _ => put (v ||| 1) s
      | .ok s => put 0 s

def execVfAttestationRequest (vf : Nat) (v : DWord) (s : State) : Host.Outcome State Fault Refusal := .next (s.attestVf vf v)

/-! ### Identity (R2) -/

/-- The Subsystem ID that the physical function and every virtual function report (R2). (DESIGN CHOICE, log 159.) -/
def subsystemId : Nat := if Config.isModule then 0x4802 else 0x4801

/-! ### VF Function Level Reset (R441) -/

/-- Whether a function's launches wait for atomics that the source of its migration has not answered. -/
def State.awaitsSource (s : State) (vf : Nat) : Bool := s.mig.forwarded.any (fun f => (s.grp (s.accOf f.tok).grp).vf = vf)

/-- The function's launches end, its queues are DISABLED, its ATC entries and its fault-queue and random-log registers are
cleared; its binding and demotion counter stay. (DEDUCED, log 125.) -/
def State.resetVf (s : State) (vf : Nat) : State :=
  let launches := (s.launches.filter (fun p => p.2.fn = vf)).map (·.1)
  let s := launches.foldl (fun s la => s.killLaunch la 0) s
  let s := (List.range 64).foldl (fun s q =>
    let s := s.modQueue vf q (fun u => { u with reloadReq := false, stopReq := false })
    if (s.queue vf q).state = .disabled then s
    else if (s.queue vf q).loaded then s.setQState vf q .disabled 0 0
    else s.modQueue vf q (fun u => { u with state := .disabled, active := false })) s
  let s := (List.range 4).foldl (fun s d => s.modDie d (fun r => { r with
    atc := r.atc.filter (fun p => p.1 / 2 ^ 52 ≠ vf), atcNo := r.atcNo.filter (fun p => p.1 / 2 ^ 52 ≠ vf) })) s
  s.modFn vf (fun r => { r with
    qtctl := 0, rlbase := 0, rlcfg := 0, rlwidx := 0, rlridx := 0
    fq := { (default : FaultQueue) with lastId := r.fq.lastId, irq := r.fq.irq } })

def execVfFunctionLevelReset (vf : Nat) (s : State) : Host.Outcome State Fault Refusal :=
  let moving : Bool := (s.fn vf).bound && (s.fn vf).leaf = s.migLeaf && s.mig.state ≠ .idle
  .next (if 256 ≤ vf then s
    else if moving && s.migDest && s.awaitsSource vf then s
    else if moving && !s.migDest && s.mig.state ∈ [MigState.prepare, .halt, .ship] then s.abortMigration.resetVf vf
    else s.resetVf vf)

/-! ### Error records (R445 to R447) -/

def Ras.errLog (r : Ras) : Nat := bitsOf r.errCfg.toNat 4 0
def Ras.errRoom (r : Ras) : Bool := r.errCfg.getLsbD 63 && ringDist r.errWidx r.errRidx < 2 ^ r.errLog
def Ras.thr (r : Ras) : Nat := bitsOf r.errCfg.toNat 31 24
/-- The window in ticks. -/
def Ras.window (r : Ras) : Nat := bitsOf r.errCfg.toNat 23 8 * 10 ^ 7

/-- A record goes to the error ring, which has room: its PHASE is bit 7 of byte 0. (DESIGN CHOICE, log 119.) -/
def State.errWrite (s : State) (bytes : List Byte) : State :=
  let r := s.ras
  let k := r.errWidx
  let phase : Byte := if bitOf k r.errLog then 0x80 else 0
  let base := r.errBase.toNat - r.errBase.toNat % 4096
  let bytes := match bytes with
    | [] => []
    | b :: t => (b ||| phase) :: t
  (s.hostStore (cellsAt (base + 32 * (k % 2 ^ r.errLog)) bytes)).modRas (fun r => { r with errWidx := (k + 1) % 2 ^ 32 })

/-- A record is written, or withheld until a slot is free (R349). -/
def State.errPost (s : State) (bytes : List Byte) : State :=
  if s.ras.errRoom && s.ras.errHeld = [] then s.errWrite bytes else s.modRas (fun r => { r with errHeld := r.errHeld ++ [bytes] })

/-- Withheld records are written, oldest first, while slots are free. -/
def State.errFlush (s : State) : State :=
  s.ras.errHeld.foldl (fun s b =>
    if s.ras.errRoom then (s.errWrite b).modRas (fun r => { r with errHeld := r.errHeld.drop 1 }) else s) s

/-- The 32 bytes of an error record, PHASE apart. -/
def errRecord (cls kind count unit tick addr : Nat) : List Byte :=
  leBytes 1 cls ++ leBytes 1 kind ++ leBytes 2 count ++ leBytes 4 0 ++ leBytes 5 unit ++ leBytes 3 0 ++ leBytes 8 tick ++ leBytes 8 addr

/-- How many units of a kind there are (R447). -/
def unitLimit (kind : Nat) : Nat :=
  match kind with
  | 0 => 48 * 66
  | 1 => 48 * 9
  | 2 => 4 * 512
  | 3 => 48 * 4096
  | 4 | 5 => 8 * 2 ^ 32
  | 6 => 16 * 9
  | _ => 48

def errUnit (kind unit : Nat) : Nat := kind * 2 ^ 48 + unit

/-- Whether an event concerns memory: an L2 way, HBM, or another array that names an address. -/
def memoryEvent (kind addr : Nat) : Bool := kind ∈ [2, 4, 5] || (kind = 7 && addr ≠ 0)

/-- Whether an event can be: its unit exists, and its address if it has one names HBM. -/
def eventOk (kind unit addr : Nat) : Bool := kind ≤ 7 && unit < unitLimit kind && (!memoryEvent kind addr || spaOk addr)

def eventAddr (kind addr : Nat) : Nat := if memoryEvent kind addr then addr - addr % 64 else 0

/-- The times of a list within the window that ends at a tick. -/
def eventsIn (tick window : Nat) (times : List Nat) : Nat := (times.filter (fun t => tick < t + window)).length

/-- A port stops; its unacknowledged flits are kept (R444). -/
def State.stopPort (s : State) (port : Nat) : State :=
  let p := FMap.get s.ports port
  if p.trained && !p.stopped && !p.spare then
    { s with ports := FMap.set s.ports port { p with stopped := true, stopAt := s.tick } }
  else s

/-- A corrected error: its unit keeps its time, and it is TRANSIENT or LASTING by the events of the unit in the window. -/
def execCorrectedError (kind unit addr : Nat) (s : State) : Host.Outcome State Fault Refusal :=
  .next (if !eventOk kind unit addr then s
    else
      let times := (s.tick :: FMap.get s.ras.events (errUnit kind unit)).take s.ras.thr
      let count := eventsIn s.tick s.ras.window times
      let lasting : Bool := s.ras.thr ≤ count
      let s := s.modRas (fun r => { r with events := FMap.set r.events (errUnit kind unit) times })
      let s := s.errPost (errRecord (if lasting then 2 else 1) kind count unit s.tick (eventAddr kind addr))
      if lasting && kind = 6 then s.stopPort (unit / 9) else s)

/-- A vector or scalar register of some group of a core, or a granule of its team's scratch, is poisoned, which one
being left free (R352). (DEDUCED, log 121.) -/
def State.poisonRegister (s : State) (core : Nat) : State :=
  let grps := (s.residents core).flatMap (fun t => (s.team t).groups)
  let (i, s) := s.pick grps.length
  match grps[i]? with
  | none => s
  | some g =>
    let (r, s) := s.pick (384 + (s.teamOf g).share / 64)
    if r < 384 then s.modGrp g (fun gr => { gr with vpoison := FMap.set gr.vpoison r true })
    else s.modTeam (s.grp g).team (fun tm => { tm with scratchPoison := FMap.set tm.scratchPoison (r - 384) true })

/-- What an uncorrected error poisons: its granule, its MSM row, or a register or scratch granule (R352, R445). -/
def State.poisonUnit (s : State) (kind unit addr : Nat) : State :=
  if memoryEvent kind addr then { s with poison := FMap.set s.poison (granuleOf addr) true }
  else if kind = 3 then
    match (s.residents (unit / 4096)).find? (fun t => (s.team t).msmRows ≠ 0) with
    | none => s
    | some t => s.modTeam t (fun tm => { tm with msmPoison := FMap.set tm.msmPoison (unit % 4096) true })
  else if kind = 6 then s
  else s.poisonRegister (if kind = 0 then unit / 66 else if kind = 1 then unit / 9 else unit)

/-- (DEDUCED, log 120.) -/
def execUncorrectedError (kind unit addr : Nat) (s : State) : Host.Outcome State Fault Refusal :=
  .next (if !eventOk kind unit addr then s
    else
      let count := eventsIn s.tick s.ras.window (FMap.get s.ras.events (errUnit kind unit)) + 1
      (s.poisonUnit kind unit addr).errPost (errRecord 3 kind count unit s.tick (eventAddr kind addr)))

/-! ### Spares (R448) -/

def spOk : Nat := 0
def spState : Nat := 1
def spNoSpare : Nat := 2
/-- (DEDUCED, log 123.) -/
def spField : Nat := 3

/-- The spares of a unit's core, port, die or stack, and their number. (DESIGN CHOICE, log 122.) -/
def sparePool (kind unit : Nat) : Nat × Nat :=
  match kind with
  | 0 => (unit / 66, 2)
  | 1 => (unit / 9, 1)
  | 2 => (unit / 512, Config.spares 2)
  | 3 => (unit / 4096, Config.spares 3)
  | 6 => (unit / 9, 1)
  | k => (unit / 2 ^ 32, Config.spares k)

/-- The dirty sectors of an L2 way are in HBM already, as the state holds memory; its lines are gone. -/
def State.dropWay (s : State) (unit : Nat) : State :=
  let slice := unit % 512 / 16
  let way := unit % 16
  s.modDie (unit / 512) (fun d => { d with
    l2 := FMap.setMany d.l2 ((List.range 256).map (fun i => (slice * 256 + i, (FMap.get d.l2 (slice * 256 + i)).eraseIdx way))) })

def State.spEnd (s : State) (r : Nat) : State := s.modRas (fun x => { x with spResult := r })

/-- SPCMD: the spare is engaged, at once or with a time in which SPSTAT shows BUSY. -/
def State.engage (s : State) (kind unit : Nat) : State :=
  let pool := sparePool kind unit
  let key := errUnit kind pool.1
  let core := if kind = 3 then unit / 4096 else pool.1
  if s.ras.spBusy then s
  else if 6 < kind || unitLimit kind ≤ unit then s.spEnd spField
  else if kind ∈ [0, 1, 3] && s.residents core ≠ [] then s.spEnd spState
  else if pool.2 ≤ FMap.get s.ras.spareUsed key then s.spEnd spNoSpare
  else
    let s := s.modRas (fun r => { r with
      spResult := spOk, spKind := kind, spUnit := unit, spBusy := kind ∈ [2, 4, 5]
      spareUsed := FMap.upd r.spareUsed key (· + 1) })
    if kind = 2 then s.dropWay unit
    else if kind = 6 then { s with ports := FMap.upd s.ports pool.1 (fun p => { p with spare := true }) }
    else s

def execSparePeColumn (unit : Nat) (s : State) : Host.Outcome State Fault Refusal := .next (s.engage 0 unit)
def execSpareIssuePipe (unit : Nat) (s : State) : Host.Outcome State Fault Refusal := .next (s.engage 1 unit)
def execSpareL2Way (unit : Nat) (s : State) : Host.Outcome State Fault Refusal := .next (s.engage 2 unit)
def execSpareMsmRow (unit : Nat) (s : State) : Host.Outcome State Fault Refusal := .next (s.engage 3 unit)
def execSpareHbmRow (unit : Nat) (s : State) : Host.Outcome State Fault Refusal := .next (s.engage 4 unit)
def execSpareHbmBank (unit : Nat) (s : State) : Host.Outcome State Fault Refusal := .next (s.engage 5 unit)
def execSpareOrairLane (unit : Nat) (s : State) : Host.Outcome State Fault Refusal := .next (s.engage 6 unit)

/-- The copy or write-back of an engagement has ended. -/
def execSpareEngagementComplete (s : State) : Host.Outcome State Fault Refusal :=
  .next (if s.ras.spBusy && s.ras.spKind ≤ 6 then s.modRas (fun r => { r with spBusy := false }) else s)

/-! ### Cores (R25, R264) -/

/-- (DEDUCED, log 129.) -/
def execHealthTestFailure (core : Nat) (s : State) : Host.Outcome State Fault Refusal :=
  .next (if core < 48 then s.modCore core (fun c => { c with noiseFail := true }) else s)

def execCoreFence (core : Nat) (s : State) : Host.Outcome State Fault Refusal :=
  .next (if core < 48 then s.modCore core (fun c => { c with fenced := true }) else s)

/-! ### Die reset (R449, R450) -/

/-- SPKIND while a die is in reset. -/
def spDie : Nat := 8

/-- The die's caches, translations and leases are gone; the hub is busy until the reset ends. -/
def State.dropDie (s : State) (d : Nat) : State :=
  let s := s.modDie d (fun r => { r with
    l2 := [], lichen := [], atc := [], atcNo := [], ntlb := [], wcache := [], inReset := true })
  let place (k : Nat) : Nat := k / 2 ^ 41 / 512
  let mine (p : Nat) : Bool := p = 48 + d || (p < 48 && coreDie p = d)
  { s with
    tlb := s.tlb.filter (fun p => !mine (place p.1)), leases := s.leases.filter (fun p => coreDie (p.1 / 2 ^ 32) ≠ d)
    ras := { s.ras with spBusy := true, spKind := spDie, spUnit := d, spResult := spOk } }

/-- A graceful reset: every Modified entry is written back to its home; phases and HBM stay (R449). -/
def State.resetDie (s : State) (d : Nat) : State :=
  if s.ras.spBusy || 4 ≤ d then s
  else if s.parts.any (fun p => p.2.state = .running && p.2.onDie d) then s.spEnd spState
  else
    let lines := ((s.die d).lichen.filter (fun e => e.2.state = LichenState.modified)).map (·.2.line)
    (lines.foldl (fun s l => s.recall 4 l) s).dropDie d

def execDieResetGraceful (die : Nat) (s : State) : Host.Outcome State Fault Refusal := .next (s.resetDie die)

/-- The granules of the sectors an L2 line holds dirty. -/
def L2Line.dirtyGranules (l : L2Line) : List Nat :=
  (List.range 16).filterMap (fun i => if l.dirty.getLsbD (i / 4) then some (16 * l.line + i) else none)

/-- The granules of cells. -/
def granulesOf (cells : List Host.Cell) : List Nat := sortOnce (cells.map (fun c => granuleOf c.1))

/-- The teams of a die stop at once: their launches end KILLED with CODE 0, they are freed, and what they had under way is
gone (R450 step 1). (DEDUCED, log 124.) -/
def State.stopDie (s : State) (d : Nat) : State :=
  let teams := (s.teams.filter (fun t => t.2.live && coreDie t.2.core = d && t.2.halt ≠ Halt.saved)).map (·.1)
  let launches := sortOnce (teams.map (fun t => (s.cluster (s.team t).cluster).launch))
  let s := launches.foldl (fun s la => s.killLaunch la 0) s
  let s := { s with
    sb := s.sb.filter (fun e => coreDie e.2.core ≠ d), acc := s.acc.filter (fun a => a.2.team ∉ teams)
    ops := s.ops.filter (fun o => o.2.team ∉ teams) }
  teams.foldl (fun s t => s.retireTeam t) s

/-- What a forced reset loses is poisoned: lines held Modified, dirty sectors, and stores from other dies that have not
completed (R450 steps 2 to 4). -/
def State.poisonDie (s : State) (d : Nat) : State :=
  let r := s.die d
  let lines := (r.lichen.filter (fun e => e.2.state = LichenState.modified)).flatMap (fun e => (List.range 16).map (16 * e.2.line + ·))
  let dirty := r.l2.flatMap (fun e => e.2.flatMap L2Line.dirtyGranules)
  let lost (a : Nat × Access) : Bool := a.2.kind = .store && a.2.place = .hbm && a.2.homeDie = d && a.2.hubFn = 0
  let late (p : Nat × Pend) : Bool := p.2.homeDie = d && s.tick < p.2.v
  let cells := ((s.acc.filter (fun a => lost a && a.2.srcDie ≠ d)).flatMap (fun a => granulesOf a.2.data)) ++
    ((s.pend.filter (fun p => late p && p.2.srcDie ≠ d)).flatMap (fun p => granulesOf p.2.cells))
  let gone := (s.acc.filter lost).map (·.1)
  let s := { s with
    acc := s.acc.filter (fun a => !lost a), pend := s.pend.filter (fun p => !late p)
    poison := FMap.fill s.poison (lines ++ dirty ++ cells) true }
  gone.foldl (fun s id => s.noteArrival id 0) s

/-- A forced reset (R450). -/
def State.forceDie (s : State) (d : Nat) : State :=
  if s.ras.spBusy || 4 ≤ d then s
  else
    let s := (s.stopDie d).poisonDie d
    let others := (List.range 4).filter (· ≠ d)
    let s := s.modDie d (fun r => { r with
      cph := FMap.setMany r.cph (others.map (fun x => (x, (s.die x).oph - 1))), oph := 1, markers := [] })
    s.dropDie d

def execDieResetForced (die : Nat) (s : State) : Host.Outcome State Fault Refusal := .next (s.forceDie die)

/-- The reset ends; the accesses it held may perform. -/
def execDieResetEnd (die : Nat) (s : State) : Host.Outcome State Fault Refusal :=
  .next (if s.ras.spBusy && s.ras.spKind = spDie && s.ras.spUnit = die then
    (s.modDie die (fun r => { r with inReset := false })).modRas (fun r => { r with spBusy := false })
  else s)

/-! ### Orair ports (R442 to R444) -/

/-- (DESIGN CHOICE, log 9.) -/
def execOrairPortTraining (port : Nat) (s : State) : Host.Outcome State Fault Refusal :=
  .next (if 16 ≤ port then s else { s with ports := FMap.upd s.ports port (fun p => { p with trained := true }) })

/-- The flits after an acknowledgement number, if a flit of that number is unacknowledged. -/
def afterAck (ack : Nat) (l : List (Nat × Nat)) : List (Nat × Nat) :=
  if l.any (fun f => f.1 = ack) then (l.dropWhile (fun f => f.1 ≠ ack)).drop 1 else l

/-- The first flit to put on the wire when a port replays. -/
def Port.replayFrom (p : Port) : Nat := ((p.unacked.head?).map (·.1)).getD p.txNew

/-- A flit arrives: accepted in sequence and with a good CRC, else discarded, with a NAK owed. (DEDUCED, log 126.) -/
def execFlitReceive (port : Nat) (flit : List Byte) (s : State) : Host.Outcome State Fault Refusal :=
  let p := FMap.get s.ports port
  let f (o n : Nat) : Nat := numAt flit o n
  .next (if 16 ≤ port || flit.length ≠ 256 || !p.trained || p.stopped then s
    else if (crc64 (flit.take 248)).toNat ≠ f 248 8 || f 0 2 % 4096 ≠ p.rxSeq then
      { s with ports := FMap.set s.ports port { p with nak := true } }
    else
      let unacked := afterAck (f 2 2 % 4096) p.unacked
      let q := { p with
        rxSeq := (p.rxSeq + 1) % 4096, nak := false, unacked, stopBits := BitVec.ofNat 8 (f 4 1)
        delivered := p.delivered ++ [(bitsOf (f 0 2) 14 12, (flit.drop 8).take 240)] }
      { s with ports := FMap.set s.ports port (if bitOf (f 2 2) 12 then { q with txSeq := q.replayFrom } else q) })

/-- A port whose spare lane is engaged trains again and replays. -/
def execPortRetrain (port : Nat) (s : State) : Host.Outcome State Fault Refusal :=
  let p := FMap.get s.ports port
  .next (if port < 16 && p.stopped && p.spare then
    { s with ports := FMap.set s.ports port { p with stopped := false, stopAt := 0, failed := false, txSeq := p.replayFrom } }
  else s)

/-- A port stopped for 10 ms is a failed path for the migration that uses it (R435). (DESIGN CHOICE, log 127.) -/
def execPortStopTimeout (port : Nat) (s : State) : Host.Outcome State Fault Refusal :=
  let p := FMap.get s.ports port
  .next (if port < 16 && p.stopped && !p.failed && p.stopAt + 10 ^ 7 ≤ s.tick then
    let s := { s with ports := FMap.set s.ports port { p with failed := true } }
    if Config.route (s.mig.peer.toNat % 4096) % 128 / 8 = port then s.linkFailure else s
  else s)

/-- An AtomicOp addressed to the device is answered with Unsupported Request (R439). -/
def execAtomicopRequest (s : State) : Host.Outcome State Fault Refusal := .next (s.modRas (fun r => { r with ur := r.ur + 1 }))

/-! ### The host's registers (R383, R446) -/

/-- Whether a value of ERRCFG keeps its limits. -/
def errCfgOk (v : DWord) : Bool :=
  let n := v.toNat
  onlyBits v [(4, 0), (23, 8), (31, 24), (63, 63)] && 4 ≤ bitsOf n 4 0 && bitsOf n 4 0 ≤ 16 && 1 ≤ bitsOf n 23 8 && bitsOf n 23 8 ≤ 60000 &&
  1 ≤ bitsOf n 31 24

/-- A write of BAR 2 of the physical function; one that breaks a limit is ignored in full. -/
def State.bar2Write (s : State) (off : Nat) (v : DWord) : State :=
  let n := v.toNat
  let put (ok : Bool) (f : Ras → Ras) : State := if ok then (s.modRas f).errFlush else s
  match off with
  | 0x000 => put (onlyBits v [(63, 12)]) (fun r => { r with errBase := v })
  | 0x008 => put (errCfgOk v) (fun r => { r with errCfg := v })
  | 0x018 => put (onlyBits v [(31, 0)]) (fun r => { r with errRidx := n })
  | 0x020 => if onlyBits v [(3, 0), (47, 8)] then s.engage (n % 16) (bitsOf n 47 8) else s
  | 0x030 => if onlyBits v [(1, 0), (8, 8)] then (if v.getLsbD 8 then s.forceDie (n % 4) else s.resetDie (n % 4)) else s
  | 0x038 => put (onlyBits v [(15, 0)] && 1500 ≤ n && n ≤ 4000) (fun r => { r with pwrCap := n })
  | 0x048 => s.attest v
  | 0x058 => put (onlyBits v [(11, 0)] && s.ports.all (fun p => !p.2.trained)) (fun r => { r with fabNode := v })
  | _ => s

/-- A write of BAR 0 of a function: the queue registers, and a virtual function's ATTREQ. (DEDUCED, log 117.) -/
def State.bar0Write (s : State) (fn off : Nat) (v : DWord) : Host.Outcome State Fault Refusal :=
  if s.ras.bootSt ≠ bootOk || 256 < fn then .next s
  else
    match off with
    | 0x000 => .next (if onlyBits v [(56, 12)] then s.modFn fn (fun r => { r with qtbase := v }) else s)
    | 0x008 => execQtctl fn v s
    | 0x010 => execQreload fn v s
    | 0x018 => .next (s.attestVf fn v)
    | _ => .next s

def execRegisterWrite (t : RegTarget) (v : DWord) (s : State) : Host.Outcome State Fault Refusal :=
  match t with
  | .priv grp num => .next (s.privRow grp num.toNat v)
  | .bar0 fn off => s.bar0Write fn off v
  | .bar2 off => .next (s.bar2Write off v)

end Sys2Proof.Machine
end

