-- ==== Sys2Proof/Machine/Scalar.lean ====
section
/-!
DEFINITION. Scalar arithmetic, compares, selects, uniform predicates and address arithmetic (R206 to R216).
-/
namespace Sys2Proof.Machine
open Sys2Proof

/-! ### The register form (R208, R209) -/

/-- A binary scalar word: pairs where the type is 64 bits, then the destination takes the result. -/
def State.sBin (s : State) (o : SOp) (f : Nat → Nat → Nat → Nat) : State :=
  let w64 : Bool := o.ty.width = 64
  s.scalar (sPairOk w64 o.d && sPairOk w64 o.a && sPairOk w64 o.b) (fun s =>
    s.writeSW s.cur o.d.toNat w64 (BitVec.ofNat 64 (f o.ty.width (s.sVal o.a w64).toNat (s.sVal o.b w64).toNat)))

/-- A shift or rotate by a register: the count is a 32-bit scalar (R208). -/
def State.sShift (s : State) (o : SOp) (f : Nat → Nat → Nat → Nat) : State :=
  let w64 : Bool := o.ty.width = 64
  s.scalar (sPairOk w64 o.d && sPairOk w64 o.a) (fun s =>
    s.writeSW s.cur o.d.toNat w64 (BitVec.ofNat 64 (f o.ty.width (s.sVal o.a w64).toNat (s.rdS s.cur o.b.toNat).toNat)))

/-- A unary scalar word; counts write 32 bits (R208). -/
def State.sUn (s : State) (o : SOp) (count : Bool) (f : Nat → Nat → Nat) : State :=
  let w64 : Bool := o.ty.width = 64
  s.scalar ((count || sPairOk w64 o.d) && sPairOk w64 o.a) (fun s =>
    s.writeSW s.cur o.d.toNat (w64 && !count) (BitVec.ofNat 64 (f o.ty.width (s.sVal o.a w64).toNat)))

def execNop (s : State) : Host.Outcome State Fault Refusal := .next s

def execSadd (o : SOp) (s : State) : Host.Outcome State Fault Refusal := .next (s.sBin o (intOp2 (tagSigned o.ty) o.sat (· + ·)))
def execSsub (o : SOp) (s : State) : Host.Outcome State Fault Refusal := .next (s.sBin o (intOp2 (tagSigned o.ty) o.sat (· - ·)))
def execSmul (o : SOp) (s : State) : Host.Outcome State Fault Refusal := .next (s.sBin o (intOp2 (tagSigned o.ty) false (· * ·)))
def execSmulhi (o : SOp) (s : State) : Host.Outcome State Fault Refusal := .next (s.sBin o (intMulHi (tagSigned o.ty)))
def execSdiv (o : SOp) (s : State) : Host.Outcome State Fault Refusal := .next (s.sBin o (intDiv (tagSigned o.ty)))
def execSrem (o : SOp) (s : State) : Host.Outcome State Fault Refusal := .next (s.sBin o (intRem (tagSigned o.ty)))
def execSmin (o : SOp) (s : State) : Host.Outcome State Fault Refusal := .next (s.sBin o (intOp2 (tagSigned o.ty) false min))
def execSmax (o : SOp) (s : State) : Host.Outcome State Fault Refusal := .next (s.sBin o (intOp2 (tagSigned o.ty) false max))
def execSand (o : SOp) (s : State) : Host.Outcome State Fault Refusal := .next (s.sBin o (fun _ a b => andN a b))
def execSor (o : SOp) (s : State) : Host.Outcome State Fault Refusal := .next (s.sBin o (fun _ a b => orN a b))
def execSxor (o : SOp) (s : State) : Host.Outcome State Fault Refusal := .next (s.sBin o (fun _ a b => xorN a b))
def execSandn (o : SOp) (s : State) : Host.Outcome State Fault Refusal := .next (s.sBin o andnN)
def execSshl (o : SOp) (s : State) : Host.Outcome State Fault Refusal := .next (s.sShift o shlN)
def execSshr (o : SOp) (s : State) : Host.Outcome State Fault Refusal :=
  .next (s.sShift o (if tagSigned o.ty then sarN else shrN))
def execSrotl (o : SOp) (s : State) : Host.Outcome State Fault Refusal := .next (s.sShift o rotlN)
def execSmov (o : SOp) (s : State) : Host.Outcome State Fault Refusal := .next (s.sUn o false (fun _ a => a))
def execSneg (o : SOp) (s : State) : Host.Outcome State Fault Refusal := .next (s.sUn o false (intOp1 true o.sat (fun z => -z)))
def execSabs (o : SOp) (s : State) : Host.Outcome State Fault Refusal :=
  .next (s.sUn o false (intOp1 true o.sat (fun z => if z < 0 then -z else z)))
def execSpopc (o : SOp) (s : State) : Host.Outcome State Fault Refusal := .next (s.sUn o true popN)
def execSclz (o : SOp) (s : State) : Host.Outcome State Fault Refusal := .next (s.sUn o true clzN)

/-! ### Immediates (R210 to R212) -/

/-- sD := sA op IMM on 32 bits (R210). -/
def State.sImm (s : State) (d a : SReg) (imm : Word) (f : Word → Word → Word) : State :=
  s.writeS s.cur d.toNat (f (s.rdS s.cur a.toNat) imm)

def execSaddi (d a : SReg) (imm : Word) (s : State) : Host.Outcome State Fault Refusal := .next (s.sImm d a imm (· + ·))
def execSandi (d a : SReg) (imm : Word) (s : State) : Host.Outcome State Fault Refusal := .next (s.sImm d a imm (· &&& ·))
def execSori (d a : SReg) (imm : Word) (s : State) : Host.Outcome State Fault Refusal := .next (s.sImm d a imm (· ||| ·))
def execSxori (d a : SReg) (imm : Word) (s : State) : Host.Outcome State Fault Refusal := .next (s.sImm d a imm (· ^^^ ·))

def execSmovi (d : SReg) (imm : Word) (s : State) : Host.Outcome State Fault Refusal := .next (s.writeS s.cur d.toNat imm)
def execSmoviI64 (d : SReg) (imm : Word) (s : State) : Host.Outcome State Fault Refusal :=
  .next (s.scalar (sPairOk true d) (fun s => s.writeSW s.cur d.toNat true (imm.signExtend 64)))
def execSmoviN64 (d : SReg) (imm : Word) (s : State) : Host.Outcome State Fault Refusal :=
  .next (s.scalar (sPairOk true d) (fun s => s.writeSW s.cur d.toNat true (imm.zeroExtend 64)))

/-- A shift by an immediate (R212). -/
def State.sShiftI (s : State) (o : SShI) (f : Nat → Nat → Nat → Nat) : State :=
  s.scalar (sPairOk o.w64 o.d && sPairOk o.w64 o.a) (fun s =>
    s.writeSW s.cur o.d.toNat o.w64
      (BitVec.ofNat 64 (f (if o.w64 then 64 else 32) (s.sVal o.a o.w64).toNat o.count.toNat)))

def execSshli (o : SShI) (s : State) : Host.Outcome State Fault Refusal := .next (s.sShiftI o shlN)
def execSshriN (o : SShI) (s : State) : Host.Outcome State Fault Refusal := .next (s.sShiftI o shrN)
def execSshriI (o : SShI) (s : State) : Host.Outcome State Fault Refusal := .next (s.sShiftI o sarN)
def execSrotli (o : SShI) (s : State) : Host.Outcome State Fault Refusal := .next (s.sShiftI o rotlN)

/-! ### Compares, selects, uniform predicates, addresses (R213 to R216) -/

def execScmp (rel : Rel) (comb : Comb QReg) (ty : Tag) (d : QReg) (a b : SReg) (s : State) :
    Host.Outcome State Fault Refusal :=
  let w64 : Bool := ty.width = 64
  .next (s.scalar (sPairOk w64 a && sPairOk w64 b) (fun s =>
    let v := relInt rel (toZ ty.width (tagSigned ty) (s.sVal a w64).toNat) (toZ ty.width (tagSigned ty) (s.sVal b w64).toNat)
    s.setQBit d (combine comb v s.qBit)))

def execSsel (w64 : Bool) (d : SReg) (c : QReg) (a b : SReg) (s : State) : Host.Outcome State Fault Refusal :=
  .next (s.scalar (sPairOk w64 d && sPairOk w64 a && sPairOk w64 b) (fun s =>
    s.writeSW s.cur d.toNat w64 (if s.qBit c then s.sVal a w64 else s.sVal b w64)))

def execQand (d a b : QReg) (s : State) : Host.Outcome State Fault Refusal := .next (s.setQBit d (s.qBit a && s.qBit b))
def execQor (d a b : QReg) (s : State) : Host.Outcome State Fault Refusal := .next (s.setQBit d (s.qBit a || s.qBit b))
def execQxor (d a b : QReg) (s : State) : Host.Outcome State Fault Refusal := .next (s.setQBit d (s.qBit a ^^ s.qBit b))
def execQandn (d a b : QReg) (s : State) : Host.Outcome State Fault Refusal := .next (s.setQBit d (s.qBit a && !s.qBit b))
def execQnot (d a : QReg) (s : State) : Host.Outcome State Fault Refusal := .next (s.setQBit d (!s.qBit a))
def execQset (d : QReg) (v : Bool) (s : State) : Host.Outcome State Fault Refusal := .next (s.setQBit d v)

def execSadda (uns : Bool) (shift : BitVec 3) (d a b : SReg) (s : State) : Host.Outcome State Fault Refusal :=
  .next (s.scalar (sPairOk true d && sPairOk true a) (fun s =>
    let b := s.rdS s.cur b.toNat
    let b : DWord := if uns then b.zeroExtend 64 else b.signExtend 64
    s.writeSW s.cur d.toNat true (s.sVal a true + b <<< shift.toNat)))

end Sys2Proof.Machine
end

