-- ==== Sys2Proof/Machine/Dispatch.lean ====
section
/-!
DEFINITION. The dispatcher: one arm for each step of the machine.
-/
namespace Sys2Proof.Machine
open Sys2Proof

def exec (i : Instr) (s : State) : Host.Outcome State Fault Refusal :=
  match i with
  | .nop => Sys2Proof.Machine.execNop s
  | .sadd o => Sys2Proof.Machine.execSadd o s
  | .ssub o => Sys2Proof.Machine.execSsub o s
  | .smul o => Sys2Proof.Machine.execSmul o s
  | .smulhi o => Sys2Proof.Machine.execSmulhi o s
  | .sdiv o => Sys2Proof.Machine.execSdiv o s
  | .srem o => Sys2Proof.Machine.execSrem o s
  | .smin o => Sys2Proof.Machine.execSmin o s
  | .smax o => Sys2Proof.Machine.execSmax o s
  | .sand o => Sys2Proof.Machine.execSand o s
  | .sor o => Sys2Proof.Machine.execSor o s
  | .sxor o => Sys2Proof.Machine.execSxor o s
  | .sandn o => Sys2Proof.Machine.execSandn o s
  | .sshl o => Sys2Proof.Machine.execSshl o s
  | .sshr o => Sys2Proof.Machine.execSshr o s
  | .srotl o => Sys2Proof.Machine.execSrotl o s
  | .smov o => Sys2Proof.Machine.execSmov o s
  | .sneg o => Sys2Proof.Machine.execSneg o s
  | .sabs o => Sys2Proof.Machine.execSabs o s
  | .spopc o => Sys2Proof.Machine.execSpopc o s
  | .sclz o => Sys2Proof.Machine.execSclz o s
  | .saddi d a imm => Sys2Proof.Machine.execSaddi d a imm s
  | .sandi d a imm => Sys2Proof.Machine.execSandi d a imm s
  | .sori d a imm => Sys2Proof.Machine.execSori d a imm s
  | .sxori d a imm => Sys2Proof.Machine.execSxori d a imm s
  | .smovi d imm => Sys2Proof.Machine.execSmovi d imm s
  | .smoviI64 d imm => Sys2Proof.Machine.execSmoviI64 d imm s
  | .smoviN64 d imm => Sys2Proof.Machine.execSmoviN64 d imm s
  | .sshli o => Sys2Proof.Machine.execSshli o s
  | .sshriN o => Sys2Proof.Machine.execSshriN o s
  | .sshriI o => Sys2Proof.Machine.execSshriI o s
  | .srotli o => Sys2Proof.Machine.execSrotli o s
  | .scmp rel comb ty d a b => Sys2Proof.Machine.execScmp rel comb ty d a b s
  | .ssel w64 d c a b => Sys2Proof.Machine.execSsel w64 d c a b s
  | .qand d a b => Sys2Proof.Machine.execQand d a b s
  | .qor d a b => Sys2Proof.Machine.execQor d a b s
  | .qxor d a b => Sys2Proof.Machine.execQxor d a b s
  | .qandn d a b => Sys2Proof.Machine.execQandn d a b s
  | .qnot d a => Sys2Proof.Machine.execQnot d a s
  | .qset d v => Sys2Proof.Machine.execQset d v s
  | .sadda uns shift d a b => Sys2Proof.Machine.execSadda uns shift d a b s
  | .bra g join target => Sys2Proof.Machine.execBra g join target s
  | .braQ q target => Sys2Proof.Machine.execBraQ q target s
  | .brx g bound a b uns join => Sys2Proof.Machine.execBrx g bound a b uns join s
  | .call d target => Sys2Proof.Machine.execCall d target s
  | .ret a => Sys2Proof.Machine.execRet a s
  | .exit g => Sys2Proof.Machine.execExit g s
  | .trap code => Sys2Proof.Machine.execTrap code s
  | .planeSet g k => Sys2Proof.Machine.execPlaneSet g k s
  | .planeSel g a => Sys2Proof.Machine.execPlaneSel g a s
  | .wait all n qd sd sa sb c => Sys2Proof.Machine.execWait all n qd sd sa sb c s
  | .barSync slot => Sys2Proof.Machine.execBarSync slot s
  | .barArrive slot => Sys2Proof.Machine.execBarArrive slot s
  | .barExpect slot a => Sys2Proof.Machine.execBarExpect slot a s
  | .cbarSync k => Sys2Proof.Machine.execCbarSync k s
  | .cbarArrive k => Sys2Proof.Machine.execCbarArrive k s
  | .rgive n => Sys2Proof.Machine.execRgive n s
  | .rclaim n => Sys2Proof.Machine.execRclaim n s
  | .rclaimGrant team => Sys2Proof.Machine.execRclaimGrant team s
  | .rgiveRelease grp => Sys2Proof.Machine.execRgiveRelease grp s
  | .spawn b a => Sys2Proof.Machine.execSpawn b a s
  | .binTimerExpiry launch node => Sys2Proof.Machine.execBinTimerExpiry launch node s
  | .spawnedGroupPlacement launch => Sys2Proof.Machine.execSpawnedGroupPlacement launch s
  | .regionBegin nblk nscal a b => Sys2Proof.Machine.execRegionBegin nblk nscal a b s
  | .regionEnd => Sys2Proof.Machine.execRegionEnd s
  | .gets dst num => Sys2Proof.Machine.execGets dst num s
  | .sets num a => Sys2Proof.Machine.execSets num a s
  | .slane w64 d a sel => Sys2Proof.Machine.execSlane w64 d a sel s
  | .mov o => Sys2Proof.Machine.execMov o s
  | .movs w64 g d a => Sys2Proof.Machine.execMovs w64 g d a s
  | .movi ty g d imm => Sys2Proof.Machine.execMovi ty g d imm s
  | .iadd o => Sys2Proof.Machine.execIadd o s
  | .isub o => Sys2Proof.Machine.execIsub o s
  | .imul o => Sys2Proof.Machine.execImul o s
  | .imulhi o => Sys2Proof.Machine.execImulhi o s
  | .imad o => Sys2Proof.Machine.execImad o s
  | .imulw o => Sys2Proof.Machine.execImulw o s
  | .imin o => Sys2Proof.Machine.execImin o s
  | .imax o => Sys2Proof.Machine.execImax o s
  | .iabs o => Sys2Proof.Machine.execIabs o s
  | .ineg o => Sys2Proof.Machine.execIneg o s
  | .vand o => Sys2Proof.Machine.execVand o s
  | .vor o => Sys2Proof.Machine.execVor o s
  | .vxor o => Sys2Proof.Machine.execVxor o s
  | .vandn o => Sys2Proof.Machine.execVandn o s
  | .vnot o => Sys2Proof.Machine.execVnot o s
  | .shl o => Sys2Proof.Machine.execShl o s
  | .shr o => Sys2Proof.Machine.execShr o s
  | .rotl o => Sys2Proof.Machine.execRotl o s
  | .iaddi o => Sys2Proof.Machine.execIaddi o s
  | .icmp o => Sys2Proof.Machine.execIcmp o s
  | .fadd o => Sys2Proof.Machine.execFadd o s
  | .fsub o => Sys2Proof.Machine.execFsub o s
  | .fmul o => Sys2Proof.Machine.execFmul o s
  | .ffma o => Sys2Proof.Machine.execFfma o s
  | .fnma o => Sys2Proof.Machine.execFnma o s
  | .faddi o => Sys2Proof.Machine.execFaddi o s
  | .fmuli o => Sys2Proof.Machine.execFmuli o s
  | .fmin o => Sys2Proof.Machine.execFmin o s
  | .fmax o => Sys2Proof.Machine.execFmax o s
  | .fabs o => Sys2Proof.Machine.execFabs o s
  | .fneg o => Sys2Proof.Machine.execFneg o s
  | .fcopysign o => Sys2Proof.Machine.execFcopysign o s
  | .fcmp o => Sys2Proof.Machine.execFcmp o s
  | .fclass o => Sys2Proof.Machine.execFclass o s
  | .rcp o => Sys2Proof.Machine.execRcp o s
  | .sqrt o => Sys2Proof.Machine.execSqrt o s
  | .rsqrt o => Sys2Proof.Machine.execRsqrt o s
  | .exp2 o => Sys2Proof.Machine.execExp2 o s
  | .log2 o => Sys2Proof.Machine.execLog2 o s
  | .sinpi o => Sys2Proof.Machine.execSinpi o s
  | .cospi o => Sys2Proof.Machine.execCospi o s
  | .tanh o => Sys2Proof.Machine.execTanh o s
  | .cvt o => Sys2Proof.Machine.execCvt o s
  | .pack o => Sys2Proof.Machine.execPack o s
  | .unpack o => Sys2Proof.Machine.execUnpack o s
  | .blkPack o => Sys2Proof.Machine.execBlkPack o s
  | .blkUnpack o => Sys2Proof.Machine.execBlkUnpack o s
  | .retag o => Sys2Proof.Machine.execRetag o s
  | .pand o => Sys2Proof.Machine.execPand o s
  | .por o => Sys2Proof.Machine.execPor o s
  | .pxor o => Sys2Proof.Machine.execPxor o s
  | .pandn o => Sys2Proof.Machine.execPandn o s
  | .pnot g d a => Sys2Proof.Machine.execPnot g d a s
  | .pclr g d => Sys2Proof.Machine.execPclr g d s
  | .pset g d => Sys2Proof.Machine.execPset g d s
  | .pfromq g d q => Sys2Proof.Machine.execPfromq g d q s
  | .ptest w64 g d a => Sys2Proof.Machine.execPtest w64 g d a s
  | .ptov g d a => Sys2Proof.Machine.execPtov g d a s
  | .sel w64 g d c a b => Sys2Proof.Machine.execSel w64 g d c a b s
  | .shflIdx o b => Sys2Proof.Machine.execShflIdx o b s
  | .shflUp o n => Sys2Proof.Machine.execShflUp o n s
  | .shflDown o n => Sys2Proof.Machine.execShflDown o n s
  | .shflXor o n => Sys2Proof.Machine.execShflXor o n s
  | .shflBcast o b => Sys2Proof.Machine.execShflBcast o b s
  | .voteAny g d a => Sys2Proof.Machine.execVoteAny g d a s
  | .voteAll g d a => Sys2Proof.Machine.execVoteAll g d a s
  | .voteBallot g d a => Sys2Proof.Machine.execVoteBallot g d a s
  | .voteCount g d a => Sys2Proof.Machine.execVoteCount g d a s
  | .voteAnyQ d a => Sys2Proof.Machine.execVoteAnyQ d a s
  | .voteAllQ d a => Sys2Proof.Machine.execVoteAllQ d a s
  | .voteBallotS d a => Sys2Proof.Machine.execVoteBallotS d a s
  | .tileRed o => Sys2Proof.Machine.execTileRed o s
  | .scan excl o => Sys2Proof.Machine.execScan excl o s
  | .matchLanes o pw => Sys2Proof.Machine.execMatchLanes o pw s
  | .append g d a b => Sys2Proof.Machine.execAppend g d a b s
  | .rand w64 g d => Sys2Proof.Machine.execRand w64 g d s
  | .popc o => Sys2Proof.Machine.execPopc o s
  | .clz o => Sys2Proof.Machine.execClz o s
  | .ctz o => Sys2Proof.Machine.execCtz o s
  | .brev o => Sys2Proof.Machine.execBrev o s
  | .idp4 o => Sys2Proof.Machine.execIdp4 o s
  | .pairedWord h0 h1 => Sys2Proof.Machine.execPairedWord h0 h1 s
  | .ld o => Sys2Proof.Machine.execLd o s
  | .st o => Sys2Proof.Machine.execSt o s
  | .ldScratch o => Sys2Proof.Machine.execLdScratch o s
  | .stScratch o => Sys2Proof.Machine.execStScratch o s
  | .ldParam o => Sys2Proof.Machine.execLdParam o s
  | .sldParam o => Sys2Proof.Machine.execSldParam o s
  | .sld o => Sys2Proof.Machine.execSld o s
  | .btSet wr d a b c => Sys2Proof.Machine.execBtSet wr d a b c s
  | .prefetch l2 g addr => Sys2Proof.Machine.execPrefetch l2 g addr s
  | .atom o => Sys2Proof.Machine.execAtom o s
  | .red o => Sys2Proof.Machine.execRed o s
  | .cas o => Sys2Proof.Machine.execCas o s
  | .vatom o => Sys2Proof.Machine.execVatom o s
  | .vred o => Sys2Proof.Machine.execVred o s
  | .fence o => Sys2Proof.Machine.execFence o s
  | .fencePhase o d => Sys2Proof.Machine.execFencePhase o d s
  | .fenceCompletion grp => Sys2Proof.Machine.execFenceCompletion grp s
  | .tileGive t => Sys2Proof.Machine.execTileGive t s
  | .tileGiveRst t => Sys2Proof.Machine.execTileGiveRst t s
  | .tileTake t => Sys2Proof.Machine.execTileTake t s
  | .tileTakeRelease grp => Sys2Proof.Machine.execTileTakeRelease grp s
  | .copy a c => Sys2Proof.Machine.execCopy a c s
  | .copyProgress op => Sys2Proof.Machine.execCopyProgress op s
  | .copyCompletion op => Sys2Proof.Machine.execCopyCompletion op s
  | .meshTree k a => Sys2Proof.Machine.execMeshTree k a s
  | .meshRed o => Sys2Proof.Machine.execMeshRed o s
  | .meshCancel k => Sys2Proof.Machine.execMeshCancel k s
  | .meshPartialAccept cluster tree child => Sys2Proof.Machine.execMeshPartialAccept cluster tree child s
  | .sdot o => Sys2Proof.Machine.execSdot o s
  | .sdotDispatch op => Sys2Proof.Machine.execSdotDispatch op s
  | .micaRowResult op => Sys2Proof.Machine.execMicaRowResult op s
  | .gangSet gidx bc br origin => Sys2Proof.Machine.execGangSet gidx bc br origin s
  | .gangClear => Sys2Proof.Machine.execGangClear s
  | .bond => Sys2Proof.Machine.execBond s
  | .bondHeld cluster origin => Sys2Proof.Machine.execBondHeld cluster origin s
  | .unbond => Sys2Proof.Machine.execUnbond s
  | .mcfg af bf => Sys2Proof.Machine.execMcfg af bf s
  | .mstat t rt a e => Sys2Proof.Machine.execMstat t rt a e s
  | .mstatRowRead core => Sys2Proof.Machine.execMstatRowRead core s
  | .mflip => Sys2Proof.Machine.execMflip s
  | .mstream o => Sys2Proof.Machine.execMstream o s
  | .arrayStep core => Sys2Proof.Machine.execArrayStep core s
  | .mzero w64 a => Sys2Proof.Machine.execMzero w64 a s
  | .mfill w64 a b => Sys2Proof.Machine.execMfill w64 a b s
  | .mdrain o => Sys2Proof.Machine.execMdrain o s
  | .mdrainT o => Sys2Proof.Machine.execMdrainT o s
  | .matrixEntryPerform core => Sys2Proof.Machine.execMatrixEntryPerform core s
  | .mstatus d c => Sys2Proof.Machine.execMstatus d c s
  | .rdps d num => Sys2Proof.Machine.execRdps d num s
  | .wrps num a => Sys2Proof.Machine.execWrps num a s
  | .tret skip => Sys2Proof.Machine.execTret skip s
  | .csave a b c => Sys2Proof.Machine.execCsave a b c s
  | .crest a b c => Sys2Proof.Machine.execCrest a b c s
  | .tlbinv kind a b c => Sys2Proof.Machine.execTlbinv kind a b c s
  | .harvest a b c => Sys2Proof.Machine.execHarvest a b c s
  | .atcinv a b c => Sys2Proof.Machine.execAtcinv a b c s
  | .invalidationCompletion op => Sys2Proof.Machine.execInvalidationCompletion op s
  | .fltAck act vfq d a => Sys2Proof.Machine.execFltAck act vfq d a s
  | .haltAck discard d a => Sys2Proof.Machine.execHaltAck discard d a s
  | .regionAbort d a => Sys2Proof.Machine.execRegionAbort d a s
  | .tileReset a t => Sys2Proof.Machine.execTileReset a t s
  | .phaseSet completed a b => Sys2Proof.Machine.execPhaseSet completed a b s
  | .frondEnd => Sys2Proof.Machine.execFrondEnd s
  | .frondMovi o => Sys2Proof.Machine.execFrondMovi o s
  | .frondAddi o => Sys2Proof.Machine.execFrondAddi o s
  | .frondAndi o => Sys2Proof.Machine.execFrondAndi o s
  | .frondAdd o => Sys2Proof.Machine.execFrondAdd o s
  | .frondSub o => Sys2Proof.Machine.execFrondSub o s
  | .frondAnd o => Sys2Proof.Machine.execFrondAnd o s
  | .frondOr o => Sys2Proof.Machine.execFrondOr o s
  | .frondXor o => Sys2Proof.Machine.execFrondXor o s
  | .frondShl o => Sys2Proof.Machine.execFrondShl o s
  | .frondShr o => Sys2Proof.Machine.execFrondShr o s
  | .frondLdp o => Sys2Proof.Machine.execFrondLdp o s
  | .frondLdw o => Sys2Proof.Machine.execFrondLdw o s
  | .frondStw o => Sys2Proof.Machine.execFrondStw o s
  | .frondSts o => Sys2Proof.Machine.execFrondSts o s
  | .frondBeq o => Sys2Proof.Machine.execFrondBeq o s
  | .frondBne o => Sys2Proof.Machine.execFrondBne o s
  | .frondBltu o => Sys2Proof.Machine.execFrondBltu o s
  | .frondLoop n len => Sys2Proof.Machine.execFrondLoop n len s
  | .frondAct o => Sys2Proof.Machine.execFrondAct o s
  | .frondFail code => Sys2Proof.Machine.execFrondFail code s
  | .undefinedBitPattern w => Sys2Proof.Machine.execUndefinedBitPattern w s
  | .clauseIssue grp => Sys2Proof.Machine.execClauseIssue grp s
  | .withheldRecordWrite grp => Sys2Proof.Machine.execWithheldRecordWrite grp s
  | .variableLatencyCompletion op => Sys2Proof.Machine.execVariableLatencyCompletion op s
  | .waitSatisfied grp => Sys2Proof.Machine.execWaitSatisfied grp s
  | .waitTimeout grp => Sys2Proof.Machine.execWaitTimeout grp s
  | .monitorReread grp => Sys2Proof.Machine.execMonitorReread grp s
  | .teamRetirement team => Sys2Proof.Machine.execTeamRetirement team s
  | .clusterPlacement launch => Sys2Proof.Machine.execClusterPlacement launch s
  | .postedOperationPerform acc => Sys2Proof.Machine.execPostedOperationPerform acc s
  | .storeBufferDrain entry => Sys2Proof.Machine.execStoreBufferDrain entry s
  | .drainBoundExpiry entry => Sys2Proof.Machine.execDrainBoundExpiry entry s
  | .sliceAccess acc => Sys2Proof.Machine.execSliceAccess acc s
  | .forcedAccessPerform acc => Sys2Proof.Machine.execForcedAccessPerform acc s
  | .storeCompletion pend => Sys2Proof.Machine.execStoreCompletion pend s
  | .leaseExpiry core sector => Sys2Proof.Machine.execLeaseExpiry core sector s
  | .phaseMarkerArrival home src => Sys2Proof.Machine.execPhaseMarkerArrival home src s
  | .orairAcknowledgement acc => Sys2Proof.Machine.execOrairAcknowledgement acc s
  | .walkCompletion grp => Sys2Proof.Machine.execWalkCompletion grp s
  | .atsCompletion ans => Sys2Proof.Machine.execAtsCompletion ans s
  | .atsInvalidateRequest fn page count => Sys2Proof.Machine.execAtsInvalidateRequest fn page count s
  | .priResponse grp success => Sys2Proof.Machine.execPriResponse grp success s
  | .qreload fn v => Sys2Proof.Machine.execQreload fn v s
  | .qtctl fn v => Sys2Proof.Machine.execQtctl fn v s
  | .writeIndexRead fn q => Sys2Proof.Machine.execWriteIndexRead fn q s
  | .packetStart fn q => Sys2Proof.Machine.execPacketStart fn q s
  | .launch a => Sys2Proof.Machine.execLaunch a s
  | .launchDep a => Sys2Proof.Machine.execLaunchDep a s
  | .queueCopy a => Sys2Proof.Machine.execQueueCopy a s
  | .queueCopyCompletion op => Sys2Proof.Machine.execQueueCopyCompletion op s
  | .signal a => Sys2Proof.Machine.execSignal a s
  | .mark a => Sys2Proof.Machine.execMark a s
  | .waitsig a => Sys2Proof.Machine.execWaitsig a s
  | .waitsigSatisfied fn q => Sys2Proof.Machine.execWaitsigSatisfied fn q s
  | .binConfig a => Sys2Proof.Machine.execBinConfig a s
  | .halt a => Sys2Proof.Machine.execHalt a s
  | .resume a => Sys2Proof.Machine.execResume a s
  | .fltack a => Sys2Proof.Machine.execFltack a s
  | .tokenConsumption => Sys2Proof.Machine.execTokenConsumption s
  | .periodBoundary part => Sys2Proof.Machine.execPeriodBoundary part s
  | .clusterStop cluster => Sys2Proof.Machine.execClusterStop cluster s
  | .haltCompletion cluster => Sys2Proof.Machine.execHaltCompletion cluster s
  | .temperatureReport core degrees => Sys2Proof.Machine.execTemperatureReport core degrees s
  | .clockStep die => Sys2Proof.Machine.execClockStep die s
  | .create => Sys2Proof.Machine.execCreate s
  | .start => Sys2Proof.Machine.execStart s
  | .stop => Sys2Proof.Machine.execStop s
  | .update => Sys2Proof.Machine.execUpdate s
  | .destroy => Sys2Proof.Machine.execDestroy s
  | .assign => Sys2Proof.Machine.execAssign s
  | .free => Sys2Proof.Machine.execFree s
  | .freeScrub => Sys2Proof.Machine.execFreeScrub s
  | .exportMem => Sys2Proof.Machine.execExportMem s
  | .importMem => Sys2Proof.Machine.execImportMem s
  | .revoke => Sys2Proof.Machine.execRevoke s
  | .unmap => Sys2Proof.Machine.execUnmap s
  | .vfbind grp v => Sys2Proof.Machine.execVfbind grp v s
  | .vfbud grp v => Sys2Proof.Machine.execVfbud grp v s
  | .hostpart grp v => Sys2Proof.Machine.execHostpart grp v s
  | .lichen grp v => Sys2Proof.Machine.execLichen grp v s
  | .inject grp v => Sys2Proof.Machine.execInject grp v s
  | .fqbase grp v => Sys2Proof.Machine.execFqbase grp v s
  | .fqcfg grp v => Sys2Proof.Machine.execFqcfg grp v s
  | .fqridx grp v => Sys2Proof.Machine.execFqridx grp v s
  | .registerWrite t v => Sys2Proof.Machine.execRegisterWrite t v s
  | .prepare p => Sys2Proof.Machine.execPrepare p s
  | .pagePush page => Sys2Proof.Machine.execPagePush page s
  | .migrationHalt => Sys2Proof.Machine.execMigrationHalt s
  | .shipItemReceive => Sys2Proof.Machine.execShipItemReceive s
  | .pagePullRequest page => Sys2Proof.Machine.execPagePullRequest page s
  | .forwardedAtomic f => Sys2Proof.Machine.execForwardedAtomic f s
  | .pageTransfer page => Sys2Proof.Machine.execPageTransfer page s
  | .pageFlip page => Sys2Proof.Machine.execPageFlip page s
  | .migrationDone => Sys2Proof.Machine.execMigrationDone s
  | .abort => Sys2Proof.Machine.execAbort s
  | .graceWindowExpiry => Sys2Proof.Machine.execGraceWindowExpiry s
  | .peerTimeout => Sys2Proof.Machine.execPeerTimeout s
  | .migrationLinkFailure => Sys2Proof.Machine.execMigrationLinkFailure s
  | .coldReset => Sys2Proof.Machine.execColdReset s
  | .functionReset => Sys2Proof.Machine.execFunctionReset s
  | .vfFunctionLevelReset vf => Sys2Proof.Machine.execVfFunctionLevelReset vf s
  | .dieResetGraceful die => Sys2Proof.Machine.execDieResetGraceful die s
  | .dieResetForced die => Sys2Proof.Machine.execDieResetForced die s
  | .attestationRequest v => Sys2Proof.Machine.execAttestationRequest v s
  | .vfAttestationRequest vf v => Sys2Proof.Machine.execVfAttestationRequest vf v s
  | .correctedError kind unit addr => Sys2Proof.Machine.execCorrectedError kind unit addr s
  | .uncorrectedError kind unit addr => Sys2Proof.Machine.execUncorrectedError kind unit addr s
  | .sparePeColumn unit => Sys2Proof.Machine.execSparePeColumn unit s
  | .spareIssuePipe unit => Sys2Proof.Machine.execSpareIssuePipe unit s
  | .spareL2Way unit => Sys2Proof.Machine.execSpareL2Way unit s
  | .spareMsmRow unit => Sys2Proof.Machine.execSpareMsmRow unit s
  | .spareHbmRow unit => Sys2Proof.Machine.execSpareHbmRow unit s
  | .spareHbmBank unit => Sys2Proof.Machine.execSpareHbmBank unit s
  | .spareOrairLane unit => Sys2Proof.Machine.execSpareOrairLane unit s
  | .spareEngagementComplete => Sys2Proof.Machine.execSpareEngagementComplete s
  | .portRetrain port => Sys2Proof.Machine.execPortRetrain port s
  | .portStopTimeout port => Sys2Proof.Machine.execPortStopTimeout port s
  | .flitReceive port flit => Sys2Proof.Machine.execFlitReceive port flit s
  | .atomicopRequest => Sys2Proof.Machine.execAtomicopRequest s
  | .healthTestFailure core => Sys2Proof.Machine.execHealthTestFailure core s
  | .coreFence core => Sys2Proof.Machine.execCoreFence core s
  | .orairPortTraining port => Sys2Proof.Machine.execOrairPortTraining port s
  | .dieResetEnd die => Sys2Proof.Machine.execDieResetEnd die s
  | .fuseCommand svn => Sys2Proof.Machine.execFuseCommand svn s

end Sys2Proof.Machine
end

