-- ==== Sys2Proof/Machine/Place.lean ====
section
/-!
DEFINITION. The passing of time, and the placing of one word where the next step fetches it: what a launch from outside
the machine would have set up for a one-group team of the physical function.
-/
namespace Sys2Proof.Machine
open Sys2Proof

/-! ### Time (R28) -/

/-- A bound by which something is due, where the duty stands. -/
def atMost (stands : Bool) (due tick n : Nat) : Nat := if stands then min n (due - tick) else n

/-- Whether a store on its way could go on now: one that waits for something else has no bound. -/
def State.canServe (s : State) (id : Nat) : Bool := (s.serve id).accOf id ≠ s.accOf id

/-- Whether a hub read for a function would come to an end now. -/
def State.canRead (s : State) (fn va : Nat) : Bool :=
  match (s.hubBytes fn va 8).1 with
  | .ok none => false
  | _ => true

/-- The words that a queue watches: its write index in RUN and WAIT, the word of its WAITSIG in WAIT (R388, R396). -/
def State.queueSlack (s : State) (key n : Nat) : Nat :=
  let fn := key / 64
  let u := s.queue fn (key % 64)
  let on : Bool := s.served fn && (u.state = .run || u.state = .wait)
  let n := atMost (on && s.canRead fn u.widxa) u.due s.tick n
  atMost (on && u.state = .wait && s.canRead fn u.wsAddr) u.wsDue s.tick n

/-- The ticks that may pass before a bounded duty is due: a store performs within 16,384 ticks of its issue unless it is held or
waits (R128); WAITs are evaluated, or end (R49, R50); queues read their words again (R388); a halted cluster stops within 400
(R403); a microsecond is paid for and a period ends (R401). (DESIGN CHOICE, log 12.) -/
def State.slack (s : State) (n : Nat) : Nat :=
  let t := s.tick
  let n := s.sb.foldl (fun n p => atMost (p.2.hold = 0) (p.2.issued + 16384) t n) n
  let n := s.acc.foldl (fun n p =>
    atMost (p.2.kind = .store && p.2.issued + 16384 < t + n && s.canServe p.1) (p.2.issued + 16384) t n) n
  let n := s.groups.foldl (fun n p => s.waitSlack p.1 n) n
  let n := s.queues.foldl (fun n p => s.queueSlack p.1 n) n
  let n := s.clusters.foldl (fun n p =>
    atMost (p.2.halt = .halting && p.2.teams.any (fun t => (s.team t).halt = .running)) (p.2.haltAt + 400) t n) n
  let n := s.parts.foldl (fun n p => atMost (p.2.state = .running && p.2.period ≠ 0) p.2.boundary t n) n
  atMost (s.fns.any (fun p => p.2.bound && p.1 < 256)) s.usNext t n

/-- Time passes, at most to the first bounded duty; the records of the tick that ends are posted first (R346). -/
def State.elapse (s : State) (n : Nat) : State :=
  let k := s.slack n
  if k = 0 then s else let s := s.postRecords; { s with tick := s.tick + k }

/-! ### Placing a word -/

/-- The page tables of an identity map of 512 MiB: tables of stage 2 at 0x10000, of stage 1 at 0x40000 (R363, R364). -/
def placeTables (m : Memory) : Memory :=
  let put (m : Memory) (a e : Nat) : Memory := Memory.store m a 8 e
  put (put (put (put (put (put m 0x10000 0x20003) 0x20000 0x30003) 0x30000 0x8d) 0x40000 0x50003) 0x50000 0x60003) 0x60000 0x8d

/-- A group at the first word of a clause of one word, all lanes active, in HOST mode. -/
def placedGroup (g : Group) : Group :=
  { g with
    live := true, team := 1, idx := 0, vf := 256, mode := 2, blocks := 32
    inClause := true, clause := 0, nextClause := 16, off := 0, word := 0, count := 0, cls := 3, unif := false
    snap := List.replicate 32 0, planeFrom := 0, mask := BitVec.allOnes 32, exited := 0, tilew := 32, tilewNext := 32
    park := .running, engFault := false, replay := 0, held := false, heldWalk := [], heldAts := [], sfault := 0, cshape := 0x101, node := 0xffffffff }

/-- The launch, cluster and team of that group on core 0 with its function, partition and frames. -/
def State.placeTeam (s : State) : State :=
  let owned : Frame := { st := 1, owner := 1 }
  { s with
    parts := FMap.upd s.parts 1 (fun p => { p with
      state := .running, parent := 0xff, cores := 1, s2root := 0x10000, maxScope := 3, lease := 256 })
    hostPart := 1
    hs1root := 0x40001
    frames := FMap.setMany s.frames [(4, owned), (5, owned), (6, owned), (8, owned)]
    launches := FMap.upd s.launches 1 (fun l => { l with
      state := .active, fn := 256, part := 1, mode := 2, image := 0x80000, planes := 1, code := 128
      plen := 0x100, groups := 1, rows := 1, cols := 1, trap := none })
    clusters := FMap.upd s.clusters 1 (fun c => { c with
      live := true, launch := 1, rows := 1, cols := 1, cores := [0], teams := [1] })
    teams := FMap.upd s.teams 1 (fun t => { t with
      live := true, cluster := 1, core := 0, groups := [1], share := 0x10000, msmRows := 64, halt := .running })
    nextId := max s.nextId 2 }

/-- A kernel word placed as the first word of a clause whose issue is the next turn. -/
def State.placeWord (s : State) (w : Nat) : State :=
  let s := s.placeTeam
  { s with
    groups := FMap.upd s.groups 1 placedGroup
    mem := Memory.store (Memory.store (placeTables s.mem) 0x80080 8 0xc1a5000000000600) 0x80088 8 w
    cores := FMap.upd s.cores 0 (fun c => { c with pipes := [], icache := [] })
    agenda := [.issue 1] }

/-- A Frond word placed as the program of a running packet of queue 0 of function 0, whose interpreter turns next. -/
def State.placeFrond (s : State) (w : Nat) : State :=
  let s := s.modFn 0 (fun r => { r with bound := true, leaf := 1, loaded := true })
  let s := s.modPart 1 (fun p => { p with state := .running, parent := 0xff, cores := 1, s2root := 0x10000 })
  { s.setQueue 0 0 { s.queue 0 0 with
      loaded := true, state := .run, active := true, due := s.tick + 4096, words := [BitVec.ofNat 32 w], pc := 0, loops := [] } with
    agenda := [.frond 0 0] }

end Sys2Proof.Machine
end

