-- ==== Sys2Proof/Machine/Step.lean ====
section
/-!
DEFINITION. One step: the next turn of the agenda, or, with no turn named, the passing of one tick.
-/
namespace Sys2Proof.Machine
open Sys2Proof

/-- What a fetch comes to. -/
def Fetched.run! (f : Fetched) : Host.Outcome State Fault Refusal :=
  match f with
  | .done s => .next s
  | .run i s => exec i s

/-- The state a turn starts from: the turn leaves the agenda, and the free values of this step are fresh.
(DESIGN CHOICE, log 2.) -/
def State.begin (s : State) (rest : List Turn) : State := { s with agenda := rest, freeCtr := s.freeCtr + 1 }

/-- One step of the machine. (DESIGN CHOICE, log 1; DEDUCED, log 11; DEDUCED, log 131; DESIGN CHOICE, log 142.) -/
def step (s : State) : Host.Outcome State Fault Refusal :=
  match s.agenda with
  | [] => .next (s.elapse 1)
  | .issue g :: rest => ((s.begin rest).issueGroup g).run!
  | .frond fn q :: rest => ((s.begin rest).issueFrond fn q).run!
  | .hw i :: rest => if i.isWord then .next (s.begin rest) else exec i (s.begin rest)
  | .elapse n :: rest => .next ((s.begin rest).elapse n)
  | .hostWrite a bytes :: rest => .next ((s.begin rest).hostStore (cellsAt a bytes))
  | .heatLimit d :: rest => .next ((s.begin rest).setHotLimit d)

/-- The state with a table word stored where the next step fetches it: words of up to 32 bits are Frond words.
(DESIGN CHOICE, log 4.) -/
def State.withFetchWord (s : State) (nbits w : Nat) : State := if nbits ≤ 32 then s.placeFrond w else s.placeWord w

end Sys2Proof.Machine
end

