-- ==== Sys2Proof/Safety.lean ====
section
/-!
DEFINITION. The terms of the claims: memory in its canonical form, an instruction that completes, and what an instruction
leaves unchanged.
-/
namespace Sys2Proof.Machine

/-- The memory of HBM is in canonical form. -/
abbrev Memory.wf (m : Memory) : Prop := FMap.wf m = true

/-- The keys of a table rise strictly: no key is listed twice. -/
abbrev FMap.Rising {α : Type} (m : FMap α) : Prop := (FMap.keys m).Pairwise (· < ·)

/-- The object tables of the machine list every object once, in the order of their numbers. -/
abbrev State.Ordered (s : State) : Prop :=
  FMap.Rising s.groups ∧ FMap.Rising s.teams ∧ FMap.Rising s.clusters ∧ FMap.Rising s.launches ∧ FMap.Rising s.cores ∧
  FMap.Rising s.acc ∧ FMap.Rising s.sb ∧ FMap.Rising s.ops ∧ FMap.Rising s.pend ∧ FMap.Rising s.bonds ∧ FMap.Rising s.fns ∧
  FMap.Rising s.queues ∧ FMap.Rising s.parts ∧ FMap.Rising s.exports ∧ FMap.Rising s.imports

/-- The instruction answers a next state of which P holds. -/
def Completes (i : Instr) (s : State) (P : State → Prop) : Prop := ∃ t : State, exec i s = .next t ∧ P t

/-! ### Frames -/

/-- Every byte of memory reads as before: HBM through any observer's load, the host's memory, every team's scratch. -/
def SameMemory (s t : State) : Prop :=
  (∀ (o : Observer) (a : Nat), t.loadByte o a = s.loadByte o a) ∧
  (∀ a : Nat, t.hostByte a = s.hostByte a) ∧
  (∀ k a : Nat, FMap.get (t.team k).scratch a = FMap.get (s.team k).scratch a)

/-- The whole machine is as before but for the record of one group: every other group, every team, tile, queue, register of
the hub and every byte of memory. -/
def OnlyGroup (s t : State) (g : Nat) : Prop :=
  { t with groups := s.groups } = s ∧ (∀ h : Nat, h ≠ g → t.grp h = s.grp h) ∧ SameMemory s t

/-- Every group is as before, but for what its monitors and its fences still wait for: a store that becomes
visible is noted there. -/
def KeepsGroups (s t : State) : Prop := ∀ h : Nat, { t.grp h with wait := (s.grp h).wait, fence := (s.grp h).fence } = s.grp h

/-- Only the listed scalar registers of the issuing group may have changed: every other scalar register, every vector
register, tag, predicate, counter, special register, trap and fault record is as before. -/
def ScalarFrame (s t : State) (ds : List Nat) : Prop :=
  OnlyGroup s t s.cur ∧
  { t.grp s.cur with
    sregs := (s.grp s.cur).sregs, vpoison := (s.grp s.cur).vpoison, notReady := (s.grp s.cur).notReady
    clobber := (s.grp s.cur).clobber } = s.grp s.cur ∧
  (∀ p : Nat, (∀ r ∈ ds, p ≠ sPlace r) → FMap.get (t.grp s.cur).vpoison p = FMap.get (s.grp s.cur).vpoison p) ∧
  (∀ r : Nat, r ∉ ds → FMap.get (t.grp s.cur).sregs r = FMap.get (s.grp s.cur).sregs r) ∧
  (∀ p : Nat, (∀ r ∈ ds, p ≠ sPlace r) → (t.grp s.cur).marked p = (s.grp s.cur).marked p)

/-- Only one uniform predicate of the issuing group may have changed. -/
def UniformFrame (s t : State) (q : Nat) : Prop :=
  OnlyGroup s t s.cur ∧
  { t.grp s.cur with
    qregs := (s.grp s.cur).qregs, notReady := (s.grp s.cur).notReady, clobber := (s.grp s.cur).clobber } = s.grp s.cur ∧
  (∀ j : Nat, j ≠ q → (t.grp s.cur).qregs.getLsbD j = (s.grp s.cur).qregs.getLsbD j) ∧
  (∀ p : Nat, p ≠ qPlace q → (t.grp s.cur).marked p = (s.grp s.cur).marked p)

/-- Only the lanes of a mask of the listed vector registers, and their tags, may have changed in the issuing group. -/
def VectorFrame (s t : State) (ds : List Nat) (m : LaneMask) : Prop :=
  OnlyGroup s t s.cur ∧
  { t.grp s.cur with
    vregs := (s.grp s.cur).vregs, vtags := (s.grp s.cur).vtags, vpoison := (s.grp s.cur).vpoison
    posTags := (s.grp s.cur).posTags, notReady := (s.grp s.cur).notReady, clobber := (s.grp s.cur).clobber } = s.grp s.cur ∧
  (∀ r l : Nat, l < 32 → (r ∉ ds ∨ m.getLsbD l = false) →
    FMap.get (t.grp s.cur).vregs (32 * r + l) = FMap.get (s.grp s.cur).vregs (32 * r + l)) ∧
  (∀ r : Nat, r ∉ ds → FMap.get (t.grp s.cur).vtags r = FMap.get (s.grp s.cur).vtags r) ∧
  (∀ p : Nat, p ∉ ds → FMap.get (t.grp s.cur).vpoison p = FMap.get (s.grp s.cur).vpoison p) ∧
  (∀ r : Nat, r ∉ ds → (t.grp s.cur).marked r = (s.grp s.cur).marked r)

/-- Only the lanes of a mask of one per-lane predicate may have changed in the issuing group. -/
def PredFrame (s t : State) (d : Nat) (m : LaneMask) : Prop :=
  OnlyGroup s t s.cur ∧
  { t.grp s.cur with pregs := (s.grp s.cur).pregs } = s.grp s.cur ∧
  (∀ p : Nat, p ≠ d → FMap.get (t.grp s.cur).pregs p = FMap.get (s.grp s.cur).pregs p) ∧
  (∀ l : Nat, m.getLsbD l = false →
    (FMap.get (t.grp s.cur).pregs d).getLsbD l = (FMap.get (s.grp s.cur).pregs d).getLsbD l)

/-! ### What a word reads and leaves -/

/-- A scalar register, or the pair from it, as it stands. -/
def State.scalarAt (s : State) (r : Nat) (w64 : Bool) : DWord :=
  let m := (s.grp s.cur).sregs
  if w64 then pairOf (FMap.get m r) (FMap.get m (r + 1)) else (FMap.get m r).zeroExtend 64

/-- Lane l of a vector register, or of the pair from it, as it stands. -/
def State.laneAt (s : State) (r l : Nat) (w64 : Bool) : DWord :=
  let m := (s.grp s.cur).vregs
  if w64 then pairOf (FMap.get m (32 * r + l)) (FMap.get m (32 * (r + 1) + l)) else (FMap.get m (32 * r + l)).zeroExtend 64

/-- The registers of an operand of 32 or 64 bits. -/
def regsOf (r : Nat) (w64 : Bool) : List Nat := if w64 then [r, r + 1] else [r]

/-! ### Results -/

/-- An element of w bits holds the exact integer z: with .sat z clamped to the range of the type, else z modulo 2^w (R81). -/
def Holds (w : Nat) (sg sat : Bool) (z : Int) (r : Nat) : Prop :=
  r < 2 ^ w ∧
  (if sat then toZ w sg r = (if sg then max (-2 ^ (w - 1)) (min (2 ^ (w - 1) - 1) z) else max 0 (min (2 ^ w - 1) z))
   else ((2 : Int) ^ w ∣ toZ w sg r - z))

/-- The instruction completes, its scalar destination holds a value of which P holds, and nothing else changes. -/
def ScalarResult (i : Instr) (s : State) (d : SReg) (w64 : Bool) (P : DWord → Prop) : Prop :=
  Completes i s (fun t => P (t.scalarAt d.toNat w64) ∧ ScalarFrame s t (regsOf d.toNat w64))

/-- The instruction completes, its uniform predicate holds v, and nothing else changes. -/
def UniformResult (i : Instr) (s : State) (d : QReg) (v : Bool) : Prop :=
  Completes i s (fun t => (t.grp s.cur).qregs.getLsbD d.toNat = v ∧ UniformFrame s t d.toNat)

/-- A vector word with the write mask of its guard: where the checks of its operands pass it completes, every lane of the
mask of the destination holds a value of which P holds, the tags follow R77 and nothing else changes; where a check fails
it takes that exception. -/
def VectorResult (ok : Bool) (i : Instr) (s : State) (g : Guard) (uses : List VUse) (d : VReg) (w64 : Bool) (fmt : Tag)
    (P : Nat → DWord → Prop) : Prop :=
  (s.opFault ok uses (s.wmask g) = none → Completes i s (fun t =>
    (∀ l : Nat, l < 32 → (s.wmask g).getLsbD l = true → P l (t.laneAt d.toNat l w64)) ∧
    (s.iss.split = false → ∀ q ∈ regsOf d.toNat w64, FMap.get (t.grp s.cur).vtags q =
      newTag (FMap.get (s.grp s.cur).vtags q) fmt ((s.wmask g ||| (s.grp s.cur).exited) = BitVec.allOnes 32)) ∧
    VectorFrame s t (regsOf d.toNat w64) (s.wmask g))) ∧
  (∀ r : Raise, s.opFault ok uses (s.wmask g) = some r → exec i s = .next (s.raise r (s.wmask g)))

/-- A word that writes a per-lane predicate: where the checks of its operands pass it completes, every lane of the write mask
of the predicate holds v, and nothing else changes; where a check fails it takes that exception. -/
def PredResult (i : Instr) (s : State) (g : Guard) (uses : List VUse) (d : PReg) (v : Nat → Bool) : Prop :=
  (s.opFault true uses (s.wmask g) = none → Completes i s (fun t =>
    (∀ l : Nat, l < 32 → (s.wmask g).getLsbD l = true → (FMap.get (t.grp s.cur).pregs d.val).getLsbD l = v l) ∧
    PredFrame s t d.val (s.wmask g))) ∧
  (∀ r : Raise, s.opFault true uses (s.wmask g) = some r → exec i s = .next (s.raise r (s.wmask g)))

/-- Every element of a register value of type ty holds an exact integer. -/
def ElemsHold (ty : Tag) (sat : Bool) (z : Nat → Int) (v : DWord) : Prop :=
  ∀ j : Nat, j < (tagElems ty).2 → Holds (tagElems ty).1 (tagSigned ty) sat (z j) (elemOf v (tagElems ty).1 j)

/-- Element j of lane l of a vector operand as an exact integer. -/
def State.elemInt (s : State) (ty : Tag) (r : VReg) (l j : Nat) : Int :=
  toZ (tagElems ty).1 (tagSigned ty) (elemOf (s.vVal r (ty.width = 64) l) (tagElems ty).1 j)

/-- A scalar operand as an exact integer. -/
def State.scalarInt (s : State) (ty : Tag) (r : SReg) : Int := toZ ty.width (tagSigned ty) (s.sVal r (ty.width = 64)).toNat

/-! ### Outstanding operations and accesses -/

/-- Every access, buffer entry and operation bears a number below the next fresh one: the premise under which a fresh number
names nothing yet. -/
abbrev State.NumbersFresh (s : State) : Prop :=
  0 < s.nextId ∧ (∀ p ∈ s.acc, p.1 < s.nextId) ∧ (∀ p ∈ s.sb, p.1 < s.nextId) ∧ (∀ p ∈ s.ops, p.1 < s.nextId)

/-- The place an access performs at and its address there. -/
def Target.site : Target → Place × Nat
  | .hbm spa _ => (.hbm, spa)
  | .host h _ => (.host, h)
  | .remote h off => (.remote, h * 2 ^ 40 + off)

/-- The registers, predicates, path and special registers of the issuing group and everything of the other groups are as
before. -/
def KeepsRegisters (s t : State) : Prop :=
  let a := s.grp s.cur
  let b := t.grp s.cur
  b.vregs = a.vregs ∧ b.sregs = a.sregs ∧ b.pregs = a.pregs ∧ b.qregs = a.qregs ∧ b.planes = a.planes ∧ b.mask = a.mask ∧
  b.stack = a.stack ∧ b.exited = a.exited ∧ b.tilewNext = a.tilewNext ∧ b.gang = a.gang ∧ b.moved = a.moved ∧
  b.trapped = a.trapped ∧ (∀ h : Nat, h ≠ s.cur → t.grp h = s.grp h)

/-- The instruction completes as an outstanding operation of the issuing group on counter c (R66, R185): it bears the next
fresh number, its counter has risen by one, the places it will write are not ready, and no register or byte of memory
has changed yet; P holds of the state and the operation. -/
def IssuesOp (i : Instr) (s : State) (kind : OpKind) (c : Nat) (places : List Nat) (P : State → Op → Prop) : Prop :=
  Completes i s (fun t =>
    (t.op s.nextId).live = true ∧ (t.op s.nextId).kind = kind ∧ (t.op s.nextId).grp = s.cur ∧ (t.op s.nextId).ctr = c ∧
    P t (t.op s.nextId) ∧
    t.ctr s.cur c = s.ctr s.cur c + 1 ∧ (∀ d : Nat, d ≠ c → t.ctr s.cur d = s.ctr s.cur d) ∧
    (∀ p ∈ places, (t.grp s.cur).marked p = true) ∧ KeepsRegisters s t ∧ SameMemory s t)

/-- The operation waits for an access of a lane to its place. -/
def HasAccess (t : State) (o : Op) (id : Nat) (kind : AccKind) (l n : Nat) (site : Place × Nat) : Prop :=
  ∃ k ∈ o.waitOn, (t.accOf k).live = true ∧ (t.accOf k).kind = kind ∧ (t.accOf k).lane = l ∧ (t.accOf k).op = id ∧
    ((t.accOf k).place, (t.accOf k).addr) = site ∧ ((t.accOf k).size = n ∨ n = 16 ∧ (t.accOf k).size = 8)

/-! ### Frond words -/

/-- A Frond word that only computes: one register of the interpreter holds v (register 0 stays 0), the place has moved on, and
nothing else of the interpreter, of other queues or of the machine has changed. -/
def FrondResult (i : Instr) (s : State) (d : BitVec 4) (v : DWord) : Prop :=
  Completes i s (fun t =>
    (∀ r : BitVec 4, t.curQ.fr r = if r = d ∧ r ≠ 0 then v else s.curQ.fr r) ∧
    (t.curQ.pc, t.curQ.loops) = frAdvance s.curQ.pc s.curQ.loops ∧
    { t.curQ with fregs := s.curQ.fregs, pc := s.curQ.pc, loops := s.curQ.loops } = s.curQ ∧
    (∀ k : Nat, k ≠ qKey s.curFn s.curQueue → FMap.get t.queues k = FMap.get s.queues k) ∧ { t with queues := s.queues } = s)

/-- A store of bytes has set out for their places from an address on. -/
def SetOut (t : State) (a : Nat) (bytes : List Byte) : Prop :=
  ∀ (k : Nat) (b : Byte), bytes[k]? = some b → ∃ id, (t.accOf id).live = true ∧ (t.accOf id).kind = .store ∧
    (t.accOf id).place = .hbm ∧ lastCell (t.accOf id).data (a + k) = some b

/-! ### Matrix words -/

/-- What every matrix word needs before its own checks (R299): no open region, MSM rows, every lane not exited active, no held
bond of another group over the core and, for a joint word of a gang, a bond. -/
abbrev State.MatrixMayRun (s : State) (joint : Bool) : Prop :=
  let gr := s.grp s.cur
  gr.region.open_ = false ∧ (s.team gr.team).msmRows ≠ 0 ∧ s.active ||| gr.exited = BitVec.allOnes 32 ∧
  (∀ b, s.heldBond s.cur = some b → b.2.gidx = gr.idx) ∧
  (joint = true → gangValid gr.gang.toNat = true → s.gangBond s.cur ≠ none)

/-- A word has entered the queue of its core behind the others (R298). -/
def Enqueued (s t : State) (op : Nat) (row : Word) (fill : DWord) : Prop :=
  ∃ e, (t.matrixOf s.myCore).queue = s.myMatrix.queue ++ [e] ∧ e.word = s.iss.word ∧ e.grp = s.cur ∧ e.op = op ∧ e.row = row ∧
    e.fill = fill ∧ e.begun = false ∧ e.progress = 0 ∧ e.af = s.myMatrix.af ∧ e.bf = s.myMatrix.bf ∧
    (∀ c, c ≠ s.myCore → t.coreRec c = s.coreRec c)

end Sys2Proof.Machine
end

