-- ==== Sys2Proof/Certificates/Slice0/Obligations.lean ====
section
/-!
DEFINITION. The statements for the provers, and nothing else.
-/

open Sys2Proof Sys2Proof.Machine

/-! ### Scalar words (R207 to R216) -/

/-- R81, R208, R209: add, subtract, multiply, divide and compare-select of scalars work on the exact integers; the result wraps
modulo 2^w, or is clamped by `.sat`; a division by zero gives all ones and a remainder by zero the dividend. It concludes that
exec answers a next state, under conditions on the state and the operands alone, for: sadd, ssub, smul, smulhi, sdiv, srem,
smin, smax. -/
def Obligations.ScalarIntegerArithmetic : Prop :=
  ∀ (s : State) (o : SOp), o.ty ∈ intTags →
    let w := o.ty.width
    let w64 : Bool := w = 64
    let a := s.scalarInt o.ty o.a
    let b := s.scalarInt o.ty o.b
    let wraps (z : Int) (v : DWord) : Prop := Holds w (tagSigned o.ty) false z v.toNat
    sPairOk w64 o.d = true → sPairOk w64 o.a = true → sPairOk w64 o.b = true →
    ScalarResult (.sadd o) s o.d w64 (fun v => Holds w (tagSigned o.ty) o.sat (a + b) v.toNat) ∧
    ScalarResult (.ssub o) s o.d w64 (fun v => Holds w (tagSigned o.ty) o.sat (a - b) v.toNat) ∧
    ScalarResult (.smul o) s o.d w64 (wraps (a * b)) ∧
    ScalarResult (.smulhi o) s o.d w64 (wraps (a * b / 2 ^ w)) ∧
    ScalarResult (.sdiv o) s o.d w64 (fun v => if b = 0 then v.toNat = 2 ^ w - 1 else wraps (Int.tdiv a b) v) ∧
    ScalarResult (.srem o) s o.d w64 (fun v => if b = 0 then v = s.sVal o.a w64 else wraps (Int.tmod a b) v) ∧
    ScalarResult (.smin o) s o.d w64 (wraps (min a b)) ∧
    ScalarResult (.smax o) s o.d w64 (wraps (max a b))

/-- R208, R209, R216: bitwise words, shifts and rotates of scalars, moves, negation, absolute value and bit counts; a shift count
at or above the width gives zero, or the sign in every bit. R208: the bit counts of a scalar write 32 bits: the number of
ones, and the number of zero bits above the highest one. R210 to R212: the words with an immediate. It concludes that exec
answers a next state, under conditions on the state and the operands alone, for: sand, sor, sxor, sandn, sshl, sshr, srotl,
smov, sneg, sabs, spopc, sclz, saddi, sandi, sori, sxori, smovi, smoviI64, smoviN64, sshli, sshriN, sshriI, srotli. -/
def Obligations.ScalarBitsCountsAndImmediates : Prop :=
  (∀ (s : State) (o : SOp),
     let w := o.ty.width
     let w64 : Bool := w = 64
     let a := s.sVal o.a w64
     let b := s.sVal o.b w64
     let n := (s.rdS s.cur o.b.toNat).toNat
     let z := s.scalarInt o.ty o.a
     sPairOk w64 o.d = true → sPairOk w64 o.a = true →
     (sPairOk w64 o.b = true →
       ScalarResult (.sand o) s o.d w64 (· = a &&& b) ∧ ScalarResult (.sor o) s o.d w64 (· = a ||| b) ∧
       ScalarResult (.sxor o) s o.d w64 (· = a ^^^ b) ∧ ScalarResult (.sandn o) s o.d w64 (· = a &&& ~~~b)) ∧
     ScalarResult (.sshl o) s o.d w64 (· = if w64 then a <<< n else (loWord a <<< n).zeroExtend 64) ∧
     ScalarResult (.sshr o) s o.d w64 (fun v =>
       if tagSigned o.ty then v = (if w64 then a.sshiftRight n else ((loWord a).sshiftRight n).zeroExtend 64)
       else v = a >>> n) ∧
     ScalarResult (.srotl o) s o.d w64 (· = if w64 then a.rotateLeft n else ((loWord a).rotateLeft n).zeroExtend 64) ∧
     ScalarResult (.smov o) s o.d w64 (· = a) ∧
     (tagSigned o.ty = true →
       ScalarResult (.sneg o) s o.d w64 (fun v => Holds w true o.sat (-z) v.toNat) ∧
       ScalarResult (.sabs o) s o.d w64 (fun v => Holds w true o.sat |z| v.toNat))) ∧
  (∀ (s : State) (o : SOp),
     let w := o.ty.width
     let a := s.sVal o.a (w = 64)
     sPairOk (w = 64) o.a = true →
     ScalarResult (.spopc o) s o.d false (fun v => v.toNat = ((List.range w).filter (fun i => a.getLsbD i)).length) ∧
     ScalarResult (.sclz o) s o.d false (fun v => v.toNat ≤ w ∧ (∀ i, i < w → w ≤ v.toNat + i → a.getLsbD i = false) ∧
       (v.toNat < w → a.getLsbD (w - 1 - v.toNat) = true))) ∧
  (∀ (s : State) (d a : SReg) (imm : Word),
     let x := s.rdS s.cur a.toNat
     ScalarResult (.saddi d a imm) s d false (· = (x + imm).zeroExtend 64) ∧
     ScalarResult (.sandi d a imm) s d false (· = (x &&& imm).zeroExtend 64) ∧
     ScalarResult (.sori d a imm) s d false (· = (x ||| imm).zeroExtend 64) ∧
     ScalarResult (.sxori d a imm) s d false (· = (x ^^^ imm).zeroExtend 64) ∧
     ScalarResult (.smovi d imm) s d false (· = imm.zeroExtend 64) ∧
     (d.toNat % 2 = 0 → ScalarResult (.smoviI64 d imm) s d true (· = imm.signExtend 64) ∧
       ScalarResult (.smoviN64 d imm) s d true (· = imm.zeroExtend 64)) ∧
     ∀ o : SShI,
       let v := s.sVal o.a o.w64
       let n := o.count.toNat
       sPairOk o.w64 o.d = true → sPairOk o.w64 o.a = true →
       ScalarResult (.sshli o) s o.d o.w64 (· = if o.w64 then v <<< n else (loWord v <<< n).zeroExtend 64) ∧
       ScalarResult (.sshriN o) s o.d o.w64 (· = v >>> n) ∧
       ScalarResult (.sshriI o) s o.d o.w64
         (· = if o.w64 then v.sshiftRight n else ((loWord v).sshiftRight n).zeroExtend 64) ∧
       ScalarResult (.srotli o) s o.d o.w64
         (· = if o.w64 then v.rotateLeft n else ((loWord v).rotateLeft n).zeroExtend 64))

/-- R207, R213 to R216: compare, select, uniform-predicate logic, scaled addition and NOP. R245, R248, R256, R257: compares,
per-lane predicate logic and selection. It concludes that exec answers a next state, under conditions on the state and the
operands alone, for: nop, scmp, ssel, qand, qor, qxor, qandn, qnot, qset, sadda, icmp, fcmp, pand, por, pxor, pandn, pnot,
pclr, pset, pfromq, ptest, ptov, sel. -/
def Obligations.ScalarAndVectorCompares : Prop :=
  (∀ (s : State) (w64 : Bool) (q a b : QReg) (c : QReg) (d x y : SReg) (v : Bool) (n : BitVec 3),
     exec .nop s = .next s ∧
     UniformResult (.qand q a b) s q (s.qBit a && s.qBit b) ∧ UniformResult (.qor q a b) s q (s.qBit a || s.qBit b) ∧
     UniformResult (.qxor q a b) s q (s.qBit a ^^ s.qBit b) ∧ UniformResult (.qandn q a b) s q (s.qBit a && !s.qBit b) ∧
     UniformResult (.qnot q a) s q (!s.qBit a) ∧ UniformResult (.qset q v) s q v ∧
     (∀ (rel : Rel) (comb : Comb QReg) (ty : Tag), sPairOk (ty.width = 64) x = true → sPairOk (ty.width = 64) y = true →
       let r := relInt rel (s.scalarInt ty x) (s.scalarInt ty y)
       UniformResult (.scmp rel comb ty q x y) s q
         (match comb with | .plain => r | .andWith p => r && s.qBit p | .orWith p => r || s.qBit p)) ∧
     (sPairOk w64 d = true → sPairOk w64 x = true → sPairOk w64 y = true →
       ScalarResult (.ssel w64 d c x y) s d w64 (· = if s.qBit c then s.sVal x w64 else s.sVal y w64)) ∧
     (d.toNat % 2 = 0 → x.toNat % 2 = 0 →
       let k := s.rdS s.cur y.toNat
       ScalarResult (.sadda false n d x y) s d true (· = s.sVal x true + k.signExtend 64 <<< n.toNat) ∧
       ScalarResult (.sadda true n d x y) s d true (· = s.sVal x true + k.zeroExtend 64 <<< n.toNat))) ∧
  (∀ (s : State) (g : Guard) (d a b : PReg) (q : QReg) (x y z : VReg) (w64 : Bool),
     (∀ o : VCmp, o.ty ∈ intTags →
       let r (l : Nat) : Bool := relInt o.rel (s.elemInt o.ty o.a l 0) (s.elemInt o.ty o.b l 0)
       PredResult (.icmp o) s o.g [vSrc o.a o.ty, vSrc o.b o.ty] o.d (fun l =>
         match o.comb with | .plain => r l | .andWith p => r l && s.pBit p l | .orWith p => r l || s.pBit p l)) ∧
     (∀ o : VCmp, o.ty ∈ floatSingles →
       let v (n : VReg) (l : Nat) : FVal := (floatFmt o.ty).val (s.fVal o.ty n l)
       let r (l : Nat) : Bool := relFloat o.rel (v o.a l) (v o.b l)
       PredResult (.fcmp o) s o.g [vSrc o.a o.ty, vSrc o.b o.ty] o.d (fun l =>
         match o.comb with | .plain => r l | .andWith p => r l && s.pBit p l | .orWith p => r l || s.pBit p l)) ∧
     PredResult (.pand ⟨g, d, a, b⟩) s g [] d (fun l => s.pBit a l && s.pBit b l) ∧
     PredResult (.por ⟨g, d, a, b⟩) s g [] d (fun l => s.pBit a l || s.pBit b l) ∧
     PredResult (.pxor ⟨g, d, a, b⟩) s g [] d (fun l => s.pBit a l ^^ s.pBit b l) ∧
     PredResult (.pandn ⟨g, d, a, b⟩) s g [] d (fun l => s.pBit a l && !s.pBit b l) ∧
     PredResult (.pnot g d a) s g [] d (fun l => !s.pBit a l) ∧
     PredResult (.pclr g d) s g [] d (fun _ => false) ∧ PredResult (.pset g d) s g [] d (fun _ => true) ∧
     PredResult (.pfromq g d q) s g [] d (fun _ => s.qBit q) ∧
     PredResult (.ptest w64 g d x) s g [vUse x w64 .anyTag] d (fun l => s.vVal x w64 l ≠ 0) ∧
     VectorResult true (.ptov g x a) s g [vDst x false] x false .n32 (fun l v => v = if s.pBit a l then 1 else 0) ∧
     VectorResult true (.sel w64 g x a y z) s g [vDst x w64, vUse y w64 .bits, vUse z w64 .bits] x w64 (s.bitFmtOf [y, z] w64)
       (fun l v => v = if s.pBit a l then s.vVal y w64 l else s.vVal z w64 l))

/-! ### Vector words (R238 to R257, R266, R267) -/

/-- R240, R241, R255: moves of a vector register, of a scalar, of an immediate, and RETAG keep the bits; the tag written is the
one R77 gives the move, the raw tag, the immediate's type, or the tag RETAG names. R241: the binary32 immediate of `movi.f64`
is converted exactly: an F64 of the same value, sign of zero kept. It concludes that exec answers a next state, under
conditions on the state and the operands alone, for: mov, movs, movi, retag. -/
def Obligations.VectorMovesAndConstants : Prop :=
  (∀ (s : State),
     (∀ o : VW, VectorResult true (.mov o) s o.g [vDst o.d o.w64, vUse o.a o.w64 .bits] o.d o.w64 (s.bitFmtOf [o.a] o.w64)
       (fun l v => v = s.vVal o.a o.w64 l)) ∧
     (∀ (w64 : Bool) (g : Guard) (d : VReg) (a : SReg), VectorResult (sPairOk w64 a) (.movs w64 g d a) s g [vDst d w64] d w64
       (rawTag w64) (fun _ v => v = s.sVal a w64)) ∧
     (∀ (ty : Tag) (g : Guard) (d : VReg) (imm : Word), ty ≠ .f64 →
       VectorResult true (.movi ty g d imm) s g [vDst d (ty.width = 64)] d (ty.width = 64) ty
         (fun _ v => v = if ty = .i64 then imm.signExtend 64 else if ty = .f32x2 then pairOf imm imm else imm.zeroExtend 64)) ∧
     (∀ (g : Guard) (d : VReg) (imm : Word),
       VectorResult true (.movi .f64 g d imm) s g [vDst d true] d true .f64 (fun _ v => v = moviVal .f64 imm)) ∧
     (∀ o : VTy, VectorResult true (.retag o) s o.g [vDst o.d (o.ty.width = 64), vUse o.a (o.ty.width = 64) .anyTag] o.d
       (o.ty.width = 64) o.ty (fun l v => v = s.vVal o.a (o.ty.width = 64) l))) ∧
  (∀ imm : Word, match fF32.val imm.toNat with
     | .nan => (moviVal .f64 imm).toNat = fF64.nan
     | .inf neg => (moviVal .f64 imm).toNat = fF64.inf neg
     | .fin neg m e => m = 0 ∧ (moviVal .f64 imm).toNat = fF64.signBit neg ∨
         ∃ (n : Nat) (k : Int), m ≠ 0 ∧ fF64.val (moviVal .f64 imm).toNat = .fin neg n k ∧ k ≤ e ∧ n = m * 2 ^ (e - k).toNat)

/-- R242 to R245: integer arithmetic of vectors works on the exact value of every element of every lane of the write mask; the
result wraps, or is clamped by `.sat`. R242, R244, R267: the widening product of 32-bit integers, the addition of an immediate
to an index register, and the packed dot product. It concludes that exec answers a next state, under conditions on the state
and the operands alone, for: iadd, isub, imul, imulhi, imad, imulw, imin, imax, iabs, ineg, iaddi, idp4. -/
def Obligations.VectorIntegerArithmeticAndProducts : Prop :=
  (∀ (s : State) (o : VOp), o.ty ∈ vecIntTags →
     let t := o.ty
     let w64 : Bool := t.width = 64
     let w := (tagElems t).1
     let two : List VUse := [vDst o.d w64, vSrc o.a t, vSrc o.b t]
     let one : List VUse := [vDst o.d w64, vSrc o.a t]
     let a (l j : Nat) : Int := s.elemInt t o.a l j
     let b (l j : Nat) : Int := s.elemInt t o.b l j
     let c (l j : Nat) : Int := s.elemInt t o.c l j
     VectorResult true (.iadd o) s o.g two o.d w64 t (fun l => ElemsHold t o.sat (fun j => a l j + b l j)) ∧
     VectorResult true (.isub o) s o.g two o.d w64 t (fun l => ElemsHold t o.sat (fun j => a l j - b l j)) ∧
     VectorResult true (.imul o) s o.g two o.d w64 t (fun l => ElemsHold t o.sat (fun j => a l j * b l j)) ∧
     VectorResult true (.imulhi o) s o.g two o.d w64 t (fun l => ElemsHold t false (fun j => a l j * b l j / 2 ^ w)) ∧
     VectorResult true (.imad o) s o.g [vDst o.d w64, vSrc o.a t, vSrc o.b t, vSrc o.c t] o.d w64 t
       (fun l => ElemsHold t o.sat (fun j => a l j * b l j + c l j)) ∧
     VectorResult true (.imin o) s o.g two o.d w64 t (fun l => ElemsHold t false (fun j => min (a l j) (b l j))) ∧
     VectorResult true (.imax o) s o.g two o.d w64 t (fun l => ElemsHold t false (fun j => max (a l j) (b l j))) ∧
     VectorResult true (.iabs o) s o.g one o.d w64 t (fun l => ElemsHold t o.sat (fun j => |a l j|)) ∧
     VectorResult true (.ineg o) s o.g one o.d w64 t (fun l => ElemsHold t o.sat (fun j => -(a l j)))) ∧
  (∀ (s : State),
     (∀ o : VOp, o.ty = .i32 ∨ o.ty = .n32 →
       VectorResult true (.imulw o) s o.g [vDst o.d true, vSrc o.a o.ty, vSrc o.b o.ty] o.d true
         (if o.ty = .i32 then .i64 else .n64)
         (fun l v => Holds 64 (o.ty = .i32) false (s.elemInt o.ty o.a l 0 * s.elemInt o.ty o.b l 0) v.toNat)) ∧
     (∀ o : VImm, VectorResult true (.iaddi o) s o.g [vDst o.d false, vUse o.a false (.among idxTags)] o.d false
       ((s.grp s.cur).tagOf o.a.toNat) (fun l v => v = (s.rdV s.cur o.a.toNat l + o.imm).zeroExtend 64)) ∧
     (∀ o : VOp, o.ty = .i8x4 ∨ o.ty = .n8x4 →
       let t : Tag := if o.ty = .i8x4 then .i32 else .n32
       VectorResult true (.idp4 o) s o.g [vDst o.d false, vSrc o.a o.ty, vSrc o.b o.ty, vSrc o.c t] o.d false t
         (fun l => ElemsHold t o.sat (fun _ => s.elemInt t o.c l 0 +
           s.elemInt o.ty o.a l 0 * s.elemInt o.ty o.b l 0 + s.elemInt o.ty o.a l 1 * s.elemInt o.ty o.b l 1 +
           s.elemInt o.ty o.a l 2 * s.elemInt o.ty o.b l 2 + s.elemInt o.ty o.a l 3 * s.elemInt o.ty o.b l 3))))

/-- R243, R266: bitwise words, shifts, rotates, bit counts and bit reversal of vectors, read as bits under any tag of the width;
the count of a shift is a single register, and a count at or above the width gives zero or the sign. It concludes that exec
answers a next state, under conditions on the state and the operands alone, for: vand, vor, vxor, vandn, vnot, shl, shr, rotl,
popc, clz, ctz, brev. -/
def Obligations.VectorBitsAndShifts : Prop :=
  ∀ (s : State) (o : VOp),
    let w := o.ty.width
    let w64 : Bool := w = 64
    let bits (r : VReg) : VUse := vUse r w64 .bits
    let a (l : Nat) : DWord := s.vVal o.a w64 l
    let b (l : Nat) : DWord := s.vVal o.b w64 l
    let n (l : Nat) : Nat := (s.rdV s.cur o.b.toNat l).toNat
    let two : List VUse := [vDst o.d w64, bits o.a, bits o.b]
    let fmt2 := s.bitFmtOf [o.a, o.b] w64
    let fmt1 := s.bitFmtOf [o.a] w64
    let low (v : DWord) : DWord := if w64 then v else (loWord v).zeroExtend 64
    let sh : List VUse := [vDst o.d w64, bits o.a, vUse o.b false .bits]
    VectorResult true (.vand o) s o.g two o.d w64 fmt2 (fun l v => v = a l &&& b l) ∧
    VectorResult true (.vor o) s o.g two o.d w64 fmt2 (fun l v => v = a l ||| b l) ∧
    VectorResult true (.vxor o) s o.g two o.d w64 fmt2 (fun l v => v = a l ^^^ b l) ∧
    VectorResult true (.vandn o) s o.g two o.d w64 fmt2 (fun l v => v = a l &&& ~~~(b l)) ∧
    VectorResult true (.vnot o) s o.g [vDst o.d w64, bits o.a] o.d w64 fmt1 (fun l v => v = low (~~~(a l))) ∧
    VectorResult true (.shl o) s o.g sh o.d w64 fmt1 (fun l v => v = low (a l <<< n l)) ∧
    VectorResult true (.shr o) s o.g [vDst o.d w64, vSrc o.a o.ty, vUse o.b false .bits] o.d w64 o.ty (fun l v =>
      if tagSigned o.ty then v = (if w64 then (a l).sshiftRight (n l) else ((loWord (a l)).sshiftRight (n l)).zeroExtend 64)
      else v = a l >>> n l) ∧
    VectorResult true (.rotl o) s o.g sh o.d w64 fmt1 (fun l v =>
      v = if w64 then (a l).rotateLeft (n l) else ((loWord (a l)).rotateLeft (n l)).zeroExtend 64) ∧
    VectorResult true (.popc o) s o.g [vDst o.d false, bits o.a] o.d false .n32 (fun l v =>
      v.toNat = ((List.range w).filter (fun i => (a l).getLsbD i)).length) ∧
    VectorResult true (.clz o) s o.g [vDst o.d false, bits o.a] o.d false .n32 (fun l v =>
      v.toNat ≤ w ∧ (∀ i, i < w → w ≤ v.toNat + i → (a l).getLsbD i = false) ∧
      (v.toNat < w → (a l).getLsbD (w - 1 - v.toNat) = true)) ∧
    VectorResult true (.ctz o) s o.g [vDst o.d false, bits o.a] o.d false .n32 (fun l v =>
      v.toNat ≤ w ∧ (∀ i, i < v.toNat → (a l).getLsbD i = false) ∧ (v.toNat < w → (a l).getLsbD v.toNat = true)) ∧
    VectorResult true (.brev o) s o.g [vDst o.d w64, bits o.a] o.d w64 fmt1 (fun l v =>
      ∀ i, i < w → v.getLsbD i = (a l).getLsbD (w - 1 - i))

/-- R82 to R87, R246 to R248: float arithmetic of vectors: every element of every lane of the write mask is the operation of the
number format on the elements of the sources, rounded once in the word's mode. R249, R250, R66, R185: a special function that
passes its checks becomes an outstanding operation: its counter rises by one, its destination's tag is set, its destination is
not ready, and the operation holds the result of every lane of the write mask; the destination's lanes themselves are not yet
written. It concludes that exec answers a next state, under conditions on the state and the operands alone, for: fadd, fsub,
fmul, ffma, fnma, faddi, fmuli, fmin, fmax, fabs, fneg, fcopysign, fclass, rcp, sqrt, rsqrt, exp2, log2, sinpi, cospi, tanh.
-/
def Obligations.VectorFloatArithmeticAndFunctions : Prop :=
  (∀ (s : State) (o : VOp), o.ty ∈ floatTags →
     let t := o.ty
     let f := floatFmt t
     let w := (tagElems t).1
     let w64 : Bool := t.width = 64
     let e (r : VReg) (l j : Nat) : Nat := elemOf (s.vVal r w64 l) w j
     let two : List VUse := [vDst o.d w64, vSrc o.a t, vSrc o.b t]
     let one : List VUse := [vDst o.d w64, vSrc o.a t]
     let three : List VUse := [vDst o.d w64, vSrc o.a t, vSrc o.b t, vSrc o.c t]
     let are (g : Nat → Nat → Nat) (l : Nat) (v : DWord) : Prop := ∀ j, j < (tagElems t).2 → elemOf v w j = g l j % 2 ^ w
     VectorResult true (.fadd o) s o.g two o.d w64 t (are (fun l j => fAdd f o.rnd (e o.a l j) (e o.b l j))) ∧
     VectorResult true (.fsub o) s o.g two o.d w64 t (are (fun l j => fSub f o.rnd (e o.a l j) (e o.b l j))) ∧
     VectorResult true (.fmul o) s o.g two o.d w64 t (are (fun l j => fMul f o.rnd (e o.a l j) (e o.b l j))) ∧
     VectorResult true (.ffma o) s o.g three o.d w64 t (are (fun l j => fFma f o.rnd (e o.a l j) (e o.b l j) (e o.c l j))) ∧
     VectorResult true (.fnma o) s o.g three o.d w64 t (are (fun l j => fNma f o.rnd (e o.a l j) (e o.b l j) (e o.c l j))) ∧
     VectorResult true (.fmin o) s o.g two o.d w64 t (are (fun l j => fMin f (e o.a l j) (e o.b l j))) ∧
     VectorResult true (.fmax o) s o.g two o.d w64 t (are (fun l j => fMax f (e o.a l j) (e o.b l j))) ∧
     VectorResult true (.fabs o) s o.g one o.d w64 t (are (fun l j => fAbs f (e o.a l j))) ∧
     VectorResult true (.fneg o) s o.g one o.d w64 t (are (fun l j => fNeg f (e o.a l j))) ∧
     VectorResult true (.fcopysign o) s o.g two o.d w64 t (are (fun l j => fCopySign f (e o.a l j) (e o.b l j))) ∧
     (t ∈ floatSingles → VectorResult true (.fclass o) s o.g [vDst o.d false, vSrc o.a t] o.d false .n32
       (fun l v => v = BitVec.ofNat 64 (fClass f (e o.a l 0)) &&& 0xffffffff)) ∧
     (∀ i : VImm,
       VectorResult true (.faddi i) s i.g [vDst i.d false, vSrc i.a .f32] i.d false .f32
         (fun l v => v.toNat = fAdd fF32 .rne (s.rdV s.cur i.a.toNat l).toNat i.imm.toNat % 2 ^ 32) ∧
       VectorResult true (.fmuli i) s i.g [vDst i.d false, vSrc i.a .f32] i.d false .f32
         (fun l v => v.toNat = fMul fF32 .rne (s.rdV s.cur i.a.toNat l).toNat i.imm.toNat % 2 ^ 32))) ∧
  (∀ (s : State) (o : SfuOp),
     let w64 : Bool := o.ty.width = 64
     let wm := s.wmask o.g
     let f := floatFmt o.ty
     let x (l : Nat) : Nat := (s.vVal o.a w64 l).toNat
     let issues (i : Instr) (g : Nat → Nat) : Prop := Completes i s (fun t =>
       (∀ l, l < 32 → wm.getLsbD l = true → FMap.get (t.op s.nextId).res l = g (x l)) ∧
       (t.op s.nextId).live = true ∧ (t.op s.nextId).dst = o.d.toNat ∧ (t.op s.nextId).lanes = wm ∧
       t.ctr s.cur o.c.val = s.ctr s.cur o.c.val + 1 ∧
       (∀ c, c ≠ o.c.val → t.ctr s.cur c = s.ctr s.cur c) ∧
       (∀ r ∈ regsOf o.d.toNat w64, (t.grp s.cur).marked r = true) ∧
       (t.grp s.cur).vregs = (s.grp s.cur).vregs ∧ (t.grp s.cur).sregs = (s.grp s.cur).sregs ∧
       (∀ h, h ≠ s.cur → t.grp h = s.grp h) ∧ SameMemory s t)
     s.opFault true [vDst o.d w64, vSrc o.a o.ty] wm = none → s.ctr s.cur o.c.val < 255 →
     issues (.rcp o) (fRcp f o.rnd) ∧ issues (.sqrt o) (fSqrt f o.rnd) ∧ issues (.rsqrt o) (fRsqrt fF32) ∧
     issues (.exp2 o) fExp2 ∧ issues (.log2 o) fLog2 ∧ issues (.sinpi o) fSinPi ∧ issues (.cospi o) fCosPi ∧
     issues (.tanh o) fTanh)

/-- R251, R253: conversions, PACK and UNPACK of the lanes of the write mask. R89 to R92, R254: BLK.PACK packs the 32 lane values
(0 outside the write mask) of a float type into one dual-exponent block: its elements go to the lanes of vD, one a lane or
packed, and both exponents to sS; BLK.UNPACK gives each lane the value of its element. It concludes that exec answers a next
state, under conditions on the state and the operands alone, for: cvt, pack, unpack, blkPack, blkUnpack. -/
def Obligations.ConversionsOfLanesAndBlocks : Prop :=
  (∀ (s : State),
     (∀ o : CvtOp, VectorResult true (.cvt o) s o.g [vDst o.d (o.dst.width = 64), vSrc o.a o.src] o.d (o.dst.width = 64) o.dst
       (fun l v => v = cvtVal o (s.vVal o.a (o.src.width = 64) l))) ∧
     (∀ o : VTy, o.ty ∈ packTags →
       let w := (tagElems o.ty).1
       let n := (tagElems o.ty).2
       let w64 : Bool := o.ty.width = 64
       VectorResult true (.pack o) s o.g [vDst o.d w64, vRange o.a.toNat n 1 (.typed (unitTag o.ty))] o.d w64 o.ty
         (fun l v => ∀ j, j < n → elemOf v w j = (s.rdV s.cur (o.a.toNat + j) l).toNat % 2 ^ w) ∧
       (s.opFault true [vRange o.d.toNat n (if w64 then 2 else 1) .dst, vSrc o.a o.ty] (s.wmask o.g) = none →
         Completes (.unpack o) s (fun t =>
           (∀ j l, j < n → l < 32 → (s.wmask o.g).getLsbD l = true →
             t.laneAt (o.d.toNat + j) l false = BitVec.ofNat 64 (elemOf (s.vVal o.a w64 l) w j)) ∧
           VectorFrame s t ((List.range n).map (o.d.toNat + ·)) (s.wmask o.g))))) ∧
  (∀ (s : State) (o : BlkOp),
     let wm := s.wmask o.g
     let tag : Tag := if o.de4 then .de4x8 else .de8x4
     let n := if o.de4 then 8 else 4
     let w := if o.de4 then 4 else 8
     let x := (List.range 32).map (fun l => if wm.getLsbD l then (floatFmt o.fty).val (s.fVal o.fty o.a l) else .fin false 0 0)
     let blk := packBlock o.de4 o.delta.toNat x
     let el (i : Nat) : Nat := (blk.2.2[i]?).getD 0
     let e := (s.rdS s.cur o.s.toNat).toNat
     (s.opFault true [vDst o.d false, vSrc o.a o.fty] wm = none → Completes (.blkPack o) s (fun t =>
       t.scalarAt o.s.toNat false = (BitVec.ofNat 32 (blk.2.1 * 256 + blk.1)).zeroExtend 64 ∧
       (∀ l, l < 32 → wm.getLsbD l = true → o.cmp = false → t.laneAt o.d.toNat l false = BitVec.ofNat 64 (el l) &&& 0xffffffff) ∧
       (∀ l j, l < 32 / n → j < n → wm.getLsbD l = true → o.cmp = true →
         elemOf (t.laneAt o.d.toNat l false) w j = el (n * l + j) % 2 ^ w) ∧
       (∀ l, l < 32 → 32 / n ≤ l → o.cmp = true → t.laneAt o.d.toNat l false = s.laneAt o.d.toNat l false) ∧
       (∀ r l, l < 32 → (r ≠ o.d.toNat ∨ wm.getLsbD l = false) → t.laneAt r l false = s.laneAt r l false) ∧
       (∀ r, r ≠ o.s.toNat → t.scalarAt r false = s.scalarAt r false) ∧
       (∀ h, h ≠ s.cur → t.grp h = s.grp h) ∧ SameMemory s t)) ∧
     VectorResult true (.blkUnpack o) s o.g [vDst o.d false, vSrc o.a tag] o.d false o.fty (fun l v =>
       v = BitVec.ofNat 64 ((floatFmt o.fty).pack o.rnd false (deVal o.de4
         (if o.cmp then elemOf (s.vVal o.a false (l / n)) w (l % n) else elemOf (s.vVal o.a false l) w 0)
         (e % 256) (e / 256 % 256))) &&& 0xffffffff))

/-! ### Operations across lanes (R258 to R265) -/

/-- R259: a lane of the write mask takes the source's register bits of the lane its mode names, whether that lane is active or
not; a lane that would leave its tile keeps its own. It concludes that exec answers a next state, under conditions on the
state and the operands alone, for: shflIdx, shflUp, shflDown, shflXor, shflBcast. -/
def Obligations.Shuffles : Prop :=
  ∀ (s : State) (o : VW) (b : VReg) (n : BitVec 5) (r : SReg),
    let fmt := s.bitFmtOf [o.a] o.w64
    let src : VUse := vUse o.a o.w64 .bits
    let base (l : Nat) : Nat := l - l % s.tw
    VectorResult true (.shflIdx o b) s o.g [vDst o.d o.w64, src, vUse b false .bits] o.d o.w64 fmt
      (fun l v => v = s.vVal o.a o.w64 (base l + (s.rdV s.cur b.toNat l).toNat % s.tw)) ∧
    VectorResult true (.shflUp o n) s o.g [vDst o.d o.w64, src] o.d o.w64 fmt
      (fun l v => v = s.vVal o.a o.w64 (if n.toNat ≤ l % s.tw then l - n.toNat else l)) ∧
    VectorResult true (.shflDown o n) s o.g [vDst o.d o.w64, src] o.d o.w64 fmt
      (fun l v => v = s.vVal o.a o.w64 (if l % s.tw + n.toNat < s.tw then l + n.toNat else l)) ∧
    VectorResult true (.shflXor o n) s o.g [vDst o.d o.w64, src] o.d o.w64 fmt
      (fun l v => v = s.vVal o.a o.w64 (if (l % s.tw) ^^^ n.toNat < s.tw then base l + ((l % s.tw) ^^^ n.toNat) else l)) ∧
    VectorResult true (.shflBcast o r) s o.g [vDst o.d o.w64, src] o.d o.w64 fmt
      (fun l v => v = s.vVal o.a o.w64 (base l + (s.rdS s.cur r.toNat).toNat % s.tw))

/-- R258, R260: votes count the active lanes of each lane's tile; the votes over the whole group need TILEW = 32. R261, R262: a
reduction folds the active lanes of the tile in ascending order, a scan those up to the lane (exclusive: below it); MATCH
gives each lane the mask of the tile's lanes that hold its value, and to pW whether all of them do. R263, R56: outside a
region, with one tile of 32 lanes, APPEND adds the number of selected lanes to the 32-bit counter in scratch and gives each
selected lane the old count plus its rank; only that word of scratch and those lanes change. R264: with random logging off and
a working noise source, RAND gives each lane of the write mask fresh bits (whatever bits the source delivers) under the raw
tag, and counts one draw. It concludes that exec answers a next state, under conditions on the state and the operands alone,
for: voteAny, voteAll, voteBallot, voteCount, voteAnyQ, voteAllQ, voteBallotS, tileRed, scan, matchLanes, append, rand. -/
def Obligations.LanesVoteReduceMatchAndAppend : Prop :=
  (∀ (s : State) (g : Guard) (d a : PReg) (v : VReg) (q : QReg) (r : SReg),
     let act : List Nat := lanesOf s.active
     let tile (l : Nat) : List Nat := act.filter (fun u => u / s.tw = l / s.tw)
     let aye (u : Nat) : Bool := s.pBit a u
     0 < s.tw →
     PredResult (.voteAny g d a) s g [] d (fun l => (tile l).any aye) ∧
     PredResult (.voteAll g d a) s g [] d (fun l => (tile l).all aye) ∧
     VectorResult true (.voteBallot g v a) s g [vDst v false] v false .n32
       (fun l x => ∀ u, u < 32 → x.getLsbD u = decide (u ∈ tile l ∧ aye u = true)) ∧
     VectorResult true (.voteCount g v a) s g [vDst v false] v false .n32 (fun l x => x.toNat = ((tile l).filter aye).length) ∧
     (s.tw = 32 →
       UniformResult (.voteAnyQ q a) s q (act.any aye) ∧ UniformResult (.voteAllQ q a) s q (act.all aye) ∧
       ScalarResult (.voteBallotS r a) s r false (fun x => ∀ u, u < 32 → x.getLsbD u = (s.active.getLsbD u && aye u))) ∧
     (s.tw ≠ 32 →
       exec (.voteAnyQ q a) s = .next (s.raise (plainFault 4) s.active) ∧
       exec (.voteAllQ q a) s = .next (s.raise (plainFault 4) s.active) ∧
       exec (.voteBallotS r a) s = .next (s.raise (plainFault 4) s.active))) ∧
  (∀ (s : State) (o : RedArgs) (m : VW) (p : PReg),
     let bw : Bool := o.op ∈ [RedOp.and, .or, .xor]
     let w64 : Bool := o.ty.width = 64
     let uses : List VUse := [vDst o.d w64, if bw then vUse o.a w64 .bits else vSrc o.a o.ty]
     let fmt := if bw then s.bitFmtOf [o.a] w64 else o.ty
     let low (v : DWord) : DWord := if w64 then v else (loWord v).zeroExtend 64
     let vals (l : List Nat) : List Nat := l.map (fun u => (s.vVal o.a w64 u).toNat)
     let fold (l : List Nat) : DWord := low (BitVec.ofNat 64 (redFold o.op o.ty o.rnd (vals l)))
     VectorResult true (.tileRed o) s o.g uses o.d w64 fmt (fun l v => v = fold (s.contributors l)) ∧
     VectorResult true (.scan false o) s o.g uses o.d w64 fmt (fun l v => v = fold ((s.contributors l).filter (· ≤ l))) ∧
     VectorResult true (.scan true o) s o.g uses o.d w64 fmt (fun l v => v = fold ((s.contributors l).filter (· < l))) ∧
     VectorResult true (.matchLanes m none) s m.g [vDst m.d false, vUse m.a m.w64 .bits] m.d false .n32 (fun l v =>
       ∀ u, u < 32 → v.getLsbD u = decide (u ∈ s.contributors l ∧ s.vVal m.a m.w64 u = s.vVal m.a m.w64 l)) ∧
     (s.opFault true [vDst m.d false, vUse m.a m.w64 .bits] (s.wmask m.g) = none →
       Completes (.matchLanes m (some p)) s (fun t => (∀ l, l < 32 → (s.wmask m.g).getLsbD l = true →
         (∀ u, u < 32 → (t.laneAt m.d.toNat l false).getLsbD u =
           decide (u ∈ s.contributors l ∧ s.vVal m.a m.w64 u = s.vVal m.a m.w64 l)) ∧
         ((FMap.get (t.grp s.cur).pregs p.val).getLsbD l = true ↔
           ∀ u ∈ s.contributors l, ∀ k ∈ s.contributors l, s.vVal m.a m.w64 u = s.vVal m.a m.w64 k)) ∧
         (∀ r u, u < 32 → (r ≠ m.d.toNat ∨ (s.wmask m.g).getLsbD u = false) → t.laneAt r u false = s.laneAt r u false) ∧
         (∀ q u, q ≠ p.val ∨ (s.wmask m.g).getLsbD u = false →
           (FMap.get (t.grp s.cur).pregs q).getLsbD u = (FMap.get (s.grp s.cur).pregs q).getLsbD u) ∧
         (t.grp s.cur).sregs = (s.grp s.cur).sregs ∧ OnlyGroup s t s.cur))) ∧
  (∀ (s : State) (g : Guard) (d : VReg) (a : PReg) (b : SReg),
     let gr := s.grp s.cur
     let off := (s.rdS s.cur b.toNat).toNat
     let wm := s.wmask g
     let sel := wm &&& s.rdP s.cur a.val
     let old := s.scrNat s.cur gr.team off 4
     gr.region.open_ = false → gr.regionStores = [] → s.tw = 32 → off % 4 = 0 →
     s.opFault true [vDst d false] wm = none → (s.team gr.team).violates off 4 true = false →
     (s.team gr.team).poisoned off 4 = false →
     Completes (.append g d a b) s (fun t =>
       (∀ l, l < 32 → sel.getLsbD l = true →
         t.laneAt d.toNat l false = (BitVec.ofNat 32 (old + ((lanesOf sel).filter (· < l)).length)).zeroExtend 64) ∧
       (sel ≠ 0 → t.scrNat s.cur gr.team off 4 = (old + (lanesOf sel).length) % 2 ^ 32) ∧
       (∀ k x, (k ≠ gr.team ∨ x < off ∨ off + 4 ≤ x) → FMap.get (t.team k).scratch x = FMap.get (s.team k).scratch x) ∧
       (∀ r l, l < 32 → (r ≠ d.toNat ∨ sel.getLsbD l = false) → t.laneAt r l false = s.laneAt r l false) ∧
       (t.grp s.cur).sregs = gr.sregs ∧ (t.grp s.cur).pregs = gr.pregs ∧ (∀ h, h ≠ s.cur → t.grp h = s.grp h) ∧
       (∀ o x, t.loadByte o x = s.loadByte o x))) ∧
  (∀ (s : State) (w64 : Bool) (g : Guard) (d : VReg),
     let wm := s.wmask g
     let gr := s.grp s.cur
     s.opFault true [vDst d w64] wm = none → (s.coreRec (s.coreOf s.cur)).noiseFail = false →
     (s.fn gr.vf).rlcfg.getLsbD 63 = false →
     Completes (.rand w64 g d) s (fun t =>
       (∀ l, l < 32 → wm.getLsbD l = true → t.laneAt d.toNat l w64 =
         if w64 then Config.randBits s.freeCtr l else (loWord (Config.randBits s.freeCtr l)).zeroExtend 64) ∧
       (t.grp s.cur).draw = (gr.draw + 1) % 2 ^ 64 ∧
       (∀ r l, l < 32 → (r ∉ regsOf d.toNat w64 ∨ wm.getLsbD l = false) → t.laneAt r l false = s.laneAt r l false) ∧
       (t.grp s.cur).sregs = gr.sregs ∧ (t.grp s.cur).pregs = gr.pregs ∧ OnlyGroup s t s.cur))

/-- R195, R196: a paired word reads all the sources of both halves before it writes: where the checks pass, the destination of
each half that is no nop holds what that half computes from the registers before the word, and no other register changes. It
concludes that exec answers a next state, under conditions on the state and the operands alone, for: pairedWord. -/
def Obligations.PairedWords : Prop :=
  ∀ (s : State) (h0 h1 : Half), pairOk h0 h1 = true →
    let uses (h : Half) : List VUse := match halfFn h.op.toNat with | none => [] | some k => halfUses h k
    let dsts (h : Half) : List Nat := match halfFn h.op.toNat with | none => [] | some k => regsOf h.d.toNat (k.ty.width = 64)
    (s.opFault true (uses h0 ++ uses h1) s.active = none →
      Completes (.pairedWord h0 h1) s (fun t =>
        (∀ h, h = h0 ∨ h = h1 → ∀ k, halfFn h.op.toNat = some k → ∀ l, l < 32 → s.active.getLsbD l = true →
          t.laneAt h.d.toNat l (k.ty.width = 64) =
            (if k.ty.width = 64 then s.halfVal h k l else (loWord (s.halfVal h k l)).zeroExtend 64)) ∧
        VectorFrame s t (dsts h0 ++ dsts h1) s.active)) ∧
    (∀ r, s.opFault true (uses h0 ++ uses h1) s.active = some r →
      exec (.pairedWord h0 h1) s = .next (s.raise r s.active))

/-! ### Control transfer, planes, special registers (R43 to R47, R217 to R226) -/

/-- R46, R221: dividing a path by the offsets its lanes go to. If they all go to one offset, or only to the reconvergence offset,
the path goes there whole. Else the lanes bound for the lowest offset other than the reconvergence offset run first, with that
reconvergence offset; the other offsets wait above the entry of the reconvergence offset in ascending order, each with its own
lanes; the division fails only where more than 32 entries would stand. -/
def Obligations.PathsDivide : Prop :=
  ∀ (p : Path) (tgt : Nat → Nat) (j : Nat), p.mask ≠ 0 →
    let goes (o l : Nat) : Bool := p.mask.getLsbD l && tgt l = o
    (∀ o, (∀ l ∈ lanesOf p.mask, tgt l = o) → dividePath p tgt j = some { p with off := o }) ∧
    (∀ q, dividePath p tgt j = some q → (∃ l ∈ lanesOf p.mask, ∃ k ∈ lanesOf p.mask, tgt l ≠ tgt k) →
      q.recOff = some j ∧ q.off ≠ j ∧ (∀ l ∈ lanesOf p.mask, tgt l ≠ j → q.off ≤ tgt l) ∧
      (∀ l, l < 32 → q.mask.getLsbD l = goes q.off l) ∧
      q.stack.length ≤ 32 ∧
      ∃ es : List DivEntry, q.stack = es ++ (if p.recOff = some j then p.stack else ⟨j, p.mask, p.recOff⟩ :: p.stack) ∧
        (es.map (·.off)).Pairwise (· < ·) ∧
        (∀ o, o ∈ es.map (·.off) ↔ (∃ l ∈ lanesOf p.mask, tgt l = o) ∧ o ≠ j ∧ o ≠ q.off) ∧
        ∀ e ∈ es, e.recOff = some j ∧ ∀ l, l < 32 → e.mask.getLsbD l = goes e.off l)

/-- R43, R44, R219 to R223: BRA and BRX divide the path by the lanes' next offsets, an unguarded or uniform transfer takes the
whole path; a target that is no multiple of 8 below PLEN is ILLEGAL, a table index at or above the bound BRANCH_INDEX for its
lanes, a division past 32 entries STACK_OVERFLOW. R32, R47, R166, R224: EXIT removes the selected lanes from every mask; a
path left without lanes is popped; a group left without lanes has retired, and its team lists it; a member of a held bond that
would retire takes BOND_MISMATCH. It concludes that exec answers a next state, under conditions on the state and the operands
alone, for: bra, braQ, brx, call, ret, exit. -/
def Obligations.ControlTransfersAndExits : Prop :=
  (∀ s : State,
     let gr := s.grp s.cur
     let moves (i : Instr) (p : Path) : Prop := exec i s = .next (s.setGrp s.cur ((gr.setPath p).goto p.off))
     s.active = gr.mask → gr.mask ≠ 0 → s.iss.lastPlane = true → gr.brDests = [] →
     (∀ (g : Guard) (j : BitVec 16) (t : BitVec 29),
       let tgt (l : Nat) : Nat := if (s.wmask g).getLsbD l then t.toNat * 8 else s.iss.next
       (s.targetOk (t.toNat * 8) = true →
         (∀ p, dividePath gr.path tgt (j.toNat * 8) = some p → moves (.bra g j t) p) ∧
         (dividePath gr.path tgt (j.toNat * 8) = none → exec (.bra g j t) s = .next (s.raise (plainFault 7) s.active))) ∧
       (s.targetOk (t.toNat * 8) = false → exec (.bra g j t) s = .next (s.raise (plainFault 4) s.active))) ∧
     (∀ (q : QReg) (t : BitVec 29), s.targetOk (t.toNat * 8) = true →
       moves (.braQ q t) { gr.path with off := if s.qBit q then t.toNat * 8 else s.iss.next }) ∧
     (∀ (g : Guard) (bound : BitVec 8) (a : VReg) (b : SReg) (uns : Bool) (j : BitVec 16),
       let sel := s.wmask g
       let idx (l : Nat) : Nat := (s.rdV s.cur a.toNat l).toNat
       let at_ (l : Nat) : Nat := (s.rdS s.cur (b.toNat + idx l)).toNat
       let tgt (l : Nat) : Nat := if sel.getLsbD l then at_ l else s.iss.next
       s.opFault true [vSrc a (if uns then .n32 else .i32)] sel = none →
       ((∀ l ∈ lanesOf sel, idx l < bound.toNat ∧ s.targetOk (at_ l) = true) →
         ∀ p, dividePath gr.path tgt (j.toNat * 8) = some p → moves (.brx g bound a b uns j) p) ∧
       (∀ bad : LaneMask, bad ≠ 0 → (∀ l, l < 32 → bad.getLsbD l = (sel.getLsbD l && bound.toNat ≤ idx l)) →
         exec (.brx g bound a b uns j) s = .next (s.raise { plainFault 8 with lanes := bad } sel))) ∧
     (∀ (d : SReg) (t : BitVec 29), s.targetOk (t.toNat * 8) = true →
       Completes (.call d t) s (fun u => u.scalarAt d.toNat false = (BitVec.ofNat 32 s.iss.next).zeroExtend 64 ∧
         (u.grp s.cur).path = { gr.path with off := t.toNat * 8 } ∧ (u.grp s.cur).inClause = false ∧
         (∀ r, r ≠ d.toNat → u.scalarAt r false = s.scalarAt r false) ∧
         (u.grp s.cur).vregs = gr.vregs ∧ (u.grp s.cur).pregs = gr.pregs ∧ (u.grp s.cur).qregs = gr.qregs ∧ OnlyGroup s u s.cur)) ∧
     (∀ a : SReg, s.targetOk (s.rdS s.cur a.toNat).toNat = true →
       exec (.ret a) s = .next (s.setGrp s.cur (gr.clearTrapped.goto (s.rdS s.cur a.toNat).toNat)))) ∧
  (∀ (s : State) (g : Guard), s.Ordered →
     let gr := s.grp s.cur
     let sel := s.wmask g
     let gone := gr.exited ||| sel
     (gone ≠ BitVec.allOnes 32 → Completes (.exit g) s (fun t =>
       (t.grp s.cur).exited = gone ∧
       (gr.mask &&& ~~~sel ≠ 0 → (t.grp s.cur).path =
         { gr.path with mask := gr.mask &&& ~~~sel, stack := dropLanes sel gr.stack }) ∧
       (gr.mask &&& ~~~sel = 0 → (t.grp s.cur).path = popPath gone { gr.path with mask := 0 } (dropLanes sel gr.stack) ∧
         (t.grp s.cur).inClause = false) ∧
       (t.grp s.cur).mask &&& sel = 0 ∧ (∀ e ∈ (t.grp s.cur).stack, e.mask &&& sel = 0) ∧
       (t.grp s.cur).vregs = gr.vregs ∧ (t.grp s.cur).sregs = gr.sregs ∧ (t.grp s.cur).pregs = gr.pregs ∧
       (t.grp s.cur).qregs = gr.qregs ∧ OnlyGroup s t s.cur)) ∧
     (gone = BitVec.allOnes 32 → s.bondOf s.cur = none → gr.regionStores = [] → gr.region.open_ = false →
       Completes (.exit g) s (fun t => (t.grp s.cur).retired = true ∧ s.cur ∈ (t.team gr.team).retired ∧ SameMemory s t)) ∧
     (gone = BitVec.allOnes 32 → (s.bondOf s.cur).isSome = true → exec (.exit g) s = .next (s.raise (plainFault 10) sel)))

/-- R64, R199, R206: the wide scalar words on an odd register, and a word of a mode above the group's, raise ILLEGAL. R225, R346,
R347: taking an exception. A TRAP word, or a raise of class 1 to 3, in a kernel with a trap handler by a group that is not
TRAPPED enters the handler: s124 to s127 say what happened and the group stands at the handler with its path kept; any other
raise parks the group at the word in issue with a fault of that class. It concludes that exec answers a next state, under
conditions on the state and the operands alone, for: trap. -/
def Obligations.IllegalWordsAndExceptions : Prop :=
  (∀ (s : State) (o : SOp) (d : SReg) (num : BitVec 8) (imm : Word), s.Ordered →
     let ill : Host.Outcome State Machine.Fault Refusal := .next (s.raise (plainFault 4) s.active)
     (o.ty.width = 64 → o.d.toNat % 2 = 1 → exec (.sadd o) s = ill ∧ exec (.sand o) s = ill ∧ exec (.smov o) s = ill) ∧
     (d.toNat % 2 = 1 → exec (.smoviI64 d imm) s = ill) ∧
     ((s.grp s.cur).mode = 0 → exec (.tret false) s = ill ∧ exec (.wrps num d) s = ill ∧ exec (.phaseSet true d d) s = ill)) ∧
  (∀ (s : State) (r : Raise) (wm : LaneMask) (code : Word), s.Ordered →
     let g := s.cur
     let gr := s.grp g
     let inHandler (e : Nat) (a b c d : Word) (t : State) : Prop :=
       t.scalarAt 124 false = a.zeroExtend 64 ∧ t.scalarAt 125 false = b.zeroExtend 64 ∧
       t.scalarAt 126 false = c.zeroExtend 64 ∧ t.scalarAt 127 false = d.zeroExtend 64 ∧
       (t.grp g).trapped = true ∧ (t.grp g).off = e ∧ (t.grp g).inClause = false ∧ (t.grp g).park = gr.park ∧
       (t.grp g).mask = gr.mask ∧ (t.grp g).stack = gr.stack ∧ (t.grp g).trapRet.word = s.iss.idx ∧
       (t.grp g).trapRet.clause = gr.clause ∧
       (∀ k, k < 124 → t.scalarAt k false = s.scalarAt k false) ∧ (t.grp g).vregs = gr.vregs ∧ (t.grp g).pregs = gr.pregs ∧
       (t.grp g).qregs = gr.qregs ∧ OnlyGroup s t g
     let parked (cls : Nat) (t : State) : Prop :=
       (t.grp g).park = .fault ∧ (t.grp g).flt.cls = cls ∧ (t.grp g).flt.off = s.iss.off ∧ (t.grp g).inClause = true ∧
       (t.grp g).word = s.iss.idx ∧ (t.grp g).vregs = gr.vregs ∧ (t.grp g).sregs = gr.sregs ∧ (t.grp g).pregs = gr.pregs ∧
       (t.grp g).qregs = gr.qregs
     (∀ e, s.trapEntry g = some e → gr.trapped = false →
       Completes (.trap code) s (inHandler e 1 (BitVec.ofNat 32 s.iss.next) code gr.mask) ∧
       (1 ≤ r.cls → r.cls ≤ 3 → inHandler e (BitVec.ofNat 32 (r.cls + 256 * s.iss.planes)) (BitVec.ofNat 32 s.iss.next)
         (BitVec.ofNat 32 s.iss.off) wm (s.raise r wm))) ∧
     (s.trapEntry g = none ∨ gr.trapped = true → Completes (.trap code) s (fun t => parked 1 t ∧
       (t.grp g).flt.addr = code.zeroExtend 64 ∧ (t.grp g).flt.nested = gr.trapped) ∧ parked r.cls (s.raise r wm)) ∧
     (4 ≤ r.cls → parked r.cls (s.raise r wm) ∧ ((s.raise r wm).grp g).flt.addr = r.addr ∧
       ((s.raise r wm).grp g).flt.lanes = r.lanes ∧ ((s.raise r wm).grp g).flt.nested = false))

/-- R40, R72 to R74, R217, R218, R226: PLANE.SET and PLANE.SEL write the plane of the lanes of the write mask and nothing else;
GETS reads the special registers, TICKS in a pair and LANE and PLANE lane by lane; SETS sets the tile width of the next clause
and clears bits of MOVED; SLANE reads one lane of a vector register. It concludes that exec answers a next state, under
conditions on the state and the operands alone, for: planeSet, planeSel, gets, sets, slane. -/
def Obligations.PlanesAndSpecialRegisters : Prop :=
  ∀ (s : State) (g : Guard), s.Ordered →
    let gr := s.grp s.cur
    let m := s.wmask g
    let setsPlanes (i : Instr) (v : Nat → Nat) : Prop := Completes i s (fun t =>
      (∀ l, l < 32 → m.getLsbD l = true → FMap.get (t.grp s.cur).planes l = v l) ∧
      (∀ l, ¬(l < 32 ∧ m.getLsbD l = true) → FMap.get (t.grp s.cur).planes l = FMap.get gr.planes l) ∧
      { t.grp s.cur with planes := gr.planes } = gr ∧ OnlyGroup s t s.cur)
    (∀ k : BitVec 3, setsPlanes (.planeSet g k) (fun _ => k.toNat)) ∧
    (∀ a : VReg, s.opFault true [vSrc a .n32] m = none → (∀ l ∈ lanesOf m, (s.rdV s.cur a.toNat l).toNat < 8) →
      setsPlanes (.planeSel g a) (fun l => (s.rdV s.cur a.toNat l).toNat)) ∧
    (∀ (k : BitVec 8) (d : SReg), k.toNat ∈ specialRegs → 2 ≤ k.toNat →
      ScalarResult (.gets (.s d) k) s d false (· = (s.specialReg s.cur k.toNat).zeroExtend 64)) ∧
    (∀ d : SReg, d.toNat % 2 = 0 → ScalarResult (.gets (.s64 d) 0x13) s d true
      (· = BitVec.ofInt 64 ((s.tick : Int) + (s.fn gr.vf).tickOff))) ∧
    (∀ d : VReg, VectorResult true (.gets (.v d) 0) s .always [vDst d false] d false .n32 (fun l v => v = BitVec.ofNat 64 l)) ∧
    (∀ d : VReg, VectorResult true (.gets (.v d) 1) s .always [vDst d false] d false .n32
      (fun l v => v = BitVec.ofNat 64 (FMap.get gr.planes l) &&& 0xffffffff)) ∧
    (∀ a : SReg, let v := s.rdS s.cur a.toNat
      (v.toNat ∈ [2, 4, 8, 16, 32] →
        exec (.sets 0x05 a) s = .next (s.setGrp s.cur { gr with tilewNext := v.toNat })) ∧
      (v.toNat < 8 → exec (.sets 0x12 a) s = .next (s.setGrp s.cur { gr with moved := gr.moved &&& ~~~(v.setWidth 3) }))) ∧
    (∀ (w64 : Bool) (d : SReg) (a : VReg) (sel : LaneSel), sPairOk w64 d = true →
      let l := match sel with | .lane n => n.toNat | .reg r _ => (s.rdS s.cur r.toNat).toNat % 32 | .first => lowLane s.active
      s.opFault true [vUse a w64 .anyTag] (1#32 <<< l) = none →
      ScalarResult (.slane w64 d a sel) s d w64 (· = s.vVal a w64 l))

/-! ### Barriers, register blocks, regions, waits, spawns -/

/-- R51, R230 to R232: an arrival at a team slot counts; bar.sync parks the group at the slot as well; an arrival that does not
make up the expected count leaves the phase, one that does advances it modulo 2^16, clears the arrivals and lets every group
parked at the slot run; bar.expect sets the slot's own count; a cluster slot counts by team and advances when every live
team's groups have all arrived. R48 to R50, R229: a WAIT whose one condition is a satisfied counter or barrier condition
completes at once with qd true and sd 0; one with no tick to wait and no condition satisfied completes with qd false and sd 7;
else it stays outstanding, its counter raised, until an evaluation finds it satisfied or TICKS reaches its deadline. It
concludes that exec answers a next state, under conditions on the state and the operands alone, for: wait, barSync, barArrive,
barExpect, cbarSync, cbarArrive, waitSatisfied, waitTimeout, monitorReread. -/
def Obligations.BarriersAdvanceAndWaitsEnd : Prop :=
  (∀ (s : State) (b : BitVec 4) (k : BitVec 2) (a : SReg), s.Ordered →
     let g := s.cur
     let gr := s.grp g
     let tm := s.team gr.team
     let bar := FMap.get tm.barriers b.toNat
     let slot (t : State) : Barrier := FMap.get (t.team gr.team).barriers b.toNat
     let n := (s.rdS g a.toNat).toNat
     let c := tm.cluster
     let key := cbarKey k.toNat tm.crank
     tm.crank < 64 → gr.region.open_ = false → gr.park = .running →
     (bar.arrivals + 1 < tm.expected b.toNat →
       Completes (.barSync b) s (fun t => slot t = { bar with arrivals := bar.arrivals + 1 } ∧
         (t.grp g).park = .barrier ∧ (t.grp g).parkArg = b.toNat ∧ (∀ h, h ≠ g → t.grp h = s.grp h) ∧ SameMemory s t) ∧
       Completes (.barArrive b) s (fun t => slot t = { bar with arrivals := bar.arrivals + 1 } ∧
         (∀ h, t.grp h = s.grp h) ∧ SameMemory s t)) ∧
     (tm.expected b.toNat ≤ bar.arrivals + 1 → ∀ i, i = Instr.barSync b ∨ i = .barArrive b →
       Completes i s (fun t => slot t = { bar with arrivals := 0, phase := (bar.phase + 1) % 65536 } ∧
         (g ∈ tm.groups → (t.grp g).park = .running) ∧
         (∀ h ∈ tm.groups, (s.grp h).park = .barrier → (s.grp h).parkArg = b.toNat → (t.grp h).park = .running) ∧
         (∀ h, (s.grp h).park ≠ .barrier → h ≠ g → t.grp h = s.grp h) ∧ SameMemory s t)) ∧
     (1 ≤ n → n ≤ 32 → Completes (.barExpect b a) s (fun t =>
       (slot t).own = true ∧ (slot t).expected = n ∧
       (bar.arrivals < n → slot t = { bar with own := true, expected := n } ∧ ∀ h, t.grp h = s.grp h) ∧
       (1 ≤ bar.arrivals → n ≤ bar.arrivals → (slot t).arrivals = 0 ∧ (slot t).phase = (bar.phase + 1) % 65536) ∧ SameMemory s t)) ∧
     (n = 0 ∨ 32 < n → exec (.barExpect b a) s = .next (s.raise (plainFault 4) s.active)) ∧
     ((∃ u ∈ (s.cluster c).teams, u ≠ gr.team ∧ (s.team u).live = true ∧ (s.team u).alive ≠ [] ∧ (s.team u).crank ≠ tm.crank ∧
         FMap.get (s.cluster c).arrivals (cbarKey k.toNat (s.team u).crank) = 0) →
       Completes (.cbarSync k) s (fun t => FMap.get (t.cluster c).arrivals key = FMap.get (s.cluster c).arrivals key + 1 ∧
         (t.cluster c).phases = (s.cluster c).phases ∧ (t.grp g).park = .barrier ∧ (t.grp g).parkArg = 16 + k.toNat ∧
         (∀ h, h ≠ g → t.grp h = s.grp h) ∧ SameMemory s t) ∧
       Completes (.cbarArrive k) s (fun t => FMap.get (t.cluster c).arrivals key = FMap.get (s.cluster c).arrivals key + 1 ∧
         (t.cluster c).phases = (s.cluster c).phases ∧ (∀ h, t.grp h = s.grp h) ∧ SameMemory s t)) ∧
     ((s.cluster c).teams = [gr.team] → tm.alive.length ≤ FMap.get (s.cluster c).arrivals key + 1 →
       ∀ i, i = Instr.cbarSync k ∨ i = .cbarArrive k → Completes i s (fun t =>
         FMap.get (t.cluster c).phases k.toNat = (FMap.get (s.cluster c).phases k.toNat + 1) % 65536 ∧
         FMap.get (t.cluster c).arrivals key = 0 ∧ (g ∈ tm.groups → (t.grp g).park = .running) ∧ SameMemory s t))) ∧
  (∀ (s : State) (all : Bool) (qd : QReg) (sd sa sb : SReg) (c : CReg), s.Ordered →
     let g := s.cur
     let gr := s.grp g
     let w := s.readCond sa.toNat
     let ticks := (s.rdS g sb.toNat).toNat
     let met : Prop := if w.kind = 2 then FMap.get gr.ctrs w.arg1 = 0
       else (FMap.get (s.team gr.team).barriers w.arg1).phase ≠ w.value % 65536
     let ended (t : State) (q : Bool) (v : Nat) : Prop :=
       (t.grp g).qregs.getLsbD qd.toNat = q ∧ t.scalarAt sd.toNat false = BitVec.ofNat 64 v ∧ t.ctr g c.val = s.ctr g c.val ∧
       (t.grp g).park = gr.park ∧ (∀ r, r ≠ sd.toNat → t.scalarAt r false = s.scalarAt r false) ∧
       (t.grp g).vregs = gr.vregs ∧ (t.grp g).pregs = gr.pregs ∧ (∀ h, h ≠ g → t.grp h = s.grp h) ∧ SameMemory s t
     (gr.region.open_ = false → s.condOk sa.toNat c.val = true → w.kind = 2 ∨ w.kind = 5 → s.ctr g c.val < 255 →
       (met → Completes (.wait all 0 qd sd sa sb c) s (fun t => ended t true 0)) ∧
       (¬met → ticks = 0 → Completes (.wait all 0 qd sd sa sb c) s (fun t => ended t false 7)) ∧
       (¬met → ticks ≠ 0 → Completes (.wait all 0 qd sd sa sb c) s (fun t =>
         (t.grp g).park = .wait ∧ (t.grp g).wait.live = true ∧ (t.grp g).wait.deadline = s.tick + ticks ∧
         ((t.grp g).wait.forever = true ↔ ticks = 2 ^ 32 - 1) ∧ t.ctr g c.val = s.ctr g c.val + 1 ∧
         (t.grp g).marked (qPlace qd.toNat) = true ∧ (t.grp g).marked (sPlace sd.toNat) = true ∧
         (∀ h, h ≠ g → t.grp h = s.grp h) ∧ SameMemory s t))) ∧
     (∀ h, let x := s.grp h
       let k := s.waitOp h
       (s.op k).live = true → (s.op k).grp = h → (s.op k).ctr < 6 →
       (s.waitOver h = true → Completes (.waitTimeout h) s (fun t =>
         (t.grp h).park = .running ∧ (t.grp h).qregs.getLsbD x.wait.qd = false ∧
         FMap.get (t.grp h).sregs x.wait.sd = 7 ∧ t.ctr h (s.op k).ctr = s.ctr h (s.op k).ctr - 1 ∧
         (t.grp h).wait.live = false ∧ (∀ y, y ≠ h → t.grp y = s.grp y) ∧ SameMemory s t)) ∧
       (∀ b v : Nat, x.wait.conds = [[5, 0, b, 0, 0, 0, v]] → x.wait.qd < 4 → s.waiting h = true →
         ∀ i, i = Instr.waitSatisfied h ∨ i = .monitorReread h → Completes i s (fun t =>
           ((FMap.get (s.team x.team).barriers b).phase ≠ v % 65536 →
             (t.grp h).park = .running ∧ (t.grp h).qregs.getLsbD x.wait.qd = true ∧ FMap.get (t.grp h).sregs x.wait.sd = 0 ∧
             (t.grp h).wait.live = false ∧ t.ctr h (s.op k).ctr = s.ctr h (s.op k).ctr - 1) ∧
           ((FMap.get (s.team x.team).barriers b).phase = v % 65536 →
             t = s.setGrp h { x with wait := { x.wait with lines := [], due := s.readDue [], again := false } }) ∧
           (∀ y, y ≠ h → t.grp y = s.grp y) ∧ SameMemory s t))))

/-- R37, R233: RGIVE n returns the highest n blocks to the team's pool once nothing outstanding writes them; RCLAIM n takes n
blocks from the pool, whose registers read zero with tag B32, or stands in the line of claimants; the head of the line is
served as soon as the pool holds what it asks. R235 to R237: REGION.BEGIN records the registers it names and the path with the
next word's place, and opens the region; REGION.END releases the region's stores and closes it; inside a region a barrier, a
claim or a nested begin is ILLEGAL. It concludes that exec answers a next state, under conditions on the state and the
operands alone, for: rgive, rclaim, rclaimGrant, rgiveRelease, regionBegin, regionEnd. -/
def Obligations.RegisterBlocksAndRegions : Prop :=
  (∀ (s : State) (n : BitVec 6), s.Ordered →
     let g := s.cur
     let gr := s.grp g
     let tm := s.team gr.team
     let k := n.toNat
     let reads (t : State) (h : Nat) : Prop := ∀ r,
       (∀ l, l < 32 → FMap.get (t.grp h).vregs (32 * r + l) =
         if r < 8 * (s.grp h).blocks then FMap.get (s.grp h).vregs (32 * r + l) else 0) ∧
       FMap.get (t.grp h).vtags r = if r < 8 * (s.grp h).blocks then FMap.get (s.grp h).vtags r else .b32
     gr.region.open_ = false →
     (1 ≤ k → k < gr.blocks →
       ((∀ p ∈ s.ops, p.2.live = true → p.2.grp = g → ∀ j ∈ p.2.places, j < 8 * (gr.blocks - k) ∨ 256 ≤ j) →
         Completes (.rgive n) s (fun t =>
         (t.grp g).blocks = gr.blocks - k ∧ (t.team gr.team).pool = tm.pool + k ∧
         (∀ r l, l < 32 → t.laneAt r l false = if r < 8 * (gr.blocks - k) then s.laneAt r l false else 0) ∧
         (t.grp g).sregs = gr.sregs ∧ (t.grp g).pregs = gr.pregs ∧ (t.grp g).qregs = gr.qregs ∧
         (∀ h, h ≠ g → t.grp h = s.grp h) ∧ SameMemory s t)) ∧
       ((∃ p ∈ s.ops, p.2.live = true ∧ p.2.grp = g ∧ ∃ j ∈ p.2.places, 8 * (gr.blocks - k) ≤ j ∧ j < 256) →
         Completes (.rgive n) s (fun t =>
         (t.grp g).park = .rgive ∧ (t.grp g).blocks = gr.blocks ∧ (t.grp g).word = s.iss.idx ∧ t.teams = s.teams))) ∧
     (k = 0 ∨ gr.blocks ≤ k → exec (.rgive n) s = .next (s.raise (plainFault 4) s.active)) ∧
     (1 ≤ k → gr.blocks + k ≤ 32 →
       (tm.claimants = [] → k ≤ tm.pool →
         Completes (.rclaim n) s (fun t =>
           (t.grp g).blocks = gr.blocks + k ∧ t.team gr.team = { tm with pool := tm.pool - k } ∧ reads t g ∧
           (t.grp g).park = gr.park ∧ (t.grp g).sregs = gr.sregs ∧ (t.grp g).pregs = gr.pregs ∧ (t.grp g).qregs = gr.qregs ∧
           (∀ h, h ≠ g → t.grp h = s.grp h) ∧ (∀ u, u ≠ gr.team → t.team u = s.team u) ∧ SameMemory s t)) ∧
       (tm.claimants ≠ [] ∨ tm.pool < k → Completes (.rclaim n) s (fun t =>
         (t.team gr.team).claimants = tm.claimants ++ [(g, k)] ∧ (t.team gr.team).pool = tm.pool ∧ (t.grp g).park = .rclaim ∧
         (t.grp g).blocks = gr.blocks ∧ (∀ h, h ≠ g → t.grp h = s.grp h) ∧ SameMemory s t))) ∧
     (∀ (u h m : Nat) (rest : List (Nat × Nat)), (s.team u).claimants = (h, m) :: rest →
       (m ≤ (s.team u).pool → Completes (.rclaimGrant u) s (fun t =>
         (t.grp h).blocks = (s.grp h).blocks + m ∧ (t.grp h).park = .running ∧ reads t h ∧
         t.team u = { s.team u with pool := (s.team u).pool - m, claimants := rest } ∧ (∀ x, x ≠ h → t.grp x = s.grp x) ∧
         (∀ v, v ≠ u → t.team v = s.team v) ∧ SameMemory s t)) ∧
       ((s.team u).pool < m → exec (.rclaimGrant u) s = .next s)) ∧
     (∀ h, (s.grp h).park = .rgive →
       (∀ p ∈ s.ops, p.2.live = true → p.2.grp = h → ∀ j ∈ p.2.places, j < (s.grp h).parkArg ∨ 256 ≤ j) →
       exec (.rgiveRelease h) s = .next (s.setGrp h { s.grp h with park := .running, parkArg := 0 }))) ∧
  (∀ (s : State) (nb : BitVec 5) (ns : BitVec 7) (a : VReg) (b : SReg), s.Ordered →
     let g := s.cur
     let gr := s.grp g
     (gr.region.open_ = false → a.toNat + 8 * nb.toNat ≤ 8 * gr.blocks → Completes (.regionBegin nb ns a b) s (fun t =>
       let r := (t.grp g).region
       r.open_ = true ∧ r.off = gr.off ∧ r.mask = gr.mask ∧ r.stack = gr.stack ∧ r.pregs = gr.pregs ∧ r.qregs = gr.qregs ∧
       r.draw = gr.draw ∧
       (∀ p ∈ gr.vregs, a.toNat ≤ p.1 / 32 → p.1 / 32 < a.toNat + 8 * nb.toNat → p ∈ r.vregs) ∧
       (∀ p ∈ gr.sregs, b.toNat ≤ p.1 → p.1 < b.toNat + ns.toNat → p ∈ r.sregs) ∧
       (t.grp g).regionStores = [] ∧
       { t.grp g with region := gr.region, regionStores := gr.regionStores } = gr ∧ OnlyGroup s t g)) ∧
     (gr.region.open_ = false → 8 * gr.blocks < a.toNat + 8 * nb.toNat →
       exec (.regionBegin nb ns a b) s = .next (s.raise (plainFault 5) s.active)) ∧
     (Completes .regionEnd s (fun t => (t.grp g).region.open_ = false ∧ (t.grp g).regionStores = [] ∧
       (t.grp g).vregs = gr.vregs ∧ (t.grp g).sregs = gr.sregs ∧ (gr.regionStores = [] → gr.region.open_ = false → OnlyGroup s t g))) ∧
     (gr.region.open_ = true → ∀ i, i = Instr.barSync 0 ∨ i = .rclaim 1 ∨ i = .regionBegin nb ns a b ∨ i = .cbarArrive 0 →
       exec i s = .next (s.raise (plainFault 4) s.active)))

/-! ### Memory words (R105 to R111, R268 to R281) -/

/-- R105, R269, R272, R274: a load of global memory whose operands, addresses and translations are in order goes out as one
outstanding operation with one access for each lane of the write mask; a lane whose address is not canonical or not a multiple
of the width raises that class with its address, before any access. R67, R275, R276: BT.SET clears VALID and issues the
operation that will write the register with the base, the frame and the limit, at most the rest of the page; PREFETCH changes
no register and no byte. It concludes that exec answers a next state, under conditions on the state and the operands alone,
for: ld, sld, btSet, prefetch. -/
def Obligations.GlobalLoadsAndBasesIssue : Prop :=
  (∀ (s : State) (o : LdOp GAddr) (q : SldOp SGAddr) (tgt : Nat → Target), s.Ordered →
     let wm := s.wmask o.g
     let n := widthBytes o.width
     let va (l : Nat) : Nat := s.gVa o.addr.base (s.gOffset o.addr l)
     let regs := dstRegs o.d.toNat (widthRegs o.width)
     let k := widthBytes q.width
     let qva (_ : Nat) : Nat := s.gVa q.addr.base (q.addr.disp.signExtend 64)
     s.NumbersFresh → (s.grp s.cur).replayOp = 0 →
     (s.opFault (s.gBaseOk o.addr.base) (dstUse o.d o.width :: idxUse o.addr.idx) wm = none →
       (addrFault wm va n = none → s.ctr s.cur o.c.val < 255 →
         (∀ l ∈ lanesOf wm, s.orPoison n (va l) (s.orPull (s.gReach o.addr.base (s.gOffset o.addr l) false)) = .at (tgt l)) →
         IssuesOp (.ld o) s .load o.c.val regs (fun t p =>
           p.dst = o.d.toNat ∧ p.width = n ∧ p.sext = widthSext o.width ∧ p.lanes = wm ∧ p.flag = false ∧
           (∀ l ∈ lanesOf wm, HasAccess t p s.nextId .load l n (tgt l).site) ∧
           (s.iss.split = false → ∀ r ∈ regs, FMap.get (t.grp s.cur).vtags r =
             newTag (FMap.get (s.grp s.cur).vtags r) o.ty ((wm ||| (s.grp s.cur).exited) = BitVec.allOnes 32)))) ∧
       (∀ cls l, addrFault wm va n = some (cls, l) →
         exec (.ld o) s = .next (s.raise { plainFault cls with addr := BitVec.ofNat 64 (va l) } wm)) ∧
       (addrFault wm va n = none → 255 ≤ s.ctr s.cur o.c.val → exec (.ld o) s = .next (s.raise (plainFault 11) wm))) ∧
     (s.opFault (s.gBaseOk q.addr.base && sDstOk q.d q.width) [] s.active = none → addrFault 1 qva k = none →
       s.ctr s.cur q.c.val < 255 →
       s.orPoison k (qva 0) (s.orPull (s.gReach q.addr.base (q.addr.disp.signExtend 64) false)) = .at (tgt 0) →
       IssuesOp (.sld q) s .sload q.c.val (sDstPlaces q.d q.width) (fun t p =>
         p.dst = q.d.toNat ∧ p.width = k ∧ HasAccess t p s.nextId .load 0 k (tgt 0).site))) ∧
  (∀ (s : State) (wr : Bool) (d : BReg) (a b : SReg) (c : CReg) (x : Xlat) (l2 : Bool) (g : Guard) (addr : GAddr), s.Ordered →
     let base := (s.sVal a true).toNat
     let lim := (s.rdS s.cur b.toNat).toNat
     let gr := s.grp s.cur
     s.NumbersFresh →
     (a.toNat % 2 = 0 → base < 2 ^ 57 → inWindow base = false → gr.replayOp = 0 → s.ctr s.cur c.val < 255 →
       s.xlatVa s.cur base false = .ok x → s.xlatVa s.cur base wr = .ok x → x.d1 = true → x.d2 = true →
       IssuesOp (.btSet wr d a b c) s .btset c.val [] (fun t p =>
         (FMap.get (t.grp s.cur).bts d.toNat).valid = false ∧ (∀ e, e ≠ d.toNat → FMap.get (t.grp s.cur).bts e = FMap.get gr.bts e) ∧
         (btOfArgs p.arg).base = BitVec.ofNat 64 base ∧ (btOfArgs p.arg).valid = true ∧ (btOfArgs p.arg).write = wr ∧
         (btOfArgs p.arg).frame = x.out / 65536 ∧ (btOfArgs p.arg).psize = psizeCode x.pbits ∧
         (x.host = true → (btOfArgs p.arg).limit = 0) ∧
         (x.host = false → base % 2 ^ x.pbits + (btOfArgs p.arg).limit ≤ 2 ^ x.pbits ∧
           (lim = 0 → base % 2 ^ x.pbits + (btOfArgs p.arg).limit = 2 ^ x.pbits) ∧ (lim ≠ 0 → (btOfArgs p.arg).limit ≤ lim)))) ∧
     (gr.check true (idxUse addr.idx) = none → Completes (.prefetch l2 g addr) s (fun t =>
       (∀ h, t.grp h = s.grp h) ∧ t.ops = s.ops ∧ SameMemory s t)) ∧
     (∀ cls, gr.check true (idxUse addr.idx) = some cls →
       exec (.prefetch l2 g addr) s = .next (s.raise (plainFault cls) (s.wmask g))))

/-- R68, R127, R269, R272: a store of global memory whose lanes translate to disjoint places, outside a region, from a team with
nothing buffered and through pages whose D bits are set: each lane's bytes stand in the team's buffer for their line and
place; the team's own observers read them at once; every other byte reads as before, and for observers of other teams every
byte does. It concludes that exec answers a next state, under conditions on the state and the operands alone, for: st. -/
def Obligations.GlobalStoresEnterTheBuffer : Prop :=
  ∀ (s : State) (o : StOp GAddr) (tgt : Nat → Target), s.Ordered →
    let g := s.cur
    let wm := s.wmask o.g
    let n := widthBytes o.width
    let va (l : Nat) : Nat := s.gVa o.addr.base (s.gOffset o.addr l)
    let val (l k : Nat) : Byte := BitVec.ofNat 8 (s.storeVal o.d.toNat n l / 256 ^ k)
    let c := match o.c with | none => 6 | some c => c.val
    let t0 := (s.grp g).team
    s.NumbersFresh → (s.grp g).replayOp = 0 → (s.grp g).region.open_ = false →
    (∀ p ∈ s.sb, p.2.team ≠ t0 ∧ p.2.core ≠ s.coreOf g) →
    s.opFault (s.gBaseOk o.addr.base) (dataUse o.d o.width :: idxUse o.addr.idx) wm = none → addrFault wm va n = none →
    (∀ k : CReg, o.c = some k → s.ctr g k.val < 255) →
    (∀ l ∈ lanesOf wm, s.orPull (s.gReach o.addr.base (s.gOffset o.addr l) true) = .at (tgt l)) →
    (∀ l ∈ lanesOf wm, ∀ a x, tgt l = .hbm a x ∨ tgt l = .host a x → x.d1 = true ∧ x.d2 = true) →
    (∀ l ∈ lanesOf wm, ∀ k ∈ lanesOf wm, l ≠ k → (tgt l).site.1 = (tgt k).site.1 →
      (tgt l).site.2 + n ≤ (tgt k).site.2 ∨ (tgt k).site.2 + n ≤ (tgt l).site.2) →
    s.lateAccess ((lanesOf wm).map (fun l => (l, tgt l))) n = false →
    Completes (.st o) s (fun t =>
      (∀ l ∈ lanesOf wm, ∃ p ∈ t.sb, p.2.team = t0 ∧ p.2.line = lineOf (tgt l).site.2 ∧ g ∈ p.2.grps ∧ p.2.hold = 0 ∧
        ∀ k, k < n → lastCell p.2.cells ((tgt l).site.2 + k) = some (val l k)) ∧
      (∀ l ∈ lanesOf wm, ∀ spa x, tgt l = .hbm spa x → ∀ k, k < n → t.loadByte (s.observer g) (spa + k) = val l k) ∧
      (∀ (v : Observer) (a : Nat), (v.team ≠ some t0 ∨ ∀ l ∈ lanesOf wm, ∀ spa x, tgt l = .hbm spa x → a < spa ∨ spa + n ≤ a) →
        t.loadByte v a = s.loadByte v a) ∧
      t.mem = s.mem ∧ t.pend = s.pend ∧ t.hostMem = s.hostMem ∧ t.teams = s.teams ∧
      (c < 6 → t.ctr g c = s.ctr g c + 1) ∧ (∀ d, d ≠ c ∨ 6 ≤ d → t.ctr g d = s.ctr g d) ∧ KeepsRegisters s t)

/-- R106, R111, R273, R274: loads of the group's own scratch and of parameters read at issue and deliver at completion; lanes
whose access R111 forbids read nothing and are marked in SCRATCHFAULT. R110, R111, R123, R273: a store to the group's own
scratch writes the lanes that R111 permits at issue and no other byte; one to another team's scratch sets out as an operation
that holds the data and performs later. R108, R120, R278, R280: an atomic on the group's own scratch performs at issue: where
its lanes name disjoint bytes that R111 permits, each byte range takes the new value and the operation holds the old one; no
other byte changes. It concludes that exec answers a next state, under conditions on the state and the operands alone, for:
ldScratch, stScratch, ldParam, sldParam, atom, red, cas. -/
def Obligations.ScratchLoadsStoresAndAtomics : Prop :=
  (∀ (s : State) (o : LdOp ScrAddr) (p : LdOp PmAddr) (q : SldOp PmAddr), s.Ordered →
     let g := s.cur
     let gr := s.grp g
     let wm := s.wmask o.g
     let n := widthBytes o.width
     let off := s.scrOffset o.addr.a o.addr.disp
     let out (l : Nat) : Bool := (s.team gr.team).violates (off l) n false
     let la := s.launch (s.launchOf g)
     let param (a : PmAddr) (k : Nat) : Nat :=
       leNat ((List.range k).map (fun i => if s.pmOffset a + i < la.paramLen then FMap.get la.params (s.pmOffset a + i) else 0))
     let fits (a : PmAddr) (k : Nat) : Prop := s.pmOffset a % k = 0 ∧ s.pmOffset a + k ≤ 4096
     gr.replayOp = 0 →
     (s.opFault true [dstUse o.d o.width, peerUse o.addr] wm = none → addrFault wm off n = none → s.ctr g o.c.val < 255 →
       o.addr.peer = none → (∀ l ∈ lanesOf wm, out l = false → (s.team gr.team).poisoned (off l) n = false) →
       IssuesOp (.ldScratch o) s .scratch o.c.val (dstRegs o.d.toNat (widthRegs o.width)) (fun t r =>
         r.dst = o.d.toNat ∧ r.width = n ∧ (∀ l, l < 32 → r.lanes.getLsbD l = (wm.getLsbD l && !out l)) ∧
         (∀ l ∈ lanesOf wm, out l = false → FMap.get r.res l = s.scrNat g gr.team (off l) n) ∧
         (∀ l, l < 32 → (t.grp g).sfault.getLsbD l = (gr.sfault.getLsbD l || (wm.getLsbD l && out l))))) ∧
     (s.opFault true [dstUse p.d p.width] (s.wmask p.g) = none → s.wmask p.g = 0 ∨ fits p.addr (widthBytes p.width) →
       s.ctr g p.c.val < 255 →
       IssuesOp (.ldParam p) s .paramLoad p.c.val (dstRegs p.d.toNat (widthRegs p.width)) (fun _ r =>
         r.dst = p.d.toNat ∧ r.width = widthBytes p.width ∧ r.lanes = s.wmask p.g ∧ r.waitOn = [] ∧
         ∀ l ∈ lanesOf (s.wmask p.g), FMap.get r.res l = param p.addr (widthBytes p.width))) ∧
     (sDstOk q.d q.width = true → fits q.addr (widthBytes q.width) → s.ctr g q.c.val < 255 →
       IssuesOp (.sldParam q) s .sload q.c.val (sDstPlaces q.d q.width) (fun _ r =>
         r.dst = q.d.toNat ∧ r.width = widthBytes q.width ∧ r.waitOn = [] ∧
         FMap.get r.res 0 = param q.addr (widthBytes q.width)))) ∧
  (∀ (s : State) (o : StOp ScrAddr) (u : Nat), s.Ordered →
     let g := s.cur
     let gr := s.grp g
     let wm := s.wmask o.g
     let n := widthBytes o.width
     let off := s.scrOffset o.addr.a o.addr.disp
     let out (l : Nat) : Bool := (s.team u).violates (off l) n true
     let val (l : Nat) : Nat := s.storeVal o.d.toNat n l
     let c := match o.c with | none => 6 | some c => c.val
     let good (l : Nat) : Prop := l < 32 ∧ wm.getLsbD l = true ∧ out l = false
     gr.replayOp = 0 → gr.region.open_ = false → s.scrTeam o.addr.peer = some u →
     s.opFault true [dataUse o.d o.width, peerUse o.addr] wm = none → addrFault wm off n = none →
     (∀ k : CReg, o.c = some k → s.ctr g k.val < 255) →
     (u = gr.team → (∀ l k, good l → good k → l ≠ k → off l + n ≤ off k ∨ off k + n ≤ off l) →
       Completes (.stScratch o) s (fun t =>
         (∀ l k, good l → k < n → FMap.get (t.team u).scratch (off l + k) = BitVec.ofNat 8 (val l / 256 ^ k)) ∧
         (∀ a, (∀ l, good l → a < off l ∨ off l + n ≤ a) → FMap.get (t.team u).scratch a = FMap.get (s.team u).scratch a) ∧
         (∀ h, h ≠ u → t.team h = s.team h) ∧ (∀ v a, t.loadByte v a = s.loadByte v a) ∧
         (∀ l, l < 32 → (t.grp g).sfault.getLsbD l = (gr.sfault.getLsbD l || (wm.getLsbD l && out l))) ∧
         (c < 6 → t.ctr g c = s.ctr g c + 1) ∧ KeepsRegisters s t)) ∧
     (u ≠ gr.team → Completes (.stScratch o) s (fun t =>
       let r := t.op s.nextId
       r.live = true ∧ r.kind = .scratch ∧ r.stage = 2 ∧ r.width = n ∧ r.ctr = c ∧ r.arg.head? = some u ∧
       (∀ l, l < 32 → r.arg[l + 1]? = some (off l)) ∧ (∀ l, l < 32 → (r.lanes.getLsbD l = true ↔ good l)) ∧
       (∀ l, good l → FMap.get r.res l = val l) ∧ (c < 6 → t.ctr g c = s.ctr g c + 1) ∧ KeepsRegisters s t ∧ SameMemory s t))) ∧
  (∀ (s : State) (o : AtomOp) (r : RedMem) (k : CasOp), s.Ordered →
     let g := s.cur
     let gr := s.grp g
     let tm := s.team gr.team
     let off (a : AAddr) (l : Nat) : Nat := (s.rdV g a.idx.toNat l).toNat
     let w := 2 ^ k.lw.toNat
     let fine (uses : List VUse) (a : AAddr) (wm : LaneMask) (n : Nat) : Prop :=
       a.base = .scratch ∧ s.opFault true (uses ++ [vUse a.idx false (.among idxTags)]) wm = none ∧ addrFault wm (off a) n = none ∧
       (∀ l ∈ lanesOf wm, tm.violates (off a l) n true = false ∧ tm.poisoned (off a l) n = false) ∧
       (∀ l ∈ lanesOf wm, ∀ j ∈ lanesOf wm, l ≠ j → off a l + n ≤ off a j ∨ off a j + n ≤ off a l)
     let old (a : AAddr) (n l : Nat) : Nat := s.scrNat g gr.team (off a l) n
     let stores (t : State) (a : AAddr) (wm : LaneMask) (n : Nat) (new : Nat → Nat → Nat) : Prop :=
       (∀ l ∈ lanesOf wm, ∀ j, j < n → FMap.get (t.team gr.team).scratch (off a l + j) = BitVec.ofNat 8 (new l (old a n l) / 256 ^ j)) ∧
       (∀ x, (∀ l ∈ lanesOf wm, x < off a l ∨ off a l + n ≤ x) → FMap.get (t.team gr.team).scratch x = FMap.get tm.scratch x) ∧
       (∀ h, h ≠ gr.team → t.team h = s.team h) ∧ (∀ v x, t.loadByte v x = s.loadByte v x) ∧ KeepsRegisters s t
     let issued (t : State) (a : AAddr) (wm : LaneMask) (n d c : Nat) : Prop :=
       let p := t.op s.nextId
       p.live = true ∧ p.kind = .scratch ∧ p.dst = d ∧ p.width = n ∧ p.lanes = wm ∧
       (∀ l ∈ lanesOf wm, FMap.get p.res l = old a n l) ∧ t.ctr g c = s.ctr g c + 1
     gr.replayOp = 0 → gr.region.open_ = false → gr.regionStores = [] → s.scrBusy g gr.team = false →
     (fine [vDst o.d (o.ty.width = 64), atomSrc o.op o.ty o.b] o.addr (s.wmask o.g) (atomBytes o.ty) → s.ctr g o.c.val < 255 →
       Completes (.atom o) s (fun t => stores t o.addr (s.wmask o.g) (atomBytes o.ty)
           (fun l x => atomNew o.op o.ty x (s.atomVal o.ty o.b l)) ∧
         issued t o.addr (s.wmask o.g) (atomBytes o.ty) o.d.toNat o.c.val)) ∧
     (fine [atomSrc r.op r.ty r.b] r.addr (s.wmask r.g) (atomBytes r.ty) →
       Completes (.red r) s (fun t => stores t r.addr (s.wmask r.g) (atomBytes r.ty)
         (fun l x => atomNew r.op r.ty x (s.atomVal r.ty r.b l)))) ∧
     (fine [vRange k.d.toNat w w .dst, vRange k.b.toNat (2 * w) w .anyTag] k.addr (s.wmask k.g) (4 * w) → s.ctr g k.c.val < 255 →
       Completes (.cas k) s (fun t => stores t k.addr (s.wmask k.g) (4 * w)
           (fun l x => if x = s.storeVal k.b.toNat (4 * w) l then s.storeVal (k.b.toNat + w) (4 * w) l else x) ∧
         issued t k.addr (s.wmask k.g) (4 * w) k.d.toNat k.c.val)))

/-- R269, R277 to R281: an atomic of global memory whose lanes translate in order goes out as accesses that carry its operation
and operands: ATOM, CAS and VATOM as an outstanding operation with one access a lane, RED and VRED as entries of the
posted-operation queue; no byte has changed yet. It concludes that exec answers a next state, under conditions on the state
and the operands alone, for: atom, red, cas, vatom, vred. -/
def Obligations.GlobalAtomicsIssue : Prop :=
  ∀ (s : State) (o : AtomOp) (r : RedMem) (k : CasOp) (base : GBase) (tgt : Nat → Target), s.Ordered →
    let idx (i : VReg) : VUse := vUse i false (.among idxTags)
    let off (a : AAddr) (l : Nat) : DWord := s.index64 a.idx l <<< a.sh.toNat
    let va (a : AAddr) (l : Nat) : Nat := s.gVa base (off a l)
    let fine (uses : List VUse) (a : AAddr) (wm : LaneMask) (n : Nat) : Prop :=
      baseSplit a.base = .inl base ∧ s.opFault (s.gBaseOk base) (uses ++ [idx a.idx]) wm = none ∧ addrFault wm (va a) n = none
    let goes (a : AAddr) (wm : LaneMask) (n : Nat) (f : Nat → Reach → Reach) : Prop :=
      ∀ l ∈ lanesOf wm, s.orPoison n (va a l) (f (va a l) (s.gReach base (off a l) true)) = .at (tgt l)
    let isAtom (t : State) (op : AOp) (ty : Tag) (cas : Bool) (b b2 : Nat) (id : Nat) : Prop :=
      (t.accOf id).aop = op ∧ (t.accOf id).ty = ty ∧ (t.accOf id).cas = cas ∧ (t.accOf id).operand = b ∧ (t.accOf id).operand2 = b2
    let n := atomBytes o.ty
    let m := atomBytes r.ty
    let w := 2 ^ k.lw.toNat
    let posted (i : Instr) : Prop := Completes i s (fun t =>
      (∀ l ∈ lanesOf (s.wmask r.g), ∃ id, s.nextId ≤ id ∧ (t.accOf id).live = true ∧ (t.accOf id).kind = .posted ∧
        ((t.accOf id).place, (t.accOf id).addr) = (tgt l).site ∧ isAtom t r.op r.ty false (s.atomVal r.ty r.b l) 0 id) ∧
      t.ops = s.ops ∧ (∀ d, t.ctr s.cur d = s.ctr s.cur d) ∧ KeepsRegisters s t ∧ SameMemory s t)
    s.NumbersFresh → (s.grp s.cur).replayOp = 0 → (s.grp s.cur).region.open_ = false →
    (fine [vDst o.d (o.ty.width = 64), atomSrc o.op o.ty o.b] o.addr (s.wmask o.g) n → s.ctr s.cur o.c.val < 255 →
      ∀ i, ((i = Instr.atom o ∧ goes o.addr (s.wmask o.g) n (orHostForm (hostForm o.op o.ty))) ∨
            (i = .vatom o ∧ goes o.addr (s.wmask o.g) n orDevice)) →
        IssuesOp i s .atom o.c.val (dstRegs o.d.toNat (max 1 (n / 4))) (fun t p =>
          p.dst = o.d.toNat ∧ p.lanes = s.wmask o.g ∧ p.width = n ∧
          ∀ l ∈ lanesOf (s.wmask o.g), ∃ id ∈ p.waitOn, (t.accOf id).lane = l ∧ (t.accOf id).kind = .atomic ∧
            ((t.accOf id).place, (t.accOf id).addr) = (tgt l).site ∧ isAtom t o.op o.ty false (s.atomVal o.ty o.b l) 0 id)) ∧
    (fine [vRange k.d.toNat w w .dst, vRange k.b.toNat (2 * w) w .anyTag] k.addr (s.wmask k.g) (4 * w) → s.ctr s.cur k.c.val < 255 →
      goes k.addr (s.wmask k.g) (4 * w) (orHostForm true) →
      IssuesOp (.cas k) s .atom k.c.val (dstRegs k.d.toNat (max 1 (4 * w / 4))) (fun t p =>
        p.dst = k.d.toNat ∧ p.lanes = s.wmask k.g ∧ p.width = 4 * w ∧
        ∀ l ∈ lanesOf (s.wmask k.g), ∃ id ∈ p.waitOn, (t.accOf id).lane = l ∧ (t.accOf id).kind = .atomic ∧
          ((t.accOf id).place, (t.accOf id).addr) = (tgt l).site ∧ (t.accOf id).cas = true ∧
          (t.accOf id).operand = s.storeVal k.b.toNat (4 * w) l ∧ (t.accOf id).operand2 = s.storeVal (k.b.toNat + w) (4 * w) l)) ∧
    (fine [atomSrc r.op r.ty r.b] r.addr (s.wmask r.g) m → 32 ≤ s.postedFree (s.coreOf s.cur) →
      (goes r.addr (s.wmask r.g) m (orHostForm (hostForm r.op r.ty)) → posted (.red r)) ∧
      (goes r.addr (s.wmask r.g) m orDevice → posted (.vred r)))

/-! ### Fences, tiles, spawns, placement -/

/-- R130 to R133, R138, R140, R145, R282, R283: a fence parks its group at the scope clamped to its partition's maximum, counting
a demotion. With stores in its predecessors, at team scope it holds the team's buffered lines and at cluster scope those of
the group; at device scope and wider every entry of the team leaves for home, those of the group are awaited, and a fence that
crosses dies closes the die's phase, whose number, as the device counts it, the phase form writes. The park ends once the
operations it awaits have ended, its stores are visible and its phases complete; a release at cluster scope then shows what it
covers to the cluster. It concludes that exec answers a next state, under conditions on the state and the operands alone, for:
fence, fencePhase, fenceCompletion. -/
def Obligations.FencesCoverAndComplete : Prop :=
  ∀ (s : State) (o : FenceOp) (d : SReg) (h : Nat), s.Ordered →
    let g := s.cur
    let gr := s.grp g
    let t0 := gr.team
    let most := (s.part (s.partOf g)).maxScope + 1
    let eff := min o.scope.toNat most
    let st : Bool := o.pred.getLsbD 1
    let oph := (s.die (coreDie (s.coreOf g))).oph
    let closes : Bool := !(o.pred = 1 && o.succ = 1) && decide (2 ≤ eff) && s.crossesDies g eff
    let f := (s.grp h).fence
    let done : Prop := (∀ k ∈ f.loads, (s.op k).live = false) ∧ f.stores = [] ∧ (f.vmax = 0 ∨ f.vmax + 2 ≤ s.tick) ∧
      ∀ p ∈ f.phases, phaseLe p.2 (FMap.get (s.die p.1).cph (coreDie (s.coreOf h))).toNat = true
    let common (t : State) : Prop :=
      (t.grp g).park = .fence ∧ (t.grp g).fence.live = true ∧ (t.grp g).fence.scope = eff ∧
      (t.fn gr.vf).demote = (if most < o.scope.toNat then min ((s.fn gr.vf).demote + 1) (2 ^ 32 - 1) else (s.fn gr.vf).demote) ∧
      (st = true → eff ≤ 1 → (t.team t0).release = (s.team t0).release + 1 ∧
        ∀ p ∈ t.sb, p.2.team = t0 → (eff = 0 → 1 ≤ p.2.hold) ∧ (eff = 1 → g ∈ p.2.grps → 2 ≤ p.2.hold)) ∧
      (st = true → 2 ≤ eff → (∀ p ∈ t.sb, p.2.team ≠ t0) ∧
        ∀ p ∈ s.sb, p.2.team = t0 → p.2.target = 0 → g ∈ p.2.grps →
          p.1 ∈ (t.grp g).fence.stores ∧ (t.accOf p.1).live = true ∧ (t.accOf p.1).kind = .store) ∧
      (gr.fwd = [] → t.pend = s.pend ∧ (closes = true → (t.die (coreDie (s.coreOf g))).oph = oph + 1) ∧
        (closes = false → (∀ p ∈ s.sb, p.2.team = t0 → p.2.hold = 0) → (t.die (coreDie (s.coreOf g))).oph = oph)) ∧
      t.mem = s.mem ∧ t.hostMem = s.hostMem ∧ (∀ k, (t.team k).scratch = (s.team k).scratch) ∧
      (t.grp g).vregs = gr.vregs ∧ (t.grp g).pregs = gr.pregs ∧ (t.grp g).qregs = gr.qregs ∧ (∀ k, k ≠ g → t.grp k = s.grp k)
    (gr.region.open_ = false →
      Completes (.fence o) s (fun t => common t ∧ (t.grp g).sregs = gr.sregs) ∧
      Completes (.fencePhase o d) s (fun t => common t ∧ (∀ r, r ≠ d.toNat → t.scalarAt r false = s.scalarAt r false) ∧
        t.scalarAt d.toNat false = (if closes then
          ((t.die (coreDie (s.coreOf g))).oph - 1 + FMap.get (s.fn gr.vf).phOff (coreDie (s.coreOf g))).zeroExtend 64 else 0))) ∧
    ((s.grp h).park = .fence → done →
      (f.rel = 0 → exec (.fenceCompletion h) s = .next (s.setGrp h { s.grp h with
        park := .running, fence := default
        after := if f.succ then max (s.grp h).after (s.tick + 1) else (s.grp h).after })) ∧
      (f.rel ≠ 0 → Completes (.fenceCompletion h) s (fun t =>
        (t.grp h).park = .running ∧ (t.grp h).fence = default ∧ t.mem = s.mem ∧ (∀ k, k ≠ h → t.grp k = s.grp k) ∧
        ∀ p ∈ t.sb, p.2.team = (s.grp h).team → p.2.release ≠ 0 → p.2.release < f.rel → f.own = false ∨ h ∈ p.2.grps →
          p.2.vis = true))) ∧
    (¬done → exec (.fenceCompletion h) s = .next s)

/-- R109, R284: TILE.GIVE hands a defined tile to the engines, .RST also from its start; TILE.TAKE takes it back with WPTR kept
and its reservation point at WPTR, at once or when no engine operation names it any more; a tile that is not defined is
ILLEGAL. It concludes that exec answers a next state, under conditions on the state and the operands alone, for: tileGive,
tileGiveRst, tileTake, tileTakeRelease. -/
def Obligations.TilesChangeOwner : Prop :=
  ∀ (s : State) (n : TReg) (h : Nat), s.Ordered →
    let g := s.cur
    let u := s.myTeam
    let k := s.tile u n.toNat
    let only (t : State) (v : Tile) : Prop :=
      t.tile u n.toNat = v ∧ (∀ m, m ≠ n.toNat → t.tile u m = s.tile u m) ∧ (∀ w, w ≠ u → t.team w = s.team w) ∧ SameMemory s t
    (s.grp g).region.open_ = false →
    (k.defd = true →
      Completes (.tileGive n) s (fun t => only t { k with owner := true } ∧ ∀ x, t.grp x = s.grp x) ∧
      (s.tileBusy u n.toNat = false → Completes (.tileGiveRst n) s (fun t =>
        only t { k with owner := true, wptr := 0, resv := 0, ranges := [] } ∧ ∀ x, t.grp x = s.grp x)) ∧
      (s.tileBusy u n.toNat = true → exec (.tileGiveRst n) s = .next (s.raise (plainFault 4) s.active)) ∧
      (k.owner = true → s.tileBusy u n.toNat = false → Completes (.tileTake n) s (fun t =>
        only t { k with owner := false, ret := false, resv := k.wptr, ranges := [] } ∧ ∀ x, t.grp x = s.grp x)) ∧
      (k.owner = true → s.tileBusy u n.toNat = true → exec (.tileTake n) s = .next
        (s.setGrp g { s.grp g with park := .tileTake, parkArg := n.toNat })) ∧
      (k.owner = false → exec (.tileTake n) s = .next s)) ∧
    (k.defd = false → ∀ i, i = Instr.tileGive n ∨ i = .tileGiveRst n ∨ i = .tileTake n →
      exec i s = .next (s.raise (plainFault 4) s.active)) ∧
    (let x := s.grp h
     let v := s.tile x.team x.parkArg
     x.park = .tileTake → s.tileBusy x.team x.parkArg = false → Completes (.tileTakeRelease h) s (fun t =>
      t.tile x.team x.parkArg = { v with owner := false, ret := false, resv := v.wptr, ranges := [] } ∧
      t.grp h = { x with park := .running, parkArg := 0 } ∧ (∀ y, y ≠ h → t.grp y = s.grp y) ∧ SameMemory s t))

/-- R53 to R55, R62, R234, R396: a SPAWN of one lane sends its record out to a free slot of the node's buffer, enters the slot in
the bin and waits; once the stores it releases are visible it has performed and the group goes on. The index that makes up the
node's count fires the bin; the timer fires one that has waited; a firing is placed as a one-group team whose lane i holds the
i-th index. It concludes that exec answers a next state, under conditions on the state and the operands alone, for: spawn,
binTimerExpiry, spawnedGroupPlacement. -/
def Obligations.SpawnsFireBins : Prop :=
  ∀ (s : State) (b a : VReg) (l la node : Nat), s.Ordered →
    let g := s.cur
    let gr := s.grp g
    let bin := s.bin la node
    let d := FMap.get (s.launch la).nodes node
    (la = s.launchOf g → l < 32 → lanesOf s.active = [l] → node = (s.rdV g b.toNat l).toNat → node ≤ 63 → d.live = true →
      bin.configured = true → bin.free ≠ [] → gr.region.open_ = false → gr.spawnLane = 0 → gr.fwd = [] →
      s.opFault true [vSrc b .n32, vRange a.toNat 16 1 .anyTag] s.active = none →
      (∀ i ∈ bin.free, ∀ k, ∃ spa x, State.hubReach { s with freeCtr := k } gr.vf (bin.base + 64 * i) true = .ok (.hbm spa x, x) ∧
        x.d1 = true ∧ x.d2 = true) →
      Completes (.spawn b a) s (fun t =>
        ∃ i ∈ bin.free, ∃ k spa x,
          State.hubReach { s with freeCtr := k } gr.vf (bin.base + 64 * i) true = .ok (.hbm spa x, x) ∧
          SetOut t spa (s.spawnRecord a.toNat l) ∧ (t.bin la node).used = bin.used ++ [i] ∧
          (bin.idx.length + 1 < d.count → (t.bin la node).idx = bin.idx ++ [i] ∧ (t.bin la node).due = bin.due) ∧
          (d.count ≤ bin.idx.length + 1 → (t.bin la node).due = bin.due ++ [(bin.firings, (bin.idx ++ [i]).take d.count)] ∧
            (t.bin la node).firings = (bin.firings + 1) % 2 ^ 24) ∧
          (t.grp g).park = .spawn ∧ (t.grp g).spawnLane = 33 ∧ (t.grp g).deposits = gr.deposits ++ [(node, i)] ∧
          t.mem = s.mem ∧ t.pend = s.pend ∧ KeepsRegisters s t)) ∧
    (gr.region.open_ = false → gr.spawnLane = 33 → gr.fence.live = true → (∀ k ∈ gr.fence.loads, (s.op k).live = false) →
      gr.fence.stores = [] → gr.fence.vmax = 0 ∨ gr.fence.vmax + 2 ≤ s.tick →
      (∀ p ∈ gr.fence.phases, phaseLe p.2 (FMap.get (s.die p.1).cph (coreDie (s.coreOf g))).toNat = true) →
      exec (.spawn b a) s = .next (s.setGrp g { gr with
        park := .running, spawnLane := 0, deposits := [], fence := default })) ∧
    ((s.launch la).state = .active → bin.configured = true → bin.idx ≠ [] → d.timer ≠ 0 → bin.firstAt + d.timer ≤ s.tick →
      Completes (.binTimerExpiry la node) s (fun t =>
        (t.bin la node).due = bin.due ++ [(bin.firings, bin.idx.take d.count)] ∧ (t.bin la node).idx = bin.idx.drop d.count ∧
        (t.bin la node).used = bin.used ∧ (∀ m, m ≠ node → t.bin la m = s.bin la m) ∧ (∀ h, t.grp h = s.grp h) ∧ SameMemory s t)) ∧
    (∀ num idx core, s.mayPlace la = true → s.workOf la = some (.firing node num idx core) → idx.length ≤ 32 →
      Completes (.spawnedGroupPlacement la) s (fun t =>
        let x := t.grp (s.nextId + 2)
        x.live = true ∧ x.team = s.nextId + 1 ∧ (t.team (s.nextId + 1)).live = true ∧ (t.team (s.nextId + 1)).core = core ∧
        (t.cluster s.nextId).launch = la ∧ (t.cluster s.nextId).teams = [s.nextId + 1] ∧
        (∀ k, k < 32 → x.mask.getLsbD k = decide (k < idx.length)) ∧
        (∀ k i, idx[k]? = some i → FMap.get x.vregs k = BitVec.ofNat 32 i) ∧ FMap.get x.vtags 0 = .n32 ∧
        x.off = d.entry ∧ x.node = node ∧ x.teamId = 2 ^ 31 + node * 2 ^ 24 + num ∧ (t.bin la node).due = bin.due.tail ∧
        (∀ h, h ≠ s.nextId + 2 → t.grp h = s.grp h)))

/-- R30 to R36, R58, R72, R400: a point of a launch is placed as a cluster with one team for each core of its rectangle, each with
the kernel's groups at its entry and all lanes active; a team whose groups have retired and whose work is quiet retires: its
groups are gone but for what their registers hold, and its scratch fault masks and MSM rows stay; one with buffered stores
first sends them out, and in a pair-mode device its die's phase first closes and completes on the other die (R139, R144,
R336). It concludes that exec answers a next state, under conditions on the state and the operands alone, for: teamRetirement,
clusterPlacement. -/
def Obligations.TeamsComeAndGo : Prop :=
  ∀ (s : State) (la u : Nat), s.Ordered →
    let l := s.launch la
    let tm := s.team u
    (∀ i rect, s.mayPlace la = true → s.workOf la = some (.point i rect) → Completes (.clusterPlacement la) s (fun t =>
      let c := t.cluster s.nextId
      c.live = true ∧ c.launch = la ∧ c.cores = rect ∧ (c.px, c.py, c.pz) = l.point i ∧ c.teams.length = rect.length ∧
      FMap.get (t.launch la).placed i = true ∧
      (∀ (k v : Nat), c.teams[k]? = some v → (t.team v).live = true ∧ (t.team v).crank = k ∧ some (t.team v).core = rect[k]? ∧
        (t.team v).groups.length = l.groups ∧
        ∀ (j g : Nat), (t.team v).groups[j]? = some g → (t.grp g).live = true ∧ (t.grp g).team = v ∧ (t.grp g).idx = j ∧
          (t.grp g).off = l.entry ∧ (t.grp g).mask = BitVec.allOnes 32 ∧ (t.grp g).exited = 0 ∧ (t.grp g).mode = l.mode ∧
          (t.grp g).vregs = [] ∧ (t.grp g).sregs = []) ∧
      (∀ h, h < s.nextId → t.grp h = s.grp h))) ∧
    (tm.live = true → (∀ g ∈ tm.groups, (s.grp g).retired = true) → tm.halt = .running →
      ((∀ p ∈ s.sb, p.2.team ≠ u) → s.teamQuiet u = true →
        (s.retiredPhase u = true → Completes (.teamRetirement u) s (fun t =>
          (t.team u).live = false ∧ (t.team u).sfaults = tm.sfaults ∧ (t.team u).msm = tm.msm ∧
          ∀ g ∈ tm.groups, t.grp g = (s.grp g).gone)) ∧
        (s.retiredPhase u = false → tm.retPhase = 0 → Completes (.teamRetirement u) s (fun t =>
          let d := coreDie tm.core
          (t.team u).retPhase = (s.die d).oph.toNat + 1 ∧ (t.die d).oph = (s.die d).oph + 1 ∧ (t.team u).live = true ∧
          (∀ h, t.grp h = s.grp h) ∧ SameMemory s t))) ∧
      ((∃ p ∈ s.sb, p.2.team = u) → Completes (.teamRetirement u) s (fun t =>
        (∀ p ∈ t.sb, p.2.team ≠ u) ∧ (∀ h, t.grp h = s.grp h) ∧ (∀ k, (t.team k).scratch = (s.team k).scratch) ∧
        t.mem = s.mem ∧ t.pend = s.pend)))

/-! ### Issue (R39 to R43, R180 to R187, R199) -/

/-- R181 to R184, R40, R185: a group at a clause header whose header is legal and whose waited counters read zero enters the
clause: position 0, the header's fields, the plane snapshot of its active lanes, TILEW as last set, a pipe of its class; a
counter that is not zero parks it at the header; a header outside the code is ILLEGAL, an occupied plane the kernel lacks is
PLANE_ALIGN (R39, R42). It concludes that exec answers a next state, under conditions on the state and the operands alone,
for: undefinedBitPattern, clauseIssue. -/
def Obligations.ClauseHeadersIssue : Prop :=
  ∀ (s : State) (g p : Nat) (h w : DWord), s.Ordered →
    let gr := s.grp g
    let la := s.launch (s.launchOf g)
    let f := (s.setGrp g { gr with planeFrom := 0, posTags := [], brDests := [], held := false }).codeFill g p gr.off
    let same (t : State) : Prop := (t.grp g).vregs = gr.vregs ∧ (t.grp g).sregs = gr.sregs ∧ (t.grp g).pregs = gr.pregs ∧
      (t.grp g).qregs = gr.qregs ∧ (t.grp g).ctrs = gr.ctrs ∧ (t.grp g).path = gr.path ∧ SameMemory s t ∧
      (∀ k, k ≠ g → t.grp k = s.grp k) ∧
      { t with groups := s.groups, cores := s.cores, dies := s.dies, tlb := s.tlb } = s
    (s.mayIssue g = true → gr.switchedOff = 0 → gr.inClause = false → gr.mask ≠ 0 → gr.recOff ≠ some gr.off →
      (∀ l ∈ lanesOf gr.mask, FMap.get gr.planes l = p) → gr.off < la.plen →
      (p < la.planes → f.codeWord g p gr.off = .word h → headOk h = true →
        ((∀ c, c < 6 → (headWait h).getLsbD c = true → FMap.get gr.ctrs c = 0) →
          (∃ k ∈ classPipes (headClass h), s.pipeBusy g k = false) → Completes (.clauseIssue g) s (fun t =>
          let x := t.grp g
          x.inClause = true ∧ x.clause = gr.off ∧ x.nextClause = gr.off + 8 * headCount h + 16 ∧ x.word = 0 ∧
          x.count = headCount h ∧ x.cls = headClass h ∧ x.unif = headUnif h ∧ x.yields = headYield h ∧ x.tilew = gr.tilewNext ∧
          x.park = .running ∧
          (∀ l, l < 32 → x.snap[l]? = some (if gr.mask.getLsbD l then FMap.get gr.planes l else noPlane)) ∧
          (∃ k ∈ classPipes (headClass h), FMap.get (t.coreRec (s.coreOf g)).pipes k = g + 1) ∧ same t)) ∧
        ((∃ c, c < 6 ∧ (headWait h).getLsbD c = true ∧ FMap.get gr.ctrs c ≠ 0) → Completes (.clauseIssue g) s (fun t =>
          (t.grp g).park = .header ∧ (t.grp g).headerWait = headWait h ∧ (t.grp g).inClause = false ∧ same t))) ∧
      (la.planes ≤ p → Completes (.clauseIssue g) s (fun t =>
        (t.grp g).park = .fault ∧ (t.grp g).flt.cls = 6 ∧ (t.grp g).flt.off = gr.off ∧ (t.grp g).vregs = gr.vregs))) ∧
    (s.mayIssue g = true → gr.switchedOff = 0 → gr.inClause = false → gr.mask ≠ 0 → gr.recOff ≠ some gr.off → la.plen ≤ gr.off →
      Completes (.clauseIssue g) s (fun t => (t.grp g).park = .fault ∧ (t.grp g).flt.cls = 4 ∧ (t.grp g).flt.off = gr.off)) ∧
    (Completes (.undefinedBitPattern w) s (fun t => (t.grp s.cur).park = .fault ∧ (t.grp s.cur).flt.cls = 4 ∧
      (t.grp s.cur).flt.off = s.iss.off ∧ (t.grp s.cur).vregs = (s.grp s.cur).vregs ∧ (t.grp s.cur).sregs = (s.grp s.cur).sregs))

/-! ### The memory system at work (R112 to R128, R134 to R138, R143, R185) -/

/-- R117, R120, R124, R126, R278, R279: an access that arrives at this package's memory with nothing in its way. A load gives its
operation the bytes its group's observers see; a store becomes a pending store whose visibility time no lease on its line
outlasts, of the die that took it, and no earlier than the fences before it allow (R130); an atomic reads the newest bytes
there, its operation takes the old value, and the new value becomes a pending store; one bound for another die first leaves
its own with its phase (R137); a load over poison writes nothing and poisons its destination (R352). A waiting access performs
in the same way once the forced stores are visible. R124 to R128, R136: an entry that leaves the store buffer, at its drain or
at its bound, and a pending store that becomes the contents of memory, change what no observer reads: every byte reads as
before. It concludes that exec answers a next state, under conditions on the state and the operands alone, for:
postedOperationPerform, storeBufferDrain, drainBoundExpiry, sliceAccess, forcedAccessPerform, storeCompletion. -/
def Obligations.AccessesPerformAndStoresTravel : Prop :=
  (∀ (s : State) (id : Nat), s.Ordered →
     let a := s.accOf id
     let o := s.observer a.grp
     let line := lineOf a.addr
     let visits (i : Instr) : Prop :=
       (i = .sliceAccess id ∧ a.waiting = false ∧ a.kind ≠ .posted) ∨ (i = .forcedAccessPerform id ∧ a.waiting = true) ∨
       (i = .postedOperationPerform id ∧ a.kind = .posted ∧ a.waiting = false)
     let new (old : Nat) : Nat := if a.cas then (if old = a.operand then a.operand2 else old) else atomNew a.aop a.ty old a.operand
     let old := leNat ((List.range a.size).map (fun i => s.homeByte (fun _ => true) (a.addr + i)))
     let after (v die : Nat) : Prop := s.tick ≤ v ∧ a.after ≤ v ∧ FMap.get s.leaseEnd (leaseEndKey die line) ≤ v ∧
       (a.dev ≠ 2 → (∀ d, d < 4 → s.lichenGet d line = .invalid) →
         die = a.homeDie ∧ v = max a.after (s.visTime a.homeDie line))
     s.NumbersFresh → a.live = true → a.place = .hbm → spaOk a.addr = true → a.acked = false → a.hubFn = 0 →
     s.heldBack a = false → s.delivered a = true →
     (a.kind = .load → a.sb = 0 → a.members = [] → s.mustWait id a = false → s.holders line o false = [] →
       s.forcing line o false = false → ∀ i, visits i →
       (s.poisoned a.addr a.size = false → Completes i s (fun t =>
         FMap.get (t.op a.op).res a.lane = FMap.get (s.op a.op).res a.lane + leNat (s.loadBytes o a.addr a.size) * 2 ^ a.operand ∧
         (t.op a.op).waitOn = (s.op a.op).waitOn.filter (· ≠ id) ∧ t.accOf id = default ∧ SameMemory s t)) ∧
       (s.poisoned a.addr a.size = true → a.op ≠ 0 → Completes i s (fun t =>
         FMap.get (t.op a.op).res spoilKey = 1 ∧ (t.op a.op).lanes.getLsbD a.lane = false ∧
         (t.op a.op).waitOn = (s.op a.op).waitOn.filter (· ≠ id) ∧ t.accOf id = default ∧ SameMemory s t))) ∧
     (a.kind = .store → s.behindStore id a = false → s.behindHold a.team a.rel = false →
       (let v : Observer := if a.team = 0 then outside else ⟨some a.team, some (s.team a.team).cluster⟩
        a.forced = true ∨ (s.holders line v false = [] ∧ s.forcing line v false = false)) →
       ∀ i, visits i → Completes i s (fun t =>
         let p := FMap.get t.pend s.nextId
         p.live = true ∧ p.cells = a.data ∧ p.team = a.team ∧ after p.v p.homeDie ∧ t.accOf id = default ∧
         t.mem = s.mem ∧ t.sb = s.sb)) ∧
     (a.kind = .atomic ∨ a.kind = .posted → a.sb = 0 → a.members = [] → s.mustWait id a = false → s.absentAt a.addr = none →
       (∀ p ∈ s.sb, p.2.team ≠ a.team) → (∀ p ∈ s.acc, p.2.kind = .store → p.2.team ≠ a.team) →
       s.behindHold a.team a.rel = false → s.holders line o true = [] → s.forcing line o true = false →
       a.xl.d1 = true → a.xl.d2 = true → ∀ i, visits i →
       (a.crosses = true → a.seq = 0 → Completes i s (fun t =>
         (t.accOf id).seq = s.nextId ∧ (t.accOf id).phase = (s.die a.srcDie).oph.toNat ∧ (t.accOf id).live = true ∧
         t.pend = s.pend ∧ t.ops = s.ops ∧ t.mem = s.mem)) ∧
       (a.crosses = false ∨ a.seq ≠ 0 → s.poisoned a.addr a.size = false → Completes i s (fun t =>
         (a.op ≠ 0 → FMap.get (t.op a.op).res a.lane = old ∧ (t.op a.op).waitOn = (s.op a.op).waitOn.filter (· ≠ id)) ∧
         (a.cas = true → old ≠ a.operand → t.pend = s.pend) ∧
         (a.cas = false ∨ old = a.operand → (FMap.get t.pend s.nextId).cells = cellsOf a.addr a.size (new old) ∧
           (FMap.get t.pend s.nextId).homeDie = a.homeDie ∧ after (FMap.get t.pend s.nextId).v a.homeDie) ∧
         t.accOf id = default ∧ t.mem = s.mem)))) ∧
  (∀ (s : State) (k : Nat), s.Ordered →
     let e := FMap.get s.sb k
     let p := FMap.get s.pend k
     let first : Prop := ∀ q ∈ s.pend, p.v < q.2.v ∨ (p.v = q.2.v ∧ k ≤ q.1) ∨ ∀ c ∈ q.2.cells, lastCell p.cells c.1 = none
     ((∀ j, FMap.get s.sb j = default ∨ FMap.get s.acc j = default) →
       e.live = true → e.hold = 0 →
       ((∀ q ∈ s.sb, q.2.team = e.team → q.2.hold ≠ 0 → e.release ≤ q.2.release) → Completes (.storeBufferDrain k) s (fun t => FMap.get t.sb k = default ∧ (t.accOf k).live = true ∧
         (t.accOf k).kind = .store ∧ (t.accOf k).data = e.cells ∧ (∀ j, j ≠ k → FMap.get t.sb j = FMap.get s.sb j) ∧
         (∀ g, t.grp g = s.grp g) ∧ SameMemory s t)) ∧
       (e.issued + 16384 ≤ s.tick → Completes (.drainBoundExpiry k) s (fun t => FMap.get t.sb k = default ∧
         (t.accOf k).live = true ∧ (t.accOf k).data = e.cells ∧ (t.accOf k).forced = false ∧
         (∀ q ∈ t.sb, q.2.team = e.team → q.2.hold ≠ 0 → e.release ≤ q.2.release) ∧
         (∀ g, t.grp g = s.grp g) ∧ SameMemory s t))) ∧
     (p.live = true → p.v + (if p.grps = [] then 0 else 2) ≤ s.tick → first → Completes (.storeCompletion k) s (fun t =>
       FMap.get t.pend k = default ∧ (∀ a b, lastCell p.cells a = some b → FMap.get t.mem a = b) ∧
       (∀ a, lastCell p.cells a = none → FMap.get t.mem a = FMap.get s.mem a) ∧ (∀ g, t.grp g = s.grp g) ∧ SameMemory s t)))

/-- R66, R112, R138, R143, R185, R346, R350, R352: what ends. An operation whose results are in writes its destination, or poisons
it where its bytes were poisoned, its counter falls by one and it is gone; an expired lease is gone; a phase marker whose
stores are visible sets the completed phase; an acknowledged store of another package is gone from what fences await; a
withheld record is written once its turn and a slot have come. It concludes that exec answers a next state, under conditions
on the state and the operands alone, for: withheldRecordWrite, variableLatencyCompletion, leaseExpiry, phaseMarkerArrival,
orairAcknowledgement. -/
def Obligations.OperationsComplete : Prop :=
  ∀ (s : State) (id g home src core sector : Nat) (m : BitVec 32), s.Ordered →
    let o := s.op id
    let gr := s.grp o.grp
    let a := s.accOf id
    let ends (t : State) : Prop := (t.op id).live = false ∧
      (o.ctr < 6 → t.ctr o.grp o.ctr = s.ctr o.grp o.ctr - 1) ∧ (∀ h, h ≠ o.grp → t.grp h = s.grp h) ∧
      (∀ k, k ≠ id → t.op k = s.op k) ∧ SameMemory s t
    (o.live = true → o.waitOn = [] → o.flag = false → o.stage ≠ 7 →
      (o.kind = .load ∨ o.kind = .paramLoad ∨ o.kind = .atom ∨ o.kind = .sfu ∨ (o.kind = .scratch ∧ o.stage = 0) →
        FMap.get o.res spoilKey = 0 → Completes (.variableLatencyCompletion id) s (fun t =>
        (∀ j l, j < o.regs → l < 32 → o.lanes.getLsbD l = true →
          FMap.get (t.grp o.grp).vregs (32 * (o.dst + j) + l) = o.word (FMap.get o.res l) j) ∧
        (∀ r l, l < 32 → (r < o.dst ∨ o.dst + o.regs ≤ r ∨ o.lanes.getLsbD l = false) →
          FMap.get (t.grp o.grp).vregs (32 * r + l) = FMap.get gr.vregs (32 * r + l)) ∧
        (t.grp o.grp).sregs = gr.sregs ∧ (t.grp o.grp).pregs = gr.pregs ∧ (t.grp o.grp).vtags = gr.vtags ∧ ends t)) ∧
      (o.kind = .load ∨ o.kind = .atom → FMap.get o.res spoilKey ≠ 0 → Completes (.variableLatencyCompletion id) s (fun t =>
        (∀ j, j < o.regs → FMap.get (t.grp o.grp).vpoison (o.dst + j) = true) ∧ ends t)) ∧
      (o.kind = .sload ∨ o.kind = .mstatus → FMap.get o.res spoilKey = 0 → Completes (.variableLatencyCompletion id) s (fun t =>
        (∀ j, j < o.regs → FMap.get (t.grp o.grp).sregs (o.dst + j) = o.word (FMap.get o.res 0) j) ∧
        (∀ r, (r < o.dst ∨ o.dst + o.regs ≤ r) → FMap.get (t.grp o.grp).sregs r = FMap.get gr.sregs r) ∧
        (t.grp o.grp).vregs = gr.vregs ∧ ends t)) ∧
      (o.kind = .btset → o.stopped = false → Completes (.variableLatencyCompletion id) s (fun t =>
        FMap.get (t.grp o.grp).bts ((o.arg.head?).getD 0) = btOfArgs o.arg ∧ (t.grp o.grp).vregs = gr.vregs ∧ ends t)) ∧
      (o.kind = .store → o.ptr = 0 ∨ o.ptr + 2 ≤ s.tick → Completes (.variableLatencyCompletion id) s (fun t =>
        (t.grp o.grp).vregs = gr.vregs ∧ ends t))) ∧
    (FMap.get s.leases (leaseKey core sector) ≤ s.tick → Completes (.leaseExpiry core sector) s (fun t =>
      FMap.get t.leases (leaseKey core sector) = 0 ∧ (∀ k, k ≠ leaseKey core sector → FMap.get t.leases k = FMap.get s.leases k) ∧
      (∀ h, t.grp h = s.grp h) ∧ SameMemory s t)) ∧
    ((s.die home).markers.find? (fun x => x.1 = src) = some (src, m) → s.phaseDone src home m.toNat = true →
      Completes (.phaseMarkerArrival home src) s (fun t => FMap.get (t.die home).cph src = m ∧
        (∀ c, c ≠ src → FMap.get (t.die home).cph c = FMap.get (s.die home).cph c) ∧ (t.die home).oph = (s.die home).oph ∧
        (t.die home).markers.length + 1 = (s.die home).markers.length ∧
        (∀ h, { t.grp h with wait := (s.grp h).wait } = s.grp h) ∧ SameMemory s t)) ∧
    (a.live = true → a.acked = true → a.place = .remote → (∀ f ∈ s.mig.forwarded, f.tok ≠ id) →
      (a.kind = .store → Completes (.orairAcknowledgement id) s (fun t => t.accOf id = default ∧
        (∀ h, id ∉ (t.grp h).fence.stores ∨ (s.grp h).fence.live = false) ∧ (∀ h, (t.grp h).vregs = (s.grp h).vregs) ∧
        SameMemory s t)) ∧
      (a.kind = .atomic → a.op ≠ 0 → Completes (.orairAcknowledgement id) s (fun t => t.accOf id = default ∧
        id ∉ (t.op a.op).waitOn ∧ (∀ h, (t.grp h).vregs = (s.grp h).vregs) ∧ SameMemory s t))) ∧
    (let x := s.grp g
     let q := s.hfq
     g ≠ 0 → x.faulted = true → x.flt.withheld = true → x.flt.hyp = true → q.room = true → q.suspended = false →
      (∀ r ∈ q.late, r.held = false) → (∀ p ∈ s.groups, p.1 ≠ g → p.2.flt.withheld = false ∨ p.2.flt.hyp = false) →
      Completes (.withheldRecordWrite g) s (fun t =>
        SetOut t (q.base52 + 64 * (q.widx % 2 ^ q.log2n)) (withPhase (s.recordBytes g x.flt) (bitOf q.widx q.log2n)) ∧
        (t.grp g).flt = { x.flt with owed := false, withheld := false } ∧ t.hfq.widx = (q.widx + 1) % 2 ^ 32 ∧
        t.hfq.held = q.held - 1 ∧ t.hfq.irq = q.irq ∧ (∀ h, h ≠ g → t.grp h = s.grp h)))

/-! ### Translation at work (R364 to R378) -/

/-- R366, R369: the walk of a held word fills the caches, or notes its fault, and the word goes on; R377, R378: an ATS completion
fills the die's ATC with its range of pages and releases the words that asked for one, refusing those it does not permit; an
invalidation removes the pages it names and waits for the accesses that used them; a page response lets the group replay, or
makes its park a fault park of class 15; for a halted group it is kept. It concludes that exec answers a next state, under
conditions on the state and the operands alone, for: walkCompletion, atsCompletion, atsInvalidateRequest, priResponse. -/
def Obligations.TranslationAnswers : Prop :=
  ∀ (s : State) (g page : Nat) (wr : Bool) (ans : AtsAnswer) (fn count : Nat), s.Ordered →
    let gr := s.grp g
    let w := (s.walkOn (coreDie (s.coreOf g)) gr.vf (s.partOf g) (page * 65536) wr).1
    let pages := 2 ^ min ans.log2 9
    let old := (s.die ans.die).atc
    (gr.heldWalk = [(page, wr)] → s.walkHeld gr.vf (s.partOf g) (page * 65536) wr = false →
      s.walkAbsent gr.vf (s.partOf g) (page * 65536) wr = none → s.coreOf g < 48 → gr.vf ≤ 256 → page < 2 ^ 41 →
      (∀ x, w = .ok x → x.live = true → Completes (.walkCompletion g) s (fun t =>
        t.tlbGet (s.coreOf g) gr.vf page = x ∧ (t.grp g).heldWalk = [] ∧ ⟨page, wr, 0, 0, 0, false, false⟩ ∈ (t.grp g).walked ∧
        KeepsRegisters { s with iss := { s.iss with grp := g } } t ∧ SameMemory s t)) ∧
      (∀ e, w = .error e → Completes (.walkCompletion g) s (fun t =>
        t.tlb = s.tlb ∧ (t.grp g).heldWalk = [] ∧ ⟨page, wr, e.cls, e.level, e.gpa, e.stage2, e.final⟩ ∈ (t.grp g).walked ∧
        KeepsRegisters { s with iss := { s.iss with grp := g } } t ∧ SameMemory s t))) ∧
    (Completes (.atsCompletion ans) s (fun t =>
      (ans.r || ans.w → ∀ i, i < pages → (pages = 1 ∨ old.length + pages ≤ 4096) →
        FMap.get (t.die ans.die).atc (ans.fn * 2 ^ 52 + ans.page + i) =
          { live := true, hpa := ans.hpa + i, r := ans.r, w := ans.w }) ∧
      (∀ p ∈ t.groups, p.2.vf = ans.fn → coreDie (s.coreOf p.1) = ans.die → (∀ q ∈ p.2.heldAts, atsCovers ans q.1 = false)) ∧
      (∀ p ∈ s.groups, p.2.vf = ans.fn → coreDie (s.coreOf p.1) = ans.die →
        ∀ q ∈ p.2.heldAts, atsCovers ans q.1 = true → (if q.2 then ans.w else ans.r) = false → q.1 ∈ (t.grp p.1).refused) ∧
      (∀ d, d ≠ ans.die → t.die d = s.die d) ∧ t.tlb = s.tlb ∧ SameMemory s t)) ∧
    (Completes (.atsInvalidateRequest fn page count) s (fun t =>
      (∀ d k, d < 4 → page ≤ k → k < page + count → FMap.get (t.die d).atc (fn * 2 ^ 52 + k) = default) ∧
      (∀ d k, (k < fn * 2 ^ 52 + page ∨ fn * 2 ^ 52 + page + count ≤ k) → FMap.get (t.die d).atc k = FMap.get (s.die d).atc k) ∧
      (∀ d, d < 4 → (t.op (s.nextId + d)).kind = .tlbinv ∧ (t.op (s.nextId + d)).arg = [2, d] ∧
        (t.op (s.nextId + d)).waitOn = s.atcUsers d (fn * 2 ^ 52 + page) count) ∧
      (∀ h, t.grp h = s.grp h) ∧ t.tlb = s.tlb ∧ SameMemory s t)) ∧
    (let answered := { s with pri := s.pri.filter (fun p => p.grp ≠ g) }
     let halt := (s.teamOf g).halt
     (gr.park = .page → gr.parkArg = 0 → halt = .running ∨ halt = .halting →
       exec (.priResponse g true) s = .next (answered.setGrp g { gr with park := .running, flt := default }) ∧
       Completes (.priResponse g false) s (fun t => (t.grp g).park = .fault ∧ (t.grp g).flt.cls = 15 ∧
         (t.grp g).flt.addr = gr.flt.addr ∧ (t.grp g).flt.lanes = gr.flt.lanes ∧ (t.grp g).flt.off = gr.flt.off ∧
         (t.grp g).vregs = gr.vregs ∧ (t.grp g).sregs = gr.sregs)) ∧
     (gr.park = .page → gr.parkArg = 0 → halt ≠ .running → halt ≠ .halting → ∀ ok : Bool,
       exec (.priResponse g ok) s = .next (answered.setGrp g { gr with parkArg := if ok then 2 else 1 })) ∧
     (gr.park ≠ .page ∨ gr.parkArg ≠ 0 → ∀ ok, exec (.priResponse g ok) s = .next answered))

/-! ### Privileged registers and words (R343, R344, R356 to R362, R368, R411, R414) -/

/-- R344, R357, R368: RDPS reads, and WRPS writes, a privileged register that the group's mode may name: what is admitted reads
back; a register the mode may not name, an odd pair, or a value that breaks a limit raises ILLEGAL and changes nothing. R349,
R350, R368, R374, R383, R410, R411, R413, R414, R446: each register write that is a step of its own sets its register. It
concludes that exec answers a next state, under conditions on the state and the operands alone, for: rdps, wrps, vfbind,
vfbud, hostpart, lichen, inject, fqbase, fqcfg, fqridx, registerWrite. -/
def Obligations.PrivilegedRegistersAndRows : Prop :=
  (∀ (s : State) (num : BitVec 8) (d a : SReg), s.Ordered →
     let g := s.cur
     let gr := s.grp g
     let x := s.sVal a true
     let n := num.toNat
     gr.region.open_ = false → 1 ≤ gr.mode →
     (d.toNat % 2 = 0 → gr.mayName n = true → ScalarResult (.rdps d num) s d true (· = s.readPriv g n)) ∧
     (d.toNat % 2 = 1 ∨ gr.mayName n = false → exec (.rdps d num) s = .next (s.raise (plainFault 4) s.active)) ∧
     (∀ t, a.toNat % 2 = 0 → s.writePriv g n x = some t → exec (.wrps num a) s = .next t ∧
       (n ∈ [0x08, 0x09, 0x0b, 0x10, 0x11, 0x13, 0x20, 0x24, 0x27, 0x2f, 0x31, 0x40, 0x41, 0x42, 0x43, 0x46, 0x47, 0x48, 0x49, 0x50,
             0x51, 0x54, 0x58, 0x59, 0x5b] → t.readPriv g n = x ∧ SameMemory s t ∧ (t.grp g).vregs = gr.vregs ∧
             (t.grp g).sregs = gr.sregs ∧ ∀ h, h ≠ g → t.grp h = s.grp h)) ∧
     (a.toNat % 2 = 1 ∨ s.writePriv g n x = none → exec (.wrps num a) s = .next (s.raise (plainFault 4) s.active)) ∧
     (gr.mode = 1 → n ∈ hostNums → n ∉ guestNums → s.writePriv g n x = none) ∧
     (¬(n ∈ [0x08, 0x09, 0x0b] ∨ n ∈ hostNums ∨ n = 0x20) → s.writePriv g n x = none)) ∧
  (∀ (s : State) (g k : Nat) (v : DWord), s.Ordered →
     let gr := s.grp g
     let w := gr.regFn
     let leaf := bitsOf v.toNat 5 0
     let en := v.getLsbD 63
     let size (d : Nat) : Nat := bitsOf v.toNat (5 * d + 4) (5 * d)
     gr.live = true →
     (1 ≤ gr.mode →
       (onlyBits v [(63, 12)] = true → Completes (.fqbase g v) s (fun t => (t.fn gr.vf).fq.base = v ∧
         (t.fn gr.vf).fq.suspended = false ∧ (t.fn gr.vf).fq.ridx = (s.fn gr.vf).fq.ridx ∧ (∀ h, t.grp h = s.grp h) ∧ SameMemory s t)) ∧
       (cfgOk v [(4, 0), (8, 8), (63, 63)] 16 = true → Completes (.fqcfg g v) s (fun t => (t.fn gr.vf).fq.cfg = v ∧
         (t.fn gr.vf).fq.suspended = false ∧ (∀ h, t.grp h = s.grp h) ∧ SameMemory s t)) ∧
       (onlyBits v [(31, 0)] = true → beyond (s.fn gr.vf).fq.widx v.toNat = false → Completes (.fqridx g v) s (fun t =>
         (t.fn gr.vf).fq.ridx = v.toNat ∧ (t.fn gr.vf).fq.suspended = false ∧ (∀ h, t.grp h = s.grp h) ∧ SameMemory s t)) ∧
       (beyond (s.fn gr.vf).fq.widx v.toNat = true → exec (.fqridx g v) s = .next s)) ∧
     (gr.mode = 2 →
       (onlyBits v [(5, 0), (63, 63)] = true → (∀ p ∈ s.launches, p.2.fn = w → p.2.state ∉ [LaunchState.active, .halted, .killing]) →
         (∀ q, q < 64 → (s.queue w q).state ≠ .run ∧ (s.queue w q).state ≠ .wait) →
         (en = true → s.isLeaf leaf = true ∧ ¬(s.hostPart.getLsbD 63 = true ∧ bitsOf s.hostPart.toNat 5 0 = leaf)) →
         (en = false ∨ (s.part leaf).state ≠ .running ∨ ∀ q, q < 64 → (s.queue w q).loaded = false) → Completes (.vfbind g v) s (fun t => (t.fn w).bound = en ∧ (t.fn w).leaf = leaf ∧
           (t.fn w).budget = (s.fn w).budgetNext ∧ (t.fn w).balance = (s.fn w).budgetNext ∧ (∀ u, u ≠ w → t.fn u = s.fn u) ∧
           (∀ h, t.grp h = s.grp h) ∧ SameMemory s t)) ∧
       (onlyBits v [(31, 0)] = true → (s.fn w).bound = false ∨ s.budgets (s.fn w).leaf w v.toNat ≤ (s.part (s.fn w).leaf).tbudNext →
         Completes (.vfbud g v) s (fun t => (t.fn w).budgetNext = v.toNat ∧
         ((s.fn w).bound = false ∨ (s.part (s.fn w).leaf).state ≠ .running → (t.fn w).budget = v.toNat) ∧ (∀ u, u ≠ w → t.fn u = s.fn u) ∧ SameMemory s t)) ∧
       (onlyBits v [(5, 0), (63, 63)] = true → en = false ∨ (s.isLeaf leaf = true ∧ s.fnsOf leaf = []) → exec (.hostpart g v) s = .next { s with hostPart := v }) ∧
       (onlyBits v [(19, 0)] = true → (∀ d, d < 4 → size d ≤ 16) → (∀ p ∈ s.parts, p.2.state ≠ .running) →
         Completes (.lichen g v) s (fun t => t.lichenReg = v ∧ (∀ d, d < 4 → (t.die d).lichenSize = size d) ∧
           (∀ h, t.grp h = s.grp h) ∧ SameMemory s t)) ∧
       (onlyBits v [(31, 0)] = true → s.parkOf true w v.toNat = some k → (s.grp k).vf = w → (s.grp k).flt.cls = 14 →
         (s.grp k).flt.hyp = true → Completes (.inject g v) s (fun t =>
           (t.grp k).flt.cls = 13 ∧ (t.grp k).flt.hyp = false ∧ (t.grp k).flt.stage2 = false ∧
           (t.grp k).flt.faultId = (s.fn w).fq.nextId ∧ (t.grp k).park = (s.grp k).park ∧ (t.grp k).vregs = (s.grp k).vregs)) ∧
       (∀ (num : BitVec 8) (t : State), s.writePriv g num.toNat v = some t → exec (.registerWrite (.priv g num) v) s = .next t)) ∧
     (s.ras.bootSt = bootOk → k ≤ 256 → onlyBits v [(56, 12)] = true →
       exec (.registerWrite (.bar0 k 0x000) v) s = .next (s.setFn k { s.fn k with qtbase := v })) ∧
     (onlyBits v [(15, 0)] = true → 1500 ≤ v.toNat → v.toNat ≤ 4000 → Completes (.registerWrite (.bar2 0x038) v) s (fun t =>
       t.ras.pwrCap = v.toNat ∧ (∀ h, t.grp h = s.grp h) ∧ t.mem = s.mem)))

/-- R347, R351, R356, R358, R361, R362: the privileged words that end a trap, a park or a halt. TRET returns to the faulting word,
or after it, with the saved path and clause; FLT.ACK and HALT.ACK answer in a uniform predicate whether they found their park;
a REPLAY, a RESUME inside a clause and a KILL end it; REGION.ABORT returns the recorded registers; TILE.RESET and PHASE.SET
write what they name. It concludes that exec answers a next state, under conditions on the state and the operands alone, for:
tret, fltAck, haltAck, regionAbort, tileReset, phaseSet. -/
def Obligations.PrivilegedWordsAct : Prop :=
  ∀ (s : State) (skip vfq : Bool) (d : QReg) (a b : SReg) (k tm : Nat) (n : TReg), s.Ordered →
    let g := s.cur
    let gr := s.grp g
    let r := gr.trapRet
    let id := (s.rdS g a.toNat).toNat
    let hyp : Bool := gr.mode = 2 && !vfq
    let fn := if gr.mode = 2 then gr.hvsel else gr.vf
    let x := s.grp k
    let found (t : State) : Prop := (t.grp g).qregs.getLsbD d.toNat = true ∧ (t.grp g).vregs = gr.vregs ∧ (t.grp g).sregs = gr.sregs
    let names : Prop := id < 4096 ∧ s.byHandle id = some k ∧ (gr.mode = 1 → x.vf = gr.vf)
    gr.region.open_ = false → 1 ≤ gr.mode →
    (gr.trapped = true → gr.stack.length = r.depth → Completes (.tret skip) s (fun t =>
      let y := t.grp g
      y.trapped = false ∧ y.clause = r.clause ∧ y.nextClause = r.nextClause ∧ y.word = (if skip then r.word + 1 else r.word) ∧
      (y.inClause = true ↔ y.word ≤ r.count) ∧ y.off = (if r.count < y.word then r.nextClause else r.clause) ∧
      y.mask = r.mask &&& ~~~gr.exited ∧ y.recOff = r.recOff ∧ y.stack = gr.stack ∧ y.snap = r.snap ∧ y.tilew = r.tilew ∧
      y.vregs = gr.vregs ∧ y.sregs = gr.sregs ∧ y.pregs = gr.pregs ∧ y.qregs = gr.qregs ∧ OnlyGroup s t g)) ∧
    (gr.trapped = false ∨ gr.stack.length ≠ r.depth → exec (.tret skip) s = .next (s.raise (plainFault 4) s.active)) ∧
    (vfq = false ∨ gr.mode = 2 →
      (∀ act, s.parkOf hyp fn id = none → UniformResult (.fltAck act vfq d a) s d false) ∧
      (s.parkOf hyp fn id = some k → k ≠ g → x.live = true → x.park = .fault → x.engFault = false → x.lastViolation = false →
        x.flt.rolled = false →
        Completes (.fltAck 0 vfq d a) s (fun t => found t ∧ (t.grp k).park = .running ∧ (t.grp k).flt = default ∧
          (t.grp k).word = x.word ∧ (t.grp k).inClause = x.inClause ∧ (t.grp k).replay = x.replay ∧ (t.grp k).vregs = x.vregs ∧
          (t.grp k).sregs = x.sregs ∧ (∀ h, h ≠ g → h ≠ k → t.grp h = s.grp h) ∧ SameMemory s t) ∧
        (x.flt.atHeader = false → x.morePlanes = false → x.word < x.count → Completes (.fltAck 1 vfq d a) s (fun t => found t ∧
          (t.grp k).park = .running ∧ (t.grp k).flt = default ∧ (t.grp k).word = x.word + 1 ∧ (t.grp k).vregs = x.vregs ∧
          (t.grp k).sregs = x.sregs ∧ (∀ h, h ≠ g → h ≠ k → t.grp h = s.grp h) ∧ SameMemory s t)) ∧
        (s.bondOf k = none → Completes (.fltAck 2 vfq d a) s (fun t => found t ∧ (t.grp k).retired = true)))) ∧
    (names → (s.team x.team).halt ≠ .held → UniformResult (.haltAck false d a) s d false) ∧
    (names → x.team = tm → (s.team tm).halt = .held → s.contextBusy tm = false →
      Completes (.haltAck false d a) s (fun t => (t.grp g).qregs.getLsbD d.toNat = true ∧ (t.team tm).halt = .running ∧
        (∀ h ∈ (s.team tm).groups, (t.grp h).moved.getLsbD 2 = true) ∧ (∀ h, (t.grp h).vregs = (s.grp h).vregs) ∧ SameMemory s t) ∧
      ((s.tile tm n.toNat).defd = true → Completes (.tileReset a n) s (fun t =>
        t.tile tm n.toNat = { s.tile tm n.toNat with wptr := 0, resv := 0, owner := false, ranges := [] } ∧
        (∀ h, (t.grp h).vregs = (s.grp h).vregs ∧ (t.grp h).sregs = (s.grp h).sregs) ∧ (t.team tm).scratch = (s.team tm).scratch))) ∧
    (names → k ≠ g → s.contextBusy x.team = false → (s.team x.team).halt = .held ∨ x.faulted = true → x.region.open_ = true →
      Completes (.regionAbort d a) s (fun t => (t.grp g).qregs.getLsbD d.toNat = true ∧
        (t.grp k).vregs = x.region.vregs ∧ (t.grp k).sregs = x.region.sregs ∧ (t.grp k).pregs = x.region.pregs ∧
        (t.grp k).qregs = x.region.qregs ∧ (t.grp k).off = x.region.off ∧ (t.grp k).mask = x.region.mask ∧
        (t.grp k).stack = x.region.stack ∧ (t.grp k).inClause = false ∧ (t.grp k).regionStores = [] ∧ (t.grp k).ctrs = [] ∧
        (∀ h, h ≠ g → h ≠ k → t.grp h = s.grp h) ∧ SameMemory s t)) ∧
    (names → s.contextBusy x.team = false → x.region.open_ = false → UniformResult (.regionAbort d a) s d false) ∧
    (gr.mode = 2 →
      let die := bitsOf id 1 0
      let src := bitsOf id 9 8
      (die ≠ src → s.dieBusy die = false → s.dieBusy src = false →
        exec (.phaseSet true a b) s = .next (s.setDie die { s.die die with cph := FMap.set (s.die die).cph src (s.rdS g b.toNat) })) ∧
      (s.dieBusy die = false → exec (.phaseSet false a b) s = .next (s.setDie die { s.die die with oph := s.rdS g b.toNat })) ∧
      (s.dieBusy die = true → exec (.phaseSet false a b) s = .next (s.raise (plainFault 4) s.active)))

/-- R353, R355, R359: CSAVE of a held team issues an operation and sends out, piece by piece, the bytes of the team's image; CREST
issues the operation that will read one. A handle that names no held team, or an address that is no multiple of 256, raises
ILLEGAL. R360, R371, R372, R377, R382: an invalidation, once its group's stores are published, removes what it names from
every cache at once, takes the fast path from the base translation registers concerned, and becomes an operation whose counter
falls when the accesses on their way have performed; HARVEST also clears the D bits it covers. It concludes that exec answers
a next state, under conditions on the state and the operands alone, for: csave, crest, tlbinv, harvest, atcinv,
invalidationCompletion. -/
def Obligations.ContextWordsAndInvalidations : Prop :=
  (∀ (s : State) (a b : SReg) (c : CReg) (k tm : Nat) (tgt : Nat → Target), s.Ordered →
     let g := s.cur
     let gr := s.grp g
     let h := (s.rdS g a.toNat).toNat
     let va := (s.sVal b true).toNat
     let img := s.teamImg tm
     let out := chunksOf va img.length
     let inn := chunksOf va (s.imageLen tm va)
     s.NumbersFresh → gr.region.open_ = false → 1 ≤ gr.mode → h < 4096 → s.byHandle h = some k → (gr.mode = 1 → (s.grp k).vf = gr.vf) →
     ((s.grp k).team = tm → gr.team ≠ tm → (s.team tm).halt = .held → b.toNat % 2 = 0 → va % 256 = 0 → s.contextBusy tm = false → s.ctr g c.val < 255 →
       ((∀ i p, out[i]? = some p → p.1 + p.2 ≤ 2 ^ 57 ∧ s.orPull (s.reachVa g p.1 true) = .at (tgt i) ∧
           ∃ spa x, tgt i = .hbm spa x ∧ x.d1 = true ∧ x.d2 = true) →
         Completes (.csave a b c) s (fun t => (t.op s.nextId).live = true ∧ (t.op s.nextId).kind = .csave ∧
           (t.op s.nextId).arg = [tm] ∧ t.ctr g c.val = s.ctr g c.val + 1 ∧
           (∀ i p spa x, out[i]? = some p → tgt i = .hbm spa x → SetOut t spa ((img.drop (p.1 - va)).take p.2)) ∧
           t.mem = s.mem ∧ t.pend = s.pend ∧ t.sb = s.sb ∧ KeepsRegisters s t)) ∧
       ((∀ i p, inn[i]? = some p → p.1 + p.2 ≤ 2 ^ 57 ∧
           s.orPoison p.2 p.1 (s.orPull (s.reachVa g p.1 false)) = .at (tgt i)) →
         IssuesOp (.crest a b c) s .crest c.val [] (fun _ p => p.arg.head? = some tm))) ∧
     ((s.team (s.grp k).team).halt ≠ .held ∨ b.toNat % 2 = 1 ∨ va % 256 ≠ 0 →
       exec (.csave a b c) s = .next (s.raise (plainFault 4) s.active) ∧
       exec (.crest a b c) s = .next (s.raise (plainFault 4) s.active))) ∧
  (∀ (s : State) (a b : SReg) (c : CReg) (leaf op : Nat) (l : Leaf), s.Ordered →
     let g := s.cur
     let gr := s.grp g
     let va := (s.sVal a true).toNat
     let n := (s.rdS g b.toNat).toNat
     let out (t : State) : Prop := (t.op s.nextId).live = true ∧ (t.op s.nextId).kind = .tlbinv ∧ t.ctr g c.val = s.ctr g c.val + 1 ∧
       (∀ h, (t.grp h).vregs = (s.grp h).vregs ∧ (t.grp h).sregs = (s.grp h).sregs ∧ (t.grp h).pregs = (s.grp h).pregs ∧
         (t.grp h).qregs = (s.grp h).qregs)
     gr.region.open_ = false → 1 ≤ gr.mode → s.ctr g c.val < 255 → s.storesOut g = false →
     Completes (.tlbinv 0 a b c) s (fun t => out t ∧ (∀ p ∈ t.tlb, (p.1 / 2 ^ 41) % 512 ≠ gr.vf) ∧
       (∀ p ∈ t.groups, p.2.vf = gr.vf → ∀ q ∈ p.2.bts, q.2.limit = 0) ∧ SameMemory s t) ∧
     (a.toNat % 2 = 0 → pagesOk n = true → Completes (.tlbinv 1 a b c) s (fun t => out t ∧
       (∀ p ∈ t.tlb, (p.1 / 2 ^ 41) % 512 = gr.vf → p.1 % 2 ^ 41 < va / 65536 ∨ va / 65536 + n ≤ p.1 % 2 ^ 41) ∧
       (∀ p ∈ s.tlb, (p.1 / 2 ^ 41) % 512 ≠ gr.vf → p ∈ t.tlb) ∧ SameMemory s t)) ∧
     (a.toNat % 2 = 0 → Completes (.atcinv a b c) s (fun t => out t ∧
       (∀ d k, d < 4 → va / 4096 ≤ k → k < va / 4096 + n → FMap.get (t.die d).atc (gr.vf * 2 ^ 52 + k) = default) ∧ SameMemory s t)) ∧
     (gr.mode = 2 → s.s2Leaf = some leaf →
       Completes (.tlbinv 3 a b c) s (fun t => out t ∧ (∀ p ∈ t.tlb, p.2.part = leaf → 2 ^ 57 ≤ p.2.gpa) ∧ SameMemory s t) ∧
       (a.toNat % 2 = 0 → pagesOk n = true → Completes (.tlbinv 2 a b c) s (fun t => out t ∧ SameMemory s t ∧
         (∀ p ∈ t.tlb, p.2.part = leaf →
           va / 65536 * 65536 + n * 65536 ≤ p.2.gpa ∨ p.2.gpa + 2 ^ p.2.gbits ≤ va / 65536 * 65536))) ∧
       (a.toNat % 2 = 0 → n = 1 → va % 65536 = 0 → s.leafEntry2 leaf va = some l →
         (∀ p ∈ s.pend, lastCell p.2.cells l.entry = none) → Completes (.harvest a b c) s (fun t =>
           (∃ i, (t.op i).live = true ∧ (t.op i).kind = .tlbinv) ∧ (t.homeByte (fun _ => true) l.entry).getLsbD 7 = false ∧
           (∀ p ∈ t.tlb, p.2.part = leaf → va + 65536 ≤ p.2.gpa ∨ p.2.gpa + 2 ^ p.2.gbits ≤ va) ∧ t.mem = s.mem))) ∧
     ((s.op op).live = true → (s.op op).kind = .tlbinv → (∀ k ∈ (s.op op).waitOn, (s.accOf k).live = false) →
       Completes (.invalidationCompletion op) s (fun t => (t.op op).live = false ∧
         ((s.op op).ctr < 6 → t.ctr (s.op op).grp (s.op op).ctr = s.ctr (s.op op).grp (s.op op).ctr - 1) ∧
         (∀ h, h ≠ (s.op op).grp → t.grp h = s.grp h) ∧ SameMemory s t)))

/-! ### Frond words (R391, R392) -/

/-- R392: the Frond words that compute: on 64 bits, shifts by the low six bits of the count, register 0 zero. R389, R391, R392:
the Frond words that reach the staging block, memory and the queue, and those that move the place. It concludes that exec
answers a next state, under conditions on the state and the operands alone, for: frondEnd, frondMovi, frondAddi, frondAndi,
frondAdd, frondSub, frondAnd, frondOr, frondXor, frondShl, frondShr, frondLdp, frondLdw, frondStw, frondSts, frondBeq,
frondBne, frondBltu, frondLoop, frondAct, frondFail. -/
def Obligations.FrondWordsRun : Prop :=
  (∀ (s : State) (o : FrR) (i : FrI),
     let a := s.curQ.fr o.a
     let b := s.curQ.fr o.b
     FrondResult (.frondAdd o) s o.d (a + b) ∧ FrondResult (.frondSub o) s o.d (a - b) ∧
     FrondResult (.frondAnd o) s o.d (a &&& b) ∧ FrondResult (.frondOr o) s o.d (a ||| b) ∧
     FrondResult (.frondXor o) s o.d (a ^^^ b) ∧ FrondResult (.frondShl o) s o.d (a <<< (b.toNat % 64)) ∧
     FrondResult (.frondShr o) s o.d (a >>> (b.toNat % 64)) ∧ FrondResult (.frondMovi i) s i.d (i.imm.zeroExtend 64) ∧
     FrondResult (.frondAddi i) s i.d (s.curQ.fr i.a + i.imm.signExtend 64) ∧
     FrondResult (.frondAndi i) s i.d (s.curQ.fr i.a &&& i.imm.zeroExtend 64) ∧
     FrondResult (.frondLdp i) s i.d (FMap.get s.curQ.packet (i.imm.toNat / 8))) ∧
  (∀ (s : State) (o : FrI) (b : FrB) (n : BitVec 7) (len : BitVec 11) (code : BitVec 18) (l : List Byte) (spa : Nat) (x : Xlat), s.Ordered →
     let q := s.curQ
     let va := q.windowVa o.imm.toNat (q.fr o.a)
     let adv := frAdvance q.pc q.loops
     let quiet (t : State) : Prop := (∀ h, t.grp h = s.grp h) ∧ t.mem = s.mem
     let goes (i : Instr) (taken : Prop) : Prop := Completes i s (fun t =>
       (taken → t.curQ = { q with pc := q.pc + 1 + b.n.toNat }) ∧ (¬taken → t.curQ = { q with pc := adv.1, loops := adv.2 }) ∧
       quiet t ∧ SameMemory s t)
     let act : ActOp := q.block s.curFn s.curQueue (o.imm.getLsbD 0)
     goes (.frondBeq b) (q.fr b.a = q.fr b.b) ∧ goes (.frondBne b) (q.fr b.a ≠ q.fr b.b) ∧
     goes (.frondBltu b) ((q.fr b.a).toNat < (q.fr b.b).toNat) ∧
     Completes (.frondLoop n len) s (fun t => t.curQ = { q with
       pc := q.pc + 1, loops := { first := q.pc + 1, last := q.pc + len.toNat, left := n.toNat + 1 } :: q.loops } ∧ SameMemory s t) ∧
     Completes (.frondSts o) s (fun t => FMap.get t.curQ.staging o.imm.toNat = q.fr o.d ∧
       (∀ k, k ≠ o.imm.toNat → FMap.get t.curQ.staging k = FMap.get q.staging k) ∧ (t.curQ.pc, t.curQ.loops) = adv ∧
       t.curQ.fregs = q.fregs ∧ SameMemory s t) ∧
     ((s.hubReadVa s.curFn va 8).1 = .ok (some l) → Completes (.frondLdw o) s (fun t =>
       (∀ r : BitVec 4, t.curQ.fr r = if r = o.d ∧ r ≠ 0 then BitVec.ofNat 64 (leNat l) else q.fr r) ∧ (t.curQ.pc, t.curQ.loops) = adv ∧
       t.curQ.staging = q.staging ∧ t.curQ.ridx = q.ridx ∧ quiet t)) ∧
     (s.hubReach s.curFn va true = .ok (.hbm spa x, x) → x.d1 = true → x.d2 = true → Completes (.frondStw o) s (fun t =>
       SetOut t spa (leBytes 8 (q.fr o.d).toNat) ∧ (t.curQ.pc, t.curQ.loops) = adv ∧ t.curQ.fregs = q.fregs ∧ quiet t)) ∧
     (q.reloadReq = false → q.stopReq = false →
       (∀ e, (s.hubReadVa s.curFn va 8).1 = .error e → Completes (.frondLdw o) s (fun t =>
         t.curQ.state = .error ∧ t.curQ.code = codeWindow ∧ t.curQ.ridx = q.ridx ∧ t.curQ.active = false)) ∧
       Completes .frondEnd s (fun t => t.curQ.ridx = q.ridx + 1 ∧ t.curQ.active = false ∧ t.curQ.state = q.state) ∧
       Completes (.frondFail code) s (fun t => t.curQ.state = .error ∧ t.curQ.code = codeFail ∧ t.curQ.word = code.toNat % 65536 ∧
         t.curQ.ridx = q.ridx ∧ t.curQ.active = false)) ∧
     (q.fr o.a = 6 → s.actPrecheck act 6 = 0 → actBarrier act = false → actIntr act = false → o.d ≠ 0 →
       Completes (.frondAct o) s (fun t => t.curQ.fr o.d = 0 ∧ t.curQ.status = 0 ∧ (t.curQ.pc, t.curQ.loops) = adv ∧
         FMap.get t.curQ.bins (bitsOf act.d0.toNat 21 16) =
           { (default : Bin) with configured := true, base := act.d1.toNat, log2 := act.d2.toNat } ∧ quiet t)) ∧
     (10 < (q.fr o.a).toNat → o.d ≠ 0 → Completes (.frondAct o) s (fun t =>
       t.curQ.fr o.d = BitVec.ofNat 64 stKind ∧ (t.curQ.pc, t.curQ.loops) = adv ∧ quiet t)))

/-! ### Queues and actions (R383 to R399) -/

/-- R383 to R389: QRELOAD reads and applies a descriptor, or is ignored or put off; QTCTL disables the queues it cuts off; a read
of the write index makes packets pending, or stops a queue that ran over; a packet starts with its dwords and its index. It
concludes that exec answers a next state, under conditions on the state and the operands alone, for: qreload, qtctl,
writeIndexRead, packetStart. -/
def Obligations.QueuesRun : Prop :=
  ∀ (s : State) (fn q : Nat) (v : DWord) (l : List Byte), s.Ordered →
    let u := s.queue fn q
    let n := v.toNat % 64
    let r := s.queue fn n
    let f := (s.fn fn).qfault
    let s' := if f.getLsbD 63 && f.toNat % 64 = n then s.modFn fn (fun r => { r with qfault := 0 }) else s
    let d (i : Nat) : Nat := dwordAt l i
    let b (i : Nat) : Nat := numAt l i 1
    let w := leNat l % 2 ^ 32
    let due := (w + 2 ^ 32 - u.ridx % 2 ^ 32) % 2 ^ 32
    (bitsOf v.toNat 63 9 ≠ 0 ∨ bitsOf v.toNat 7 6 ≠ 0 → exec (.qreload fn v) s = .next s) ∧
    (bitsOf v.toNat 63 9 = 0 → bitsOf v.toNat 7 6 = 0 →
      (r.active = true → exec (.qreload fn v) s = .next (s'.setQueue fn n { r with reloadReq := true, reloadVal := v })) ∧
      (r.active = false → (s.fn fn).qtctl.toNat ≤ n → Completes (.qreload fn v) s (fun t =>
        (t.queue fn n).state = .disabled ∧ (t.queue fn n).code = codeDesc ∧ KeepsGroups s t)) ∧
      (r.active = false → n < (s.fn fn).qtctl.toNat →
        ((s'.setQueue fn n { r with active := false, reloadReq := false, stopReq := false }).hubBytes fn
          ((s.fn fn).qtbase.toNat + 64 * n) 64).1 = .ok (some l) →
        descOk fn l = true → b 0x23 % 2 = 0 → Completes (.qreload fn v) s (fun t =>
          let k := t.queue fn n
          k.state = .disabled ∧ k.code = 0 ∧ k.loaded = true ∧ k.ring = d 0 ∧ k.widxa = d 1 ∧ k.prog = d 2 ∧ k.stata = d 3 ∧
          k.log2n = b 0x20 ∧ k.prio = b 0x21 ∧ k.mode = b 0x22 ∧ k.ridx = r.ridx))) ∧
    (v.toNat ≤ 64 → Completes (.qtctl fn v) s (fun t => (t.fn fn).qtctl = v ∧
      (∀ k, k < v.toNat → t.queue fn k = s.queue fn k) ∧
      (∀ k, v.toNat ≤ k → k < (s.fn fn).qtctl.toNat → (s.queue fn k).active = false →
        (t.queue fn k).state = .disabled ∧ (t.queue fn k).code = codeDesc) ∧
      (∀ k, v.toNat ≤ k → k < (s.fn fn).qtctl.toNat → (s.queue fn k).active = true → (t.queue fn k).stopReq = true))) ∧
    (s.served fn = true → u.state = .run ∨ u.state = .wait →
      (s.hubBytes fn u.widxa 8).1 = .ok (some l) →
        (due ≤ 2 ^ u.log2n → Completes (.writeIndexRead fn q) s (fun t => (t.queue fn q).pending = u.ridx + due ∧
          (t.queue fn q).ridx = u.ridx ∧ (t.queue fn q).state = u.state ∧ (t.queue fn q).active = u.active ∧
          (∀ h, t.grp h = s.grp h) ∧ SameMemory s t)) ∧
        (2 ^ u.log2n < due → u.reloadReq = false → u.stopReq = false → Completes (.writeIndexRead fn q) s (fun t =>
          (t.queue fn q).state = .error ∧ (t.queue fn q).code = codeOverrun ∧ (t.queue fn q).ridx = u.ridx))) ∧
    (s.served fn = true → u.active = false → u.reloadReq = true →
      exec (.packetStart fn q) s = .next (s.reload fn q u.reloadVal)) ∧
    (s.served fn = true → u.state = .run →
      (u.active = false → u.reloadReq = false → u.ridx < u.pending → s.interpreters + s.rivals fn q < 32 →
        (s.hubBytes fn (u.ring + 64 * (u.ridx % 2 ^ u.log2n)) 64).1 = .ok (some l) →
        Completes (.packetStart fn q) s (fun t =>
          let k := t.queue fn q
          k.active = true ∧ k.pc = 0 ∧ k.loops = [] ∧ k.staging = [] ∧ (∀ i, i < 8 → FMap.get k.packet i = BitVec.ofNat 64 (d i)) ∧
          k.fr 15 = BitVec.ofNat 64 u.ridx ∧ (∀ i : BitVec 4, i ≠ 15 → k.fr i = 0) ∧ k.ridx = u.ridx ∧ (∀ h, t.grp h = s.grp h) ∧
          SameMemory s t)))

/-- R394 to R397: an action whose fields are in order and that waits for nothing ends with status 0: a launch is recorded with the
queue's next LSEQ and its bins, a COPY becomes an operation, a SIGNAL or MARK sends its eight bytes out, a WAITSIG puts the
queue into WAIT, BIN.CONFIG names a record buffer; an action behind BARRIER with a launch open waits. R288, R351, R361, R395,
R396, R405: a COPY moves one 16-byte unit at a time and ends, with its interrupt, once every byte is published; a WAITSIG ends
when the watched word meets its relation; HALT halts every running cluster of the launches it names, RESUME makes them active
again, FLTACK replays the park it names; none found is NOTFOUND. It concludes that exec answers a next state, under conditions
on the state and the operands alone, for: launch, launchDep, queueCopy, queueCopyCompletion, signal, mark, waitsig,
waitsigSatisfied, binConfig, halt, resume, fltack. -/
def Obligations.ActionsIssueAndComplete : Prop :=
  (∀ (s : State) (a : ActOp) (spa : Nat) (x : Xlat) (l : Launch), s.Ordered →
     let u := s.queue a.fn a.q
     let va := a.d1.toNat
     let st (t : State) : Nat := (t.queue a.fn a.q).status
     let quiet (t : State) : Prop := (∀ h, t.grp h = s.grp h) ∧ t.mem = s.mem ∧ t.pend = s.pend
     let fits (kind : Nat) : Prop := s.actPrecheck a kind = 0 ∧ (actBarrier a = false ∨ s.launchesOpen a.fn a.q = false)
     let free : Prop := s.launchesOpen a.fn a.q = false ∧ s.actionsOpen a.fn a.q = false ∧
       (∀ p ∈ s.ops, p.2.kind = .hubStore → p.2.stage ≠ 1)
     let goes : Prop := s.hubReach a.fn va true = .ok (.hbm spa x, x) ∧ x.d1 = true ∧ x.d2 = true
     (∀ i dep, (i = Instr.launch a ∧ dep = false ∧ fits 1) ∨ (i = .launchDep a ∧ dep = true ∧ fits 2) →
       (s.validate a dep).1 = .ok l → Completes i s (fun t =>
         let k := t.launch s.nextId
         k.state = .active ∧ k.queue = a.q ∧ k.mode = u.mode ∧ k.lseq = u.lseq ∧ k.cwva = a.d4.toNat ∧ k.bins = u.bins ∧
         k.entry = l.entry ∧ k.groups = l.groups ∧ k.image = l.image ∧ (t.queue a.fn a.q).lseq = (u.lseq + 1) % 2 ^ 32 ∧
         (t.queue a.fn a.q).bins = [] ∧ st t = 0 ∧ quiet t)) ∧
     (fits 3 → s.spanOk a.fn a.d1.toNat a.d3.toNat false = true → s.spanOk a.fn a.d2.toNat a.d3.toNat true = true →
       Completes (.queueCopy a) s (fun t => (t.op s.nextId).live = true ∧ (t.op s.nextId).kind = .hubCopy ∧
         (t.op s.nextId).arg = [a.fn, a.q, actIrq a, a.d1.toNat, a.d2.toNat, a.d3.toNat] ∧ st t = 0 ∧ quiet t)) ∧
     (fits 4 → free → goes → a.d0.getLsbD 16 = false → Completes (.signal a) s (fun t =>
       SetOut t spa (leBytes 8 a.d2.toNat) ∧ st t = 0 ∧ quiet t)) ∧
     (fits 4 → free → goes → a.d0.getLsbD 16 = true → s.poisoned spa 8 = false → (s.forceLine (lineOf spa) outside true).1 = true →
       (∀ p ∈ s.pend, p.1 < s.nextId) → Completes (.signal a) s (fun t =>
         leNat ((List.range 8).map (fun i => t.homeByte (fun _ => true) (spa + i))) =
           (leNat ((List.range 8).map (fun i => s.homeByte (fun _ => true) (spa + i))) + a.d2.toNat) % 2 ^ 64 ∧
         st t = 0 ∧ KeepsGroups s t)) ∧
     (fits 7 → free → goes → Completes (.mark a) s (fun t => SetOut t spa (leBytes 8 (s.tickOf a.fn)) ∧ st t = 0 ∧ quiet t)) ∧
     (fits 5 → s.hubReach a.fn va false = .ok (.hbm spa x, x) → s.poisoned spa 8 = false → Completes (.waitsig a) s (fun t =>
       let k := t.queue a.fn a.q
       k.state = .wait ∧ k.wsAddr = va ∧ k.wsVal = a.d2 ∧ k.wsMask = a.d3 ∧ k.wsRel = bitsOf a.d0.toNat 17 16 ∧ k.ridx = u.ridx ∧
       st t = 0 ∧ KeepsGroups s t)) ∧
     (fits 6 → Completes (.binConfig a) s (fun t => FMap.get (t.queue a.fn a.q).bins (bitsOf a.d0.toNat 21 16) =
       { (default : Bin) with configured := true, base := a.d1.toNat, log2 := a.d2.toNat } ∧ st t = 0 ∧ quiet t)) ∧
     (s.actPrecheck a 6 = 0 → actBarrier a = true → s.launchesOpen a.fn a.q = true → exec (.binConfig a) s = .next s)) ∧
  (∀ (s : State) (a : ActOp) (fn q op k : Nat) (l : List Byte) (spa : Nat) (x : Xlat), s.Ordered →
     let u := s.queue fn q
     let o := s.op op
     let arg (i : Nat) : Nat := (o.arg[i]?).getD 0
     let st (t : State) : Nat := (t.queue a.fn a.q).status
     let fits (kind : Nat) : Prop := s.actPrecheck a kind = 0 ∧ (actBarrier a = false ∨ s.launchesOpen a.fn a.q = false)
     (o.live = true → o.kind = .hubCopy →
       (16 * o.stage < arg 5 → (o.waitOn = [] ∧ o.ptr ≤ s.tick) ∨ ¬(arg 3 < arg 4 ∧ arg 4 < arg 3 + 16 * o.stage + 16) →
         (s.hubReadVa (arg 0) (arg 3 + 16 * o.stage) 16).1 = .ok (some l) →
         (s.hubReadVa (arg 0) (arg 3 + 16 * o.stage) 16).2.hubReach (arg 0) (arg 4 + 16 * o.stage) true = .ok (.hbm spa x, x) →
         x.d1 = true → x.d2 = true →
         Completes (.queueCopyCompletion op) s (fun t => (t.op op).stage = o.stage + 1 ∧ SetOut t spa l ∧ t.mem = s.mem ∧
           ∀ h, t.grp h = s.grp h)) ∧
       (arg 5 ≤ 16 * o.stage → o.waitOn = [] → o.ptr = 0 ∨ o.ptr + 2 ≤ s.tick →
         exec (.queueCopyCompletion op) s = .next ((s.setOp op default).signalIrq (arg 2)))) ∧
     (s.served fn = true → u.state = .wait → (s.hubReadVa fn u.wsAddr 8).1 = .ok (some l) →
       (u.wsHolds (leNat l) = true → s.interpreters < 32 → Completes (.waitsigSatisfied fn q) s (fun t =>
         (t.queue fn q).state = .run ∧ (t.queue fn q).ridx = u.ridx ∧
         (u.active = true → ((t.queue fn q).pc, (t.queue fn q).loops) = frAdvance u.pc u.loops) ∧ KeepsGroups s t)) ∧
       (u.wsHolds (leNat l) = false → Completes (.waitsigSatisfied fn q) s (fun t => (t.queue fn q).state = .wait ∧ SameMemory s t))) ∧
     (fits 8 → s.namedLaunches a ≠ [] → Completes (.halt a) s (fun t =>
       (∀ la ∈ s.namedLaunches a, ∀ c ∈ s.clustersOf la, (s.cluster c).live = true → (s.cluster c).halt = .running →
         (t.cluster c).halt = .halting ∧ (t.cluster c).holdHalt = bitOf a.d1.toNat 9) ∧
       (∀ la ∈ s.namedLaunches a, bitOf a.d1.toNat 9 = false → (t.launch la).state = .halted) ∧
       st t = 0 ∧ (∀ h, t.grp h = s.grp h) ∧ t.mem = s.mem)) ∧
     (fits 10 → s.namedLaunches a ≠ [] → Completes (.resume a) s (fun t =>
       (∀ la ∈ s.namedLaunches a, (t.launch la).state = .active) ∧ st t = 0 ∧ (∀ h, t.grp h = s.grp h) ∧ SameMemory s t)) ∧
     (fits 9 → (s.queue a.fn a.q).mode = 1 → a.fn ≠ 256 → bitsOf a.d1.toNat 35 32 = 0 →
       s.parkOf false a.fn (a.d1.toNat % 2 ^ 32) = some k →
       (s.grp k).park = .fault → (s.grp k).engFault = false → (s.grp k).lastViolation = false → (s.grp k).flt.rolled = false →
       Completes (.fltack a) s (fun t =>
         (t.grp k).park = .running ∧ (t.grp k).flt = default ∧ (t.grp k).vregs = (s.grp k).vregs ∧ st t = 0 ∧
         (∀ h, h ≠ k → t.grp h = s.grp h) ∧ SameMemory s t)) ∧
     (s.namedLaunches a = [] →
       (fits 8 → Completes (.halt a) s (fun t => st t = stNotFound ∧ ∀ h, t.grp h = s.grp h)) ∧
       (fits 10 → Completes (.resume a) s (fun t => st t = stNotFound ∧ ∀ h, t.grp h = s.grp h))))

/-- R29, R401 to R407, R410: a microsecond charges every bound function the cores it holds; a period boundary brings the next
period's figures into force and refills; a halting cluster stops with its latches closed, and is held or saved once its
contexts are ready; a temperature report and a clock step set what they name. It concludes that exec answers a next state,
under conditions on the state and the operands alone, for: tokenConsumption, periodBoundary, clusterStop, haltCompletion,
temperatureReport, clockStep. -/
def Obligations.SchedulerDuties : Prop :=
  ∀ (s : State) (c v part core degrees die : Nat), s.Ordered →
    let cl := s.cluster c
    let r := s.fn v
    let p := s.part part
    let alive := cl.teams.filter (fun t => (s.team t).live)
    (s.usNext ≤ s.tick → Completes .tokenConsumption s (fun t => t.usNext = (s.tick / 1000 + 1) * 1000 ∧
      (v < 256 → r.bound = true → (t.fn v).balance = r.balance - s.coresHeld v) ∧ (v < 256 → r.bound = false → t.fn v = r) ∧
      (∀ h, t.grp h = s.grp h) ∧ SameMemory s t)) ∧
    (s.tick < s.usNext → exec .tokenConsumption s = .next s) ∧
    (p.state = .running → p.boundary ≤ s.tick → s.tick < s.usNext ∨ s.fnsOf part = [] → Completes (.periodBoundary part) s (fun t =>
      (t.part part).periodStart = p.boundary ∧ (t.part part).period = p.periodNext ∧ (t.part part).tbud = p.tbudNext ∧
      (v ∈ s.fnsOf part → (t.fn v).budget = r.budgetNext ∧ (t.fn v).balance = min (r.balance + r.budgetNext) r.budgetNext) ∧
      (∀ h, t.grp h = s.grp h) ∧ SameMemory s t)) ∧
    (cl.live = true → cl.halt = .halting → (∃ u ∈ alive, (s.team u).halt = .running) → Completes (.clusterStop c) s (fun t =>
      (∀ u ∈ alive, (t.team u).halt = .halting) ∧
      (∀ b ∈ t.bonds, b.2.cluster = c → b.2.state ≠ .held ∧ b.2.state ≠ .forming) ∧
      (∀ b ∈ s.bonds, b.2.cluster = c → b.2.state = .held → ∃ b' ∈ t.bonds, b'.1 = b.1 ∧ b'.2.state = .breaking ∧ b'.2.latch = []) ∧
      (t.cluster c).halt = .halting ∧ SameMemory s t)) ∧
    (cl.live = true → cl.halt = .halting → (∀ u ∈ alive, (s.team u).halt = .halting ∧ s.contextReady u = true) →
      Completes (.haltCompletion c) s (fun t =>
        (t.cluster c).halt = (if cl.holdHalt then .held else .saved) ∧
        (∀ u ∈ alive, (t.team u).halt = (if cl.holdHalt then .held else .saved)) ∧
        (∀ b ∈ s.bonds, b.2.cluster = c → b.2.state = .breaking → ∃ b' ∈ t.bonds, b'.1 = b.1 ∧ b'.2.state = .saved) ∧
        (∀ h, t.grp h = s.grp h) ∧ SameMemory s t)) ∧
    (core < 48 → Completes (.temperatureReport core degrees) s (fun t => (t.coreRec core).temp = degrees ∧
      (degrees < s.ras.hotLimit → (t.coreRec core).hotFrom = 0) ∧
      (s.ras.hotLimit ≤ degrees → (s.coreRec core).hotFrom = 0 → (t.coreRec core).hotFrom = s.tick + 1) ∧
      (∀ k, k ≠ core → t.coreRec k = s.coreRec k) ∧ (∀ h, t.grp h = s.grp h) ∧ SameMemory s t)) ∧
    (die < 4 → Completes (.clockStep die) s (fun t => 1 ≤ (t.die die).clock ∧ (t.die die).clock ≤ 2500 ∧
      (∀ d, d ≠ die → t.die d = s.die d) ∧ (∀ h, t.grp h = s.grp h) ∧ SameMemory s t))

/-! ### Copies, the mesh, SDOT (R109, R110, R285 to R296) -/

/-- R66, R109, R285 to R290: a COPY whose descriptor keeps its limits reserves the extents it writes and becomes an operation with
the descriptor as read; a failing check raises its class. Each unit of 16 bytes then moves on its own: out of a tile or a
source in memory towards the destination, or into the tile behind WPTR, which follows in steps of 64 bytes. The copy ends, and
its tiles return where the return modifier asked for it, once every byte is published. It concludes that exec answers a next
state, under conditions on the state and the operands alone, for: copy, copyProgress, copyCompletion. -/
def Obligations.CopiesMoveUnits : Prop :=
  ∀ (s : State) (a : SReg) (c : CReg) (op w r e : Nat) (l : List Byte) (spa : Nat) (x : Xlat), s.Ordered →
    let g := s.cur
    let u := s.myTeam
    let f := (List.range 8).map (fun i => (s.rdS g (a.toNat + i)).toNat)
    let d := copyDesc f
    let cl := s.cluster (s.clusterOf g)
    let o := s.op op
    let k := copyDesc o.arg
    let tile := s.tile o.team k.ts
    let n := o.stage
    ((s.grp g).region.open_ = false → s.active ||| (s.grp g).exited = BitVec.allOnes 32 →
      (d.legal (cl.rows * cl.cols) = true →
        (∀ i ∈ d.tiles, (s.tile u i).defd = true ∧ (d.kind = 1 ∨ u ∈ s.copyTeams d → (s.tile u i).owner = true)) →
        (d.conv ≠ 0 → (s.tile u d.ts).tag = (if d.de4 then Tag.de4x8 else .de8x4) ∧ (s.tile u d.te).tag = .b32) →
        (d.kind = 1 → d.rows * d.rbt ≤ (s.tile u d.ts).bytes ∧ (d.conv ≠ 0 → d.rows * d.rbe ≤ (s.tile u d.te).bytes)) →
        (∀ p ∈ s.copyNeeds d, (s.team p.1).live = true → (s.tile p.1 p.2.1).room p.2.2 = true) → s.ctr g c.val < 255 →
        IssuesOp (.copy a c) s .copy c.val [] (fun t p => p.arg = f ∧ p.stage = 0 ∧
          (∀ q ∈ s.copyNeeds d, ∃ i, (q.1, q.2.1, i, i + q.2.2) ∈ p.resv) ∧
          (d.kind = 0 → d.mcast = 0 → d.conv = 0 →
            (t.tile u d.ts).resv = (s.tile u d.ts).resv + d.rows * d.rb ∧ (t.tile u d.ts).wptr = (s.tile u d.ts).wptr ∧
            (t.tile u d.ts).ret = (d.ret || (s.tile u d.ts).ret)))) ∧
      (∀ cls, s.copyFault d c.val = some cls → exec (.copy a c) s = .next (s.raise (plainFault cls) s.active))) ∧
    ((s.grp g).region.open_ = false → s.active ||| (s.grp g).exited ≠ BitVec.allOnes 32 →
      exec (.copy a c) s = .next (s.raise { plainFault 9 with lanes := s.active } s.active)) ∧
    (o.kind = .copy → s.engineRuns o = true → n < k.units → l.length = 16 → x.d1 = true → x.d2 = true →
      (k.kind = 1 → s.copyOut o.team k n = some (.ok l) →
        (s.engReach op (k.at k.g n) 16 true).1 = some (.at (.hbm spa x)) →
        Completes (.copyProgress op) s (fun t => (t.op op).stage = n + 1 ∧ SetOut t spa l ∧ t.mem = s.mem ∧ ∀ h, t.grp h = s.grp h)) ∧
      (k.kind = 1 → k.conv = 0 → 16 ≤ k.rb → s.tileReady o.team k.ts ((n / k.upr) * k.rb + 16 * (n % k.upr) + 16) = true →
        s.tilePoison o.team k.ts ((n / k.upr) * k.rb + 16 * (n % k.upr)) 16 = false →
        s.copyOut o.team k n = some (.ok (s.tileBytes o.team k.ts ((n / k.upr) * k.rb + 16 * (n % k.upr)) 16))) ∧
      (k.kind = 2 → (s.engRead op (k.at k.g n) 16).1 = some (.ok l) →
        ((s.engRead op (k.at k.g n) 16).2.engReach op (k.at k.g2 n) 16 true).1 = some (.at (.hbm spa x)) →
        Completes (.copyProgress op) s (fun t => (t.op op).stage = n + 1 ∧ SetOut t spa l ∧ t.mem = s.mem ∧ ∀ h, t.grp h = s.grp h)) ∧
      (k.kind = 0 → k.conv = 0 → o.resv = [(o.team, k.ts, r, e)] → FMap.get o.res 0 = n →
        tile.owner = true → tile.ranges = [(r, e, w, 0)] → (s.engRead op (k.at k.g n) 16).1 = some (.ok l) →
        Completes (.copyProgress op) s (fun t => (t.op op).stage = n + 1 ∧
          (∀ i b, l[i]? = some b → FMap.get (t.team o.team).scratch (tile.start + r + 16 * n + i) = b) ∧
          (t.tile o.team k.ts).wptr = (if e ≤ r + (16 * n + 16) then e else r + 64 * ((16 * n + 16) / 64)) ∧
          (∀ h, (t.grp h).vregs = (s.grp h).vregs) ∧ t.mem = s.mem))) ∧
    (o.kind = .copy → s.engineRuns o = true →
      (s.copyDone o = true → Completes (.copyCompletion op) s (fun t => (t.op op).live = false ∧
        (o.ctr < 6 → t.ctr o.grp o.ctr = s.ctr o.grp o.ctr - 1) ∧ (∀ h, h ≠ o.grp → t.grp h = s.grp h) ∧ SameMemory s t ∧
        (∀ q ∈ o.resv, (s.tile q.1 q.2.1).ret = true →
          (∀ p ∈ s.ops, p.1 ≠ op → p.2.live = true → ∀ y ∈ p.2.resv, (y.1, y.2.1) ≠ (q.1, q.2.1)) →
          (t.tile q.1 q.2.1).owner = false))) ∧
      (s.copyDone o = false → exec (.copyCompletion op) s = .next s))

/-- R291 to R294: MESH.TREE sets the cluster's tree; MESH.RED of a rank that is not the root adds the team's lanes, with the
identity for exited ones, to its next instance and becomes an operation; a combiner accepts a child's partial, which ends the
child's operation and, when it was the root's last, lands 32 words in the root's tile; MESH.CANCEL ends an instance everywhere
and writes nothing. It concludes that exec answers a next state, under conditions on the state and the operands alone, for:
meshTree, meshRed, meshCancel, meshPartialAccept. -/
def Obligations.MeshReduces : Prop :=
  ∀ (s : State) (k : BitVec 2) (a : SReg) (o : MeshOp) (cu tree child num u n r : Nat), s.Ordered →
    let g := s.cur
    let gr := s.grp g
    let c := s.clusterOf g
    let cl := s.cluster c
    let bytes := (List.range 3).flatMap (fun i => (leBytes 4 (s.rdS g (a.toNat + i)).toNat).map (·.toNat))
    let ranks := cl.rows * cl.cols
    let t0 := FMap.get cl.trees o.k.toNat
    let num0 := FMap.get t0.next gr.crank
    let key0 := instKey o.k.toNat num0
    let i0 := FMap.get cl.insts key0
    gr.region.open_ = false →
    (treeOk bytes ranks = true → s.meshOps (· ∈ cl.teams) k.toNat = [] → Completes (.meshTree k a) s (fun t =>
      FMap.get (t.cluster c).trees k.toNat = { live := true, parents := bytes.take ranks, next := [] } ∧
      (∀ j, j ≠ k.toNat → FMap.get (t.cluster c).trees j = FMap.get cl.trees j) ∧
      (∀ j, j ≠ c → t.cluster j = s.cluster j) ∧ (∀ h, t.grp h = s.grp h) ∧ SameMemory s t)) ∧
    (treeOk bytes ranks = false ∨ s.meshOps (· ∈ cl.teams) k.toNat ≠ [] →
      exec (.meshTree k a) s = .next (s.raise (plainFault 4) s.active)) ∧
    (s.active ||| gr.exited = BitVec.allOnes 32 → t0.live = true → s.opFault true [vSrc o.a o.ty] s.active = none →
      t0.parent gr.crank ≠ 0xff → s.ctr g o.c.val < 255 →
      ((s.meshOps (· = gr.team) o.k.toNat).length < 4 → i0.cancelled = false →
        (∀ root, t0.parents.idxOf? 0xff = some root → i0.ready t0 root = false) →
        IssuesOp (.meshRed o) s .meshRed o.c.val [] (fun t p => p.arg = [o.k.toNat, num0] ∧ p.resv = [] ∧
          FMap.get (FMap.get (t.cluster c).trees o.k.toNat).next gr.crank = num0 + 1 ∧
          (let i := FMap.get (t.cluster c).insts key0
           i.live = true ∧ FMap.get i.ops gr.crank = s.nextId ∧
           ∀ l, l < 32 → (FMap.get i.own gr.crank)[l]? =
            some (if gr.exited.getLsbD l then BitVec.ofNat 32 (redIdentity (meshOpOf o.op.toNat) o.ty) else s.rdV g o.a.toNat l)))) ∧
      (4 ≤ (s.meshOps (· = gr.team) o.k.toNat).length → exec (.meshRed o) s = .next (s.parkAgain .mesh o.k.toNat))) ∧
    (let cl := s.cluster cu
     let t1 := FMap.get cl.trees tree
     let key := instKey tree num
     let i := FMap.get cl.insts key
     let i' : MeshInst := { i with
       accepted := insertOnce child i.accepted, partials := FMap.set i.partials child (i.partial t1 child) }
     let id := FMap.get i.ops child
     t1.live = true → cl.halt = .running → child < t1.parents.length → t1.parent child ≠ 0xff →
     (∀ p ∈ cl.insts, p.2.tree = tree → p = (key, i)) → i.live = true → i.tree = tree → i.num = num → i.cancelled = false →
     child ∉ i.accepted → i.ready t1 child = true →
      ((∀ root, t1.parents.idxOf? 0xff = some root → i'.ready t1 root = false) → Completes (.meshPartialAccept cu tree child) s (fun t =>
        FMap.get (t.cluster cu).insts key = i' ∧ (t.op id).live = false ∧ SameMemory s t ∧
        (∀ h, h ≠ (s.op id).grp → t.grp h = s.grp h))) ∧
      (∀ root, t1.parents.idxOf? 0xff = some root → i'.ready t1 root = true → FMap.get i.ops root ≠ id →
        (s.op (FMap.get i.ops root)).resv = [(u, n, r, r + 128)] → Completes (.meshPartialAccept cu tree child) s (fun t =>
          FMap.get (t.cluster cu).insts key = default ∧ (t.op id).live = false ∧
          ∀ j b w, (i'.partial t1 root)[j]? = some w → b < 4 →
            FMap.get (t.team u).scratch ((s.tile u n).start + r + 4 * j + b) = BitVec.ofNat 8 (w.toNat / 2 ^ (8 * b)))) ∧
      (∀ j, j < 32 → (((FMap.get i.own child)[32]?).getD 0) = 0 → (((FMap.get i.own child)[33]?).getD 0) = 2 →
        (i.partial t1 child)[j]? = some (((FMap.get i.own child)[j]?).getD 0 +
          ((t1.kids child).map (fun q => ((FMap.get i.partials q)[j]?).getD 0)).sum))) ∧
    (let t1 := FMap.get cl.trees k.toNat
     t1.live = true → ∀ id num, (s.meshOps (· = gr.team) k.toNat).getLast? = some (id, num) → (s.op id).flag = false →
      Completes (.meshCancel k) s (fun t =>
        (∀ p ∈ (FMap.get cl.insts (instKey k.toNat num)).ops, (t.op p.2).live = false) ∧
        ((FMap.get (t.cluster c).insts (instKey k.toNat num)).cancelled = true ∨
          FMap.get (t.cluster c).insts (instKey k.toNat num) = default) ∧
        (∀ h, (t.grp h).vregs = (s.grp h).vregs ∧ (t.grp h).sregs = (s.grp h).sregs) ∧ SameMemory s t))

/-- R121, R172 to R174, R295, R296: an SDOT whose descriptor keeps its limits and whose matrix lies in one stack reserves four
bytes a row and becomes an operation; A leaves once its tile holds it; each row's result then lands in turn. R298 to R300,
R304 to R314: outside a gang a matrix word that its checks admit enters the queue of its core with the configuration and
select bit then in force; MCFG and MFLIP change them for later words; MSTREAM, MDRAIN and MSTATUS count in their counter, and
MDRAIN to a tile reserves its rows; a full queue holds the word at issue. It concludes that exec answers a next state, under
conditions on the state and the operands alone, for: sdot, sdotDispatch, micaRowResult, mcfg, mstat, mflip, mstream, mzero,
mfill, mdrain, mdrainT, mstatus. -/
def Obligations.StackDotsAndMatrixWordsEnter : Prop :=
  (∀ (s : State) (o : SdotOp) (op stack u n r e : Nat), s.Ordered →
     let g := s.cur
     let l := (List.range 8).map (fun i => (s.rdS g (o.b.toNat + i)).toNat)
     let d := dotDesc l
     let f := dotFmt o.ty
     let t0 := s.myTeam
     let p := s.op op
     let d' := dotDesc p.arg
     let f' := dotFmt p.ty
     let at' := (p.arg[9]?).getD 0
     let i := p.width
     let grans := (d'.spans f' i).flatMap (fun q =>
       (List.range ((q.1 + q.2 - 1) / 64 - q.1 / 64 + 1)).map (fun j => max q.1 ((q.1 / 64 + j) * 64)))
     ((s.grp g).region.open_ = false → s.active ||| (s.grp g).exited = BitVec.allOnes 32 →
       (d.legal f = true → (s.tile t0 o.a.toNat).defd = true → (s.tile t0 o.a.toNat).owner = true →
         (s.tile t0 o.d.toNat).defd = true → (s.tile t0 o.d.toNat).owner = true →
         (f = .de8 → (s.tile t0 d.tea).defd = true ∧ (s.tile t0 d.tea).owner = true ∧ (s.tile t0 d.tea).tag = .b32) →
         (s.tile t0 o.a.toNat).tag = o.ty → (s.tile t0 o.d.toNat).tag = (if f = .i8 then Tag.i32 else .f32) →
         (s.tile t0 o.d.toNat).room (4 * d.n) = true → (∀ q ∈ d.spans f (d.n - 1), q.1 + q.2 ≤ 2 ^ 57) → s.ctr g o.c.val < 255 →
         s.stackOf g (d.pages f) none = .ok stack →
         IssuesOp (.sdot o) s .sdot o.c.val [] (fun t q => q.arg = l ++ [stack, o.a.toNat] ∧ q.ty = o.ty ∧ q.stage = 0 ∧
           (t.tile t0 o.d.toNat).resv = (s.tile t0 o.d.toNat).resv + 4 * d.n)) ∧
       (∀ cls, s.sdotFault o d = some cls → exec (.sdot o) s = .next (s.raise (plainFault cls) s.active))) ∧
     (p.kind = .sdot → s.engineRuns p = true → p.stage = 0 →
       (d'.legal f' = true → d'.row f' ≤ (s.tile p.team at').wptr → d'.exps f' ≤ (s.tile p.team d'.tea).wptr →
         s.tilePoison p.team at' 0 (max 1 (d'.row f')) = false → (f' = .de8 → s.tilePoison p.team d'.tea 0 (max 1 (d'.exps f')) = false) →
         Completes (.sdotDispatch op) s (fun t => (t.op op).stage = 1 ∧
           (∀ j, j < d'.k / mLen f' → FMap.get (t.op op).res (dotA j) = leNat (s.tileBytes p.team at' (32 * j) 32)) ∧
           (∀ h, t.grp h = s.grp h) ∧ SameMemory s t)) ∧
       ((s.tile p.team at').wptr < d'.row f' → exec (.sdotDispatch op) s = .next s)) ∧
     (p.kind = .sdot → s.engineRuns p = true → p.stage = 1 → i < d'.n → p.resv.head? = some (u, n, r, e) →
       (∀ q ∈ s.ops, q.2.kind = .sdot → q.2.stage = 1 → q.2.arg[8]? = p.arg[8]? → p.dst ≤ q.2.dst) →
       (s.snapRow op grans).1 = some (.ok ()) → Completes (.micaRowResult op) s (fun t =>
         (∀ b y, (leBytes 4 (((s.snapRow op grans).2.op op).rowResult d' f' i))[b]? = some y → FMap.get (t.team u).scratch ((s.tile u n).start + r + 4 * i + b) = y) ∧
         (i + 1 < d'.n → (t.op op).width = i + 1) ∧ (∀ h, (t.grp h).vregs = (s.grp h).vregs) ∧ t.mem = s.mem)) ∧
     (∀ (af bf : MFmt) (bl : List (KBlock × KBlock)), mIsInt af = true →
       ((chain af bf bl : Nat) : Int) = (bl.map (fun q => ((meet q.1 q.2).map (fun y =>
         toZ (mBits af) true y.2.1 * toZ (mBits bf) true y.2.2)).sum)).sum % 2 ^ 32)) ∧
  (∀ (s : State) (af bf : MFmt) (o : MStream) (dr : MDrainR) (dt : MDrainT) (tt rt w64 : Bool) (a e : TReg) (x y : SReg) (c : CReg), s.Ordered →
     let g := s.cur
     let gr := s.grp g
     let u := s.myTeam
     let m := s.myMatrix
     let row := s.rdS g o.s.toNat
     let rowD := s.rdS g dr.a.toNat
     let rowT := s.rdS g dt.a.toNat
     let rowF := s.rdS g x.toNat
     let m' (t : State) := t.matrixOf s.myCore
     let still (t : State) : Prop := KeepsRegisters s t ∧ SameMemory s t ∧ (∀ d, t.ctr g d = s.ctr g d)
     let full : Prop := m.queue.length < 16
     (gangValid gr.gang.toNat = false → s.MatrixMayRun true → full →
       (decode s.iss.word = .ok (.mcfg af bf) → Completes (.mcfg af bf) s (fun t =>
         Enqueued s t 0 0 0 ∧ (m' t).af = af ∧ (m' t).bf = bf ∧ (m' t).sel = m.sel ∧ still t)) ∧
       (decode s.iss.word = .ok .mflip → Completes .mflip s (fun t =>
         Enqueued s t 0 0 0 ∧ (m' t).af = m.af ∧ (m' t).bf = m.bf ∧ (m' t).sel = !m.sel ∧ still t)) ∧
       (decode s.iss.word = .ok (.mstream o) → rowOk row = true → (mExp m.af = 0 → o.e = 0) →
         (o.spr = true → m.af = m.bf ∧ (m.af = .e4m3 ∨ m.af = .de8)) → s.msmRange (mWide m.af) row = true →
         (s.feeds g = true → (s.tile u o.a.toNat).defd = true ∧ (s.tile u o.a.toNat).owner = true ∧
           (s.tile u o.a.toNat).rowb = (if o.spr then 19 else 31) ∧ (s.tile u o.a.toNat).tag = mTag m.af ∧
           rowCount row ≤ (s.tile u o.a.toNat).rows + 1 ∧
           (mExp m.af ≠ 0 → (s.tile u o.e.toNat).defd = true ∧ (s.tile u o.e.toNat).owner = true ∧
             (s.tile u o.e.toNat).tag = .b32 ∧ 64 * mExp m.af * rowCount row ≤ (s.tile u o.e.toNat).bytes)) →
         s.ctr g o.c.val < 255 → IssuesOp (.mstream o) s .mstream o.c.val [] (fun t _ => Enqueued s t s.nextId row 0))) ∧
     (s.MatrixMayRun false → full →
       (decode s.iss.word = .ok (.mzero w64 x) → rowOk rowF = true → s.msmRange w64 rowF = true →
         Completes (.mzero w64 x) s (fun t => Enqueued s t 0 rowF 0 ∧ still t)) ∧
       (decode s.iss.word = .ok (.mfill w64 x y) → rowOk rowF = true → s.msmRange w64 rowF = true → (w64 = true → y.toNat % 2 = 0) →
         Completes (.mfill w64 x y) s (fun t => Enqueued s t 0 rowF (s.sVal y w64) ∧ still t)) ∧
       (decode s.iss.word = .ok (.mstat tt rt a e) → (mExp m.bf = 0 → e = 0) → (s.tile u a.toNat).defd = true →
         (s.tile u a.toNat).owner = true → (s.tile u a.toNat).rows = 63 → (s.tile u a.toNat).rowb = 31 →
         (s.tile u a.toNat).tag = mTag m.bf →
         (mExp m.bf ≠ 0 → (s.tile u e.toNat).defd = true ∧ (s.tile u e.toNat).owner = true ∧ (s.tile u e.toNat).tag = .b32 ∧
           4096 * mExp m.bf ≤ (s.tile u e.toNat).bytes) →
         Completes (.mstat tt rt a e) s (fun t => Enqueued s t s.nextId 0 0 ∧ (t.op s.nextId).kind = .mstat ∧
           (t.op s.nextId).live = true ∧ (t.tile u a.toNat).ret = (rt || (s.tile u a.toNat).ret) ∧ still t)) ∧
       (decode s.iss.word = .ok (.mdrain dr) → rowOk rowD = true → rowCount rowD = 1 →
         dr.d.toNat % (if dr.ty = .f64 then 4 else 2) = 0 → dr.d.toNat + (if dr.ty = .f64 then 4 else 2) ≤ 8 * gr.blocks →
         s.msmRange (dr.src = 2) rowD = true → s.ctr g dr.c.val < 255 →
         IssuesOp (.mdrain dr) s .mdrain dr.c.val (MDrainR.regs dr) (fun t _ => Enqueued s t s.nextId rowD 0)) ∧
       (decode s.iss.word = .ok (.mdrainT dt) → rowOk rowT = true → s.msmRange (dt.src = 2) rowT = true →
         (s.tile u dt.d.toNat).defd = true → (s.tile u dt.d.toNat).owner = true → (s.tile u dt.d.toNat).tag = dt.ty →
         (s.tile u dt.d.toNat).room (rowCount rowT * drainBytes dt.ty) = true →
         (drainDe dt.ty = true → (s.tile u dt.e.toNat).defd = true ∧ (s.tile u dt.e.toNat).owner = true ∧
           (s.tile u dt.e.toNat).tag = .b32 ∧ (s.tile u dt.e.toNat).room (4 * rowCount rowT) = true) → s.ctr g dt.c.val < 255 →
         IssuesOp (.mdrainT dt) s .mdrainT dt.c.val [] (fun t _ => Enqueued s t s.nextId rowT 0 ∧
           (t.tile u dt.d.toNat).resv = (s.tile u dt.d.toNat).resv + rowCount rowT * drainBytes dt.ty))) ∧
     (s.MatrixMayRun false → s.ctr g c.val < 255 →
       IssuesOp (.mstatus x c) s .mstatus c.val [sPlace x.toNat] (fun _ p => p.dst = x.toNat ∧ FMap.get p.res 0 = s.statusWord.toNat)) ∧
     (m.queue.length ≤ 16 → s.statusWord.toNat % 16 = m.af.code.toNat ∧ s.statusWord.toNat / 16 % 16 = m.bf.code.toNat ∧
       s.statusWord.toNat / 2 ^ 11 % 32 = m.queue.length ∧ (s.statusWord.getLsbD 16 = m.sel)) ∧
     (s.MatrixMayRun true → gangValid gr.gang.toNat = false → 16 ≤ m.queue.length → exec .mflip s = .next s.holdAgain) ∧
     (gr.region.open_ = false → (s.team u).msmRows = 0 → ∀ i, i = Instr.mflip ∨ i = .mcfg af bf ∨ i = .mstream o ∨ i = .mzero w64 x ∨
       i = .mstatus x c → exec i s = .next (s.raise (plainFault 4) s.active)))

/-! ### Matrix words, gangs and bonds (R151 to R168, R297 to R316) -/

/-- R97, R100, R151 to R157, R298, R305, R308, R310, R312, R313: the first entry of a core's queue performs or starts. MFILL and
MZERO fill their rows of MSM; MDRAIN converts a row into its registers or into its tile; MCFG and MFLIP leave the queue. The
loader brings a tile row into the buffer that is not selected, N-major or K-major; the array lands one A-row a step: each
column of MSM takes its old value, or zero, and the chain of the row's blocks with the stationary ones. It concludes that exec
answers a next state, under conditions on the state and the operands alone, for: mstatRowRead, arrayStep, matrixEntryPerform.
-/
def Obligations.MatrixEntriesPerform : Prop :=
  ∀ (s : State) (core : Nat) (e : MEntry) (rest : List MEntry) (w64 tt rt : Bool) (a b : SReg) (ta te : TReg) (dr : MDrainR)
    (dt : MDrainT) (o : MStream) (blocks : List KBlock) (u n r z : Nat), s.Ordered →
    let m := s.matrixOf core
    let t0 := (s.grp e.grp).team
    let q (t : State) := (t.matrixOf core).queue
    let p := s.op e.op
    let rows (t : State) (v : Nat) : Prop := ∀ i j, i < rowCount e.row → j < 64 → (t.team t0).msmGet w64 (rowFirst e.row + i) j = v
    let k := rowFirst e.row + e.progress
    let wide := mWide e.af
    m.queue = e :: rest → e ∉ rest → (∀ key, (s.bondAt key).complete = false) →
    (e.begun = false → (s.team m.team).halt = .running → e.op = 0 ∨ p.stopped = false →
      (decode e.word = .ok (.mzero w64 a) → Completes (.matrixEntryPerform core) s (fun t => rows t 0 ∧ q t = rest ∧
        (∀ h, t.grp h = s.grp h) ∧ SameMemory s t)) ∧
      (decode e.word = .ok (.mfill w64 a b) → Completes (.matrixEntryPerform core) s (fun t =>
        rows t (e.fill.toNat % 2 ^ (if w64 then 64 else 32)) ∧ q t = rest ∧ (∀ h, t.grp h = s.grp h) ∧ SameMemory s t)) ∧
      (decode e.word = .ok (.mdrain dr) → dr.ty ≠ .f64 → s.msmBad t0 (dr.src = 2) (rowFirst e.row) 1 = false → p.live = true →
        Completes (.matrixEntryPerform core) s (fun t => q t = rest ∧ (t.op e.op).live = false ∧ SameMemory s t ∧
          ∀ l, l < 32 → (s.grp p.grp).exited.getLsbD l = false →
            let v (j : Nat) : Word := BitVec.ofNat 32 (drainElem dr.src.toNat dr.ty dr.rnd dr.sat ((s.team t0).msmGet (dr.src = 2) (rowFirst e.row) j))
            FMap.get (t.grp p.grp).vregs (32 * dr.d.toNat + l) = v l ∧
            FMap.get (t.grp p.grp).vregs (32 * (dr.d.toNat + 1) + l) = v (32 + l))) ∧
      (decode e.word = .ok (.mdrainT dt) → drainDe dt.ty = false → e.progress + 1 < rowCount e.row → p.resv = [(u, n, r, z)] →
        (e.progress = 0 → s.msmBad t0 (dt.src = 2) (rowFirst e.row) (rowCount e.row) = false) →
        Completes (.matrixEntryPerform core) s (fun t => q t = { e with progress := e.progress + 1 } :: rest ∧
          (∀ (i : Nat) (y : Byte), (s.drainRow p.team k dt).1[i]? = some y →
            FMap.get (t.team u).scratch ((s.tile u n).start + r + e.progress * (s.drainRow p.team k dt).1.length + i) = y) ∧
          (∀ h, (t.grp h).vregs = (s.grp h).vregs) ∧ t.mem = s.mem)) ∧
      (∀ af bf, decode e.word = .ok (.mcfg af bf) ∨ decode e.word = .ok .mflip → Completes (.matrixEntryPerform core) s (fun t =>
        q t = rest ∧ (∀ h, t.grp h = s.grp h) ∧ SameMemory s t)) ∧
      (decode e.word = .ok (.mstream o) ∨ decode e.word = .ok (.mstat tt rt ta te) → Completes (.matrixEntryPerform core) s (fun t =>
        q t = { e with begun := true } :: rest ∧ (∀ h, t.grp h = s.grp h) ∧ SameMemory s t))) ∧
    (e.begun = true → decode e.word = .ok (.mstat tt rt ta te) → e.isStat = true → s.engineRuns p = true → e.progress < 64 →
      2048 * (e.progress + 1) ≤ (s.tile p.team ta.toNat).wptr →
      s.tilePoison p.team ta.toNat (2048 * e.progress) 2048 = false → Completes (.mstatRowRead core) s (fun t =>
        let row := leNat (s.tileBytes p.team ta.toNat (2048 * e.progress) 2048)
        let pe (i j : Nat) := (FMap.get (t.matrixOf core).pe (peKey (!e.sel) i j)).toNat
        (tt = true → ∀ i, i < 64 → pe i e.progress = row / 2 ^ (256 * i) % 2 ^ 256) ∧
        (tt = false → ∀ i v, i < 64 → v < mLen e.bf →
          pe e.progress i / 2 ^ (mBits e.bf * v) % 2 ^ mBits e.bf = row / 2 ^ (mBits e.bf * (64 * v + i)) % 2 ^ mBits e.bf) ∧
        (e.progress < 63 → q t = { e with progress := e.progress + 1 } :: rest ∧ ∀ h, t.grp h = s.grp h) ∧
        (e.progress = 63 → mExp e.bf = 0 → q t = rest ∧ (t.op e.op).live = false) ∧ SameMemory s t)) ∧
    (e.begun = true → decode e.word = .ok (.mstream o) → e.isStream = true → e.jid = 0 → e.progress < rowCount e.row →
      p.stopped = false → (s.team p.team).halt = .running → s.feed e o e.progress = .row blocks → Completes (.arrayStep core) s (fun t =>
        (∀ j, j < 64 → (t.team m.team).msmGet wide k j = landing e.af o.acc o.spl ((s.team m.team).msmGet wide k j) e.bf
          (blocks.zipIdx.map (fun y => (y.1, s.stationary core e.sel e.bf y.2 j))) % 2 ^ (if wide then 64 else 32)) ∧
        (∀ i j, i ≠ k → j < 64 → (t.team m.team).msmGet wide i j = (s.team m.team).msmGet wide i j) ∧
        (e.progress + 1 < rowCount e.row → q t = { e with progress := e.progress + 1 } :: rest ∧ ∀ h, t.grp h = s.grp h) ∧
        (e.progress + 1 = rowCount e.row → q t = rest ∧ (t.op e.op).live = false) ∧ SameMemory s t))

/-- R158, R164 to R168, R301 to R303: GANG.SET and GANG.CLEAR write GANG outside a bond; BOND parks each member at the latch of
the rectangle its GANG names until the last arrives; with the cores free and their queues empty the lease is held, the members
go on and every core takes the first core's configuration; the last UNBOND, with no joint entry left, ends the bond and clears
GANG. It concludes that exec answers a next state, under conditions on the state and the operands alone, for: gangSet,
gangClear, bond, bondHeld, unbond. -/
def Obligations.GangsFormBonds : Prop :=
  ∀ (s : State) (gidx : BitVec 5) (bc : BitVec 4) (br : BitVec 2) (org : BitVec 4) (key : Nat) (b : Bond), s.Ordered →
    let g := s.cur
    let gr := s.grp g
    let cl := s.cluster (s.clusterOf g)
    let rect : Bond := { (default : Bond) with origin := org.toNat, rows := br.toNat, cols := bc.toNat }
    let area := br.toNat * bc.toNat
    let ok : Prop := 2 ≤ area ∧ area ≤ 12 ∧ org.toNat < cl.rows * cl.cols ∧ org.toNat / cl.cols + br.toNat ≤ cl.rows ∧
      org.toNat % cl.cols + bc.toNat ≤ cl.cols ∧ gidx.toNat = gr.idx ∧ rect.covers cl.cols gr.crank = true ∧ s.inBond g = false
    let gang (t : State) (v : BitVec 32) : Prop :=
      t.grp g = { gr with gang := v, joint := 0 } ∧ (∀ h, h ≠ g → t.grp h = s.grp h) ∧ SameMemory s t
    let n := gr.gang.toNat
    let k0 := s.gangKey g
    let b0 := s.bondAt k0
    let here : Nat × DWord × Nat × Nat × Nat := (g, s.iss.word, n, 0, s.iss.off)
    let latch := b0.latch ++ [here]
    let first : Bond := { (default : Bond) with
      state := .forming, cluster := s.clusterOf g, origin := gangOrigin n, rows := gangRows n, cols := gangCols n, gidx := gangGidx n }
    let parked (b : Bond) : State :=
      { s.parkAfter .gang 0 with bonds := FMap.set s.bonds k0 { b with latch := b.latch ++ [here] } }
    (s.MatrixMayRun false →
      (ok → Completes (.gangSet gidx bc br org) s (fun t => gang t (t.grp g).gang ∧
        let v := (t.grp g).gang.toNat
        v < 2 ^ 16 ∧ gangValid v = true ∧ gangGidx v = gidx.toNat ∧ gangCols v = bc.toNat ∧ gangRows v = br.toNat ∧
        gangOrigin v = org.toNat)) ∧
      (s.inBond g = false → Completes .gangClear s (fun t => gang t 0)) ∧
      (∀ b1, (b0.state = .forming ∧ b1 = b0) ∨ (b0.state ≠ .forming ∧ b0.state ≠ .held ∧ b0.rows = 0 ∧ b1 = first) →
        gangValid n = true → (∃ x ∈ s.bondMembers b1, ∀ y ∈ b1.latch ++ [here], y.1 ≠ x) →
        (∀ p ∈ (parked b1).bonds, (parked b1).meeting p.2 = none) → exec .bond s = .next (parked b1)) ∧
      (gangValid n = true → b0.state ≠ .forming → b0.state ≠ .held → b0.rows ≠ 0 →
        exec .bond s = .next (s.raise (plainFault 10) s.active)) ∧
      (b0.state = .forming → gangValid n = true → (∀ x ∈ s.bondMembers b0, ∃ y ∈ latch, y.1 = x) →
        (∀ y ∈ latch, jointFields y = jointFields here ∧ decode y.2.1 = .ok .bond) → s.clashes b0 = false →
        Completes .bond s (fun t => (t.grp g).park = .gang ∧ (t.bondAt k0).latch = latch ∧ (t.bondAt k0).complete = true ∧
          KeepsRegisters s t ∧ SameMemory s t))) ∧
    (s.MatrixMayRun false → ¬ok → exec (.gangSet gidx bc br org) s = .next (s.raise (plainFault 4) s.active)) ∧
    ((key, b) ∈ s.bonds → s.bondReady b = true → (∀ p ∈ s.bonds, p.1 ≠ key → s.bondReady p.2 = false) →
      Completes (.bondHeld b.cluster b.origin) s (fun t =>
        (t.bondAt key).state = .held ∧ (t.bondAt key).latch = [] ∧
        (∀ y ∈ b.latch, (s.grp y.1).park = .gang → (t.grp y.1).park = .running) ∧
        (∀ c ∈ s.bondCores b, (t.matrixOf c).af = (s.matrixOf (((s.bondCores b).head?).getD 0)).af ∧
          (t.matrixOf c).bf = (s.matrixOf (((s.bondCores b).head?).getD 0)).bf) ∧ SameMemory s t)) ∧
    (s.MatrixMayRun true → gangValid n = true → b0.state = .held → decode s.iss.word = .ok .unbond →
      (∀ x ∈ s.bondMembers b0, ∃ y ∈ latch, y.1 = x) →
      (∀ y ∈ latch, jointFields y = jointFields here ∧ decode y.2.1 = .ok .unbond ∧ (y.1 = g ∨ (s.grp y.1).park = .gang)) →
      s.jointPending k0 b0 = false → Completes .unbond s (fun t => t.bondAt k0 = default ∧
        (∀ y ∈ latch, (t.grp y.1).park = .running ∧ (t.grp y.1).gang = 0) ∧ SameMemory s t)) ∧
    (s.MatrixMayRun true → gangValid n = true → b0.state = .forming →
      exec .unbond s = .next (s.raise (plainFault 10) s.active))

/-! ### Partitions and memory (R118, R119, R408 to R421) -/

/-- R408 to R410, R412, R418: CREATE, UPDATE, START, STOP and DESTROY, each while PCSTAT shows it BUSY: where its partition is in
the state it needs and the descriptor keeps its limits, the partition takes the descriptor, runs, halts and stops, or is gone;
else the command ends with the result R412 names. A command that is not the one in progress does nothing. It concludes that
exec answers a next state, under conditions on the state and the operands alone, for: create, start, stop, update, destroy. -/
def Obligations.PartitionsLiveAndDie : Prop :=
  ∀ (s : State) (l : List Byte), s.Ordered →
    let k := s.pcPart
    let q := s.part k
    let p := partOfDesc l
    let a := s.pctBase.toNat + 64 * k
    let ended (t : State) (r : Nat) : Prop := t.pcBusy = false ∧ t.pcResult = r ∧ t.pcStage = 0
    let quiet (t : State) : Prop := (∀ h, t.grp h = s.grp h) ∧ SameMemory s t
    let runs (n : Nat) : Prop := s.pcBusy = true ∧ s.pcOp = n
    (∀ i n, (i, n) ∈ [(Instr.create, 1), (.start, 2), (.stop, 3), (.update, 4), (.destroy, 5)] →
      s.pcBusy = false ∨ s.pcOp ≠ n → exec i s = .next s) ∧
    (∀ i n, (i, n) ∈ [(Instr.create, 1), (.update, 4)] → runs n → spaOk a = false → exec i s = .fault (.noMemory a)) ∧
    (spaOk a = true → (s.readDesc k).1 = some l →
      let s1 := (s.readDesc k).2
      (runs 1 → q.state = .unused →
        (partDescOk l = true → s1.limitsOk k p = true → Completes .create s (fun t =>
          t.part k = { p with state := .stopped, key := s.nextKey } ∧ t.nextKey = s.nextKey + 1 ∧
          (∀ j, j ≠ k → t.part j = s.part j) ∧ ended t pcOk ∧ quiet t)) ∧
        (partDescOk l = false → exec .create s = .next (s1.pcEnd pcField)) ∧
        (partDescOk l = true → s1.limitsOk k p = false → exec .create s = .next (s1.pcEnd pcLimit))) ∧
      (runs 1 → q.state ≠ .unused → exec .create s = .next (s.pcEnd pcState)) ∧
      (runs 4 → q.state ≠ .unused → partDescOk l = true → s1.limitsOk k p = true → Completes .update s (fun t =>
        t.part k = q.updated p ∧ (∀ j, j ≠ k → t.part j = s.part j) ∧
        (∀ c ∈ s.partClusters k, c.2.halt = .running → (s.launch c.2.launch).state ≠ .killing →
          c.2.cores.any (fun x => q.hasCore x && !p.hasCore x && decide (x < 48)) = true → (t.cluster c.1).halt = .halting) ∧
        ended t pcOk ∧ quiet t))) ∧
    (runs 2 → q.state = .stopped → s.isLeaf k = true → Completes .start s (fun t =>
      (t.part k).state = .running ∧ (t.part k).periodStart = s.tick ∧ (t.part k).period = q.periodNext ∧
      (t.part k).tbud = q.tbudNext ∧ ended t pcOk ∧
      (∀ v ∈ s.fnsOf k, (t.fn v).budget = (s.fn v).budgetNext ∧ (t.fn v).balance = (s.fn v).budgetNext ∧ (t.fn v).loaded = true))) ∧
    (runs 2 → q.state ≠ .stopped ∨ s.isLeaf k = false → exec .start s = .next (s.pcEnd pcState)) ∧
    (runs 3 → q.state = .running →
      (s.pcStage = 0 → Completes .stop s (fun t => t.pcStage = 1 ∧ t.pcBusy = true ∧ t.part k = q ∧ quiet t ∧
        ∀ c ∈ s.partClusters k, c.2.halt = .running → (s.launch c.2.launch).state ≠ .killing → (t.cluster c.1).halt = .halting)) ∧
      (s.pcStage ≠ 0 → (∀ c ∈ s.partClusters k, c.2.halt = .saved ∨ c.2.halt = .held) →
        Completes .stop s (fun t => t.part k = { q with state := .stopped } ∧ (∀ v ∈ s.fnsOf k, (t.fn v).loaded = false) ∧
          ended t pcOk ∧ quiet t))) ∧
    (runs 3 → q.state ≠ .running → exec .stop s = .next (s.pcEnd pcState)) ∧
    (runs 5 → q.state = .stopped → s.hasKids k = false → s.framesOf k = 0 → s.fnsOf k = [] →
      (∀ e ∈ s.exports, e.2.live = true → e.2.part ≠ k) → Completes .destroy s (fun t =>
        t.part k = Part.reset ∧ (∀ j, j ≠ k → t.part j = s.part j) ∧ (∀ i ∈ t.imports, i.2.part ≠ k) ∧ ended t pcOk ∧ quiet t)) ∧
    (runs 5 → q.state ≠ .stopped → exec .destroy s = .next (s.pcEnd pcState))

/-- R118, R119, R412, R419 to R421, R432: ASSIGN gives FREE frames of the partition's dies to it and they read as zero; FREE makes
them SCRUB, removes what translates to them, and ends, with the frames FREE and zero, once every access has performed; EXPORT
names guest memory by a new handle; IMPORT, REVOKE and UNMAP change a window at once and end when the accesses under way have
performed. It concludes that exec answers a next state, under conditions on the state and the operands alone, for: assign,
free, freeScrub, exportMem, importMem, revoke, unmap. -/
def Obligations.FramesAndWindowsChange : Prop :=
  ∀ (s : State) (f n : Nat), s.Ordered →
    let k := s.pcPart
    let p := s.part k
    let ended (t : State) (r : Nat) : Prop := t.pcBusy = false ∧ t.pcResult = r ∧ t.pcStage = 0
    let quiet (t : State) : Prop := (∀ h, t.grp h = s.grp h) ∧ SameMemory s t
    let runs (n : Nat) : Prop := s.pcBusy = true ∧ s.pcOp = n
    let inside (x : Nat) : Prop := f ≤ frameOf x ∧ frameOf x < f + n
    let zeroed (t : State) : Prop :=
      (∀ x, inside x → t.homeByte (fun _ => true) x = 0) ∧ (∀ x, ¬inside x → t.homeByte (fun _ => true) x = s.homeByte (fun _ => true) x)
    let h := s.pcarg0
    let e := FMap.get s.exports (handleSerial h)
    let woff := s.pcWindow
    let key := k * 2 ^ 24 + woff / 65536
    let part0 := bitsOf s.pcarg2.toNat 23 0 * 65536
    let size := bitsOf s.pcarg2.toNat 47 24 * 65536
    let fieldsOk : Prop := onlyBits s.pcarg1 [(39, 16), (0, 0)] = true
    (∀ i n, (i, n) ∈ [(Instr.assign, 6), (.free, 7), (.freeScrub, 7), (.exportMem, 8), (.importMem, 9), (.revoke, 10), (.unmap, 11)] →
      s.pcBusy = false ∨ s.pcOp ≠ n → exec i s = .next s) ∧
    (runs 6 → s.pcFrames k = some (f, n) →
      (f + n ≤ 2 ^ 23 → (∀ i, i < n → (s.frame (f + i)).st = 0 ∧ spaDie ((f + i) * 65536) ∈ p.dies) → s.framesOf k + n ≤ p.frMax →
        Completes .assign s (fun t => (∀ i, i < n → t.frame (f + i) = { st := 1, owner := k }) ∧
          (∀ j, j < f ∨ f + n ≤ j → t.frame j = s.frame j) ∧ zeroed t ∧ ended t pcOk ∧ ∀ h, t.grp h = s.grp h)) ∧
      (p.frMax < s.framesOf k + n → exec .assign s = .next (s.pcEnd pcFrame))) ∧
    (runs 7 → s.pcStage = 0 → s.pcFrames k = some (f, n) → f + n ≤ 2 ^ 23 → (∀ i, i < n → s.frameOwned (f + i) k = true) →
      Completes .free s (fun t => (∀ i, i < n → t.frame (f + i) = { st := 2, owner := k }) ∧ t.pcStage = 1 + f * 2 ^ 24 + n ∧
        t.pcBusy = true ∧ (∀ q ∈ t.tlb, q.2.host = true ∨ (f + n) * 65536 ≤ q.2.out ∨ q.2.out + 2 ^ q.2.pbits ≤ f * 65536) ∧
        (∀ h, (t.grp h).vregs = (s.grp h).vregs))) ∧
    (runs 7 → n < 2 ^ 24 → s.pcStage = 1 + f * 2 ^ 24 + n →
      (s.framesBusy f n = false → Completes .freeScrub s (fun t => (∀ i, i < n → FMap.get t.frames (f + i) = default) ∧
        (∀ j, j < f ∨ f + n ≤ j → FMap.get t.frames j = FMap.get s.frames j) ∧ zeroed t ∧ ended t pcOk ∧ ∀ h, t.grp h = s.grp h)) ∧
      (s.framesBusy f n = true → exec .freeScrub s = .next s)) ∧
    (runs 8 → s.isLeaf k = true → s.pcarg0.toNat % 65536 = 0 → 1 ≤ s.pcarg1.toNat → s.pcarg1.toNat < 2 ^ 24 → s.nextSerial < 2 ^ 24 →
      Completes .exportMem s (fun t =>
        t.pcarg0 = mkHandle (s.ras.fabNode.toNat % 4096) p.device s.nextSerial s.pcarg1.toNat ∧ t.nextSerial = s.nextSerial + 1 ∧
        FMap.get t.exports s.nextSerial = { (default : Export) with
          live := true, part := k, gpa := s.pcarg0.toNat, size := s.pcarg1.toNat * 65536, handle := t.pcarg0 } ∧
        (∀ j, j ≠ s.nextSerial → FMap.get t.exports j = FMap.get s.exports j) ∧ ended t pcOk ∧ quiet t)) ∧
    (s.pcStage = 0 →
      (runs 9 → fieldsOk → onlyBits s.pcarg2 [(47, 0)] = true → s.isLeaf k = true → s.handleOk h = true → 65536 ≤ size →
        part0 + size ≤ bitsOf h.toNat 23 0 * 65536 → woff + size ≤ 2 ^ 40 → s.imports.length < 4096 →
        Completes .importMem s (fun t => FMap.get t.imports key =
          { live := true, part := k, woff, size, ro := s.pcarg1.getLsbD 0, handle := h, part0, revoked := false, moved := false } ∧
          t.pcStage = s.nextId + 1 ∧ t.pcBusy = true ∧ quiet t)) ∧
      (runs 10 → e.live = true → e.part = k → e.handle = h → e.revoked = false → Completes .revoke s (fun t =>
        (FMap.get t.exports (handleSerial h)).live = false ∧ (FMap.get t.exports (handleSerial h)).revoked = true ∧
        (∀ i ∈ t.imports, i.2.handle = h → i.2.revoked = true) ∧ t.pcStage = s.nextId + 1 ∧ t.pcBusy = true ∧ quiet t)) ∧
      (runs 11 → fieldsOk → (FMap.get s.imports key).live = true → Completes .unmap s (fun t =>
        FMap.get t.imports key = default ∧ (∀ j, j ≠ key → FMap.get t.imports j = FMap.get s.imports j) ∧
        t.pcStage = s.nextId + 1 ∧ t.pcBusy = true ∧ quiet t)) ∧
      (runs 9 → ¬fieldsOk → exec .importMem s = .next (s.pcEnd pcField)) ∧
      (runs 10 → e.live = false → exec .revoke s = .next (s.pcEnd pcState))) ∧
    (s.pcStage ≠ 0 → ∀ i n, (i, n) ∈ [(Instr.importMem, 9), (.revoke, 10), (.unmap, 11)] → runs n →
      (s.oldAccesses (s.pcStage - 1) = false → exec i s = .next (s.pcEnd pcOk)) ∧
      (s.oldAccesses (s.pcStage - 1) = true → exec i s = .next s))

/-! ### Live migration (R422 to R435) -/

/-- R424 to R426, R429, R433: at the source, pre-copy sends each page once the accesses to it have performed and marks it CLEAN;
HALT halts the clusters and, once all are saved and every store is published, ships the device and stops its partition; a page
then freezes, is sent, and is gone at the flip; an atomic that comes back performs, is held, or returns. It concludes that
exec answers a next state, under conditions on the state and the operands alone, for: prepare, pagePush, migrationHalt,
shipItemReceive, pagePullRequest, forwardedAtomic, pageTransfer, pageFlip, peerTimeout. -/
def Obligations.MigrationLeavesTheSource : Prop :=
  ∀ (s : State) (page spa : Nat) (p : PeerLeaf) (f : FwdAtomic) (rest : List ShipItem), s.Ordered →
    let leaf := s.migLeaf
    let m := s.mig
    let own := FMap.get m.pages page
    let only (t : State) : Prop := { t with mig := m } = s
    let fpage := f.gpa / 65536
    let a := spa + f.gpa % 65536
    let old := leNat ((List.range f.size).map (fun i => s.homeByte (fun _ => true) (a + i)))
    let mine := m.heldAtomics.filter (fun x => decide (x.gpa / 65536 = page))
    (m.cmd = 1 → m.state = .idle →
      (s.prepareCode p = 0 → Completes (.prepare p) s (fun t => only t ∧ t.mig.state = .prepare ∧ t.mig.cmd = 0 ∧ t.mig.code = 0 ∧
        ∀ q ∈ (if s.migDest then p.s2map else s.s2Pages leaf), FMap.get t.mig.pages q.1 = .absent)) ∧
      (s.prepareCode p ≠ 0 → Completes (.prepare p) s (fun t => only t ∧ t.mig.state = .failed ∧ t.mig.cmd = 0 ∧
        t.mig.code = s.prepareCode p)) ∧
      (m.cmdAt + 10000000 ≤ s.tick → Completes .peerTimeout s (fun t => only t ∧ t.mig.state = .failed ∧ t.mig.code = 1 ∧ t.mig.cmd = 0))) ∧
    (m.state ≠ .idle ∨ m.cmd ≠ 1 → exec (.prepare p) s = .next s ∧ exec .peerTimeout s = .next s) ∧
    (s.migDest = false →
      (m.state = .prepare → own = .absent → s.pageSpa leaf page = some spa →
        (s.framesBusy (frameOf spa) 1 = false → Completes (.pagePush page) s (fun t =>
          t.mig.outbox = m.outbox ++ [.page page (t.frameCells spa) (t.framePoison spa)] ∧ FMap.get t.mig.pages page = .clean ∧
          (∀ h, (t.grp h).vregs = (s.grp h).vregs))) ∧
        (s.framesBusy (frameOf spa) 1 = true → exec (.pagePush page) s = .next s)) ∧
      (m.state = .prepare → m.cmd = 2 → Completes .migrationHalt s (fun t => t.mig.state = .halt ∧ t.mig.cmd = 0 ∧
        (∀ c ∈ s.partClusters leaf, c.2.halt = .running → (s.launch c.2.launch).state ≠ .killing → (t.cluster c.1).halt = .halting) ∧
        (∀ e ∈ t.exports, e.2.part = leaf → e.2.frozen = true) ∧ (∀ h, t.grp h = s.grp h) ∧ SameMemory s t)) ∧
      (m.state = .halt → (∀ c ∈ s.partClusters leaf, c.2.halt = .saved) → s.leafQuiet leaf = true →
        Completes .migrationHalt s (fun t => t.mig.state = .ship ∧ t.part leaf = { s.part leaf with state := .stopped } ∧
          (∃ items, t.mig.outbox = m.outbox ++ items ∧ items.getLast? = some .last ∧
            (∀ x ∈ s.launchesOf leaf, ShipItem.launch x (s.launch x) ∈ items) ∧
            (∀ x ∈ s.teamsOf leaf, ShipItem.team x (s.team x) ∈ items ∧
              ∀ g ∈ (s.team x).groups, ShipItem.group g (s.grp g) ∈ items)) ∧ (∀ h, t.grp h = s.grp h) ∧ SameMemory s t)) ∧
      (m.state = .pull →
        (own = .absent → ∀ i, i = Instr.pagePush page ∨ i = .pagePullRequest page → Completes i s (fun t =>
          only t ∧ FMap.get t.mig.pages page = .frozen ∧ t.mig.outbox = m.outbox)) ∧
        (own = .frozen → page ∉ m.pulls → s.pageSpa leaf page = some spa → Completes (.pageTransfer page) s (fun t => only t ∧
          t.mig.outbox = m.outbox ++ [.page page (s.frameCells spa) (s.framePoison spa)] ∧ page ∈ t.mig.pulls ∧
          t.mig.pages = m.pages)) ∧
        (own = .frozen → page ∈ m.pulls → Completes (.pageFlip page) s (fun t => only t ∧ FMap.get t.mig.pages page = .gone ∧
          t.mig.outbox = m.outbox ++ [.heldAtomics mine] ∧ (t.mig.state = .pull ∨ t.mig.state = .done))) ∧
        (FMap.get m.pages fpage = .absent → s.pageSpa leaf fpage = some spa → Completes (.forwardedAtomic f) s (fun t =>
          t.mig.outbox = m.outbox ++ [.atomicResult f.tok old] ∧ t.mem = s.mem ∧
          (f.cas = true → old ≠ f.b → t.pend = s.pend) ∧
          (f.cas = false ∨ old = f.b → (FMap.get t.pend (s.nextId + 1)).cells =
            cellsOf a f.size (if f.cas then f.c else atomNew f.op f.ty old f.b)))) ∧
        (FMap.get m.pages fpage = .frozen → Completes (.forwardedAtomic f) s (fun t => only t ∧
          t.mig.heldAtomics = m.heldAtomics ++ [f])) ∧
        (FMap.get m.pages fpage = .gone → Completes (.forwardedAtomic f) s (fun t => only t ∧
          t.mig.outbox = m.outbox ++ [.heldAtomics [f]]))) ∧
      (m.state = .ship → m.inbox = .last :: rest → Completes .shipItemReceive s (fun t =>
        (t.mig.state = .pull ∨ t.mig.state = .done) ∧ t.mig.inbox = rest ∧ (∀ g ∈ s.groupsOf leaf, t.grp g = default) ∧
        (∀ x ∈ s.launchesOf leaf, t.launch x = default) ∧ t.mem = s.mem ∧ t.pend = s.pend)))

/-- R424, R427 to R429, R432, R435: at the destination the items gather, and the last one starts the device; a page that has
arrived is laid down and OWNED; DONE and ABORT return the hub to IDLE, an abort before RESUME with the source running again;
the grace window ends forwarding on old handles; a failed link ends the migration and poisons the pages that never came. It
concludes that exec answers a next state, under conditions on the state and the operands alone, for: shipItemReceive,
pageFlip, migrationDone, abort, graceWindowExpiry, migrationLinkFailure. -/
def Obligations.MigrationArrivesOrFails : Prop :=
  ∀ (s : State) (page spa n : Nat) (i : ShipItem) (rest : List ShipItem) (cells : List Host.Cell) (poison : List Nat), s.Ordered →
    let leaf := s.migLeaf
    let m := s.mig
    let only (t : State) : Prop := { t with mig := m } = s
    let idle (t : State) : Prop := t.mig.state = .idle ∧ t.mig.cmd = 0 ∧ t.mig.code = 0 ∧ t.mig.pages = []
    let back (t : State) : Prop := (t.part leaf).state = (if s.migDest then .stopped else .running) ∧
      (s.migDest = false → ∀ e ∈ t.exports, e.2.part = leaf → e.2.frozen = false) ∧ KeepsGroups s t ∧
      (s.migDest = true ∨ (∀ v ∈ s.fnsOf leaf, (s.fn v).loaded = true) → (∀ h, t.grp h = s.grp h) ∧ SameMemory s t)
    let early : Prop := m.state = .prepare ∨ m.state = .halt ∨ m.state = .ship
    let e := FMap.get s.exports n
    (s.migDest = true →
      (m.state = .ship → m.inbox = i :: rest → i ≠ .last → Completes .shipItemReceive s (fun t => only t ∧ t.mig.state = .ship ∧
        t.mig.inbox = rest ∧ t.mig.stash = m.stash ++ [i])) ∧
      (m.state = .prepare → m.inbox = .page page cells poison :: rest → Completes .shipItemReceive s (fun t =>
        FMap.get t.mig.pages page = .clean ∧ t.mig.inbox = rest ∧ t.mig.state = .prepare ∧ ∀ h, t.grp h = s.grp h)) ∧
      (m.state = .ship → m.inbox = .last :: rest → Completes .shipItemReceive s (fun t =>
        (t.part leaf).state = .running ∧ (t.mig.state = .pull ∨ t.mig.state = .done) ∧ t.mig.inbox = rest ∧ t.mig.stash = [])) ∧
      (m.state = .pull → m.inbox = .page page cells poison :: .heldAtomics [] :: rest → FMap.get m.pages page = .absent →
        s.pageSpa leaf page = some spa → spa % 65536 = 0 → Completes (.pageFlip page) s (fun t =>
          FMap.get t.mig.pages page = .owned ∧ t.mig.inbox = rest ∧ page ∉ t.mig.pulls ∧ (∀ h, t.grp h = s.grp h) ∧
          ∀ j, j < 65536 → t.homeByte (fun _ => true) (spa + j) = (lastCell cells j).getD 0))) ∧
    (m.cmd = 3 → m.state = .done → Completes .migrationDone s (fun t => only t ∧ idle t)) ∧
    (m.cmd ≠ 3 ∨ m.state ≠ .done → exec .migrationDone s = .next s) ∧
    (m.cmd = 4 → early → Completes .abort s (fun t => idle t ∧ back t)) ∧
    (m.cmd = 4 → m.state = .failed → Completes .abort s (fun t => only t ∧ idle t)) ∧
    (Completes .graceWindowExpiry s (fun t =>
      (e.live = true → e.moved = true → e.graceEnd ≤ s.tick → (FMap.get t.exports n).live = false ∧
        ∀ j, (FMap.get s.imports j).live = true → (FMap.get s.imports j).handle = e.handle → (FMap.get t.imports j).moved = true) ∧
      (e.moved = false ∨ s.tick < e.graceEnd → FMap.get t.exports n = e) ∧ (∀ h, t.grp h = s.grp h) ∧ SameMemory s t)) ∧
    (early → Completes .migrationLinkFailure s (fun t => t.mig.state = .failed ∧ t.mig.code = 5 ∧ t.mig.cmd = 0 ∧ back t)) ∧
    (m.state = .pull → s.migDest = false → Completes .migrationLinkFailure s (fun t => only t ∧ t.mig.state = .failed ∧ t.mig.code = 5)) ∧
    (m.state = .pull → s.migDest = true → m.forwarded = [] → FMap.get m.pages page = .absent →
      (∀ q, FMap.get m.pages q = .absent → q = page) → s.pageSpa leaf page = some spa →
      Completes .migrationLinkFailure s (fun t => t.mig.state = .failed ∧ t.mig.code = 5 ∧ FMap.get t.mig.pages page = .poisoned ∧
        (∀ j, j < 1024 → FMap.get t.poison (spa / 64 + j) = true) ∧ (∀ h, t.grp h = s.grp h) ∧ t.mem = s.mem)) ∧
    (m.state = .idle ∨ m.state = .done ∨ m.state = .failed → exec .migrationLinkFailure s = .next s)

/-! ### Reset, boot, errors, spares and ports (R25, R264, R435 to R450) -/

/-- R436 to R438, R441, R449, R450: a cold or function reset boots the image in the flash and reports in BOOTST what it found;
fuses, flash and the host's memory stay. A function level reset clears its registers and disables its queues. A graceful die
reset empties the die's caches and leaves memory as it is; a forced one also starts its phases again and poisons what it lost.
ATTREQ answers with a report. It concludes that exec answers a next state, under conditions on the state and the operands
alone, for: coldReset, functionReset, vfFunctionLevelReset, dieResetGraceful, dieResetForced, attestationRequest,
vfAttestationRequest, dieResetEnd, fuseCommand. -/
def Obligations.ResetsAndAttestation : Prop :=
  ∀ (s : State) (vf die svn : Nat) (v : DWord) (nonce : List Byte), s.Ordered →
    let r := s.ras
    let slot := s.flashNum 0x006 1
    let d := s.die die
    let u := s.fn vf
    let a := v.toNat
    let emptied (t : State) : Prop := (t.die die).l2 = [] ∧ (t.die die).lichen = [] ∧ (t.die die).atc = [] ∧ (t.die die).inReset = true ∧
      t.ras.spBusy = true ∧ t.ras.spKind = 8 ∧ t.ras.spUnit = die ∧ (∀ p ∈ t.leases, coreDie (p.1 / 2 ^ 32) ≠ die)
    (∀ i, i = Instr.coldReset ∨ i = .functionReset → Completes i s (fun t =>
      t.groups = [] ∧ t.launches = [] ∧ t.mem = [] ∧ t.poison = [] ∧ t.acc = [] ∧ t.sb = [] ∧ t.tick = 0 ∧ t.flash = s.flash ∧ t.hostMem = s.hostMem ∧
      t.ras.keyHash = r.keyHash ∧ t.ras.minSvn = r.minSvn ∧ t.ras.revoked = r.revoked ∧ t.ras.pwrCap = 4000 ∧
      (s.flashHeaderOk = false → t.ras.bootSt = 1) ∧
      (s.flashHeaderOk = true → r.revoked.getLsbD slot = true → t.ras.bootSt = 2) ∧
      (s.flashHeaderOk = true → r.revoked.getLsbD slot = false → s.flashNum 0x008 4 < r.minSvn → t.ras.bootSt = 3) ∧
      (∀ k, k < 4 → (t.die k).inReset = decide (t.ras.bootSt ≠ 0) ∧ (t.die k).oph = 1) ∧
      (t.ras.bootSt = 0 → t.ras.svn = s.flashNum 0x008 4 ∧ t.ras.measure = s.flashDigest))) ∧
    (r.bootSt = 0 → Completes (.fuseCommand svn) s (fun t => t.ras.minSvn = max r.minSvn (svn % 2 ^ 32) ∧
      { t with ras := r } = s)) ∧
    (vf < 256 → s.mig.state = .idle → (∀ p ∈ s.launches, p.2.fn = vf → (s.launch p.1).state ∉ [LaunchState.active, .halted]) →
      Completes (.vfFunctionLevelReset vf) s (fun t =>
        (∀ q, q < 64 → (t.queue vf q).state = .disabled) ∧ (t.fn vf).qtctl = 0 ∧ (t.fn vf).rlcfg = 0 ∧ (t.fn vf).fq.cfg = 0 ∧
        (t.fn vf).fq.widx = 0 ∧ (t.fn vf).bound = u.bound ∧ (t.fn vf).leaf = u.leaf ∧ (t.fn vf).demote = u.demote ∧
        (∀ k p, k < 4 → p ∈ (t.die k).atc → p.1 / 2 ^ 52 ≠ vf) ∧ (∀ h, (t.grp h).vregs = (s.grp h).vregs))) ∧
    (r.spBusy = false → die < 4 →
      ((∀ p ∈ s.parts, p.2.state = .running → p.2.onDie die = false) → Completes (.dieResetGraceful die) s (fun t =>
        emptied t ∧ (t.die die).oph = d.oph ∧ (t.die die).cph = d.cph ∧ (∀ h, t.grp h = s.grp h) ∧ SameMemory s t)) ∧
      ((∃ p ∈ s.parts, p.2.state = .running ∧ p.2.onDie die = true) →
        exec (.dieResetGraceful die) s = .next { s with ras := { r with spResult := 1 } }) ∧
      ((∀ p ∈ s.teams, p.2.live = true → coreDie p.2.core ≠ die ∨ p.2.halt = .saved) → Completes (.dieResetForced die) s (fun t =>
        emptied t ∧ (t.die die).oph = 1 ∧ (t.die die).markers = [] ∧
        (∀ k, k < 4 → k ≠ die → FMap.get (t.die die).cph k = (s.die k).oph - 1) ∧
        (∀ e ∈ d.lichen, e.2.state = .modified → ∀ j, j < 16 → FMap.get t.poison (16 * e.2.line + j) = true) ∧ t.mem = s.mem))) ∧
    (r.spBusy = true → exec (.dieResetForced die) s = .next s ∧ exec (.dieResetGraceful die) s = .next s) ∧
    (r.spBusy = true → r.spKind = 8 → r.spUnit = die → Completes (.dieResetEnd die) s (fun t =>
      (t.die die).inReset = false ∧ t.ras.spBusy = false ∧ (∀ h, t.grp h = s.grp h) ∧ SameMemory s t)) ∧
    (r.bootSt = 0 → spaOk a = true → spaOk (a + 1023) = true → s.poisoned a 64 = false → (s.hubRead a 64).1 = some nonce →
      Completes (.attestationRequest v) s (fun t => t.ras.attReq = 0 ∧
        SetOut t (a + 512) ((s.hubRead a 64).2.report 0xff nonce 0) ∧ t.mem = s.mem ∧
        ∀ h, t.grp h = s.grp h)) ∧
    (r.bootSt = 0 → spaOk a = false → exec (.attestationRequest v) s = .next { s with ras := { r with attReq := v ||| 1 } }) ∧
    (r.bootSt = 0 → vf < 256 → u.bound = false →
      exec (.vfAttestationRequest vf v) s = .next (s.setFn vf { u with attreq := v ||| 1 })) ∧
    (∀ w, let s1 := (s.hubBytes vf a 64).2
      r.bootSt = 0 → vf < 256 → u.bound = true → (s.hubBytes vf a 64).1 = .ok (some nonce) →
      s1.hubWriteN vf (a + 512) (s1.report u.leaf nonce (s1.part u.leaf).descHash) = .ok w →
      exec (.vfAttestationRequest vf v) s = .next (w.setFn vf { w.fn vf with attreq := 0 }))

/-- R25, R264, R352, R407, R445 to R448: an error writes its record to the error ring, TRANSIENT, LASTING by the events of its
unit in the window, or uncorrected with its granule poisoned; a spare is engaged when its unit is free and one is left; a
failed health test and a fenced core are noted. It concludes that exec answers a next state, under conditions on the state and
the operands alone, for: correctedError, uncorrectedError, sparePeColumn, spareIssuePipe, spareL2Way, spareMsmRow,
spareHbmRow, spareHbmBank, spareOrairLane, spareEngagementComplete, healthTestFailure, coreFence. -/
def Obligations.ErrorsAndSpares : Prop :=
  ∀ (s : State) (kind unit addr core : Nat), s.Ordered →
    let r := s.ras
    let times := (s.tick :: FMap.get r.events (errUnit kind unit)).take r.thr
    let count := eventsIn s.tick r.window times
    let count' := eventsIn s.tick r.window (FMap.get r.events (errUnit kind unit)) + 1
    let slot := r.errBase.toNat - r.errBase.toNat % 4096 + 32 * (r.errWidx % 2 ^ r.errLog)
    let record (cls n : Nat) := errRecord cls kind n unit s.tick (eventAddr kind addr)
    let written (t : State) (l : List Byte) : Prop := t.ras.errWidx = (r.errWidx + 1) % 2 ^ 32 ∧
      (∀ i b, 0 < i → l[i]? = some b → t.hostByte (slot + i) = b) ∧
      (∀ b, l[0]? = some b → t.hostByte slot = b ||| (if bitOf r.errWidx r.errLog then 0x80 else 0)) ∧ t.mem = s.mem
    let pool := sparePool kind unit
    let owner := if kind = 3 then unit / 4096 else pool.1
    let spares : List (Instr × Nat) := [(.sparePeColumn unit, 0), (.spareIssuePipe unit, 1), (.spareL2Way unit, 2), (.spareMsmRow unit, 3),
      (.spareHbmRow unit, 4), (.spareHbmBank unit, 5), (.spareOrairLane unit, 6)]
    let same (t : State) : Prop := (∀ h, t.grp h = s.grp h) ∧ SameMemory s t
    (eventOk kind unit addr = true → r.errRoom = true → r.errHeld = [] →
      Completes (.correctedError kind unit addr) s (fun t =>
        written t (record (if r.thr ≤ count then 2 else 1) count) ∧ FMap.get t.ras.events (errUnit kind unit) = times ∧
        KeepsGroups s t) ∧
      Completes (.uncorrectedError kind unit addr) s (fun t => written t (record 3 count') ∧
        (memoryEvent kind addr = true → FMap.get t.poison (addr / 64) = true ∧ KeepsGroups s t) ∧
        (∀ h, (t.grp h).vregs = (s.grp h).vregs))) ∧
    (eventOk kind unit addr = true → r.errRoom = false ∨ r.errHeld ≠ [] → Completes (.correctedError kind unit addr) s (fun t =>
      t.ras.errHeld = r.errHeld ++ [record (if r.thr ≤ count then 2 else 1) count] ∧ t.ras.errWidx = r.errWidx ∧ same t) ∧
      Completes (.uncorrectedError kind unit addr) s (fun t => t.ras.errHeld = r.errHeld ++ [record 3 count'] ∧
        t.ras.errWidx = r.errWidx ∧ ∀ h, (t.grp h).vregs = (s.grp h).vregs)) ∧
    (eventOk kind unit addr = false → exec (.correctedError kind unit addr) s = .next s ∧
      exec (.uncorrectedError kind unit addr) s = .next s) ∧
    (∀ i, (i, kind) ∈ spares → r.spBusy = false →
      (unit < unitLimit kind → (kind = 0 ∨ kind = 1 ∨ kind = 3 → s.residents owner = []) →
        FMap.get r.spareUsed (errUnit kind pool.1) < pool.2 → Completes i s (fun t =>
          t.ras.spResult = 0 ∧ t.ras.spKind = kind ∧ t.ras.spUnit = unit ∧ (t.ras.spBusy = true ↔ kind = 2 ∨ kind = 4 ∨ kind = 5) ∧
          FMap.get t.ras.spareUsed (errUnit kind pool.1) = FMap.get r.spareUsed (errUnit kind pool.1) + 1 ∧
          (kind = 6 → (FMap.get t.ports (unit / 9)).spare = true) ∧ same t)) ∧
      (unitLimit kind ≤ unit → exec i s = .next { s with ras := { r with spResult := 3 } }) ∧
      (unit < unitLimit kind → kind = 0 ∨ kind = 1 ∨ kind = 3 → s.residents owner ≠ [] →
        exec i s = .next { s with ras := { r with spResult := 1 } })) ∧
    (∀ i k, (i, k) ∈ spares → r.spBusy = true → exec i s = .next s) ∧
    (r.spBusy = true → r.spKind ≤ 6 → exec .spareEngagementComplete s = .next { s with ras := { r with spBusy := false } }) ∧
    (core < 48 →
      Completes (.healthTestFailure core) s (fun t => (t.coreRec core).noiseFail = true ∧
        (∀ k, k ≠ core → t.coreRec k = s.coreRec k) ∧ same t) ∧
      Completes (.coreFence core) s (fun t => (t.coreRec core).fenced = true ∧ (∀ k, k ≠ core → t.coreRec k = s.coreRec k) ∧ same t))

/-- R435, R439, R442 to R444: a port trains; a flit with a good CRC and the expected number is delivered, acknowledges what it
names and carries its peer's STOP bits, any other is discarded with a NAK owed; a stopped port with its spare lane trains
again and replays from its oldest unacknowledged flit; one stopped for 10 ms has failed, and with it the migration whose path
it is. An AtomicOp addressed to the device is refused. It concludes that exec answers a next state, under conditions on the
state and the operands alone, for: portRetrain, portStopTimeout, flitReceive, atomicopRequest, orairPortTraining. -/
def Obligations.PortsCarryFlits : Prop :=
  ∀ (s : State) (port : Nat) (flit : List Byte), s.Ordered →
    let p := FMap.get s.ports port
    let f (o n : Nat) : Nat := numAt flit o n
    let good : Prop := (crc64 (flit.take 248)).toNat = f 248 8 ∧ f 0 2 % 4096 = p.rxSeq
    let q (t : State) := FMap.get t.ports port
    let only (t : State) : Prop := { t with ports := s.ports } = s ∧ ∀ k, k ≠ port → FMap.get t.ports k = FMap.get s.ports k
    (port < 16 → Completes (.orairPortTraining port) s (fun t => q t = { p with trained := true } ∧ only t)) ∧
    (port < 16 → flit.length = 256 → p.trained = true → p.stopped = false →
      (good → Completes (.flitReceive port flit) s (fun t => only t ∧ (q t).rxSeq = (p.rxSeq + 1) % 4096 ∧ (q t).nak = false ∧
        (q t).delivered = p.delivered ++ [(bitsOf (f 0 2) 14 12, (flit.drop 8).take 240)] ∧
        (q t).stopBits = BitVec.ofNat 8 (f 4 1) ∧ (q t).unacked = afterAck (f 2 2 % 4096) p.unacked ∧
        (q t).txSeq = (if bitOf (f 2 2) 12 then (((q t).unacked.head?).map (·.1)).getD p.txNew else p.txSeq))) ∧
      (¬good → Completes (.flitReceive port flit) s (fun t => q t = { p with nak := true } ∧ only t))) ∧
    (p.stopped = true → exec (.flitReceive port flit) s = .next s) ∧
    (port < 16 → p.stopped = true →
      (p.spare = true → Completes (.portRetrain port) s (fun t => only t ∧ (q t).stopped = false ∧ (q t).failed = false ∧
        (q t).unacked = p.unacked ∧ (q t).txSeq = ((p.unacked.head?).map (·.1)).getD p.txNew)) ∧
      (p.failed = false → p.stopAt + 10 ^ 7 ≤ s.tick →
        (Config.route (s.mig.peer.toNat % 4096) % 128 / 8 ≠ port → Completes (.portStopTimeout port) s (fun t =>
          q t = { p with failed := true } ∧ only t)) ∧
        (Config.route (s.mig.peer.toNat % 4096) % 128 / 8 = port → exec (.portStopTimeout port) s =
          exec .migrationLinkFailure { s with ports := FMap.set s.ports port { p with failed := true } }))) ∧
    (exec .atomicopRequest s = .next { s with ras := { s.ras with ur := s.ras.ur + 1 } })

/-! ### Numbers (R81 to R87, R207, R244) -/

/-- R207: NOP's word has no effect, and any other word of major 0x00 decodes to nothing and raises ILLEGAL. It concludes that exec
answers a next state, under conditions on the state and the operands alone, for: nop, undefinedBitPattern. -/
def Obligations.NopIsTheOnlyWordOfMajorZero : Prop :=
  encode .nop = some 0x0000000000f70000 ∧ decode 0x0000000000f70000 = .ok .nop ∧
  (∀ s : State, exec .nop s = .next s) ∧
  ∀ (w : DWord) (s : State), w.extractLsb' 56 8 = 0 → w ≠ 0x0000000000f70000 →
    (∃ e, decode w = .error e) ∧ exec (.undefinedBitPattern w) s = .next (s.raise (plainFault 4) s.active)

/-- R85: minimum and maximum of two patterns of a format: a NaN gives the other operand, two NaNs the canonical NaN; else the
operand that comes first, or last, in the order of signed magnitudes, in which -0 lies below +0; an element of `fmin` and
`fmax` is that operation on the elements of its sources. It concludes that exec answers a next state, under conditions on the
state and the operands alone, for: fmin, fmax. -/
def Obligations.MinAndMaxPassOverNaN : Prop :=
  (∀ (f : FFmt) (a b : Nat), f ∈ [fF16, fBF16, fF32, fF64] → a < 2 ^ (f.eb + f.fb + 1) → b < 2 ^ (f.eb + f.fb + 1) →
    let key (v : Nat) : Int := if bitOf v (f.eb + f.fb) then -1 - (v % 2 ^ (f.eb + f.fb) : Nat) else (v : Int)
    let nan (v : Nat) : Prop := f.val v = .nan
    (nan a → nan b → fMin f a b = f.nan ∧ fMax f a b = f.nan) ∧
    (nan a → ¬nan b → fMin f a b = b ∧ fMax f a b = b) ∧ (¬nan a → nan b → fMin f a b = a ∧ fMax f a b = a) ∧
    (¬nan a → ¬nan b → fMin f a b = (if key a ≤ key b then a else b) ∧ fMax f a b = (if key a ≤ key b then b else a))) ∧
  ∀ (s : State) (o : VOp), o.ty ∈ floatTags →
    let w := (tagElems o.ty).1
    let w64 : Bool := o.ty.width = 64
    let e (r : VReg) (l j : Nat) : Nat := elemOf (s.vVal r w64 l) w j
    let uses : List VUse := [vDst o.d w64, vSrc o.a o.ty, vSrc o.b o.ty]
    let are (g : Nat → Nat → Nat) (l : Nat) (v : DWord) : Prop :=
      ∀ j, j < (tagElems o.ty).2 → elemOf v w j = g (e o.a l j) (e o.b l j)
    VectorResult true (.fmin o) s o.g uses o.d w64 o.ty (are (fMin (floatFmt o.ty))) ∧
    VectorResult true (.fmax o) s o.g uses o.d w64 o.ty (are (fMax (floatFmt o.ty)))

/-- R244: `iaddi` adds its immediate modulo 2^32 in the lanes of the write mask; it takes a source tagged I32, N32 or B32, whose
tag the result has, and raises FORMAT_TAG on any other. It concludes that exec answers a next state, under conditions on the
state and the operands alone, for: iaddi. -/
def Obligations.IaddiTakesIndexTags : Prop :=
  ∀ (s : State) (o : VImm),
    let tag := (s.grp s.cur).tagOf o.a.toNat
    let uses : List VUse := [vDst o.d false, vUse o.a false (.among [.i32, .n32, .b32])]
    (∀ w, encode (.iaddi o) = some w → w.extractLsb' 56 8 = 0x27 ∧ w.extractLsb' 0 32 = o.imm) ∧
    VectorResult true (.iaddi o) s o.g uses o.d false tag (fun l v =>
      v.toNat = ((s.rdV s.cur o.a.toNat l).toNat + o.imm.toNat) % 2 ^ 32) ∧
    (o.a.toNat < 8 * (s.grp s.cur).blocks → o.d.toNat < 8 * (s.grp s.cur).blocks → tag ∉ [Tag.i32, .n32, .b32] →
      exec (.iaddi o) s = .next (s.raise (plainFault 2) (s.wmask o.g)))

/-- R83, R86, R87: a finite exact value within the range of F16, BF16, F32 or F64 is rounded once, to a finite value of the
format: the nearest one, ties to the even pattern or away from zero; or the one next below, next above, or next toward zero.
-/
def Obligations.RoundingFollowsTheMode : Prop :=
  ∀ (f : FFmt) (neg : Bool) (m : Nat) (e : Int) (v : Nat), f ∈ [fF16, fBF16, fF32, fF64] →
    let rat (x : FVal) : ℚ := match x with | .fin s n k => (if s then -1 else 1) * (n : ℚ) * (2 : ℚ) ^ k | _ => 0
    let x : ℚ := rat (.fin neg m e)
    let r (mode : Rnd) : Nat := f.round mode false neg false m e
    let y (mode : Rnd) : ℚ := rat (f.val (r mode))
    let finite (a : Nat) : Prop := a < 2 ^ (f.eb + f.fb + 1) ∧ f.val a ≠ .nan ∧ ∀ s, f.val a ≠ .inf s
    let z : ℚ := rat (f.val v)
    |x| ≤ rat (f.val (f.big false)) → finite v →
    (∀ mode, finite (r mode)) ∧
    |y .rne - x| ≤ |z - x| ∧ (|y .rne - x| = |z - x| → z ≠ y .rne → r .rne % 2 = 0) ∧
    |y .rna - x| ≤ |z - x| ∧ (|y .rna - x| = |z - x| → |z| ≤ |y .rna|) ∧
    y .rdn ≤ x ∧ (z ≤ x → z ≤ y .rdn) ∧ x ≤ y .rup ∧ (x ≤ z → y .rup ≤ z) ∧
    |y .rtz| ≤ |x| ∧ 0 ≤ y .rtz * x ∧ (|z| ≤ |x| → 0 ≤ z * x → |z| ≤ |y .rtz|)

/-! ### Encodings (R188 to R199, R393) -/

/-- R188 to R199, R391: decoding the word of any well-formed instruction gives the instruction back, every operand at every value,
for kernel words and Frond words; and a word that decodes is the word of the well-formed instruction it decodes to, so that
two words never decode alike. -/
def Obligations.EncodeAndDecodeAgree : Prop :=
  ∀ i : Instr,
    (∀ w, i.wellFormed = true → encode i = some w → decode w = .ok i) ∧
    (∀ w, i.wellFormed = true → encodeFrond i = some w → decodeFrond w = .ok i) ∧
    (∀ w, decode w = .ok i → encode i = some w ∧ i.wellFormed = true) ∧
    (∀ w, decodeFrond w = .ok i → encodeFrond i = some w ∧ i.wellFormed = true)

/-! ### Steps (R39 to R44, R175, R389) -/

/-- R39 to R43, R199: a turn of a group that may issue, at a word position: where the words fetched for its occupied planes agree,
the step is the execution of the instruction they decode to, under the active lanes, with the group's position moved on and
nothing else of the machine changed; a word that decodes to nothing executes as an undefined pattern, and one that its clause,
place or mode does not admit faults. Where the planes' words differ, the next plane's word executes for that plane's lanes. A
word that reads a poisoned scalar takes POISON instead, and a group whose clause has no free pipe waits. R39, R40, R391: the
other turns: a group at a clause header runs the header stage; an interpreter of a served queue executes the Frond word at its
place; a step of the hardware executes; time passes, once the tick's records are posted; the host writes its memory or sets
the limit of heat. With no turn named one tick passes at most. -/
def Obligations.StepRunsEveryTurn : Prop :=
  (∀ (s : State) (g pipe : Nat) (rest : List Turn) (w : DWord) (ws : List DWord) (i : Instr) (k : Nat),
     let b := s.begin rest
     let gr := b.grp g
     let planeOf (l : Nat) : Nat := (gr.snap[l]?).getD noPlane
     let planes := gr.occupiedPlanes
     let fetched := if gr.unif then [planes.head?.getD 0] else planes
     let off := gr.clause + 8 + 8 * gr.word
     let u := fetched.foldl (fun u p => u.codeFill g p off) ((b.takePipe g pipe).modGrp g (fun gr => { gr with held := false }))
     let last : Bool := gr.word = gr.count
     let shown (m : LaneMask) : LaneMask := if gr.replay = 0 then m else m &&& gr.replay
     let runs (j : Instr) (x : DWord) (m : LaneMask) (plane : Nat) (split final : Bool) : Prop := ∃ v : State,
       (v.scalarPoison j = false → step s = exec j v) ∧
       (v.scalarPoison j = true → step s = .next (v.raise { plainFault 18 with addr := poisonAddr } (shown m))) ∧
       { v with groups := u.groups, iss := u.iss } = u ∧
       { v with groups := b.groups, iss := b.iss, cores := b.cores, dies := b.dies, tlb := b.tlb } = b ∧ (∀ h, h ≠ g → v.grp h = b.grp h) ∧
       v.iss = { grp := g, mask := shown m, planes := planeBits planes, plane, off, idx := gr.word, word := x
                 next := gr.nextClause, split, lastPlane := final } ∧
       (v.grp g).word = (if final then gr.word + 1 else gr.word) ∧ (v.grp g).inClause = !(final && last) ∧
       (v.grp g).off = (if final && last then gr.nextClause else gr.off) ∧
       (v.grp g).planeFrom = (if final then 0 else plane + 1) ∧
       { v.grp g with
         word := gr.word, inClause := gr.inClause, off := gr.off, planeFrom := gr.planeFrom, held := gr.held
         posTags := gr.posTags, brDests := gr.brDests } = gr
     s.agenda = .issue g :: rest → b.mayIssue g = true → gr.switchedOff = 0 → gr.inClause = true → b.pipeFor g gr.cls = some pipe →
     off < (b.launch (b.launchOf g)).plen → u.codeWords g off fetched = .ok ws →
     (ws ≠ [] → (∀ x ∈ ws, x = w) →
       (gr.wordInstr w last = some i → runs i w gr.mask (planes.head?.getD 0) false true) ∧
       ((∃ e, decode w = .error e) → runs (.undefinedBitPattern w) w gr.mask (planes.head?.getD 0) false true) ∧
       (gr.wordInstr w last = none → decode w = .ok i → step s = .next (u.wordFault g (plainFault 4) planes))) ∧
     ((∃ x ∈ ws, x ≠ ws.head?.getD 0) →
       (∀ x ∈ ws, ∃ j, gr.wordInstr x last = some j ∧ (gr.planeFrom = 0 → gr.replay = 0 → gr.defines j = true)) →
       u.planesDisagree g (ws.filterMap (fun x => (gr.wordInstr x last).map (fun j => (x, j)))) = false →
       (planes.zip ws).find? (fun p => gr.planeFrom ≤ p.1) = some (k, w) → gr.wordInstr w last = some i →
       runs i w (gr.mask &&& maskOf (fun l => planeOf l = k)) k true (planes.getLast? = some k))) ∧
  (∀ (s : State) (g fn q n a : Nat) (rest : List Turn) (w : Word) (i : Instr) (bytes : List Byte),
     let b := s.begin rest
     let passes (b : State) (n : Nat) : Prop := b.slack n ≤ n ∧ (b.slack n = 0 → step s = .next b) ∧
       (b.slack n ≠ 0 → step s = .next { b.postRecords with tick := b.postRecords.tick + b.slack n })
     (s.agenda = [] → passes s 1) ∧
     (s.agenda = .issue g :: rest → b.mayIssue g = true → (b.grp g).switchedOff = 0 → (b.grp g).inClause = false →
       step s = exec (.clauseIssue g) b) ∧
     (s.agenda = .issue g :: rest → b.mayIssue g = true → (b.grp g).switchedOff = 0 → (b.grp g).inClause = true →
       b.pipeFor g (b.grp g).cls = none → step s = .next b) ∧
     (s.agenda = .issue g :: rest → b.mayIssue g = false → step s = .next b) ∧
     (s.agenda = .frond fn q :: rest → b.served fn = true → (b.queue fn q).active = true → (b.queue fn q).state = .run →
       (b.queue fn q).words[(b.queue fn q).pc]? = some w → decodeFrond w = .ok i →
       step s = exec i { b with curFn := fn, curQueue := q }) ∧
     (s.agenda = .hw i :: rest → step s = if i.isWord then .next b else exec i b) ∧
     (s.agenda = .elapse n :: rest → passes b n) ∧
     (s.agenda = .heatLimit n :: rest → ∃ t, step s = .next t ∧ t.ras.hotLimit = n ∧
       (∀ c, c < 48 → (t.coreRec c).temp = (b.coreRec c).temp ∧ ((t.coreRec c).hotFrom ≠ 0 ↔ n ≤ (b.coreRec c).temp)) ∧
       { t with ras := b.ras, cores := b.cores } = b) ∧
     (s.agenda = .hostWrite a bytes :: rest → ∃ t, step s = .next t ∧ (∀ k x, bytes[k]? = some x → t.hostByte (a + k) = x) ∧
       (∀ k, (k < a ∨ a + bytes.length ≤ k) → t.hostByte k = s.hostByte k) ∧ KeepsGroups b t ∧
       (∀ k, { FMap.get t.queues k with due := (FMap.get b.queues k).due, wsDue := (FMap.get b.queues k).wsDue } = FMap.get b.queues k) ∧
       { t with hostMem := b.hostMem, groups := b.groups, queues := b.queues } = b))

/-! ### Invariants -/

/-- R419, R436: the memory of HBM and of the host stay in canonical form over every step: keys rising, no byte listed that an
unlisted address reads as, so that equal memories are equal data. -/
def Obligations.StepsKeepMemoryCanonical : Prop :=
  ∀ s t : State, FMap.wf s.mem = true → FMap.wf s.hostMem = true → step s = .next t →
    FMap.wf t.mem = true ∧ FMap.wf t.hostMem = true

/-- An invariant of the model's own tables: every step keeps those of groups, teams, clusters, launches, cores, accesses,
store-buffer entries, operations, stores on their way, bonds, functions, queues, partitions, exports and imports in order,
each number listed once. -/
def Obligations.StepsKeepTablesOrdered : Prop :=
  ∀ s t : State, s.Ordered → step s = .next t → t.Ordered

/-- The machine right after reset meets the model's invariants: canonical memory, ordered tables, fresh numbers. -/
def Obligations.ResetMeetsTheInvariants : Prop :=
  FMap.wf State.reset.mem = true ∧ FMap.wf State.reset.hostMem = true ∧ State.reset.Ordered ∧ State.reset.NumbersFresh

/-- An invariant of the model's own numbers: the operations that give them out give fresh ones and keep every number in use below
the next: an operation issued, an access sent out, a store that enters the buffer or sets out from the hub or arrives, an
operation that ends, time that passes. -/
def Obligations.NumbersStayFresh : Prop :=
  ∀ s : State, s.NumbersFresh →
    (FMap.get s.acc s.nextId = default ∧ FMap.get s.sb s.nextId = default ∧ FMap.get s.ops s.nextId = default) ∧
    (∀ o places, (s.issueOp o places).1 = s.nextId ∧ (s.issueOp o places).2.NumbersFresh) ∧
    (∀ a : Access, a.op < s.nextId → (s.sendAcc a).NumbersFresh) ∧
    (∀ g target x cells line, (s.sbStore g target x cells line).2.NumbersFresh ∧
      (s.sbStore g target x cells line).1 < (s.sbStore g target x cells line).2.nextId) ∧
    (∀ cells op irq, (s.hubStore cells op irq).NumbersFresh) ∧ (∀ id line p, (s.arrive id line p).NumbersFresh) ∧
    (∀ id, (s.endOp id).NumbersFresh) ∧ ∀ n, (s.elapse n).NumbersFresh

/-- What reset leaves where the spec says it: R137 and R138 the phases of a die, R112 and R145 a partition's lease and scope, R407
the limit of heat, R419 and R436 every partition unused, every frame FREE and zero, no launch, team or group, the queues and
their registers (R383, R384) zero, the registers of R344, R368, R411, R422 and R446 at their reset values. -/
def Obligations.ResetLeavesTheStatedValues : Prop :=
  let s := State.reset
  (∀ d, d < 4 → (s.die d).oph = 1 ∧ ∀ k, FMap.get (s.die d).cph k = 0) ∧
  (∀ p, p < 64 → (s.part p).state = .unused ∧ (s.part p).lease = 256 ∧ (s.part p).maxScope = 3) ∧
  (∀ f, (s.frame f).st = 0 ∨ (s.frame f).st = 3) ∧ (∀ a, s.homeByte (fun _ => true) a = 0) ∧
  s.groups = [] ∧ s.teams = [] ∧ s.clusters = [] ∧ s.launches = [] ∧ s.queues = [] ∧ s.tick = 0 ∧ s.acc = [] ∧ s.sb = [] ∧
  (∀ v, let f := s.fn v
    f.qtbase = 0 ∧ f.qtctl = 0 ∧ f.qfault = 0 ∧ f.s1root = 0 ∧ f.fq.base = 0 ∧ f.fq.cfg = 0 ∧ f.fq.widx = 0 ∧ f.fq.ridx = 0 ∧
    f.fq.held = 0 ∧ f.dlbase = 0 ∧ f.dlcfg = 0 ∧ f.dlwidx = 0 ∧ f.dlridx = 0 ∧ f.bound = false ∧ f.budgetNext = 0 ∧ f.demote = 0 ∧
    f.rlbase = 0 ∧ f.rlcfg = 0 ∧ f.rlwidx = 0 ∧ f.rlridx = 0 ∧ f.attreq = 0) ∧
  s.hfq.base = 0 ∧ s.hfq.cfg = 0 ∧ s.hfq.widx = 0 ∧ s.hfq.ridx = 0 ∧ s.hfq.held = 0 ∧
  s.pctBase = 0 ∧ s.pcarg0 = 0 ∧ s.pcarg1 = 0 ∧ s.pcarg2 = 0 ∧ s.pcBusy = false ∧ s.pcResult = 0 ∧ s.hostPart = 0 ∧ s.lichenReg = 0 ∧
  s.s2sel = 0 ∧ s.hs1root = 0 ∧ s.mig.area = 0 ∧ s.mig.peer = 0 ∧ s.mig.state = .idle ∧ s.mig.code = 0 ∧ s.mig.grace = 1000 ∧
  s.ras.errBase = 0 ∧ s.ras.errCfg = 0x0803e800 ∧ s.ras.errWidx = 0 ∧ s.ras.errRidx = 0 ∧ s.ras.spBusy = false ∧ s.ras.spResult = 0 ∧
  s.ras.pwrCap = 4000 ∧ s.ras.pwrNow = 0 ∧ s.ras.attReq = 0 ∧ s.ras.bootSt = 0 ∧ s.ras.fabNode = 0 ∧ s.ras.hotLimit = 95

/-- Words written out from the spec's encodings decode to the instructions they stand for, one or more of each family. -/
def Obligations.SpecWordsDecode : Prop :=
  decode 0x0000000000f70000 = .ok (.nop) ∧
  decode 0x0104060800f70042 = .ok (.sadd ⟨.i32, true, 4, 6, 8⟩) ∧
  decode 0x02057ff780000001 = .ok (.saddi 5 127 0x80000001) ∧
  decode 0x03057ff780000001 = .ok (.sandi 5 127 0x80000001) ∧
  decode 0x0801030400f70840 = .ok (.scmp .lt .plain .i32 1 3 4) ∧
  decode 0x0802060803f714a4 = .ok (.scmp .ge (.andWith 3) .n64 2 6 8) ∧
  decode 0x0c12342f00001238 = .ok (.bra (.on 2 true) 0x1234 0x247) ∧
  decode 0x0c0000f700000043 = .ok (.braQ 2 8) ∧
  decode 0x1400000000f7000d = .ok (.barSync 13) ∧
  decode 0x1400000000f7100d = .ok (.barArrive 13) ∧
  decode 0x2002c800004f0020 = .ok (.mov ⟨true, .on 4 true, 2, 200⟩) ∧
  decode 0x20092c0000f70400 = .ok (.movs false .always 9 44) ∧
  decode 0x22121416005f01e2 = .ok (.iadd ⟨.i8x4, .rne, true, (.on 5 true), 18, 20, 22, 0⟩) ∧
  decode 0x2212141600f704a0 = .ok (.isub ⟨.n64, .rne, false, .always, 18, 20, 22, 0⟩) ∧
  decode 0x2b04010203f700c0 = .ok (.ffma ⟨.f32, .rne, false, .always, 4, 1, 2, 3⟩) ∧
  decode 0x2912141600f700cc = .ok (.fadd ⟨.f32, .rup, false, .always, 18, 20, 22, 0⟩) ∧
  decode 0x3107060000f71a22 = .ok (.cvt ⟨.f32, .e4m3x4, .rne, true, 0, .always, 7, 6⟩) ∧
  decode 0x3204060000f70200 = .ok (.pack ⟨.n8x4, .always, 4, 6⟩) ∧
  decode 0x35010203007f0000 = .ok (.pand ⟨.on 7 true, 1, 2, 3⟩) ∧
  decode 0x35010203007f0400 = .ok (.por ⟨.on 7 true, 1, 2, 3⟩) ∧
  decode 0x3704060800f70040 = .ok (.shflIdx ⟨true, .always, 4, 6⟩ 8) ∧
  decode 0x3704060000f71011 = .ok (.shflUp ⟨false, .always, 4, 6⟩ 17) ∧
  decode 0x5008050240f18090 = .ok (.ld ⟨4, .b32, .always, 8, ⟨.bt 2, some (5, 2), 0x040⟩, 1⟩) ∧
  decode 0x510805033412c0df = .ok (.st ⟨6, .on 1 false, 8, ⟨.bt 3, some (5, 3), 0xf34⟩, some 2⟩) ∧
  decode 0x580805060af07189 = .ok (.atom ⟨.incw, .n32, .always, ⟨.s 10, 5, 2⟩, 8, 6, 0⟩) ∧
  decode 0x59000506032f0308 = .ok (.red ⟨.add, .f32, .on 2 true, ⟨.bt 3, 5, 2⟩, 6⟩) ∧
  decode 0x5d003f0000f70000 = .ok (.tileGive 63) ∧
  decode 0x5d003f0000f70001 = .ok (.tileGiveRst 63) ∧
  decode 0x7000000000f704a0 = .ok (.gangSet 1 2 2 0) ∧
  decode 0x7000000000f78000 = .ok (.gangClear) ∧
  decode 0x7814000000f7000a = .ok (.rdps 20 0x0a) ∧
  decode 0x7800140000f71052 = .ok (.wrps 0x52 20) ∧
  decodeFrond 0x2c400000 = .ok (.frondLdp ⟨1, 0, 0⟩) ∧
  decodeFrond 0x0c8400ff = .ok (.frondAndi ⟨2, 1, 0xff⟩) ∧
  decodeFrond 0x4cc80001 = .ok (.frondAct ⟨3, 2, 1⟩)
end

