-- ==== Sys2Proof/Laws/Map.lean ====
section
/-!
SUPPORT. Sparse tables: what a read gives after a write, and that every operation on them keeps the canonical form.
-/
namespace Sys2Proof.Machine

variable {α : Type}

@[simp] theorem FMap.get_nil [Inhabited α] (k : Nat) : FMap.get ([] : FMap α) k = default := rfl

theorem FMap.get_cons [Inhabited α] (a : Nat) (v : α) (t : FMap α) (k : Nat) :
    FMap.get ((a, v) :: t) k = if a = k then v else FMap.get t k := rfl

theorem FMap.get_del [Inhabited α] (m : FMap α) (k j : Nat) :
    FMap.get (FMap.del m k) j = if j = k then default else FMap.get m j := by
  induction m with
  | nil => simp [FMap.del]
  | cons p t ih =>
    obtain ⟨a, v⟩ := p
    simp only [FMap.del, FMap.get_cons]
    split_ifs <;> simp_all [FMap.get_cons]

theorem FMap.get_ins [Inhabited α] (m : FMap α) (k j : Nat) (v : α) :
    FMap.get (FMap.ins m k v) j = if j = k then v else FMap.get m j := by
  induction m with
  | nil => simp [FMap.ins, FMap.get_cons, eq_comm]
  | cons p t ih =>
    obtain ⟨a, w⟩ := p
    simp only [FMap.ins, FMap.get_cons]
    split_ifs <;> simp_all [FMap.get_cons] <;> omega

/-- A read after a write: the value written at its key, every other key as before. -/
theorem FMap.get_set [Inhabited α] [DecidableEq α] (m : FMap α) (k j : Nat) (v : α) :
    FMap.get (FMap.set m k v) j = if j = k then v else FMap.get m j := by
  unfold FMap.set
  split_ifs with h <;> simp_all [FMap.get_del, FMap.get_ins]

@[simp] theorem FMap.get_set_same [Inhabited α] [DecidableEq α] (m : FMap α) (k : Nat) (v : α) :
    FMap.get (FMap.set m k v) k = v := by simp [FMap.get_set]

theorem FMap.get_set_other [Inhabited α] [DecidableEq α] (m : FMap α) {k j : Nat} (v : α) (h : j ≠ k) :
    FMap.get (FMap.set m k v) j = FMap.get m j := by simp [FMap.get_set, h]

@[simp] theorem FMap.get_upd_same [Inhabited α] [DecidableEq α] (m : FMap α) (k : Nat) (f : α → α) :
    FMap.get (FMap.upd m k f) k = f (FMap.get m k) := by simp [FMap.upd]

theorem FMap.get_upd_other [Inhabited α] [DecidableEq α] (m : FMap α) {k j : Nat} (f : α → α) (h : j ≠ k) :
    FMap.get (FMap.upd m k f) j = FMap.get m j := by simp [FMap.upd, FMap.get_set_other _ _ h]

/-- A read after several writes: the last value listed for the key, else as before. -/
theorem FMap.get_setMany [Inhabited α] [DecidableEq α] (l : List (Nat × α)) (m : FMap α) (j : Nat) :
    FMap.get (FMap.setMany m l) j = l.foldl (fun acc p => if j = p.1 then p.2 else acc) (FMap.get m j) := by
  induction l generalizing m with
  | nil => rfl
  | cons p t ih => simp only [FMap.setMany, List.foldl_cons] at *; rw [ih, FMap.get_set]

theorem FMap.get_setMany_other [Inhabited α] [DecidableEq α] (l : List (Nat × α)) (m : FMap α) {j : Nat}
    (h : ∀ p ∈ l, p.1 ≠ j) : FMap.get (FMap.setMany m l) j = FMap.get m j := by
  induction l generalizing m with
  | nil => rfl
  | cons p t ih =>
    have hp := h p (by simp)
    have ht : ∀ q ∈ t, q.1 ≠ j := fun q hq => h q (List.mem_cons_of_mem _ hq)
    simp only [FMap.setMany, List.foldl_cons] at *
    rw [ih _ ht, FMap.get_set_other _ _ (Ne.symm hp)]

/-! ### The canonical form -/

/-- The canonical form as a statement about all keys: a tail whose keys exceed a bound and whose values are no defaults. -/
def FMap.above [Inhabited α] [DecidableEq α] (lo : Option Nat) : FMap α → Prop
  | [] => True
  | (a, v) :: t => (∀ b, lo = some b → b < a) ∧ v ≠ default ∧ FMap.above (some a) t

theorem FMap.wf_iff [Inhabited α] [DecidableEq α] (m : FMap α) : FMap.wf m = true ↔ FMap.above none m := by
  induction m with
  | nil => simp [FMap.wf, FMap.above]
  | cons p t ih =>
    obtain ⟨a, v⟩ := p
    cases t with
    | nil => simp [FMap.wf, FMap.above]
    | cons q u =>
      obtain ⟨b, w⟩ := q
      simp only [FMap.wf, FMap.above, Bool.and_eq_true, decide_eq_true_eq] at *
      constructor
      · rintro ⟨⟨hv, hab⟩, h⟩
        obtain ⟨_, hw, hu⟩ := ih.mp h
        exact ⟨by simp, hv, by simpa using hab, hw, hu⟩
      · rintro ⟨_, hv, hab, hw, hu⟩
        exact ⟨⟨hv, hab a rfl⟩, ih.mpr ⟨by simp, hw, hu⟩⟩

theorem FMap.above_mono [Inhabited α] [DecidableEq α] {a b : Nat} (h : a ≤ b) :
    ∀ m : FMap α, FMap.above (some b) m → FMap.above (some a) m
  | [], _ => trivial
  | (_, _) :: _, ⟨h1, h2, h3⟩ => ⟨fun c hc => by cases hc; exact lt_of_le_of_lt h (h1 b rfl), h2, h3⟩

theorem FMap.above_none [Inhabited α] [DecidableEq α] {lo : Option Nat} :
    ∀ m : FMap α, FMap.above lo m → FMap.above none m
  | [], _ => trivial
  | (_, _) :: _, ⟨_, h2, h3⟩ => ⟨by simp, h2, h3⟩

theorem FMap.above_filter [Inhabited α] [DecidableEq α] (f : Nat × α → Bool) :
    ∀ (lo : Option Nat) (m : FMap α), FMap.above lo m → FMap.above lo (m.filter f)
  | _, [], _ => trivial
  | lo, (a, v) :: t, ⟨h1, h2, h3⟩ => by
    have ih := FMap.above_filter f (some a) t h3
    rw [List.filter_cons]
    split
    · exact ⟨h1, h2, ih⟩
    · cases lo with
      | none => exact FMap.above_none _ ih
      | some b => exact FMap.above_mono (le_of_lt (h1 b rfl)) _ ih

theorem FMap.above_del [Inhabited α] [DecidableEq α] (k : Nat) :
    ∀ (lo : Option Nat) (m : FMap α), FMap.above lo m → FMap.above lo (FMap.del m k)
  | _, [], _ => trivial
  | lo, (a, v) :: t, ⟨h1, h2, h3⟩ => by
    have ih := FMap.above_del k (some a) t h3
    unfold FMap.del
    split
    · cases lo with
      | none => exact FMap.above_none _ ih
      | some b => exact FMap.above_mono (le_of_lt (h1 b rfl)) _ ih
    · exact ⟨h1, h2, ih⟩

theorem FMap.above_ins [Inhabited α] [DecidableEq α] (k : Nat) (v : α) (hv : v ≠ default) :
    ∀ (lo : Option Nat) (m : FMap α), (∀ b, lo = some b → b < k) → FMap.above lo m → FMap.above lo (FMap.ins m k v)
  | _, [], hk, _ => ⟨hk, hv, trivial⟩
  | lo, (a, w) :: t, hk, ⟨h1, h2, h3⟩ => by
    unfold FMap.ins
    split_ifs with hlt heq
    · exact ⟨hk, hv, fun b hb => by cases hb; exact hlt, h2, h3⟩
    · subst heq; exact ⟨hk, hv, h3⟩
    · exact ⟨h1, h2, FMap.above_ins k v hv (some a) t (fun b hb => by cases hb; omega) h3⟩

theorem FMap.wf_filter [Inhabited α] [DecidableEq α] (f : Nat × α → Bool) (m : FMap α) (h : FMap.wf m = true) :
    FMap.wf (m.filter f) = true :=
  (FMap.wf_iff _).mpr (FMap.above_filter f none m ((FMap.wf_iff m).mp h))

theorem FMap.wf_del [Inhabited α] [DecidableEq α] (m : FMap α) (k : Nat) (h : FMap.wf m = true) :
    FMap.wf (FMap.del m k) = true :=
  (FMap.wf_iff _).mpr (FMap.above_del k none m ((FMap.wf_iff m).mp h))

/-- A write keeps the canonical form. -/
theorem FMap.wf_set [Inhabited α] [DecidableEq α] (m : FMap α) (k : Nat) (v : α) (h : FMap.wf m = true) :
    FMap.wf (FMap.set m k v) = true := by
  unfold FMap.set
  split_ifs with hv
  · exact FMap.wf_del m k h
  · exact (FMap.wf_iff _).mpr (FMap.above_ins k v hv none m (by simp) ((FMap.wf_iff m).mp h))

theorem FMap.wf_setMany [Inhabited α] [DecidableEq α] (l : List (Nat × α)) (m : FMap α) (h : FMap.wf m = true) :
    FMap.wf (FMap.setMany m l) = true := by
  induction l generalizing m with
  | nil => exact h
  | cons p t ih => exact ih _ (FMap.wf_set m p.1 p.2 h)

theorem FMap.wf_fill [Inhabited α] [DecidableEq α] (l : List Nat) (m : FMap α) (v : α) (h : FMap.wf m = true) :
    FMap.wf (FMap.fill m l v) = true := by
  induction l generalizing m with
  | nil => exact h
  | cons k t ih => exact ih _ (FMap.wf_set m k v h)

/-- Two tables in canonical form that read the same are the same data. -/
theorem FMap.ext_of_get [Inhabited α] [DecidableEq α] {m n : FMap α} (hm : FMap.wf m = true) (hn : FMap.wf n = true)
    (h : ∀ k, FMap.get m k = FMap.get n k) : m = n := by
  have low : ∀ (lo : Nat) (m : FMap α), FMap.above (some lo) m → ∀ k, k ≤ lo → FMap.get m k = default := by
    intro lo m
    induction m generalizing lo with
    | nil => intros; rfl
    | cons p t ih =>
      obtain ⟨a, v⟩ := p
      rintro ⟨h1, _, h3⟩ k hk
      have hak := h1 lo rfl
      rw [FMap.get_cons, if_neg (by omega)]
      exact ih a h3 k (by omega)
  have key : ∀ (m n : FMap α), FMap.above none m → FMap.above none n →
      (∀ k, FMap.get m k = FMap.get n k) → m = n := by
    intro m
    induction m with
    | nil =>
      rintro (_ | ⟨⟨b, w⟩, u⟩) _ hn h
      · rfl
      · have := h b; simp [FMap.get_cons] at this; exact absurd this.symm hn.2.1
    | cons p t ih =>
      obtain ⟨a, v⟩ := p
      rintro (_ | ⟨⟨b, w⟩, u⟩) hm hn h
      · have := h a; simp [FMap.get_cons] at this; exact absurd this hm.2.1
      · have hab : a = b := by
          rcases lt_trichotomy a b with hlt | heq | hgt
          · have := h a
            rw [FMap.get_cons, if_pos rfl, FMap.get_cons, if_neg (by omega), low b u hn.2.2 a (by omega)] at this
            exact absurd this hm.2.1
          · exact heq
          · have := h b
            rw [FMap.get_cons, if_neg (by omega), FMap.get_cons, if_pos rfl, low a t hm.2.2 b (by omega)] at this
            exact absurd this.symm hn.2.1
        subst hab
        have hvw : v = w := by have := h a; simpa [FMap.get_cons] using this
        subst hvw
        have htu : t = u := ih u (FMap.above_none _ hm.2.2) (FMap.above_none _ hn.2.2) (fun k => by
          by_cases hk : a = k
          · subst hk; rw [low a t hm.2.2 a le_rfl, low a u hn.2.2 a le_rfl]
          · have := h k; simpa [FMap.get_cons, hk] using this)
        rw [htu]
  exact key m n ((FMap.wf_iff m).mp hm) ((FMap.wf_iff n).mp hn) h

end Sys2Proof.Machine
end

