-- ==== Sys2Proof/Laws/State.lean ====
section
/-!
SUPPORT. What each named update of State and of a group's record leaves in every field: no later proof unfolds a record
update.
-/
namespace Sys2Proof.Machine

/-! ### setGrp -/

@[simp] theorem State.modGrp_eq (s : State) (k : Nat) (f : Group → Group) : s.modGrp k f = s.setGrp k (f (s.grp k)) := rfl
@[simp] theorem State.setGrp_grp_same (s : State) (k : Nat) (v : Group) : (s.setGrp k v).grp k = v := by simp [State.setGrp, State.grp]
theorem State.setGrp_grp (s : State) (k j : Nat) (v : Group) : (s.setGrp k v).grp j = if j = k then v else s.grp j := by
  simp [State.setGrp, State.grp, FMap.get_set]
@[simp] theorem State.setGrp_team (s : State) (k : Nat) (v : Group) (j : Nat) : (s.setGrp k v).team j = s.team j := rfl
@[simp] theorem State.setGrp_cluster (s : State) (k : Nat) (v : Group) (j : Nat) : (s.setGrp k v).cluster j = s.cluster j := rfl
@[simp] theorem State.setGrp_launch (s : State) (k : Nat) (v : Group) (j : Nat) : (s.setGrp k v).launch j = s.launch j := rfl
@[simp] theorem State.setGrp_coreRec (s : State) (k : Nat) (v : Group) (j : Nat) : (s.setGrp k v).coreRec j = s.coreRec j := rfl
@[simp] theorem State.setGrp_die (s : State) (k : Nat) (v : Group) (j : Nat) : (s.setGrp k v).die j = s.die j := rfl
@[simp] theorem State.setGrp_op (s : State) (k : Nat) (v : Group) (j : Nat) : (s.setGrp k v).op j = s.op j := rfl
@[simp] theorem State.setGrp_fn (s : State) (k : Nat) (v : Group) (j : Nat) : (s.setGrp k v).fn j = s.fn j := rfl
@[simp] theorem State.setGrp_part (s : State) (k : Nat) (v : Group) (j : Nat) : (s.setGrp k v).part j = s.part j := rfl
@[simp] theorem State.setGrp_queue (s : State) (k : Nat) (v : Group) (j i : Nat) : (s.setGrp k v).queue j i = s.queue j i := rfl
@[simp] theorem State.setGrp_tick (s : State) (k : Nat) (v : Group) : (s.setGrp k v).tick = s.tick := rfl
@[simp] theorem State.setGrp_agenda (s : State) (k : Nat) (v : Group) : (s.setGrp k v).agenda = s.agenda := rfl
@[simp] theorem State.setGrp_freeCtr (s : State) (k : Nat) (v : Group) : (s.setGrp k v).freeCtr = s.freeCtr := rfl
@[simp] theorem State.setGrp_iss (s : State) (k : Nat) (v : Group) : (s.setGrp k v).iss = s.iss := rfl
@[simp] theorem State.setGrp_curFn (s : State) (k : Nat) (v : Group) : (s.setGrp k v).curFn = s.curFn := rfl
@[simp] theorem State.setGrp_curQueue (s : State) (k : Nat) (v : Group) : (s.setGrp k v).curQueue = s.curQueue := rfl
@[simp] theorem State.setGrp_nextId (s : State) (k : Nat) (v : Group) : (s.setGrp k v).nextId = s.nextId := rfl
@[simp] theorem State.setGrp_mem (s : State) (k : Nat) (v : Group) : (s.setGrp k v).mem = s.mem := rfl
@[simp] theorem State.setGrp_poison (s : State) (k : Nat) (v : Group) : (s.setGrp k v).poison = s.poison := rfl
@[simp] theorem State.setGrp_hostMem (s : State) (k : Nat) (v : Group) : (s.setGrp k v).hostMem = s.hostMem := rfl
@[simp] theorem State.setGrp_flash (s : State) (k : Nat) (v : Group) : (s.setGrp k v).flash = s.flash := rfl
@[simp] theorem State.setGrp_pend (s : State) (k : Nat) (v : Group) : (s.setGrp k v).pend = s.pend := rfl
@[simp] theorem State.setGrp_leaseEnd (s : State) (k : Nat) (v : Group) : (s.setGrp k v).leaseEnd = s.leaseEnd := rfl
@[simp] theorem State.setGrp_wrote (s : State) (k : Nat) (v : Group) : (s.setGrp k v).wrote = s.wrote := rfl
@[simp] theorem State.setGrp_leases (s : State) (k : Nat) (v : Group) : (s.setGrp k v).leases = s.leases := rfl
@[simp] theorem State.setGrp_sb (s : State) (k : Nat) (v : Group) : (s.setGrp k v).sb = s.sb := rfl
@[simp] theorem State.setGrp_acc (s : State) (k : Nat) (v : Group) : (s.setGrp k v).acc = s.acc := rfl
@[simp] theorem State.setGrp_ops (s : State) (k : Nat) (v : Group) : (s.setGrp k v).ops = s.ops := rfl
@[simp] theorem State.setGrp_teams (s : State) (k : Nat) (v : Group) : (s.setGrp k v).teams = s.teams := rfl
@[simp] theorem State.setGrp_clusters (s : State) (k : Nat) (v : Group) : (s.setGrp k v).clusters = s.clusters := rfl
@[simp] theorem State.setGrp_launches (s : State) (k : Nat) (v : Group) : (s.setGrp k v).launches = s.launches := rfl
@[simp] theorem State.setGrp_cores (s : State) (k : Nat) (v : Group) : (s.setGrp k v).cores = s.cores := rfl
@[simp] theorem State.setGrp_dies (s : State) (k : Nat) (v : Group) : (s.setGrp k v).dies = s.dies := rfl
@[simp] theorem State.setGrp_bonds (s : State) (k : Nat) (v : Group) : (s.setGrp k v).bonds = s.bonds := rfl
@[simp] theorem State.setGrp_tlb (s : State) (k : Nat) (v : Group) : (s.setGrp k v).tlb = s.tlb := rfl
@[simp] theorem State.setGrp_pri (s : State) (k : Nat) (v : Group) : (s.setGrp k v).pri = s.pri := rfl
@[simp] theorem State.setGrp_fns (s : State) (k : Nat) (v : Group) : (s.setGrp k v).fns = s.fns := rfl
@[simp] theorem State.setGrp_queues (s : State) (k : Nat) (v : Group) : (s.setGrp k v).queues = s.queues := rfl
@[simp] theorem State.setGrp_hfq (s : State) (k : Nat) (v : Group) : (s.setGrp k v).hfq = s.hfq := rfl
@[simp] theorem State.setGrp_parts (s : State) (k : Nat) (v : Group) : (s.setGrp k v).parts = s.parts := rfl
@[simp] theorem State.setGrp_frames (s : State) (k : Nat) (v : Group) : (s.setGrp k v).frames = s.frames := rfl
@[simp] theorem State.setGrp_exports (s : State) (k : Nat) (v : Group) : (s.setGrp k v).exports = s.exports := rfl
@[simp] theorem State.setGrp_imports (s : State) (k : Nat) (v : Group) : (s.setGrp k v).imports = s.imports := rfl
@[simp] theorem State.setGrp_nextSerial (s : State) (k : Nat) (v : Group) : (s.setGrp k v).nextSerial = s.nextSerial := rfl
@[simp] theorem State.setGrp_pctBase (s : State) (k : Nat) (v : Group) : (s.setGrp k v).pctBase = s.pctBase := rfl
@[simp] theorem State.setGrp_pcarg0 (s : State) (k : Nat) (v : Group) : (s.setGrp k v).pcarg0 = s.pcarg0 := rfl
@[simp] theorem State.setGrp_pcarg1 (s : State) (k : Nat) (v : Group) : (s.setGrp k v).pcarg1 = s.pcarg1 := rfl
@[simp] theorem State.setGrp_pcarg2 (s : State) (k : Nat) (v : Group) : (s.setGrp k v).pcarg2 = s.pcarg2 := rfl
@[simp] theorem State.setGrp_pcBusy (s : State) (k : Nat) (v : Group) : (s.setGrp k v).pcBusy = s.pcBusy := rfl
@[simp] theorem State.setGrp_pcOp (s : State) (k : Nat) (v : Group) : (s.setGrp k v).pcOp = s.pcOp := rfl
@[simp] theorem State.setGrp_pcPart (s : State) (k : Nat) (v : Group) : (s.setGrp k v).pcPart = s.pcPart := rfl
@[simp] theorem State.setGrp_pcStage (s : State) (k : Nat) (v : Group) : (s.setGrp k v).pcStage = s.pcStage := rfl
@[simp] theorem State.setGrp_pcResult (s : State) (k : Nat) (v : Group) : (s.setGrp k v).pcResult = s.pcResult := rfl
@[simp] theorem State.setGrp_hostPart (s : State) (k : Nat) (v : Group) : (s.setGrp k v).hostPart = s.hostPart := rfl
@[simp] theorem State.setGrp_lichenReg (s : State) (k : Nat) (v : Group) : (s.setGrp k v).lichenReg = s.lichenReg := rfl
@[simp] theorem State.setGrp_s2sel (s : State) (k : Nat) (v : Group) : (s.setGrp k v).s2sel = s.s2sel := rfl
@[simp] theorem State.setGrp_hs1root (s : State) (k : Nat) (v : Group) : (s.setGrp k v).hs1root = s.hs1root := rfl
@[simp] theorem State.setGrp_usNext (s : State) (k : Nat) (v : Group) : (s.setGrp k v).usNext = s.usNext := rfl
@[simp] theorem State.setGrp_mig (s : State) (k : Nat) (v : Group) : (s.setGrp k v).mig = s.mig := rfl
@[simp] theorem State.setGrp_ras (s : State) (k : Nat) (v : Group) : (s.setGrp k v).ras = s.ras := rfl
@[simp] theorem State.setGrp_ports (s : State) (k : Nat) (v : Group) : (s.setGrp k v).ports = s.ports := rfl
@[simp] theorem State.setGrp_nextKey (s : State) (k : Nat) (v : Group) : (s.setGrp k v).nextKey = s.nextKey := rfl

/-! ### setTeam -/

@[simp] theorem State.modTeam_eq (s : State) (k : Nat) (f : Team → Team) : s.modTeam k f = s.setTeam k (f (s.team k)) := rfl
@[simp] theorem State.setTeam_team_same (s : State) (k : Nat) (v : Team) : (s.setTeam k v).team k = v := by simp [State.setTeam, State.team]
theorem State.setTeam_team (s : State) (k j : Nat) (v : Team) : (s.setTeam k v).team j = if j = k then v else s.team j := by
  simp [State.setTeam, State.team, FMap.get_set]
@[simp] theorem State.setTeam_grp (s : State) (k : Nat) (v : Team) (j : Nat) : (s.setTeam k v).grp j = s.grp j := rfl
@[simp] theorem State.setTeam_cluster (s : State) (k : Nat) (v : Team) (j : Nat) : (s.setTeam k v).cluster j = s.cluster j := rfl
@[simp] theorem State.setTeam_launch (s : State) (k : Nat) (v : Team) (j : Nat) : (s.setTeam k v).launch j = s.launch j := rfl
@[simp] theorem State.setTeam_coreRec (s : State) (k : Nat) (v : Team) (j : Nat) : (s.setTeam k v).coreRec j = s.coreRec j := rfl
@[simp] theorem State.setTeam_die (s : State) (k : Nat) (v : Team) (j : Nat) : (s.setTeam k v).die j = s.die j := rfl
@[simp] theorem State.setTeam_op (s : State) (k : Nat) (v : Team) (j : Nat) : (s.setTeam k v).op j = s.op j := rfl
@[simp] theorem State.setTeam_fn (s : State) (k : Nat) (v : Team) (j : Nat) : (s.setTeam k v).fn j = s.fn j := rfl
@[simp] theorem State.setTeam_part (s : State) (k : Nat) (v : Team) (j : Nat) : (s.setTeam k v).part j = s.part j := rfl
@[simp] theorem State.setTeam_queue (s : State) (k : Nat) (v : Team) (j i : Nat) : (s.setTeam k v).queue j i = s.queue j i := rfl
@[simp] theorem State.setTeam_tick (s : State) (k : Nat) (v : Team) : (s.setTeam k v).tick = s.tick := rfl
@[simp] theorem State.setTeam_agenda (s : State) (k : Nat) (v : Team) : (s.setTeam k v).agenda = s.agenda := rfl
@[simp] theorem State.setTeam_freeCtr (s : State) (k : Nat) (v : Team) : (s.setTeam k v).freeCtr = s.freeCtr := rfl
@[simp] theorem State.setTeam_iss (s : State) (k : Nat) (v : Team) : (s.setTeam k v).iss = s.iss := rfl
@[simp] theorem State.setTeam_curFn (s : State) (k : Nat) (v : Team) : (s.setTeam k v).curFn = s.curFn := rfl
@[simp] theorem State.setTeam_curQueue (s : State) (k : Nat) (v : Team) : (s.setTeam k v).curQueue = s.curQueue := rfl
@[simp] theorem State.setTeam_nextId (s : State) (k : Nat) (v : Team) : (s.setTeam k v).nextId = s.nextId := rfl
@[simp] theorem State.setTeam_mem (s : State) (k : Nat) (v : Team) : (s.setTeam k v).mem = s.mem := rfl
@[simp] theorem State.setTeam_poison (s : State) (k : Nat) (v : Team) : (s.setTeam k v).poison = s.poison := rfl
@[simp] theorem State.setTeam_hostMem (s : State) (k : Nat) (v : Team) : (s.setTeam k v).hostMem = s.hostMem := rfl
@[simp] theorem State.setTeam_flash (s : State) (k : Nat) (v : Team) : (s.setTeam k v).flash = s.flash := rfl
@[simp] theorem State.setTeam_pend (s : State) (k : Nat) (v : Team) : (s.setTeam k v).pend = s.pend := rfl
@[simp] theorem State.setTeam_leaseEnd (s : State) (k : Nat) (v : Team) : (s.setTeam k v).leaseEnd = s.leaseEnd := rfl
@[simp] theorem State.setTeam_wrote (s : State) (k : Nat) (v : Team) : (s.setTeam k v).wrote = s.wrote := rfl
@[simp] theorem State.setTeam_leases (s : State) (k : Nat) (v : Team) : (s.setTeam k v).leases = s.leases := rfl
@[simp] theorem State.setTeam_sb (s : State) (k : Nat) (v : Team) : (s.setTeam k v).sb = s.sb := rfl
@[simp] theorem State.setTeam_acc (s : State) (k : Nat) (v : Team) : (s.setTeam k v).acc = s.acc := rfl
@[simp] theorem State.setTeam_ops (s : State) (k : Nat) (v : Team) : (s.setTeam k v).ops = s.ops := rfl
@[simp] theorem State.setTeam_groups (s : State) (k : Nat) (v : Team) : (s.setTeam k v).groups = s.groups := rfl
@[simp] theorem State.setTeam_clusters (s : State) (k : Nat) (v : Team) : (s.setTeam k v).clusters = s.clusters := rfl
@[simp] theorem State.setTeam_launches (s : State) (k : Nat) (v : Team) : (s.setTeam k v).launches = s.launches := rfl
@[simp] theorem State.setTeam_cores (s : State) (k : Nat) (v : Team) : (s.setTeam k v).cores = s.cores := rfl
@[simp] theorem State.setTeam_dies (s : State) (k : Nat) (v : Team) : (s.setTeam k v).dies = s.dies := rfl
@[simp] theorem State.setTeam_bonds (s : State) (k : Nat) (v : Team) : (s.setTeam k v).bonds = s.bonds := rfl
@[simp] theorem State.setTeam_tlb (s : State) (k : Nat) (v : Team) : (s.setTeam k v).tlb = s.tlb := rfl
@[simp] theorem State.setTeam_pri (s : State) (k : Nat) (v : Team) : (s.setTeam k v).pri = s.pri := rfl
@[simp] theorem State.setTeam_fns (s : State) (k : Nat) (v : Team) : (s.setTeam k v).fns = s.fns := rfl
@[simp] theorem State.setTeam_queues (s : State) (k : Nat) (v : Team) : (s.setTeam k v).queues = s.queues := rfl
@[simp] theorem State.setTeam_hfq (s : State) (k : Nat) (v : Team) : (s.setTeam k v).hfq = s.hfq := rfl
@[simp] theorem State.setTeam_parts (s : State) (k : Nat) (v : Team) : (s.setTeam k v).parts = s.parts := rfl
@[simp] theorem State.setTeam_frames (s : State) (k : Nat) (v : Team) : (s.setTeam k v).frames = s.frames := rfl
@[simp] theorem State.setTeam_exports (s : State) (k : Nat) (v : Team) : (s.setTeam k v).exports = s.exports := rfl
@[simp] theorem State.setTeam_imports (s : State) (k : Nat) (v : Team) : (s.setTeam k v).imports = s.imports := rfl
@[simp] theorem State.setTeam_nextSerial (s : State) (k : Nat) (v : Team) : (s.setTeam k v).nextSerial = s.nextSerial := rfl
@[simp] theorem State.setTeam_pctBase (s : State) (k : Nat) (v : Team) : (s.setTeam k v).pctBase = s.pctBase := rfl
@[simp] theorem State.setTeam_pcarg0 (s : State) (k : Nat) (v : Team) : (s.setTeam k v).pcarg0 = s.pcarg0 := rfl
@[simp] theorem State.setTeam_pcarg1 (s : State) (k : Nat) (v : Team) : (s.setTeam k v).pcarg1 = s.pcarg1 := rfl
@[simp] theorem State.setTeam_pcarg2 (s : State) (k : Nat) (v : Team) : (s.setTeam k v).pcarg2 = s.pcarg2 := rfl
@[simp] theorem State.setTeam_pcBusy (s : State) (k : Nat) (v : Team) : (s.setTeam k v).pcBusy = s.pcBusy := rfl
@[simp] theorem State.setTeam_pcOp (s : State) (k : Nat) (v : Team) : (s.setTeam k v).pcOp = s.pcOp := rfl
@[simp] theorem State.setTeam_pcPart (s : State) (k : Nat) (v : Team) : (s.setTeam k v).pcPart = s.pcPart := rfl
@[simp] theorem State.setTeam_pcStage (s : State) (k : Nat) (v : Team) : (s.setTeam k v).pcStage = s.pcStage := rfl
@[simp] theorem State.setTeam_pcResult (s : State) (k : Nat) (v : Team) : (s.setTeam k v).pcResult = s.pcResult := rfl
@[simp] theorem State.setTeam_hostPart (s : State) (k : Nat) (v : Team) : (s.setTeam k v).hostPart = s.hostPart := rfl
@[simp] theorem State.setTeam_lichenReg (s : State) (k : Nat) (v : Team) : (s.setTeam k v).lichenReg = s.lichenReg := rfl
@[simp] theorem State.setTeam_s2sel (s : State) (k : Nat) (v : Team) : (s.setTeam k v).s2sel = s.s2sel := rfl
@[simp] theorem State.setTeam_hs1root (s : State) (k : Nat) (v : Team) : (s.setTeam k v).hs1root = s.hs1root := rfl
@[simp] theorem State.setTeam_usNext (s : State) (k : Nat) (v : Team) : (s.setTeam k v).usNext = s.usNext := rfl
@[simp] theorem State.setTeam_mig (s : State) (k : Nat) (v : Team) : (s.setTeam k v).mig = s.mig := rfl
@[simp] theorem State.setTeam_ras (s : State) (k : Nat) (v : Team) : (s.setTeam k v).ras = s.ras := rfl
@[simp] theorem State.setTeam_ports (s : State) (k : Nat) (v : Team) : (s.setTeam k v).ports = s.ports := rfl
@[simp] theorem State.setTeam_nextKey (s : State) (k : Nat) (v : Team) : (s.setTeam k v).nextKey = s.nextKey := rfl

/-! ### setCluster -/

@[simp] theorem State.modCluster_eq (s : State) (k : Nat) (f : Cluster → Cluster) : s.modCluster k f = s.setCluster k (f (s.cluster k)) := rfl
@[simp] theorem State.setCluster_cluster_same (s : State) (k : Nat) (v : Cluster) : (s.setCluster k v).cluster k = v := by simp [State.setCluster, State.cluster]
theorem State.setCluster_cluster (s : State) (k j : Nat) (v : Cluster) : (s.setCluster k v).cluster j = if j = k then v else s.cluster j := by
  simp [State.setCluster, State.cluster, FMap.get_set]
@[simp] theorem State.setCluster_grp (s : State) (k : Nat) (v : Cluster) (j : Nat) : (s.setCluster k v).grp j = s.grp j := rfl
@[simp] theorem State.setCluster_team (s : State) (k : Nat) (v : Cluster) (j : Nat) : (s.setCluster k v).team j = s.team j := rfl
@[simp] theorem State.setCluster_launch (s : State) (k : Nat) (v : Cluster) (j : Nat) : (s.setCluster k v).launch j = s.launch j := rfl
@[simp] theorem State.setCluster_coreRec (s : State) (k : Nat) (v : Cluster) (j : Nat) : (s.setCluster k v).coreRec j = s.coreRec j := rfl
@[simp] theorem State.setCluster_die (s : State) (k : Nat) (v : Cluster) (j : Nat) : (s.setCluster k v).die j = s.die j := rfl
@[simp] theorem State.setCluster_op (s : State) (k : Nat) (v : Cluster) (j : Nat) : (s.setCluster k v).op j = s.op j := rfl
@[simp] theorem State.setCluster_fn (s : State) (k : Nat) (v : Cluster) (j : Nat) : (s.setCluster k v).fn j = s.fn j := rfl
@[simp] theorem State.setCluster_part (s : State) (k : Nat) (v : Cluster) (j : Nat) : (s.setCluster k v).part j = s.part j := rfl
@[simp] theorem State.setCluster_queue (s : State) (k : Nat) (v : Cluster) (j i : Nat) : (s.setCluster k v).queue j i = s.queue j i := rfl
@[simp] theorem State.setCluster_tick (s : State) (k : Nat) (v : Cluster) : (s.setCluster k v).tick = s.tick := rfl
@[simp] theorem State.setCluster_agenda (s : State) (k : Nat) (v : Cluster) : (s.setCluster k v).agenda = s.agenda := rfl
@[simp] theorem State.setCluster_freeCtr (s : State) (k : Nat) (v : Cluster) : (s.setCluster k v).freeCtr = s.freeCtr := rfl
@[simp] theorem State.setCluster_iss (s : State) (k : Nat) (v : Cluster) : (s.setCluster k v).iss = s.iss := rfl
@[simp] theorem State.setCluster_curFn (s : State) (k : Nat) (v : Cluster) : (s.setCluster k v).curFn = s.curFn := rfl
@[simp] theorem State.setCluster_curQueue (s : State) (k : Nat) (v : Cluster) : (s.setCluster k v).curQueue = s.curQueue := rfl
@[simp] theorem State.setCluster_nextId (s : State) (k : Nat) (v : Cluster) : (s.setCluster k v).nextId = s.nextId := rfl
@[simp] theorem State.setCluster_mem (s : State) (k : Nat) (v : Cluster) : (s.setCluster k v).mem = s.mem := rfl
@[simp] theorem State.setCluster_poison (s : State) (k : Nat) (v : Cluster) : (s.setCluster k v).poison = s.poison := rfl
@[simp] theorem State.setCluster_hostMem (s : State) (k : Nat) (v : Cluster) : (s.setCluster k v).hostMem = s.hostMem := rfl
@[simp] theorem State.setCluster_flash (s : State) (k : Nat) (v : Cluster) : (s.setCluster k v).flash = s.flash := rfl
@[simp] theorem State.setCluster_pend (s : State) (k : Nat) (v : Cluster) : (s.setCluster k v).pend = s.pend := rfl
@[simp] theorem State.setCluster_leaseEnd (s : State) (k : Nat) (v : Cluster) : (s.setCluster k v).leaseEnd = s.leaseEnd := rfl
@[simp] theorem State.setCluster_wrote (s : State) (k : Nat) (v : Cluster) : (s.setCluster k v).wrote = s.wrote := rfl
@[simp] theorem State.setCluster_leases (s : State) (k : Nat) (v : Cluster) : (s.setCluster k v).leases = s.leases := rfl
@[simp] theorem State.setCluster_sb (s : State) (k : Nat) (v : Cluster) : (s.setCluster k v).sb = s.sb := rfl
@[simp] theorem State.setCluster_acc (s : State) (k : Nat) (v : Cluster) : (s.setCluster k v).acc = s.acc := rfl
@[simp] theorem State.setCluster_ops (s : State) (k : Nat) (v : Cluster) : (s.setCluster k v).ops = s.ops := rfl
@[simp] theorem State.setCluster_groups (s : State) (k : Nat) (v : Cluster) : (s.setCluster k v).groups = s.groups := rfl
@[simp] theorem State.setCluster_teams (s : State) (k : Nat) (v : Cluster) : (s.setCluster k v).teams = s.teams := rfl
@[simp] theorem State.setCluster_launches (s : State) (k : Nat) (v : Cluster) : (s.setCluster k v).launches = s.launches := rfl
@[simp] theorem State.setCluster_cores (s : State) (k : Nat) (v : Cluster) : (s.setCluster k v).cores = s.cores := rfl
@[simp] theorem State.setCluster_dies (s : State) (k : Nat) (v : Cluster) : (s.setCluster k v).dies = s.dies := rfl
@[simp] theorem State.setCluster_bonds (s : State) (k : Nat) (v : Cluster) : (s.setCluster k v).bonds = s.bonds := rfl
@[simp] theorem State.setCluster_tlb (s : State) (k : Nat) (v : Cluster) : (s.setCluster k v).tlb = s.tlb := rfl
@[simp] theorem State.setCluster_pri (s : State) (k : Nat) (v : Cluster) : (s.setCluster k v).pri = s.pri := rfl
@[simp] theorem State.setCluster_fns (s : State) (k : Nat) (v : Cluster) : (s.setCluster k v).fns = s.fns := rfl
@[simp] theorem State.setCluster_queues (s : State) (k : Nat) (v : Cluster) : (s.setCluster k v).queues = s.queues := rfl
@[simp] theorem State.setCluster_hfq (s : State) (k : Nat) (v : Cluster) : (s.setCluster k v).hfq = s.hfq := rfl
@[simp] theorem State.setCluster_parts (s : State) (k : Nat) (v : Cluster) : (s.setCluster k v).parts = s.parts := rfl
@[simp] theorem State.setCluster_frames (s : State) (k : Nat) (v : Cluster) : (s.setCluster k v).frames = s.frames := rfl
@[simp] theorem State.setCluster_exports (s : State) (k : Nat) (v : Cluster) : (s.setCluster k v).exports = s.exports := rfl
@[simp] theorem State.setCluster_imports (s : State) (k : Nat) (v : Cluster) : (s.setCluster k v).imports = s.imports := rfl
@[simp] theorem State.setCluster_nextSerial (s : State) (k : Nat) (v : Cluster) : (s.setCluster k v).nextSerial = s.nextSerial := rfl
@[simp] theorem State.setCluster_pctBase (s : State) (k : Nat) (v : Cluster) : (s.setCluster k v).pctBase = s.pctBase := rfl
@[simp] theorem State.setCluster_pcarg0 (s : State) (k : Nat) (v : Cluster) : (s.setCluster k v).pcarg0 = s.pcarg0 := rfl
@[simp] theorem State.setCluster_pcarg1 (s : State) (k : Nat) (v : Cluster) : (s.setCluster k v).pcarg1 = s.pcarg1 := rfl
@[simp] theorem State.setCluster_pcarg2 (s : State) (k : Nat) (v : Cluster) : (s.setCluster k v).pcarg2 = s.pcarg2 := rfl
@[simp] theorem State.setCluster_pcBusy (s : State) (k : Nat) (v : Cluster) : (s.setCluster k v).pcBusy = s.pcBusy := rfl
@[simp] theorem State.setCluster_pcOp (s : State) (k : Nat) (v : Cluster) : (s.setCluster k v).pcOp = s.pcOp := rfl
@[simp] theorem State.setCluster_pcPart (s : State) (k : Nat) (v : Cluster) : (s.setCluster k v).pcPart = s.pcPart := rfl
@[simp] theorem State.setCluster_pcStage (s : State) (k : Nat) (v : Cluster) : (s.setCluster k v).pcStage = s.pcStage := rfl
@[simp] theorem State.setCluster_pcResult (s : State) (k : Nat) (v : Cluster) : (s.setCluster k v).pcResult = s.pcResult := rfl
@[simp] theorem State.setCluster_hostPart (s : State) (k : Nat) (v : Cluster) : (s.setCluster k v).hostPart = s.hostPart := rfl
@[simp] theorem State.setCluster_lichenReg (s : State) (k : Nat) (v : Cluster) : (s.setCluster k v).lichenReg = s.lichenReg := rfl
@[simp] theorem State.setCluster_s2sel (s : State) (k : Nat) (v : Cluster) : (s.setCluster k v).s2sel = s.s2sel := rfl
@[simp] theorem State.setCluster_hs1root (s : State) (k : Nat) (v : Cluster) : (s.setCluster k v).hs1root = s.hs1root := rfl
@[simp] theorem State.setCluster_usNext (s : State) (k : Nat) (v : Cluster) : (s.setCluster k v).usNext = s.usNext := rfl
@[simp] theorem State.setCluster_mig (s : State) (k : Nat) (v : Cluster) : (s.setCluster k v).mig = s.mig := rfl
@[simp] theorem State.setCluster_ras (s : State) (k : Nat) (v : Cluster) : (s.setCluster k v).ras = s.ras := rfl
@[simp] theorem State.setCluster_ports (s : State) (k : Nat) (v : Cluster) : (s.setCluster k v).ports = s.ports := rfl
@[simp] theorem State.setCluster_nextKey (s : State) (k : Nat) (v : Cluster) : (s.setCluster k v).nextKey = s.nextKey := rfl

/-! ### setLaunch -/

@[simp] theorem State.modLaunch_eq (s : State) (k : Nat) (f : Launch → Launch) : s.modLaunch k f = s.setLaunch k (f (s.launch k)) := rfl
@[simp] theorem State.setLaunch_launch_same (s : State) (k : Nat) (v : Launch) : (s.setLaunch k v).launch k = v := by simp [State.setLaunch, State.launch]
theorem State.setLaunch_launch (s : State) (k j : Nat) (v : Launch) : (s.setLaunch k v).launch j = if j = k then v else s.launch j := by
  simp [State.setLaunch, State.launch, FMap.get_set]
@[simp] theorem State.setLaunch_grp (s : State) (k : Nat) (v : Launch) (j : Nat) : (s.setLaunch k v).grp j = s.grp j := rfl
@[simp] theorem State.setLaunch_team (s : State) (k : Nat) (v : Launch) (j : Nat) : (s.setLaunch k v).team j = s.team j := rfl
@[simp] theorem State.setLaunch_cluster (s : State) (k : Nat) (v : Launch) (j : Nat) : (s.setLaunch k v).cluster j = s.cluster j := rfl
@[simp] theorem State.setLaunch_coreRec (s : State) (k : Nat) (v : Launch) (j : Nat) : (s.setLaunch k v).coreRec j = s.coreRec j := rfl
@[simp] theorem State.setLaunch_die (s : State) (k : Nat) (v : Launch) (j : Nat) : (s.setLaunch k v).die j = s.die j := rfl
@[simp] theorem State.setLaunch_op (s : State) (k : Nat) (v : Launch) (j : Nat) : (s.setLaunch k v).op j = s.op j := rfl
@[simp] theorem State.setLaunch_fn (s : State) (k : Nat) (v : Launch) (j : Nat) : (s.setLaunch k v).fn j = s.fn j := rfl
@[simp] theorem State.setLaunch_part (s : State) (k : Nat) (v : Launch) (j : Nat) : (s.setLaunch k v).part j = s.part j := rfl
@[simp] theorem State.setLaunch_queue (s : State) (k : Nat) (v : Launch) (j i : Nat) : (s.setLaunch k v).queue j i = s.queue j i := rfl
@[simp] theorem State.setLaunch_tick (s : State) (k : Nat) (v : Launch) : (s.setLaunch k v).tick = s.tick := rfl
@[simp] theorem State.setLaunch_agenda (s : State) (k : Nat) (v : Launch) : (s.setLaunch k v).agenda = s.agenda := rfl
@[simp] theorem State.setLaunch_freeCtr (s : State) (k : Nat) (v : Launch) : (s.setLaunch k v).freeCtr = s.freeCtr := rfl
@[simp] theorem State.setLaunch_iss (s : State) (k : Nat) (v : Launch) : (s.setLaunch k v).iss = s.iss := rfl
@[simp] theorem State.setLaunch_curFn (s : State) (k : Nat) (v : Launch) : (s.setLaunch k v).curFn = s.curFn := rfl
@[simp] theorem State.setLaunch_curQueue (s : State) (k : Nat) (v : Launch) : (s.setLaunch k v).curQueue = s.curQueue := rfl
@[simp] theorem State.setLaunch_nextId (s : State) (k : Nat) (v : Launch) : (s.setLaunch k v).nextId = s.nextId := rfl
@[simp] theorem State.setLaunch_mem (s : State) (k : Nat) (v : Launch) : (s.setLaunch k v).mem = s.mem := rfl
@[simp] theorem State.setLaunch_poison (s : State) (k : Nat) (v : Launch) : (s.setLaunch k v).poison = s.poison := rfl
@[simp] theorem State.setLaunch_hostMem (s : State) (k : Nat) (v : Launch) : (s.setLaunch k v).hostMem = s.hostMem := rfl
@[simp] theorem State.setLaunch_flash (s : State) (k : Nat) (v : Launch) : (s.setLaunch k v).flash = s.flash := rfl
@[simp] theorem State.setLaunch_pend (s : State) (k : Nat) (v : Launch) : (s.setLaunch k v).pend = s.pend := rfl
@[simp] theorem State.setLaunch_leaseEnd (s : State) (k : Nat) (v : Launch) : (s.setLaunch k v).leaseEnd = s.leaseEnd := rfl
@[simp] theorem State.setLaunch_wrote (s : State) (k : Nat) (v : Launch) : (s.setLaunch k v).wrote = s.wrote := rfl
@[simp] theorem State.setLaunch_leases (s : State) (k : Nat) (v : Launch) : (s.setLaunch k v).leases = s.leases := rfl
@[simp] theorem State.setLaunch_sb (s : State) (k : Nat) (v : Launch) : (s.setLaunch k v).sb = s.sb := rfl
@[simp] theorem State.setLaunch_acc (s : State) (k : Nat) (v : Launch) : (s.setLaunch k v).acc = s.acc := rfl
@[simp] theorem State.setLaunch_ops (s : State) (k : Nat) (v : Launch) : (s.setLaunch k v).ops = s.ops := rfl
@[simp] theorem State.setLaunch_groups (s : State) (k : Nat) (v : Launch) : (s.setLaunch k v).groups = s.groups := rfl
@[simp] theorem State.setLaunch_teams (s : State) (k : Nat) (v : Launch) : (s.setLaunch k v).teams = s.teams := rfl
@[simp] theorem State.setLaunch_clusters (s : State) (k : Nat) (v : Launch) : (s.setLaunch k v).clusters = s.clusters := rfl
@[simp] theorem State.setLaunch_cores (s : State) (k : Nat) (v : Launch) : (s.setLaunch k v).cores = s.cores := rfl
@[simp] theorem State.setLaunch_dies (s : State) (k : Nat) (v : Launch) : (s.setLaunch k v).dies = s.dies := rfl
@[simp] theorem State.setLaunch_bonds (s : State) (k : Nat) (v : Launch) : (s.setLaunch k v).bonds = s.bonds := rfl
@[simp] theorem State.setLaunch_tlb (s : State) (k : Nat) (v : Launch) : (s.setLaunch k v).tlb = s.tlb := rfl
@[simp] theorem State.setLaunch_pri (s : State) (k : Nat) (v : Launch) : (s.setLaunch k v).pri = s.pri := rfl
@[simp] theorem State.setLaunch_fns (s : State) (k : Nat) (v : Launch) : (s.setLaunch k v).fns = s.fns := rfl
@[simp] theorem State.setLaunch_queues (s : State) (k : Nat) (v : Launch) : (s.setLaunch k v).queues = s.queues := rfl
@[simp] theorem State.setLaunch_hfq (s : State) (k : Nat) (v : Launch) : (s.setLaunch k v).hfq = s.hfq := rfl
@[simp] theorem State.setLaunch_parts (s : State) (k : Nat) (v : Launch) : (s.setLaunch k v).parts = s.parts := rfl
@[simp] theorem State.setLaunch_frames (s : State) (k : Nat) (v : Launch) : (s.setLaunch k v).frames = s.frames := rfl
@[simp] theorem State.setLaunch_exports (s : State) (k : Nat) (v : Launch) : (s.setLaunch k v).exports = s.exports := rfl
@[simp] theorem State.setLaunch_imports (s : State) (k : Nat) (v : Launch) : (s.setLaunch k v).imports = s.imports := rfl
@[simp] theorem State.setLaunch_nextSerial (s : State) (k : Nat) (v : Launch) : (s.setLaunch k v).nextSerial = s.nextSerial := rfl
@[simp] theorem State.setLaunch_pctBase (s : State) (k : Nat) (v : Launch) : (s.setLaunch k v).pctBase = s.pctBase := rfl
@[simp] theorem State.setLaunch_pcarg0 (s : State) (k : Nat) (v : Launch) : (s.setLaunch k v).pcarg0 = s.pcarg0 := rfl
@[simp] theorem State.setLaunch_pcarg1 (s : State) (k : Nat) (v : Launch) : (s.setLaunch k v).pcarg1 = s.pcarg1 := rfl
@[simp] theorem State.setLaunch_pcarg2 (s : State) (k : Nat) (v : Launch) : (s.setLaunch k v).pcarg2 = s.pcarg2 := rfl
@[simp] theorem State.setLaunch_pcBusy (s : State) (k : Nat) (v : Launch) : (s.setLaunch k v).pcBusy = s.pcBusy := rfl
@[simp] theorem State.setLaunch_pcOp (s : State) (k : Nat) (v : Launch) : (s.setLaunch k v).pcOp = s.pcOp := rfl
@[simp] theorem State.setLaunch_pcPart (s : State) (k : Nat) (v : Launch) : (s.setLaunch k v).pcPart = s.pcPart := rfl
@[simp] theorem State.setLaunch_pcStage (s : State) (k : Nat) (v : Launch) : (s.setLaunch k v).pcStage = s.pcStage := rfl
@[simp] theorem State.setLaunch_pcResult (s : State) (k : Nat) (v : Launch) : (s.setLaunch k v).pcResult = s.pcResult := rfl
@[simp] theorem State.setLaunch_hostPart (s : State) (k : Nat) (v : Launch) : (s.setLaunch k v).hostPart = s.hostPart := rfl
@[simp] theorem State.setLaunch_lichenReg (s : State) (k : Nat) (v : Launch) : (s.setLaunch k v).lichenReg = s.lichenReg := rfl
@[simp] theorem State.setLaunch_s2sel (s : State) (k : Nat) (v : Launch) : (s.setLaunch k v).s2sel = s.s2sel := rfl
@[simp] theorem State.setLaunch_hs1root (s : State) (k : Nat) (v : Launch) : (s.setLaunch k v).hs1root = s.hs1root := rfl
@[simp] theorem State.setLaunch_usNext (s : State) (k : Nat) (v : Launch) : (s.setLaunch k v).usNext = s.usNext := rfl
@[simp] theorem State.setLaunch_mig (s : State) (k : Nat) (v : Launch) : (s.setLaunch k v).mig = s.mig := rfl
@[simp] theorem State.setLaunch_ras (s : State) (k : Nat) (v : Launch) : (s.setLaunch k v).ras = s.ras := rfl
@[simp] theorem State.setLaunch_ports (s : State) (k : Nat) (v : Launch) : (s.setLaunch k v).ports = s.ports := rfl
@[simp] theorem State.setLaunch_nextKey (s : State) (k : Nat) (v : Launch) : (s.setLaunch k v).nextKey = s.nextKey := rfl

/-! ### setCore -/

@[simp] theorem State.modCore_eq (s : State) (k : Nat) (f : CoreRec → CoreRec) : s.modCore k f = s.setCore k (f (s.coreRec k)) := rfl
@[simp] theorem State.setCore_coreRec_same (s : State) (k : Nat) (v : CoreRec) : (s.setCore k v).coreRec k = v := by simp [State.setCore, State.coreRec]
theorem State.setCore_coreRec (s : State) (k j : Nat) (v : CoreRec) : (s.setCore k v).coreRec j = if j = k then v else s.coreRec j := by
  simp [State.setCore, State.coreRec, FMap.get_set]
@[simp] theorem State.setCore_grp (s : State) (k : Nat) (v : CoreRec) (j : Nat) : (s.setCore k v).grp j = s.grp j := rfl
@[simp] theorem State.setCore_team (s : State) (k : Nat) (v : CoreRec) (j : Nat) : (s.setCore k v).team j = s.team j := rfl
@[simp] theorem State.setCore_cluster (s : State) (k : Nat) (v : CoreRec) (j : Nat) : (s.setCore k v).cluster j = s.cluster j := rfl
@[simp] theorem State.setCore_launch (s : State) (k : Nat) (v : CoreRec) (j : Nat) : (s.setCore k v).launch j = s.launch j := rfl
@[simp] theorem State.setCore_die (s : State) (k : Nat) (v : CoreRec) (j : Nat) : (s.setCore k v).die j = s.die j := rfl
@[simp] theorem State.setCore_op (s : State) (k : Nat) (v : CoreRec) (j : Nat) : (s.setCore k v).op j = s.op j := rfl
@[simp] theorem State.setCore_fn (s : State) (k : Nat) (v : CoreRec) (j : Nat) : (s.setCore k v).fn j = s.fn j := rfl
@[simp] theorem State.setCore_part (s : State) (k : Nat) (v : CoreRec) (j : Nat) : (s.setCore k v).part j = s.part j := rfl
@[simp] theorem State.setCore_queue (s : State) (k : Nat) (v : CoreRec) (j i : Nat) : (s.setCore k v).queue j i = s.queue j i := rfl
@[simp] theorem State.setCore_tick (s : State) (k : Nat) (v : CoreRec) : (s.setCore k v).tick = s.tick := rfl
@[simp] theorem State.setCore_agenda (s : State) (k : Nat) (v : CoreRec) : (s.setCore k v).agenda = s.agenda := rfl
@[simp] theorem State.setCore_freeCtr (s : State) (k : Nat) (v : CoreRec) : (s.setCore k v).freeCtr = s.freeCtr := rfl
@[simp] theorem State.setCore_iss (s : State) (k : Nat) (v : CoreRec) : (s.setCore k v).iss = s.iss := rfl
@[simp] theorem State.setCore_curFn (s : State) (k : Nat) (v : CoreRec) : (s.setCore k v).curFn = s.curFn := rfl
@[simp] theorem State.setCore_curQueue (s : State) (k : Nat) (v : CoreRec) : (s.setCore k v).curQueue = s.curQueue := rfl
@[simp] theorem State.setCore_nextId (s : State) (k : Nat) (v : CoreRec) : (s.setCore k v).nextId = s.nextId := rfl
@[simp] theorem State.setCore_mem (s : State) (k : Nat) (v : CoreRec) : (s.setCore k v).mem = s.mem := rfl
@[simp] theorem State.setCore_poison (s : State) (k : Nat) (v : CoreRec) : (s.setCore k v).poison = s.poison := rfl
@[simp] theorem State.setCore_hostMem (s : State) (k : Nat) (v : CoreRec) : (s.setCore k v).hostMem = s.hostMem := rfl
@[simp] theorem State.setCore_flash (s : State) (k : Nat) (v : CoreRec) : (s.setCore k v).flash = s.flash := rfl
@[simp] theorem State.setCore_pend (s : State) (k : Nat) (v : CoreRec) : (s.setCore k v).pend = s.pend := rfl
@[simp] theorem State.setCore_leaseEnd (s : State) (k : Nat) (v : CoreRec) : (s.setCore k v).leaseEnd = s.leaseEnd := rfl
@[simp] theorem State.setCore_wrote (s : State) (k : Nat) (v : CoreRec) : (s.setCore k v).wrote = s.wrote := rfl
@[simp] theorem State.setCore_leases (s : State) (k : Nat) (v : CoreRec) : (s.setCore k v).leases = s.leases := rfl
@[simp] theorem State.setCore_sb (s : State) (k : Nat) (v : CoreRec) : (s.setCore k v).sb = s.sb := rfl
@[simp] theorem State.setCore_acc (s : State) (k : Nat) (v : CoreRec) : (s.setCore k v).acc = s.acc := rfl
@[simp] theorem State.setCore_ops (s : State) (k : Nat) (v : CoreRec) : (s.setCore k v).ops = s.ops := rfl
@[simp] theorem State.setCore_groups (s : State) (k : Nat) (v : CoreRec) : (s.setCore k v).groups = s.groups := rfl
@[simp] theorem State.setCore_teams (s : State) (k : Nat) (v : CoreRec) : (s.setCore k v).teams = s.teams := rfl
@[simp] theorem State.setCore_clusters (s : State) (k : Nat) (v : CoreRec) : (s.setCore k v).clusters = s.clusters := rfl
@[simp] theorem State.setCore_launches (s : State) (k : Nat) (v : CoreRec) : (s.setCore k v).launches = s.launches := rfl
@[simp] theorem State.setCore_dies (s : State) (k : Nat) (v : CoreRec) : (s.setCore k v).dies = s.dies := rfl
@[simp] theorem State.setCore_bonds (s : State) (k : Nat) (v : CoreRec) : (s.setCore k v).bonds = s.bonds := rfl
@[simp] theorem State.setCore_tlb (s : State) (k : Nat) (v : CoreRec) : (s.setCore k v).tlb = s.tlb := rfl
@[simp] theorem State.setCore_pri (s : State) (k : Nat) (v : CoreRec) : (s.setCore k v).pri = s.pri := rfl
@[simp] theorem State.setCore_fns (s : State) (k : Nat) (v : CoreRec) : (s.setCore k v).fns = s.fns := rfl
@[simp] theorem State.setCore_queues (s : State) (k : Nat) (v : CoreRec) : (s.setCore k v).queues = s.queues := rfl
@[simp] theorem State.setCore_hfq (s : State) (k : Nat) (v : CoreRec) : (s.setCore k v).hfq = s.hfq := rfl
@[simp] theorem State.setCore_parts (s : State) (k : Nat) (v : CoreRec) : (s.setCore k v).parts = s.parts := rfl
@[simp] theorem State.setCore_frames (s : State) (k : Nat) (v : CoreRec) : (s.setCore k v).frames = s.frames := rfl
@[simp] theorem State.setCore_exports (s : State) (k : Nat) (v : CoreRec) : (s.setCore k v).exports = s.exports := rfl
@[simp] theorem State.setCore_imports (s : State) (k : Nat) (v : CoreRec) : (s.setCore k v).imports = s.imports := rfl
@[simp] theorem State.setCore_nextSerial (s : State) (k : Nat) (v : CoreRec) : (s.setCore k v).nextSerial = s.nextSerial := rfl
@[simp] theorem State.setCore_pctBase (s : State) (k : Nat) (v : CoreRec) : (s.setCore k v).pctBase = s.pctBase := rfl
@[simp] theorem State.setCore_pcarg0 (s : State) (k : Nat) (v : CoreRec) : (s.setCore k v).pcarg0 = s.pcarg0 := rfl
@[simp] theorem State.setCore_pcarg1 (s : State) (k : Nat) (v : CoreRec) : (s.setCore k v).pcarg1 = s.pcarg1 := rfl
@[simp] theorem State.setCore_pcarg2 (s : State) (k : Nat) (v : CoreRec) : (s.setCore k v).pcarg2 = s.pcarg2 := rfl
@[simp] theorem State.setCore_pcBusy (s : State) (k : Nat) (v : CoreRec) : (s.setCore k v).pcBusy = s.pcBusy := rfl
@[simp] theorem State.setCore_pcOp (s : State) (k : Nat) (v : CoreRec) : (s.setCore k v).pcOp = s.pcOp := rfl
@[simp] theorem State.setCore_pcPart (s : State) (k : Nat) (v : CoreRec) : (s.setCore k v).pcPart = s.pcPart := rfl
@[simp] theorem State.setCore_pcStage (s : State) (k : Nat) (v : CoreRec) : (s.setCore k v).pcStage = s.pcStage := rfl
@[simp] theorem State.setCore_pcResult (s : State) (k : Nat) (v : CoreRec) : (s.setCore k v).pcResult = s.pcResult := rfl
@[simp] theorem State.setCore_hostPart (s : State) (k : Nat) (v : CoreRec) : (s.setCore k v).hostPart = s.hostPart := rfl
@[simp] theorem State.setCore_lichenReg (s : State) (k : Nat) (v : CoreRec) : (s.setCore k v).lichenReg = s.lichenReg := rfl
@[simp] theorem State.setCore_s2sel (s : State) (k : Nat) (v : CoreRec) : (s.setCore k v).s2sel = s.s2sel := rfl
@[simp] theorem State.setCore_hs1root (s : State) (k : Nat) (v : CoreRec) : (s.setCore k v).hs1root = s.hs1root := rfl
@[simp] theorem State.setCore_usNext (s : State) (k : Nat) (v : CoreRec) : (s.setCore k v).usNext = s.usNext := rfl
@[simp] theorem State.setCore_mig (s : State) (k : Nat) (v : CoreRec) : (s.setCore k v).mig = s.mig := rfl
@[simp] theorem State.setCore_ras (s : State) (k : Nat) (v : CoreRec) : (s.setCore k v).ras = s.ras := rfl
@[simp] theorem State.setCore_ports (s : State) (k : Nat) (v : CoreRec) : (s.setCore k v).ports = s.ports := rfl
@[simp] theorem State.setCore_nextKey (s : State) (k : Nat) (v : CoreRec) : (s.setCore k v).nextKey = s.nextKey := rfl

/-! ### setDie -/

@[simp] theorem State.modDie_eq (s : State) (k : Nat) (f : DieRec → DieRec) : s.modDie k f = s.setDie k (f (s.die k)) := rfl
@[simp] theorem State.setDie_die_same (s : State) (k : Nat) (v : DieRec) : (s.setDie k v).die k = v := by simp [State.setDie, State.die]
theorem State.setDie_die (s : State) (k j : Nat) (v : DieRec) : (s.setDie k v).die j = if j = k then v else s.die j := by
  simp [State.setDie, State.die, FMap.get_set]
@[simp] theorem State.setDie_grp (s : State) (k : Nat) (v : DieRec) (j : Nat) : (s.setDie k v).grp j = s.grp j := rfl
@[simp] theorem State.setDie_team (s : State) (k : Nat) (v : DieRec) (j : Nat) : (s.setDie k v).team j = s.team j := rfl
@[simp] theorem State.setDie_cluster (s : State) (k : Nat) (v : DieRec) (j : Nat) : (s.setDie k v).cluster j = s.cluster j := rfl
@[simp] theorem State.setDie_launch (s : State) (k : Nat) (v : DieRec) (j : Nat) : (s.setDie k v).launch j = s.launch j := rfl
@[simp] theorem State.setDie_coreRec (s : State) (k : Nat) (v : DieRec) (j : Nat) : (s.setDie k v).coreRec j = s.coreRec j := rfl
@[simp] theorem State.setDie_op (s : State) (k : Nat) (v : DieRec) (j : Nat) : (s.setDie k v).op j = s.op j := rfl
@[simp] theorem State.setDie_fn (s : State) (k : Nat) (v : DieRec) (j : Nat) : (s.setDie k v).fn j = s.fn j := rfl
@[simp] theorem State.setDie_part (s : State) (k : Nat) (v : DieRec) (j : Nat) : (s.setDie k v).part j = s.part j := rfl
@[simp] theorem State.setDie_queue (s : State) (k : Nat) (v : DieRec) (j i : Nat) : (s.setDie k v).queue j i = s.queue j i := rfl
@[simp] theorem State.setDie_tick (s : State) (k : Nat) (v : DieRec) : (s.setDie k v).tick = s.tick := rfl
@[simp] theorem State.setDie_agenda (s : State) (k : Nat) (v : DieRec) : (s.setDie k v).agenda = s.agenda := rfl
@[simp] theorem State.setDie_freeCtr (s : State) (k : Nat) (v : DieRec) : (s.setDie k v).freeCtr = s.freeCtr := rfl
@[simp] theorem State.setDie_iss (s : State) (k : Nat) (v : DieRec) : (s.setDie k v).iss = s.iss := rfl
@[simp] theorem State.setDie_curFn (s : State) (k : Nat) (v : DieRec) : (s.setDie k v).curFn = s.curFn := rfl
@[simp] theorem State.setDie_curQueue (s : State) (k : Nat) (v : DieRec) : (s.setDie k v).curQueue = s.curQueue := rfl
@[simp] theorem State.setDie_nextId (s : State) (k : Nat) (v : DieRec) : (s.setDie k v).nextId = s.nextId := rfl
@[simp] theorem State.setDie_mem (s : State) (k : Nat) (v : DieRec) : (s.setDie k v).mem = s.mem := rfl
@[simp] theorem State.setDie_poison (s : State) (k : Nat) (v : DieRec) : (s.setDie k v).poison = s.poison := rfl
@[simp] theorem State.setDie_hostMem (s : State) (k : Nat) (v : DieRec) : (s.setDie k v).hostMem = s.hostMem := rfl
@[simp] theorem State.setDie_flash (s : State) (k : Nat) (v : DieRec) : (s.setDie k v).flash = s.flash := rfl
@[simp] theorem State.setDie_pend (s : State) (k : Nat) (v : DieRec) : (s.setDie k v).pend = s.pend := rfl
@[simp] theorem State.setDie_leaseEnd (s : State) (k : Nat) (v : DieRec) : (s.setDie k v).leaseEnd = s.leaseEnd := rfl
@[simp] theorem State.setDie_wrote (s : State) (k : Nat) (v : DieRec) : (s.setDie k v).wrote = s.wrote := rfl
@[simp] theorem State.setDie_leases (s : State) (k : Nat) (v : DieRec) : (s.setDie k v).leases = s.leases := rfl
@[simp] theorem State.setDie_sb (s : State) (k : Nat) (v : DieRec) : (s.setDie k v).sb = s.sb := rfl
@[simp] theorem State.setDie_acc (s : State) (k : Nat) (v : DieRec) : (s.setDie k v).acc = s.acc := rfl
@[simp] theorem State.setDie_ops (s : State) (k : Nat) (v : DieRec) : (s.setDie k v).ops = s.ops := rfl
@[simp] theorem State.setDie_groups (s : State) (k : Nat) (v : DieRec) : (s.setDie k v).groups = s.groups := rfl
@[simp] theorem State.setDie_teams (s : State) (k : Nat) (v : DieRec) : (s.setDie k v).teams = s.teams := rfl
@[simp] theorem State.setDie_clusters (s : State) (k : Nat) (v : DieRec) : (s.setDie k v).clusters = s.clusters := rfl
@[simp] theorem State.setDie_launches (s : State) (k : Nat) (v : DieRec) : (s.setDie k v).launches = s.launches := rfl
@[simp] theorem State.setDie_cores (s : State) (k : Nat) (v : DieRec) : (s.setDie k v).cores = s.cores := rfl
@[simp] theorem State.setDie_bonds (s : State) (k : Nat) (v : DieRec) : (s.setDie k v).bonds = s.bonds := rfl
@[simp] theorem State.setDie_tlb (s : State) (k : Nat) (v : DieRec) : (s.setDie k v).tlb = s.tlb := rfl
@[simp] theorem State.setDie_pri (s : State) (k : Nat) (v : DieRec) : (s.setDie k v).pri = s.pri := rfl
@[simp] theorem State.setDie_fns (s : State) (k : Nat) (v : DieRec) : (s.setDie k v).fns = s.fns := rfl
@[simp] theorem State.setDie_queues (s : State) (k : Nat) (v : DieRec) : (s.setDie k v).queues = s.queues := rfl
@[simp] theorem State.setDie_hfq (s : State) (k : Nat) (v : DieRec) : (s.setDie k v).hfq = s.hfq := rfl
@[simp] theorem State.setDie_parts (s : State) (k : Nat) (v : DieRec) : (s.setDie k v).parts = s.parts := rfl
@[simp] theorem State.setDie_frames (s : State) (k : Nat) (v : DieRec) : (s.setDie k v).frames = s.frames := rfl
@[simp] theorem State.setDie_exports (s : State) (k : Nat) (v : DieRec) : (s.setDie k v).exports = s.exports := rfl
@[simp] theorem State.setDie_imports (s : State) (k : Nat) (v : DieRec) : (s.setDie k v).imports = s.imports := rfl
@[simp] theorem State.setDie_nextSerial (s : State) (k : Nat) (v : DieRec) : (s.setDie k v).nextSerial = s.nextSerial := rfl
@[simp] theorem State.setDie_pctBase (s : State) (k : Nat) (v : DieRec) : (s.setDie k v).pctBase = s.pctBase := rfl
@[simp] theorem State.setDie_pcarg0 (s : State) (k : Nat) (v : DieRec) : (s.setDie k v).pcarg0 = s.pcarg0 := rfl
@[simp] theorem State.setDie_pcarg1 (s : State) (k : Nat) (v : DieRec) : (s.setDie k v).pcarg1 = s.pcarg1 := rfl
@[simp] theorem State.setDie_pcarg2 (s : State) (k : Nat) (v : DieRec) : (s.setDie k v).pcarg2 = s.pcarg2 := rfl
@[simp] theorem State.setDie_pcBusy (s : State) (k : Nat) (v : DieRec) : (s.setDie k v).pcBusy = s.pcBusy := rfl
@[simp] theorem State.setDie_pcOp (s : State) (k : Nat) (v : DieRec) : (s.setDie k v).pcOp = s.pcOp := rfl
@[simp] theorem State.setDie_pcPart (s : State) (k : Nat) (v : DieRec) : (s.setDie k v).pcPart = s.pcPart := rfl
@[simp] theorem State.setDie_pcStage (s : State) (k : Nat) (v : DieRec) : (s.setDie k v).pcStage = s.pcStage := rfl
@[simp] theorem State.setDie_pcResult (s : State) (k : Nat) (v : DieRec) : (s.setDie k v).pcResult = s.pcResult := rfl
@[simp] theorem State.setDie_hostPart (s : State) (k : Nat) (v : DieRec) : (s.setDie k v).hostPart = s.hostPart := rfl
@[simp] theorem State.setDie_lichenReg (s : State) (k : Nat) (v : DieRec) : (s.setDie k v).lichenReg = s.lichenReg := rfl
@[simp] theorem State.setDie_s2sel (s : State) (k : Nat) (v : DieRec) : (s.setDie k v).s2sel = s.s2sel := rfl
@[simp] theorem State.setDie_hs1root (s : State) (k : Nat) (v : DieRec) : (s.setDie k v).hs1root = s.hs1root := rfl
@[simp] theorem State.setDie_usNext (s : State) (k : Nat) (v : DieRec) : (s.setDie k v).usNext = s.usNext := rfl
@[simp] theorem State.setDie_mig (s : State) (k : Nat) (v : DieRec) : (s.setDie k v).mig = s.mig := rfl
@[simp] theorem State.setDie_ras (s : State) (k : Nat) (v : DieRec) : (s.setDie k v).ras = s.ras := rfl
@[simp] theorem State.setDie_ports (s : State) (k : Nat) (v : DieRec) : (s.setDie k v).ports = s.ports := rfl
@[simp] theorem State.setDie_nextKey (s : State) (k : Nat) (v : DieRec) : (s.setDie k v).nextKey = s.nextKey := rfl

/-! ### setOp -/

@[simp] theorem State.modOp_eq (s : State) (k : Nat) (f : Op → Op) : s.modOp k f = s.setOp k (f (s.op k)) := rfl
@[simp] theorem State.setOp_op_same (s : State) (k : Nat) (v : Op) : (s.setOp k v).op k = v := by simp [State.setOp, State.op]
theorem State.setOp_op (s : State) (k j : Nat) (v : Op) : (s.setOp k v).op j = if j = k then v else s.op j := by
  simp [State.setOp, State.op, FMap.get_set]
@[simp] theorem State.setOp_grp (s : State) (k : Nat) (v : Op) (j : Nat) : (s.setOp k v).grp j = s.grp j := rfl
@[simp] theorem State.setOp_team (s : State) (k : Nat) (v : Op) (j : Nat) : (s.setOp k v).team j = s.team j := rfl
@[simp] theorem State.setOp_cluster (s : State) (k : Nat) (v : Op) (j : Nat) : (s.setOp k v).cluster j = s.cluster j := rfl
@[simp] theorem State.setOp_launch (s : State) (k : Nat) (v : Op) (j : Nat) : (s.setOp k v).launch j = s.launch j := rfl
@[simp] theorem State.setOp_coreRec (s : State) (k : Nat) (v : Op) (j : Nat) : (s.setOp k v).coreRec j = s.coreRec j := rfl
@[simp] theorem State.setOp_die (s : State) (k : Nat) (v : Op) (j : Nat) : (s.setOp k v).die j = s.die j := rfl
@[simp] theorem State.setOp_fn (s : State) (k : Nat) (v : Op) (j : Nat) : (s.setOp k v).fn j = s.fn j := rfl
@[simp] theorem State.setOp_part (s : State) (k : Nat) (v : Op) (j : Nat) : (s.setOp k v).part j = s.part j := rfl
@[simp] theorem State.setOp_queue (s : State) (k : Nat) (v : Op) (j i : Nat) : (s.setOp k v).queue j i = s.queue j i := rfl
@[simp] theorem State.setOp_tick (s : State) (k : Nat) (v : Op) : (s.setOp k v).tick = s.tick := rfl
@[simp] theorem State.setOp_agenda (s : State) (k : Nat) (v : Op) : (s.setOp k v).agenda = s.agenda := rfl
@[simp] theorem State.setOp_freeCtr (s : State) (k : Nat) (v : Op) : (s.setOp k v).freeCtr = s.freeCtr := rfl
@[simp] theorem State.setOp_iss (s : State) (k : Nat) (v : Op) : (s.setOp k v).iss = s.iss := rfl
@[simp] theorem State.setOp_curFn (s : State) (k : Nat) (v : Op) : (s.setOp k v).curFn = s.curFn := rfl
@[simp] theorem State.setOp_curQueue (s : State) (k : Nat) (v : Op) : (s.setOp k v).curQueue = s.curQueue := rfl
@[simp] theorem State.setOp_nextId (s : State) (k : Nat) (v : Op) : (s.setOp k v).nextId = s.nextId := rfl
@[simp] theorem State.setOp_mem (s : State) (k : Nat) (v : Op) : (s.setOp k v).mem = s.mem := rfl
@[simp] theorem State.setOp_poison (s : State) (k : Nat) (v : Op) : (s.setOp k v).poison = s.poison := rfl
@[simp] theorem State.setOp_hostMem (s : State) (k : Nat) (v : Op) : (s.setOp k v).hostMem = s.hostMem := rfl
@[simp] theorem State.setOp_flash (s : State) (k : Nat) (v : Op) : (s.setOp k v).flash = s.flash := rfl
@[simp] theorem State.setOp_pend (s : State) (k : Nat) (v : Op) : (s.setOp k v).pend = s.pend := rfl
@[simp] theorem State.setOp_leaseEnd (s : State) (k : Nat) (v : Op) : (s.setOp k v).leaseEnd = s.leaseEnd := rfl
@[simp] theorem State.setOp_wrote (s : State) (k : Nat) (v : Op) : (s.setOp k v).wrote = s.wrote := rfl
@[simp] theorem State.setOp_leases (s : State) (k : Nat) (v : Op) : (s.setOp k v).leases = s.leases := rfl
@[simp] theorem State.setOp_sb (s : State) (k : Nat) (v : Op) : (s.setOp k v).sb = s.sb := rfl
@[simp] theorem State.setOp_acc (s : State) (k : Nat) (v : Op) : (s.setOp k v).acc = s.acc := rfl
@[simp] theorem State.setOp_groups (s : State) (k : Nat) (v : Op) : (s.setOp k v).groups = s.groups := rfl
@[simp] theorem State.setOp_teams (s : State) (k : Nat) (v : Op) : (s.setOp k v).teams = s.teams := rfl
@[simp] theorem State.setOp_clusters (s : State) (k : Nat) (v : Op) : (s.setOp k v).clusters = s.clusters := rfl
@[simp] theorem State.setOp_launches (s : State) (k : Nat) (v : Op) : (s.setOp k v).launches = s.launches := rfl
@[simp] theorem State.setOp_cores (s : State) (k : Nat) (v : Op) : (s.setOp k v).cores = s.cores := rfl
@[simp] theorem State.setOp_dies (s : State) (k : Nat) (v : Op) : (s.setOp k v).dies = s.dies := rfl
@[simp] theorem State.setOp_bonds (s : State) (k : Nat) (v : Op) : (s.setOp k v).bonds = s.bonds := rfl
@[simp] theorem State.setOp_tlb (s : State) (k : Nat) (v : Op) : (s.setOp k v).tlb = s.tlb := rfl
@[simp] theorem State.setOp_pri (s : State) (k : Nat) (v : Op) : (s.setOp k v).pri = s.pri := rfl
@[simp] theorem State.setOp_fns (s : State) (k : Nat) (v : Op) : (s.setOp k v).fns = s.fns := rfl
@[simp] theorem State.setOp_queues (s : State) (k : Nat) (v : Op) : (s.setOp k v).queues = s.queues := rfl
@[simp] theorem State.setOp_hfq (s : State) (k : Nat) (v : Op) : (s.setOp k v).hfq = s.hfq := rfl
@[simp] theorem State.setOp_parts (s : State) (k : Nat) (v : Op) : (s.setOp k v).parts = s.parts := rfl
@[simp] theorem State.setOp_frames (s : State) (k : Nat) (v : Op) : (s.setOp k v).frames = s.frames := rfl
@[simp] theorem State.setOp_exports (s : State) (k : Nat) (v : Op) : (s.setOp k v).exports = s.exports := rfl
@[simp] theorem State.setOp_imports (s : State) (k : Nat) (v : Op) : (s.setOp k v).imports = s.imports := rfl
@[simp] theorem State.setOp_nextSerial (s : State) (k : Nat) (v : Op) : (s.setOp k v).nextSerial = s.nextSerial := rfl
@[simp] theorem State.setOp_pctBase (s : State) (k : Nat) (v : Op) : (s.setOp k v).pctBase = s.pctBase := rfl
@[simp] theorem State.setOp_pcarg0 (s : State) (k : Nat) (v : Op) : (s.setOp k v).pcarg0 = s.pcarg0 := rfl
@[simp] theorem State.setOp_pcarg1 (s : State) (k : Nat) (v : Op) : (s.setOp k v).pcarg1 = s.pcarg1 := rfl
@[simp] theorem State.setOp_pcarg2 (s : State) (k : Nat) (v : Op) : (s.setOp k v).pcarg2 = s.pcarg2 := rfl
@[simp] theorem State.setOp_pcBusy (s : State) (k : Nat) (v : Op) : (s.setOp k v).pcBusy = s.pcBusy := rfl
@[simp] theorem State.setOp_pcOp (s : State) (k : Nat) (v : Op) : (s.setOp k v).pcOp = s.pcOp := rfl
@[simp] theorem State.setOp_pcPart (s : State) (k : Nat) (v : Op) : (s.setOp k v).pcPart = s.pcPart := rfl
@[simp] theorem State.setOp_pcStage (s : State) (k : Nat) (v : Op) : (s.setOp k v).pcStage = s.pcStage := rfl
@[simp] theorem State.setOp_pcResult (s : State) (k : Nat) (v : Op) : (s.setOp k v).pcResult = s.pcResult := rfl
@[simp] theorem State.setOp_hostPart (s : State) (k : Nat) (v : Op) : (s.setOp k v).hostPart = s.hostPart := rfl
@[simp] theorem State.setOp_lichenReg (s : State) (k : Nat) (v : Op) : (s.setOp k v).lichenReg = s.lichenReg := rfl
@[simp] theorem State.setOp_s2sel (s : State) (k : Nat) (v : Op) : (s.setOp k v).s2sel = s.s2sel := rfl
@[simp] theorem State.setOp_hs1root (s : State) (k : Nat) (v : Op) : (s.setOp k v).hs1root = s.hs1root := rfl
@[simp] theorem State.setOp_usNext (s : State) (k : Nat) (v : Op) : (s.setOp k v).usNext = s.usNext := rfl
@[simp] theorem State.setOp_mig (s : State) (k : Nat) (v : Op) : (s.setOp k v).mig = s.mig := rfl
@[simp] theorem State.setOp_ras (s : State) (k : Nat) (v : Op) : (s.setOp k v).ras = s.ras := rfl
@[simp] theorem State.setOp_ports (s : State) (k : Nat) (v : Op) : (s.setOp k v).ports = s.ports := rfl
@[simp] theorem State.setOp_nextKey (s : State) (k : Nat) (v : Op) : (s.setOp k v).nextKey = s.nextKey := rfl

/-! ### setFn -/

@[simp] theorem State.modFn_eq (s : State) (k : Nat) (f : FnRec → FnRec) : s.modFn k f = s.setFn k (f (s.fn k)) := rfl
@[simp] theorem State.setFn_fn_same (s : State) (k : Nat) (v : FnRec) : (s.setFn k v).fn k = v := by simp [State.setFn, State.fn]
theorem State.setFn_fn (s : State) (k j : Nat) (v : FnRec) : (s.setFn k v).fn j = if j = k then v else s.fn j := by
  simp [State.setFn, State.fn, FMap.get_set]
@[simp] theorem State.setFn_grp (s : State) (k : Nat) (v : FnRec) (j : Nat) : (s.setFn k v).grp j = s.grp j := rfl
@[simp] theorem State.setFn_team (s : State) (k : Nat) (v : FnRec) (j : Nat) : (s.setFn k v).team j = s.team j := rfl
@[simp] theorem State.setFn_cluster (s : State) (k : Nat) (v : FnRec) (j : Nat) : (s.setFn k v).cluster j = s.cluster j := rfl
@[simp] theorem State.setFn_launch (s : State) (k : Nat) (v : FnRec) (j : Nat) : (s.setFn k v).launch j = s.launch j := rfl
@[simp] theorem State.setFn_coreRec (s : State) (k : Nat) (v : FnRec) (j : Nat) : (s.setFn k v).coreRec j = s.coreRec j := rfl
@[simp] theorem State.setFn_die (s : State) (k : Nat) (v : FnRec) (j : Nat) : (s.setFn k v).die j = s.die j := rfl
@[simp] theorem State.setFn_op (s : State) (k : Nat) (v : FnRec) (j : Nat) : (s.setFn k v).op j = s.op j := rfl
@[simp] theorem State.setFn_part (s : State) (k : Nat) (v : FnRec) (j : Nat) : (s.setFn k v).part j = s.part j := rfl
@[simp] theorem State.setFn_queue (s : State) (k : Nat) (v : FnRec) (j i : Nat) : (s.setFn k v).queue j i = s.queue j i := rfl
@[simp] theorem State.setFn_tick (s : State) (k : Nat) (v : FnRec) : (s.setFn k v).tick = s.tick := rfl
@[simp] theorem State.setFn_agenda (s : State) (k : Nat) (v : FnRec) : (s.setFn k v).agenda = s.agenda := rfl
@[simp] theorem State.setFn_freeCtr (s : State) (k : Nat) (v : FnRec) : (s.setFn k v).freeCtr = s.freeCtr := rfl
@[simp] theorem State.setFn_iss (s : State) (k : Nat) (v : FnRec) : (s.setFn k v).iss = s.iss := rfl
@[simp] theorem State.setFn_curFn (s : State) (k : Nat) (v : FnRec) : (s.setFn k v).curFn = s.curFn := rfl
@[simp] theorem State.setFn_curQueue (s : State) (k : Nat) (v : FnRec) : (s.setFn k v).curQueue = s.curQueue := rfl
@[simp] theorem State.setFn_nextId (s : State) (k : Nat) (v : FnRec) : (s.setFn k v).nextId = s.nextId := rfl
@[simp] theorem State.setFn_mem (s : State) (k : Nat) (v : FnRec) : (s.setFn k v).mem = s.mem := rfl
@[simp] theorem State.setFn_poison (s : State) (k : Nat) (v : FnRec) : (s.setFn k v).poison = s.poison := rfl
@[simp] theorem State.setFn_hostMem (s : State) (k : Nat) (v : FnRec) : (s.setFn k v).hostMem = s.hostMem := rfl
@[simp] theorem State.setFn_flash (s : State) (k : Nat) (v : FnRec) : (s.setFn k v).flash = s.flash := rfl
@[simp] theorem State.setFn_pend (s : State) (k : Nat) (v : FnRec) : (s.setFn k v).pend = s.pend := rfl
@[simp] theorem State.setFn_leaseEnd (s : State) (k : Nat) (v : FnRec) : (s.setFn k v).leaseEnd = s.leaseEnd := rfl
@[simp] theorem State.setFn_wrote (s : State) (k : Nat) (v : FnRec) : (s.setFn k v).wrote = s.wrote := rfl
@[simp] theorem State.setFn_leases (s : State) (k : Nat) (v : FnRec) : (s.setFn k v).leases = s.leases := rfl
@[simp] theorem State.setFn_sb (s : State) (k : Nat) (v : FnRec) : (s.setFn k v).sb = s.sb := rfl
@[simp] theorem State.setFn_acc (s : State) (k : Nat) (v : FnRec) : (s.setFn k v).acc = s.acc := rfl
@[simp] theorem State.setFn_ops (s : State) (k : Nat) (v : FnRec) : (s.setFn k v).ops = s.ops := rfl
@[simp] theorem State.setFn_groups (s : State) (k : Nat) (v : FnRec) : (s.setFn k v).groups = s.groups := rfl
@[simp] theorem State.setFn_teams (s : State) (k : Nat) (v : FnRec) : (s.setFn k v).teams = s.teams := rfl
@[simp] theorem State.setFn_clusters (s : State) (k : Nat) (v : FnRec) : (s.setFn k v).clusters = s.clusters := rfl
@[simp] theorem State.setFn_launches (s : State) (k : Nat) (v : FnRec) : (s.setFn k v).launches = s.launches := rfl
@[simp] theorem State.setFn_cores (s : State) (k : Nat) (v : FnRec) : (s.setFn k v).cores = s.cores := rfl
@[simp] theorem State.setFn_dies (s : State) (k : Nat) (v : FnRec) : (s.setFn k v).dies = s.dies := rfl
@[simp] theorem State.setFn_bonds (s : State) (k : Nat) (v : FnRec) : (s.setFn k v).bonds = s.bonds := rfl
@[simp] theorem State.setFn_tlb (s : State) (k : Nat) (v : FnRec) : (s.setFn k v).tlb = s.tlb := rfl
@[simp] theorem State.setFn_pri (s : State) (k : Nat) (v : FnRec) : (s.setFn k v).pri = s.pri := rfl
@[simp] theorem State.setFn_queues (s : State) (k : Nat) (v : FnRec) : (s.setFn k v).queues = s.queues := rfl
@[simp] theorem State.setFn_hfq (s : State) (k : Nat) (v : FnRec) : (s.setFn k v).hfq = s.hfq := rfl
@[simp] theorem State.setFn_parts (s : State) (k : Nat) (v : FnRec) : (s.setFn k v).parts = s.parts := rfl
@[simp] theorem State.setFn_frames (s : State) (k : Nat) (v : FnRec) : (s.setFn k v).frames = s.frames := rfl
@[simp] theorem State.setFn_exports (s : State) (k : Nat) (v : FnRec) : (s.setFn k v).exports = s.exports := rfl
@[simp] theorem State.setFn_imports (s : State) (k : Nat) (v : FnRec) : (s.setFn k v).imports = s.imports := rfl
@[simp] theorem State.setFn_nextSerial (s : State) (k : Nat) (v : FnRec) : (s.setFn k v).nextSerial = s.nextSerial := rfl
@[simp] theorem State.setFn_pctBase (s : State) (k : Nat) (v : FnRec) : (s.setFn k v).pctBase = s.pctBase := rfl
@[simp] theorem State.setFn_pcarg0 (s : State) (k : Nat) (v : FnRec) : (s.setFn k v).pcarg0 = s.pcarg0 := rfl
@[simp] theorem State.setFn_pcarg1 (s : State) (k : Nat) (v : FnRec) : (s.setFn k v).pcarg1 = s.pcarg1 := rfl
@[simp] theorem State.setFn_pcarg2 (s : State) (k : Nat) (v : FnRec) : (s.setFn k v).pcarg2 = s.pcarg2 := rfl
@[simp] theorem State.setFn_pcBusy (s : State) (k : Nat) (v : FnRec) : (s.setFn k v).pcBusy = s.pcBusy := rfl
@[simp] theorem State.setFn_pcOp (s : State) (k : Nat) (v : FnRec) : (s.setFn k v).pcOp = s.pcOp := rfl
@[simp] theorem State.setFn_pcPart (s : State) (k : Nat) (v : FnRec) : (s.setFn k v).pcPart = s.pcPart := rfl
@[simp] theorem State.setFn_pcStage (s : State) (k : Nat) (v : FnRec) : (s.setFn k v).pcStage = s.pcStage := rfl
@[simp] theorem State.setFn_pcResult (s : State) (k : Nat) (v : FnRec) : (s.setFn k v).pcResult = s.pcResult := rfl
@[simp] theorem State.setFn_hostPart (s : State) (k : Nat) (v : FnRec) : (s.setFn k v).hostPart = s.hostPart := rfl
@[simp] theorem State.setFn_lichenReg (s : State) (k : Nat) (v : FnRec) : (s.setFn k v).lichenReg = s.lichenReg := rfl
@[simp] theorem State.setFn_s2sel (s : State) (k : Nat) (v : FnRec) : (s.setFn k v).s2sel = s.s2sel := rfl
@[simp] theorem State.setFn_hs1root (s : State) (k : Nat) (v : FnRec) : (s.setFn k v).hs1root = s.hs1root := rfl
@[simp] theorem State.setFn_usNext (s : State) (k : Nat) (v : FnRec) : (s.setFn k v).usNext = s.usNext := rfl
@[simp] theorem State.setFn_mig (s : State) (k : Nat) (v : FnRec) : (s.setFn k v).mig = s.mig := rfl
@[simp] theorem State.setFn_ras (s : State) (k : Nat) (v : FnRec) : (s.setFn k v).ras = s.ras := rfl
@[simp] theorem State.setFn_ports (s : State) (k : Nat) (v : FnRec) : (s.setFn k v).ports = s.ports := rfl
@[simp] theorem State.setFn_nextKey (s : State) (k : Nat) (v : FnRec) : (s.setFn k v).nextKey = s.nextKey := rfl

/-! ### setPart -/

@[simp] theorem State.modPart_eq (s : State) (k : Nat) (f : Part → Part) : s.modPart k f = s.setPart k (f (s.part k)) := rfl
@[simp] theorem State.setPart_part_same (s : State) (k : Nat) (v : Part) : (s.setPart k v).part k = v := by simp [State.setPart, State.part]
theorem State.setPart_part (s : State) (k j : Nat) (v : Part) : (s.setPart k v).part j = if j = k then v else s.part j := by
  simp [State.setPart, State.part, FMap.get_set]
@[simp] theorem State.setPart_grp (s : State) (k : Nat) (v : Part) (j : Nat) : (s.setPart k v).grp j = s.grp j := rfl
@[simp] theorem State.setPart_team (s : State) (k : Nat) (v : Part) (j : Nat) : (s.setPart k v).team j = s.team j := rfl
@[simp] theorem State.setPart_cluster (s : State) (k : Nat) (v : Part) (j : Nat) : (s.setPart k v).cluster j = s.cluster j := rfl
@[simp] theorem State.setPart_launch (s : State) (k : Nat) (v : Part) (j : Nat) : (s.setPart k v).launch j = s.launch j := rfl
@[simp] theorem State.setPart_coreRec (s : State) (k : Nat) (v : Part) (j : Nat) : (s.setPart k v).coreRec j = s.coreRec j := rfl
@[simp] theorem State.setPart_die (s : State) (k : Nat) (v : Part) (j : Nat) : (s.setPart k v).die j = s.die j := rfl
@[simp] theorem State.setPart_op (s : State) (k : Nat) (v : Part) (j : Nat) : (s.setPart k v).op j = s.op j := rfl
@[simp] theorem State.setPart_fn (s : State) (k : Nat) (v : Part) (j : Nat) : (s.setPart k v).fn j = s.fn j := rfl
@[simp] theorem State.setPart_queue (s : State) (k : Nat) (v : Part) (j i : Nat) : (s.setPart k v).queue j i = s.queue j i := rfl
@[simp] theorem State.setPart_tick (s : State) (k : Nat) (v : Part) : (s.setPart k v).tick = s.tick := rfl
@[simp] theorem State.setPart_agenda (s : State) (k : Nat) (v : Part) : (s.setPart k v).agenda = s.agenda := rfl
@[simp] theorem State.setPart_freeCtr (s : State) (k : Nat) (v : Part) : (s.setPart k v).freeCtr = s.freeCtr := rfl
@[simp] theorem State.setPart_iss (s : State) (k : Nat) (v : Part) : (s.setPart k v).iss = s.iss := rfl
@[simp] theorem State.setPart_curFn (s : State) (k : Nat) (v : Part) : (s.setPart k v).curFn = s.curFn := rfl
@[simp] theorem State.setPart_curQueue (s : State) (k : Nat) (v : Part) : (s.setPart k v).curQueue = s.curQueue := rfl
@[simp] theorem State.setPart_nextId (s : State) (k : Nat) (v : Part) : (s.setPart k v).nextId = s.nextId := rfl
@[simp] theorem State.setPart_mem (s : State) (k : Nat) (v : Part) : (s.setPart k v).mem = s.mem := rfl
@[simp] theorem State.setPart_poison (s : State) (k : Nat) (v : Part) : (s.setPart k v).poison = s.poison := rfl
@[simp] theorem State.setPart_hostMem (s : State) (k : Nat) (v : Part) : (s.setPart k v).hostMem = s.hostMem := rfl
@[simp] theorem State.setPart_flash (s : State) (k : Nat) (v : Part) : (s.setPart k v).flash = s.flash := rfl
@[simp] theorem State.setPart_pend (s : State) (k : Nat) (v : Part) : (s.setPart k v).pend = s.pend := rfl
@[simp] theorem State.setPart_leaseEnd (s : State) (k : Nat) (v : Part) : (s.setPart k v).leaseEnd = s.leaseEnd := rfl
@[simp] theorem State.setPart_wrote (s : State) (k : Nat) (v : Part) : (s.setPart k v).wrote = s.wrote := rfl
@[simp] theorem State.setPart_leases (s : State) (k : Nat) (v : Part) : (s.setPart k v).leases = s.leases := rfl
@[simp] theorem State.setPart_sb (s : State) (k : Nat) (v : Part) : (s.setPart k v).sb = s.sb := rfl
@[simp] theorem State.setPart_acc (s : State) (k : Nat) (v : Part) : (s.setPart k v).acc = s.acc := rfl
@[simp] theorem State.setPart_ops (s : State) (k : Nat) (v : Part) : (s.setPart k v).ops = s.ops := rfl
@[simp] theorem State.setPart_groups (s : State) (k : Nat) (v : Part) : (s.setPart k v).groups = s.groups := rfl
@[simp] theorem State.setPart_teams (s : State) (k : Nat) (v : Part) : (s.setPart k v).teams = s.teams := rfl
@[simp] theorem State.setPart_clusters (s : State) (k : Nat) (v : Part) : (s.setPart k v).clusters = s.clusters := rfl
@[simp] theorem State.setPart_launches (s : State) (k : Nat) (v : Part) : (s.setPart k v).launches = s.launches := rfl
@[simp] theorem State.setPart_cores (s : State) (k : Nat) (v : Part) : (s.setPart k v).cores = s.cores := rfl
@[simp] theorem State.setPart_dies (s : State) (k : Nat) (v : Part) : (s.setPart k v).dies = s.dies := rfl
@[simp] theorem State.setPart_bonds (s : State) (k : Nat) (v : Part) : (s.setPart k v).bonds = s.bonds := rfl
@[simp] theorem State.setPart_tlb (s : State) (k : Nat) (v : Part) : (s.setPart k v).tlb = s.tlb := rfl
@[simp] theorem State.setPart_pri (s : State) (k : Nat) (v : Part) : (s.setPart k v).pri = s.pri := rfl
@[simp] theorem State.setPart_fns (s : State) (k : Nat) (v : Part) : (s.setPart k v).fns = s.fns := rfl
@[simp] theorem State.setPart_queues (s : State) (k : Nat) (v : Part) : (s.setPart k v).queues = s.queues := rfl
@[simp] theorem State.setPart_hfq (s : State) (k : Nat) (v : Part) : (s.setPart k v).hfq = s.hfq := rfl
@[simp] theorem State.setPart_frames (s : State) (k : Nat) (v : Part) : (s.setPart k v).frames = s.frames := rfl
@[simp] theorem State.setPart_exports (s : State) (k : Nat) (v : Part) : (s.setPart k v).exports = s.exports := rfl
@[simp] theorem State.setPart_imports (s : State) (k : Nat) (v : Part) : (s.setPart k v).imports = s.imports := rfl
@[simp] theorem State.setPart_nextSerial (s : State) (k : Nat) (v : Part) : (s.setPart k v).nextSerial = s.nextSerial := rfl
@[simp] theorem State.setPart_pctBase (s : State) (k : Nat) (v : Part) : (s.setPart k v).pctBase = s.pctBase := rfl
@[simp] theorem State.setPart_pcarg0 (s : State) (k : Nat) (v : Part) : (s.setPart k v).pcarg0 = s.pcarg0 := rfl
@[simp] theorem State.setPart_pcarg1 (s : State) (k : Nat) (v : Part) : (s.setPart k v).pcarg1 = s.pcarg1 := rfl
@[simp] theorem State.setPart_pcarg2 (s : State) (k : Nat) (v : Part) : (s.setPart k v).pcarg2 = s.pcarg2 := rfl
@[simp] theorem State.setPart_pcBusy (s : State) (k : Nat) (v : Part) : (s.setPart k v).pcBusy = s.pcBusy := rfl
@[simp] theorem State.setPart_pcOp (s : State) (k : Nat) (v : Part) : (s.setPart k v).pcOp = s.pcOp := rfl
@[simp] theorem State.setPart_pcPart (s : State) (k : Nat) (v : Part) : (s.setPart k v).pcPart = s.pcPart := rfl
@[simp] theorem State.setPart_pcStage (s : State) (k : Nat) (v : Part) : (s.setPart k v).pcStage = s.pcStage := rfl
@[simp] theorem State.setPart_pcResult (s : State) (k : Nat) (v : Part) : (s.setPart k v).pcResult = s.pcResult := rfl
@[simp] theorem State.setPart_hostPart (s : State) (k : Nat) (v : Part) : (s.setPart k v).hostPart = s.hostPart := rfl
@[simp] theorem State.setPart_lichenReg (s : State) (k : Nat) (v : Part) : (s.setPart k v).lichenReg = s.lichenReg := rfl
@[simp] theorem State.setPart_s2sel (s : State) (k : Nat) (v : Part) : (s.setPart k v).s2sel = s.s2sel := rfl
@[simp] theorem State.setPart_hs1root (s : State) (k : Nat) (v : Part) : (s.setPart k v).hs1root = s.hs1root := rfl
@[simp] theorem State.setPart_usNext (s : State) (k : Nat) (v : Part) : (s.setPart k v).usNext = s.usNext := rfl
@[simp] theorem State.setPart_mig (s : State) (k : Nat) (v : Part) : (s.setPart k v).mig = s.mig := rfl
@[simp] theorem State.setPart_ras (s : State) (k : Nat) (v : Part) : (s.setPart k v).ras = s.ras := rfl
@[simp] theorem State.setPart_ports (s : State) (k : Nat) (v : Part) : (s.setPart k v).ports = s.ports := rfl
@[simp] theorem State.setPart_nextKey (s : State) (k : Nat) (v : Part) : (s.setPart k v).nextKey = s.nextKey := rfl

/-! ### setQueue -/

@[simp] theorem State.modQueue_eq (s : State) (k q : Nat) (f : Queue → Queue) : s.modQueue k q f = s.setQueue k q (f (s.queue k q)) := rfl
@[simp] theorem State.setQueue_queue_same (s : State) (k q : Nat) (v : Queue) : (s.setQueue k q v).queue k q = v := by simp [State.setQueue, State.queue]
@[simp] theorem State.setQueue_grp (s : State) (k q : Nat) (v : Queue) (j : Nat) : (s.setQueue k q v).grp j = s.grp j := rfl
@[simp] theorem State.setQueue_team (s : State) (k q : Nat) (v : Queue) (j : Nat) : (s.setQueue k q v).team j = s.team j := rfl
@[simp] theorem State.setQueue_cluster (s : State) (k q : Nat) (v : Queue) (j : Nat) : (s.setQueue k q v).cluster j = s.cluster j := rfl
@[simp] theorem State.setQueue_launch (s : State) (k q : Nat) (v : Queue) (j : Nat) : (s.setQueue k q v).launch j = s.launch j := rfl
@[simp] theorem State.setQueue_coreRec (s : State) (k q : Nat) (v : Queue) (j : Nat) : (s.setQueue k q v).coreRec j = s.coreRec j := rfl
@[simp] theorem State.setQueue_die (s : State) (k q : Nat) (v : Queue) (j : Nat) : (s.setQueue k q v).die j = s.die j := rfl
@[simp] theorem State.setQueue_op (s : State) (k q : Nat) (v : Queue) (j : Nat) : (s.setQueue k q v).op j = s.op j := rfl
@[simp] theorem State.setQueue_fn (s : State) (k q : Nat) (v : Queue) (j : Nat) : (s.setQueue k q v).fn j = s.fn j := rfl
@[simp] theorem State.setQueue_part (s : State) (k q : Nat) (v : Queue) (j : Nat) : (s.setQueue k q v).part j = s.part j := rfl
@[simp] theorem State.setQueue_tick (s : State) (k q : Nat) (v : Queue) : (s.setQueue k q v).tick = s.tick := rfl
@[simp] theorem State.setQueue_agenda (s : State) (k q : Nat) (v : Queue) : (s.setQueue k q v).agenda = s.agenda := rfl
@[simp] theorem State.setQueue_freeCtr (s : State) (k q : Nat) (v : Queue) : (s.setQueue k q v).freeCtr = s.freeCtr := rfl
@[simp] theorem State.setQueue_iss (s : State) (k q : Nat) (v : Queue) : (s.setQueue k q v).iss = s.iss := rfl
@[simp] theorem State.setQueue_curFn (s : State) (k q : Nat) (v : Queue) : (s.setQueue k q v).curFn = s.curFn := rfl
@[simp] theorem State.setQueue_curQueue (s : State) (k q : Nat) (v : Queue) : (s.setQueue k q v).curQueue = s.curQueue := rfl
@[simp] theorem State.setQueue_nextId (s : State) (k q : Nat) (v : Queue) : (s.setQueue k q v).nextId = s.nextId := rfl
@[simp] theorem State.setQueue_mem (s : State) (k q : Nat) (v : Queue) : (s.setQueue k q v).mem = s.mem := rfl
@[simp] theorem State.setQueue_poison (s : State) (k q : Nat) (v : Queue) : (s.setQueue k q v).poison = s.poison := rfl
@[simp] theorem State.setQueue_hostMem (s : State) (k q : Nat) (v : Queue) : (s.setQueue k q v).hostMem = s.hostMem := rfl
@[simp] theorem State.setQueue_flash (s : State) (k q : Nat) (v : Queue) : (s.setQueue k q v).flash = s.flash := rfl
@[simp] theorem State.setQueue_pend (s : State) (k q : Nat) (v : Queue) : (s.setQueue k q v).pend = s.pend := rfl
@[simp] theorem State.setQueue_leaseEnd (s : State) (k q : Nat) (v : Queue) : (s.setQueue k q v).leaseEnd = s.leaseEnd := rfl
@[simp] theorem State.setQueue_wrote (s : State) (k q : Nat) (v : Queue) : (s.setQueue k q v).wrote = s.wrote := rfl
@[simp] theorem State.setQueue_leases (s : State) (k q : Nat) (v : Queue) : (s.setQueue k q v).leases = s.leases := rfl
@[simp] theorem State.setQueue_sb (s : State) (k q : Nat) (v : Queue) : (s.setQueue k q v).sb = s.sb := rfl
@[simp] theorem State.setQueue_acc (s : State) (k q : Nat) (v : Queue) : (s.setQueue k q v).acc = s.acc := rfl
@[simp] theorem State.setQueue_ops (s : State) (k q : Nat) (v : Queue) : (s.setQueue k q v).ops = s.ops := rfl
@[simp] theorem State.setQueue_groups (s : State) (k q : Nat) (v : Queue) : (s.setQueue k q v).groups = s.groups := rfl
@[simp] theorem State.setQueue_teams (s : State) (k q : Nat) (v : Queue) : (s.setQueue k q v).teams = s.teams := rfl
@[simp] theorem State.setQueue_clusters (s : State) (k q : Nat) (v : Queue) : (s.setQueue k q v).clusters = s.clusters := rfl
@[simp] theorem State.setQueue_launches (s : State) (k q : Nat) (v : Queue) : (s.setQueue k q v).launches = s.launches := rfl
@[simp] theorem State.setQueue_cores (s : State) (k q : Nat) (v : Queue) : (s.setQueue k q v).cores = s.cores := rfl
@[simp] theorem State.setQueue_dies (s : State) (k q : Nat) (v : Queue) : (s.setQueue k q v).dies = s.dies := rfl
@[simp] theorem State.setQueue_bonds (s : State) (k q : Nat) (v : Queue) : (s.setQueue k q v).bonds = s.bonds := rfl
@[simp] theorem State.setQueue_tlb (s : State) (k q : Nat) (v : Queue) : (s.setQueue k q v).tlb = s.tlb := rfl
@[simp] theorem State.setQueue_pri (s : State) (k q : Nat) (v : Queue) : (s.setQueue k q v).pri = s.pri := rfl
@[simp] theorem State.setQueue_fns (s : State) (k q : Nat) (v : Queue) : (s.setQueue k q v).fns = s.fns := rfl
@[simp] theorem State.setQueue_hfq (s : State) (k q : Nat) (v : Queue) : (s.setQueue k q v).hfq = s.hfq := rfl
@[simp] theorem State.setQueue_parts (s : State) (k q : Nat) (v : Queue) : (s.setQueue k q v).parts = s.parts := rfl
@[simp] theorem State.setQueue_frames (s : State) (k q : Nat) (v : Queue) : (s.setQueue k q v).frames = s.frames := rfl
@[simp] theorem State.setQueue_exports (s : State) (k q : Nat) (v : Queue) : (s.setQueue k q v).exports = s.exports := rfl
@[simp] theorem State.setQueue_imports (s : State) (k q : Nat) (v : Queue) : (s.setQueue k q v).imports = s.imports := rfl
@[simp] theorem State.setQueue_nextSerial (s : State) (k q : Nat) (v : Queue) : (s.setQueue k q v).nextSerial = s.nextSerial := rfl
@[simp] theorem State.setQueue_pctBase (s : State) (k q : Nat) (v : Queue) : (s.setQueue k q v).pctBase = s.pctBase := rfl
@[simp] theorem State.setQueue_pcarg0 (s : State) (k q : Nat) (v : Queue) : (s.setQueue k q v).pcarg0 = s.pcarg0 := rfl
@[simp] theorem State.setQueue_pcarg1 (s : State) (k q : Nat) (v : Queue) : (s.setQueue k q v).pcarg1 = s.pcarg1 := rfl
@[simp] theorem State.setQueue_pcarg2 (s : State) (k q : Nat) (v : Queue) : (s.setQueue k q v).pcarg2 = s.pcarg2 := rfl
@[simp] theorem State.setQueue_pcBusy (s : State) (k q : Nat) (v : Queue) : (s.setQueue k q v).pcBusy = s.pcBusy := rfl
@[simp] theorem State.setQueue_pcOp (s : State) (k q : Nat) (v : Queue) : (s.setQueue k q v).pcOp = s.pcOp := rfl
@[simp] theorem State.setQueue_pcPart (s : State) (k q : Nat) (v : Queue) : (s.setQueue k q v).pcPart = s.pcPart := rfl
@[simp] theorem State.setQueue_pcStage (s : State) (k q : Nat) (v : Queue) : (s.setQueue k q v).pcStage = s.pcStage := rfl
@[simp] theorem State.setQueue_pcResult (s : State) (k q : Nat) (v : Queue) : (s.setQueue k q v).pcResult = s.pcResult := rfl
@[simp] theorem State.setQueue_hostPart (s : State) (k q : Nat) (v : Queue) : (s.setQueue k q v).hostPart = s.hostPart := rfl
@[simp] theorem State.setQueue_lichenReg (s : State) (k q : Nat) (v : Queue) : (s.setQueue k q v).lichenReg = s.lichenReg := rfl
@[simp] theorem State.setQueue_s2sel (s : State) (k q : Nat) (v : Queue) : (s.setQueue k q v).s2sel = s.s2sel := rfl
@[simp] theorem State.setQueue_hs1root (s : State) (k q : Nat) (v : Queue) : (s.setQueue k q v).hs1root = s.hs1root := rfl
@[simp] theorem State.setQueue_usNext (s : State) (k q : Nat) (v : Queue) : (s.setQueue k q v).usNext = s.usNext := rfl
@[simp] theorem State.setQueue_mig (s : State) (k q : Nat) (v : Queue) : (s.setQueue k q v).mig = s.mig := rfl
@[simp] theorem State.setQueue_ras (s : State) (k q : Nat) (v : Queue) : (s.setQueue k q v).ras = s.ras := rfl
@[simp] theorem State.setQueue_ports (s : State) (k q : Nat) (v : Queue) : (s.setQueue k q v).ports = s.ports := rfl
@[simp] theorem State.setQueue_nextKey (s : State) (k q : Nat) (v : Queue) : (s.setQueue k q v).nextKey = s.nextKey := rfl

/-! ### fresh -/

@[simp] theorem State.fresh_grp (s : State) (j : Nat) : (s.fresh.2).grp j = s.grp j := rfl
@[simp] theorem State.fresh_team (s : State) (j : Nat) : (s.fresh.2).team j = s.team j := rfl
@[simp] theorem State.fresh_cluster (s : State) (j : Nat) : (s.fresh.2).cluster j = s.cluster j := rfl
@[simp] theorem State.fresh_launch (s : State) (j : Nat) : (s.fresh.2).launch j = s.launch j := rfl
@[simp] theorem State.fresh_coreRec (s : State) (j : Nat) : (s.fresh.2).coreRec j = s.coreRec j := rfl
@[simp] theorem State.fresh_die (s : State) (j : Nat) : (s.fresh.2).die j = s.die j := rfl
@[simp] theorem State.fresh_op (s : State) (j : Nat) : (s.fresh.2).op j = s.op j := rfl
@[simp] theorem State.fresh_fn (s : State) (j : Nat) : (s.fresh.2).fn j = s.fn j := rfl
@[simp] theorem State.fresh_part (s : State) (j : Nat) : (s.fresh.2).part j = s.part j := rfl
@[simp] theorem State.fresh_queue (s : State) (j i : Nat) : (s.fresh.2).queue j i = s.queue j i := rfl
@[simp] theorem State.fresh_tick (s : State) : (s.fresh.2).tick = s.tick := rfl
@[simp] theorem State.fresh_agenda (s : State) : (s.fresh.2).agenda = s.agenda := rfl
@[simp] theorem State.fresh_freeCtr (s : State) : (s.fresh.2).freeCtr = s.freeCtr := rfl
@[simp] theorem State.fresh_iss (s : State) : (s.fresh.2).iss = s.iss := rfl
@[simp] theorem State.fresh_curFn (s : State) : (s.fresh.2).curFn = s.curFn := rfl
@[simp] theorem State.fresh_curQueue (s : State) : (s.fresh.2).curQueue = s.curQueue := rfl
@[simp] theorem State.fresh_mem (s : State) : (s.fresh.2).mem = s.mem := rfl
@[simp] theorem State.fresh_poison (s : State) : (s.fresh.2).poison = s.poison := rfl
@[simp] theorem State.fresh_hostMem (s : State) : (s.fresh.2).hostMem = s.hostMem := rfl
@[simp] theorem State.fresh_flash (s : State) : (s.fresh.2).flash = s.flash := rfl
@[simp] theorem State.fresh_pend (s : State) : (s.fresh.2).pend = s.pend := rfl
@[simp] theorem State.fresh_leaseEnd (s : State) : (s.fresh.2).leaseEnd = s.leaseEnd := rfl
@[simp] theorem State.fresh_wrote (s : State) : (s.fresh.2).wrote = s.wrote := rfl
@[simp] theorem State.fresh_leases (s : State) : (s.fresh.2).leases = s.leases := rfl
@[simp] theorem State.fresh_sb (s : State) : (s.fresh.2).sb = s.sb := rfl
@[simp] theorem State.fresh_acc (s : State) : (s.fresh.2).acc = s.acc := rfl
@[simp] theorem State.fresh_ops (s : State) : (s.fresh.2).ops = s.ops := rfl
@[simp] theorem State.fresh_groups (s : State) : (s.fresh.2).groups = s.groups := rfl
@[simp] theorem State.fresh_teams (s : State) : (s.fresh.2).teams = s.teams := rfl
@[simp] theorem State.fresh_clusters (s : State) : (s.fresh.2).clusters = s.clusters := rfl
@[simp] theorem State.fresh_launches (s : State) : (s.fresh.2).launches = s.launches := rfl
@[simp] theorem State.fresh_cores (s : State) : (s.fresh.2).cores = s.cores := rfl
@[simp] theorem State.fresh_dies (s : State) : (s.fresh.2).dies = s.dies := rfl
@[simp] theorem State.fresh_bonds (s : State) : (s.fresh.2).bonds = s.bonds := rfl
@[simp] theorem State.fresh_tlb (s : State) : (s.fresh.2).tlb = s.tlb := rfl
@[simp] theorem State.fresh_pri (s : State) : (s.fresh.2).pri = s.pri := rfl
@[simp] theorem State.fresh_fns (s : State) : (s.fresh.2).fns = s.fns := rfl
@[simp] theorem State.fresh_queues (s : State) : (s.fresh.2).queues = s.queues := rfl
@[simp] theorem State.fresh_hfq (s : State) : (s.fresh.2).hfq = s.hfq := rfl
@[simp] theorem State.fresh_parts (s : State) : (s.fresh.2).parts = s.parts := rfl
@[simp] theorem State.fresh_frames (s : State) : (s.fresh.2).frames = s.frames := rfl
@[simp] theorem State.fresh_exports (s : State) : (s.fresh.2).exports = s.exports := rfl
@[simp] theorem State.fresh_imports (s : State) : (s.fresh.2).imports = s.imports := rfl
@[simp] theorem State.fresh_nextSerial (s : State) : (s.fresh.2).nextSerial = s.nextSerial := rfl
@[simp] theorem State.fresh_pctBase (s : State) : (s.fresh.2).pctBase = s.pctBase := rfl
@[simp] theorem State.fresh_pcarg0 (s : State) : (s.fresh.2).pcarg0 = s.pcarg0 := rfl
@[simp] theorem State.fresh_pcarg1 (s : State) : (s.fresh.2).pcarg1 = s.pcarg1 := rfl
@[simp] theorem State.fresh_pcarg2 (s : State) : (s.fresh.2).pcarg2 = s.pcarg2 := rfl
@[simp] theorem State.fresh_pcBusy (s : State) : (s.fresh.2).pcBusy = s.pcBusy := rfl
@[simp] theorem State.fresh_pcOp (s : State) : (s.fresh.2).pcOp = s.pcOp := rfl
@[simp] theorem State.fresh_pcPart (s : State) : (s.fresh.2).pcPart = s.pcPart := rfl
@[simp] theorem State.fresh_pcStage (s : State) : (s.fresh.2).pcStage = s.pcStage := rfl
@[simp] theorem State.fresh_pcResult (s : State) : (s.fresh.2).pcResult = s.pcResult := rfl
@[simp] theorem State.fresh_hostPart (s : State) : (s.fresh.2).hostPart = s.hostPart := rfl
@[simp] theorem State.fresh_lichenReg (s : State) : (s.fresh.2).lichenReg = s.lichenReg := rfl
@[simp] theorem State.fresh_s2sel (s : State) : (s.fresh.2).s2sel = s.s2sel := rfl
@[simp] theorem State.fresh_hs1root (s : State) : (s.fresh.2).hs1root = s.hs1root := rfl
@[simp] theorem State.fresh_usNext (s : State) : (s.fresh.2).usNext = s.usNext := rfl
@[simp] theorem State.fresh_mig (s : State) : (s.fresh.2).mig = s.mig := rfl
@[simp] theorem State.fresh_ras (s : State) : (s.fresh.2).ras = s.ras := rfl
@[simp] theorem State.fresh_ports (s : State) : (s.fresh.2).ports = s.ports := rfl
@[simp] theorem State.fresh_nextKey (s : State) : (s.fresh.2).nextKey = s.nextKey := rfl

/-! ### begin -/

@[simp] theorem State.begin_grp (s : State) (r : List Turn) (j : Nat) : (s.begin r).grp j = s.grp j := rfl
@[simp] theorem State.begin_team (s : State) (r : List Turn) (j : Nat) : (s.begin r).team j = s.team j := rfl
@[simp] theorem State.begin_cluster (s : State) (r : List Turn) (j : Nat) : (s.begin r).cluster j = s.cluster j := rfl
@[simp] theorem State.begin_launch (s : State) (r : List Turn) (j : Nat) : (s.begin r).launch j = s.launch j := rfl
@[simp] theorem State.begin_coreRec (s : State) (r : List Turn) (j : Nat) : (s.begin r).coreRec j = s.coreRec j := rfl
@[simp] theorem State.begin_die (s : State) (r : List Turn) (j : Nat) : (s.begin r).die j = s.die j := rfl
@[simp] theorem State.begin_op (s : State) (r : List Turn) (j : Nat) : (s.begin r).op j = s.op j := rfl
@[simp] theorem State.begin_fn (s : State) (r : List Turn) (j : Nat) : (s.begin r).fn j = s.fn j := rfl
@[simp] theorem State.begin_part (s : State) (r : List Turn) (j : Nat) : (s.begin r).part j = s.part j := rfl
@[simp] theorem State.begin_queue (s : State) (r : List Turn) (j i : Nat) : (s.begin r).queue j i = s.queue j i := rfl
@[simp] theorem State.begin_tick (s : State) (r : List Turn) : (s.begin r).tick = s.tick := rfl
@[simp] theorem State.begin_iss (s : State) (r : List Turn) : (s.begin r).iss = s.iss := rfl
@[simp] theorem State.begin_curFn (s : State) (r : List Turn) : (s.begin r).curFn = s.curFn := rfl
@[simp] theorem State.begin_curQueue (s : State) (r : List Turn) : (s.begin r).curQueue = s.curQueue := rfl
@[simp] theorem State.begin_nextId (s : State) (r : List Turn) : (s.begin r).nextId = s.nextId := rfl
@[simp] theorem State.begin_mem (s : State) (r : List Turn) : (s.begin r).mem = s.mem := rfl
@[simp] theorem State.begin_poison (s : State) (r : List Turn) : (s.begin r).poison = s.poison := rfl
@[simp] theorem State.begin_hostMem (s : State) (r : List Turn) : (s.begin r).hostMem = s.hostMem := rfl
@[simp] theorem State.begin_flash (s : State) (r : List Turn) : (s.begin r).flash = s.flash := rfl
@[simp] theorem State.begin_pend (s : State) (r : List Turn) : (s.begin r).pend = s.pend := rfl
@[simp] theorem State.begin_leaseEnd (s : State) (r : List Turn) : (s.begin r).leaseEnd = s.leaseEnd := rfl
@[simp] theorem State.begin_wrote (s : State) (r : List Turn) : (s.begin r).wrote = s.wrote := rfl
@[simp] theorem State.begin_leases (s : State) (r : List Turn) : (s.begin r).leases = s.leases := rfl
@[simp] theorem State.begin_sb (s : State) (r : List Turn) : (s.begin r).sb = s.sb := rfl
@[simp] theorem State.begin_acc (s : State) (r : List Turn) : (s.begin r).acc = s.acc := rfl
@[simp] theorem State.begin_ops (s : State) (r : List Turn) : (s.begin r).ops = s.ops := rfl
@[simp] theorem State.begin_groups (s : State) (r : List Turn) : (s.begin r).groups = s.groups := rfl
@[simp] theorem State.begin_teams (s : State) (r : List Turn) : (s.begin r).teams = s.teams := rfl
@[simp] theorem State.begin_clusters (s : State) (r : List Turn) : (s.begin r).clusters = s.clusters := rfl
@[simp] theorem State.begin_launches (s : State) (r : List Turn) : (s.begin r).launches = s.launches := rfl
@[simp] theorem State.begin_cores (s : State) (r : List Turn) : (s.begin r).cores = s.cores := rfl
@[simp] theorem State.begin_dies (s : State) (r : List Turn) : (s.begin r).dies = s.dies := rfl
@[simp] theorem State.begin_bonds (s : State) (r : List Turn) : (s.begin r).bonds = s.bonds := rfl
@[simp] theorem State.begin_tlb (s : State) (r : List Turn) : (s.begin r).tlb = s.tlb := rfl
@[simp] theorem State.begin_pri (s : State) (r : List Turn) : (s.begin r).pri = s.pri := rfl
@[simp] theorem State.begin_fns (s : State) (r : List Turn) : (s.begin r).fns = s.fns := rfl
@[simp] theorem State.begin_queues (s : State) (r : List Turn) : (s.begin r).queues = s.queues := rfl
@[simp] theorem State.begin_hfq (s : State) (r : List Turn) : (s.begin r).hfq = s.hfq := rfl
@[simp] theorem State.begin_parts (s : State) (r : List Turn) : (s.begin r).parts = s.parts := rfl
@[simp] theorem State.begin_frames (s : State) (r : List Turn) : (s.begin r).frames = s.frames := rfl
@[simp] theorem State.begin_exports (s : State) (r : List Turn) : (s.begin r).exports = s.exports := rfl
@[simp] theorem State.begin_imports (s : State) (r : List Turn) : (s.begin r).imports = s.imports := rfl
@[simp] theorem State.begin_nextSerial (s : State) (r : List Turn) : (s.begin r).nextSerial = s.nextSerial := rfl
@[simp] theorem State.begin_pctBase (s : State) (r : List Turn) : (s.begin r).pctBase = s.pctBase := rfl
@[simp] theorem State.begin_pcarg0 (s : State) (r : List Turn) : (s.begin r).pcarg0 = s.pcarg0 := rfl
@[simp] theorem State.begin_pcarg1 (s : State) (r : List Turn) : (s.begin r).pcarg1 = s.pcarg1 := rfl
@[simp] theorem State.begin_pcarg2 (s : State) (r : List Turn) : (s.begin r).pcarg2 = s.pcarg2 := rfl
@[simp] theorem State.begin_pcBusy (s : State) (r : List Turn) : (s.begin r).pcBusy = s.pcBusy := rfl
@[simp] theorem State.begin_pcOp (s : State) (r : List Turn) : (s.begin r).pcOp = s.pcOp := rfl
@[simp] theorem State.begin_pcPart (s : State) (r : List Turn) : (s.begin r).pcPart = s.pcPart := rfl
@[simp] theorem State.begin_pcStage (s : State) (r : List Turn) : (s.begin r).pcStage = s.pcStage := rfl
@[simp] theorem State.begin_pcResult (s : State) (r : List Turn) : (s.begin r).pcResult = s.pcResult := rfl
@[simp] theorem State.begin_hostPart (s : State) (r : List Turn) : (s.begin r).hostPart = s.hostPart := rfl
@[simp] theorem State.begin_lichenReg (s : State) (r : List Turn) : (s.begin r).lichenReg = s.lichenReg := rfl
@[simp] theorem State.begin_s2sel (s : State) (r : List Turn) : (s.begin r).s2sel = s.s2sel := rfl
@[simp] theorem State.begin_hs1root (s : State) (r : List Turn) : (s.begin r).hs1root = s.hs1root := rfl
@[simp] theorem State.begin_usNext (s : State) (r : List Turn) : (s.begin r).usNext = s.usNext := rfl
@[simp] theorem State.begin_mig (s : State) (r : List Turn) : (s.begin r).mig = s.mig := rfl
@[simp] theorem State.begin_ras (s : State) (r : List Turn) : (s.begin r).ras = s.ras := rfl
@[simp] theorem State.begin_ports (s : State) (r : List Turn) : (s.begin r).ports = s.ports := rfl
@[simp] theorem State.begin_nextKey (s : State) (r : List Turn) : (s.begin r).nextKey = s.nextKey := rfl

/-! ### elapse -/

theorem State.elapse_of_no_slack (s : State) (n : Nat) (h : s.slack n = 0) : s.elapse n = s := by simp [State.elapse, h]
theorem State.elapse_of_slack (s : State) (n : Nat) (h : s.slack n ≠ 0) :
    s.elapse n = { s.postRecords with tick := s.postRecords.tick + s.slack n } := by simp [State.elapse, h]

/-! ### Group.putS -/

@[simp] theorem Group.putS_live (gr : Group) (r : Nat) (v : Word) : (gr.putS r v).live = gr.live := rfl
@[simp] theorem Group.putS_team (gr : Group) (r : Nat) (v : Word) : (gr.putS r v).team = gr.team := rfl
@[simp] theorem Group.putS_idx (gr : Group) (r : Nat) (v : Word) : (gr.putS r v).idx = gr.idx := rfl
@[simp] theorem Group.putS_role (gr : Group) (r : Nat) (v : Word) : (gr.putS r v).role = gr.role := rfl
@[simp] theorem Group.putS_vf (gr : Group) (r : Nat) (v : Word) : (gr.putS r v).vf = gr.vf := rfl
@[simp] theorem Group.putS_mode (gr : Group) (r : Nat) (v : Word) : (gr.putS r v).mode = gr.mode := rfl
@[simp] theorem Group.putS_slot (gr : Group) (r : Nat) (v : Word) : (gr.putS r v).slot = gr.slot := rfl
@[simp] theorem Group.putS_blocks (gr : Group) (r : Nat) (v : Word) : (gr.putS r v).blocks = gr.blocks := rfl
@[simp] theorem Group.putS_vregs (gr : Group) (r : Nat) (v : Word) : (gr.putS r v).vregs = gr.vregs := rfl
@[simp] theorem Group.putS_vtags (gr : Group) (r : Nat) (v : Word) : (gr.putS r v).vtags = gr.vtags := rfl
@[simp] theorem Group.putS_pregs (gr : Group) (r : Nat) (v : Word) : (gr.putS r v).pregs = gr.pregs := rfl
@[simp] theorem Group.putS_qregs (gr : Group) (r : Nat) (v : Word) : (gr.putS r v).qregs = gr.qregs := rfl
@[simp] theorem Group.putS_ctrs (gr : Group) (r : Nat) (v : Word) : (gr.putS r v).ctrs = gr.ctrs := rfl
@[simp] theorem Group.putS_bts (gr : Group) (r : Nat) (v : Word) : (gr.putS r v).bts = gr.bts := rfl
@[simp] theorem Group.putS_off (gr : Group) (r : Nat) (v : Word) : (gr.putS r v).off = gr.off := rfl
@[simp] theorem Group.putS_inClause (gr : Group) (r : Nat) (v : Word) : (gr.putS r v).inClause = gr.inClause := rfl
@[simp] theorem Group.putS_clause (gr : Group) (r : Nat) (v : Word) : (gr.putS r v).clause = gr.clause := rfl
@[simp] theorem Group.putS_nextClause (gr : Group) (r : Nat) (v : Word) : (gr.putS r v).nextClause = gr.nextClause := rfl
@[simp] theorem Group.putS_word (gr : Group) (r : Nat) (v : Word) : (gr.putS r v).word = gr.word := rfl
@[simp] theorem Group.putS_count (gr : Group) (r : Nat) (v : Word) : (gr.putS r v).count = gr.count := rfl
@[simp] theorem Group.putS_cls (gr : Group) (r : Nat) (v : Word) : (gr.putS r v).cls = gr.cls := rfl
@[simp] theorem Group.putS_unif (gr : Group) (r : Nat) (v : Word) : (gr.putS r v).unif = gr.unif := rfl
@[simp] theorem Group.putS_yields (gr : Group) (r : Nat) (v : Word) : (gr.putS r v).yields = gr.yields := rfl
@[simp] theorem Group.putS_headerWait (gr : Group) (r : Nat) (v : Word) : (gr.putS r v).headerWait = gr.headerWait := rfl
@[simp] theorem Group.putS_snap (gr : Group) (r : Nat) (v : Word) : (gr.putS r v).snap = gr.snap := rfl
@[simp] theorem Group.putS_planeFrom (gr : Group) (r : Nat) (v : Word) : (gr.putS r v).planeFrom = gr.planeFrom := rfl
@[simp] theorem Group.putS_morePlanes (gr : Group) (r : Nat) (v : Word) : (gr.putS r v).morePlanes = gr.morePlanes := rfl
@[simp] theorem Group.putS_posTags (gr : Group) (r : Nat) (v : Word) : (gr.putS r v).posTags = gr.posTags := rfl
@[simp] theorem Group.putS_brDests (gr : Group) (r : Nat) (v : Word) : (gr.putS r v).brDests = gr.brDests := rfl
@[simp] theorem Group.putS_mask (gr : Group) (r : Nat) (v : Word) : (gr.putS r v).mask = gr.mask := rfl
@[simp] theorem Group.putS_recOff (gr : Group) (r : Nat) (v : Word) : (gr.putS r v).recOff = gr.recOff := rfl
@[simp] theorem Group.putS_stack (gr : Group) (r : Nat) (v : Word) : (gr.putS r v).stack = gr.stack := rfl
@[simp] theorem Group.putS_exited (gr : Group) (r : Nat) (v : Word) : (gr.putS r v).exited = gr.exited := rfl
@[simp] theorem Group.putS_planes (gr : Group) (r : Nat) (v : Word) : (gr.putS r v).planes = gr.planes := rfl
@[simp] theorem Group.putS_tilewNext (gr : Group) (r : Nat) (v : Word) : (gr.putS r v).tilewNext = gr.tilewNext := rfl
@[simp] theorem Group.putS_tilew (gr : Group) (r : Nat) (v : Word) : (gr.putS r v).tilew = gr.tilew := rfl
@[simp] theorem Group.putS_cshape (gr : Group) (r : Nat) (v : Word) : (gr.putS r v).cshape = gr.cshape := rfl
@[simp] theorem Group.putS_gridx (gr : Group) (r : Nat) (v : Word) : (gr.putS r v).gridx = gr.gridx := rfl
@[simp] theorem Group.putS_gridy (gr : Group) (r : Nat) (v : Word) : (gr.putS r v).gridy = gr.gridy := rfl
@[simp] theorem Group.putS_gridz (gr : Group) (r : Nat) (v : Word) : (gr.putS r v).gridz = gr.gridz := rfl
@[simp] theorem Group.putS_gdimx (gr : Group) (r : Nat) (v : Word) : (gr.putS r v).gdimx = gr.gdimx := rfl
@[simp] theorem Group.putS_gdimy (gr : Group) (r : Nat) (v : Word) : (gr.putS r v).gdimy = gr.gdimy := rfl
@[simp] theorem Group.putS_gdimz (gr : Group) (r : Nat) (v : Word) : (gr.putS r v).gdimz = gr.gdimz := rfl
@[simp] theorem Group.putS_teamId (gr : Group) (r : Nat) (v : Word) : (gr.putS r v).teamId = gr.teamId := rfl
@[simp] theorem Group.putS_crank (gr : Group) (r : Nat) (v : Word) : (gr.putS r v).crank = gr.crank := rfl
@[simp] theorem Group.putS_node (gr : Group) (r : Nat) (v : Word) : (gr.putS r v).node = gr.node := rfl
@[simp] theorem Group.putS_lseq (gr : Group) (r : Nat) (v : Word) : (gr.putS r v).lseq = gr.lseq := rfl
@[simp] theorem Group.putS_gang (gr : Group) (r : Nat) (v : Word) : (gr.putS r v).gang = gr.gang := rfl
@[simp] theorem Group.putS_moved (gr : Group) (r : Nat) (v : Word) : (gr.putS r v).moved = gr.moved := rfl
@[simp] theorem Group.putS_sfault (gr : Group) (r : Nat) (v : Word) : (gr.putS r v).sfault = gr.sfault := rfl
@[simp] theorem Group.putS_park (gr : Group) (r : Nat) (v : Word) : (gr.putS r v).park = gr.park := rfl
@[simp] theorem Group.putS_parkArg (gr : Group) (r : Nat) (v : Word) : (gr.putS r v).parkArg = gr.parkArg := rfl
@[simp] theorem Group.putS_flt (gr : Group) (r : Nat) (v : Word) : (gr.putS r v).flt = gr.flt := rfl
@[simp] theorem Group.putS_engFault (gr : Group) (r : Nat) (v : Word) : (gr.putS r v).engFault = gr.engFault := rfl
@[simp] theorem Group.putS_replay (gr : Group) (r : Nat) (v : Word) : (gr.putS r v).replay = gr.replay := rfl
@[simp] theorem Group.putS_replayOp (gr : Group) (r : Nat) (v : Word) : (gr.putS r v).replayOp = gr.replayOp := rfl
@[simp] theorem Group.putS_wait (gr : Group) (r : Nat) (v : Word) : (gr.putS r v).wait = gr.wait := rfl
@[simp] theorem Group.putS_fence (gr : Group) (r : Nat) (v : Word) : (gr.putS r v).fence = gr.fence := rfl
@[simp] theorem Group.putS_after (gr : Group) (r : Nat) (v : Word) : (gr.putS r v).after = gr.after := rfl
@[simp] theorem Group.putS_fwd (gr : Group) (r : Nat) (v : Word) : (gr.putS r v).fwd = gr.fwd := rfl
@[simp] theorem Group.putS_trapped (gr : Group) (r : Nat) (v : Word) : (gr.putS r v).trapped = gr.trapped := rfl
@[simp] theorem Group.putS_trapRet (gr : Group) (r : Nat) (v : Word) : (gr.putS r v).trapRet = gr.trapRet := rfl
@[simp] theorem Group.putS_region (gr : Group) (r : Nat) (v : Word) : (gr.putS r v).region = gr.region := rfl
@[simp] theorem Group.putS_regionStores (gr : Group) (r : Nat) (v : Word) : (gr.putS r v).regionStores = gr.regionStores := rfl
@[simp] theorem Group.putS_joint (gr : Group) (r : Nat) (v : Word) : (gr.putS r v).joint = gr.joint := rfl
@[simp] theorem Group.putS_spawnLane (gr : Group) (r : Nat) (v : Word) : (gr.putS r v).spawnLane = gr.spawnLane := rfl
@[simp] theorem Group.putS_deposits (gr : Group) (r : Nat) (v : Word) : (gr.putS r v).deposits = gr.deposits := rfl
@[simp] theorem Group.putS_draw (gr : Group) (r : Nat) (v : Word) : (gr.putS r v).draw = gr.draw := rfl
@[simp] theorem Group.putS_hvsel (gr : Group) (r : Nat) (v : Word) : (gr.putS r v).hvsel = gr.hvsel := rfl
@[simp] theorem Group.putS_held (gr : Group) (r : Nat) (v : Word) : (gr.putS r v).held = gr.held := rfl
@[simp] theorem Group.putS_heldWalk (gr : Group) (r : Nat) (v : Word) : (gr.putS r v).heldWalk = gr.heldWalk := rfl
@[simp] theorem Group.putS_heldAts (gr : Group) (r : Nat) (v : Word) : (gr.putS r v).heldAts = gr.heldAts := rfl
@[simp] theorem Group.putS_walked (gr : Group) (r : Nat) (v : Word) : (gr.putS r v).walked = gr.walked := rfl
@[simp] theorem Group.putS_refused (gr : Group) (r : Nat) (v : Word) : (gr.putS r v).refused = gr.refused := rfl
@[simp] theorem Group.putS_notReady (gr : Group) (r : Nat) (v : Word) : (gr.putS r v).notReady = gr.notReady := rfl
@[simp] theorem Group.putS_clobber (gr : Group) (r : Nat) (v : Word) : (gr.putS r v).clobber = gr.clobber := rfl

/-! ### Group.putQ -/

@[simp] theorem Group.putQ_live (gr : Group) (q : Nat) (v : Bool) : (gr.putQ q v).live = gr.live := rfl
@[simp] theorem Group.putQ_team (gr : Group) (q : Nat) (v : Bool) : (gr.putQ q v).team = gr.team := rfl
@[simp] theorem Group.putQ_idx (gr : Group) (q : Nat) (v : Bool) : (gr.putQ q v).idx = gr.idx := rfl
@[simp] theorem Group.putQ_role (gr : Group) (q : Nat) (v : Bool) : (gr.putQ q v).role = gr.role := rfl
@[simp] theorem Group.putQ_vf (gr : Group) (q : Nat) (v : Bool) : (gr.putQ q v).vf = gr.vf := rfl
@[simp] theorem Group.putQ_mode (gr : Group) (q : Nat) (v : Bool) : (gr.putQ q v).mode = gr.mode := rfl
@[simp] theorem Group.putQ_slot (gr : Group) (q : Nat) (v : Bool) : (gr.putQ q v).slot = gr.slot := rfl
@[simp] theorem Group.putQ_blocks (gr : Group) (q : Nat) (v : Bool) : (gr.putQ q v).blocks = gr.blocks := rfl
@[simp] theorem Group.putQ_vregs (gr : Group) (q : Nat) (v : Bool) : (gr.putQ q v).vregs = gr.vregs := rfl
@[simp] theorem Group.putQ_vtags (gr : Group) (q : Nat) (v : Bool) : (gr.putQ q v).vtags = gr.vtags := rfl
@[simp] theorem Group.putQ_sregs (gr : Group) (q : Nat) (v : Bool) : (gr.putQ q v).sregs = gr.sregs := rfl
@[simp] theorem Group.putQ_pregs (gr : Group) (q : Nat) (v : Bool) : (gr.putQ q v).pregs = gr.pregs := rfl
@[simp] theorem Group.putQ_ctrs (gr : Group) (q : Nat) (v : Bool) : (gr.putQ q v).ctrs = gr.ctrs := rfl
@[simp] theorem Group.putQ_bts (gr : Group) (q : Nat) (v : Bool) : (gr.putQ q v).bts = gr.bts := rfl
@[simp] theorem Group.putQ_off (gr : Group) (q : Nat) (v : Bool) : (gr.putQ q v).off = gr.off := rfl
@[simp] theorem Group.putQ_inClause (gr : Group) (q : Nat) (v : Bool) : (gr.putQ q v).inClause = gr.inClause := rfl
@[simp] theorem Group.putQ_clause (gr : Group) (q : Nat) (v : Bool) : (gr.putQ q v).clause = gr.clause := rfl
@[simp] theorem Group.putQ_nextClause (gr : Group) (q : Nat) (v : Bool) : (gr.putQ q v).nextClause = gr.nextClause := rfl
@[simp] theorem Group.putQ_word (gr : Group) (q : Nat) (v : Bool) : (gr.putQ q v).word = gr.word := rfl
@[simp] theorem Group.putQ_count (gr : Group) (q : Nat) (v : Bool) : (gr.putQ q v).count = gr.count := rfl
@[simp] theorem Group.putQ_cls (gr : Group) (q : Nat) (v : Bool) : (gr.putQ q v).cls = gr.cls := rfl
@[simp] theorem Group.putQ_unif (gr : Group) (q : Nat) (v : Bool) : (gr.putQ q v).unif = gr.unif := rfl
@[simp] theorem Group.putQ_yields (gr : Group) (q : Nat) (v : Bool) : (gr.putQ q v).yields = gr.yields := rfl
@[simp] theorem Group.putQ_headerWait (gr : Group) (q : Nat) (v : Bool) : (gr.putQ q v).headerWait = gr.headerWait := rfl
@[simp] theorem Group.putQ_snap (gr : Group) (q : Nat) (v : Bool) : (gr.putQ q v).snap = gr.snap := rfl
@[simp] theorem Group.putQ_planeFrom (gr : Group) (q : Nat) (v : Bool) : (gr.putQ q v).planeFrom = gr.planeFrom := rfl
@[simp] theorem Group.putQ_morePlanes (gr : Group) (q : Nat) (v : Bool) : (gr.putQ q v).morePlanes = gr.morePlanes := rfl
@[simp] theorem Group.putQ_posTags (gr : Group) (q : Nat) (v : Bool) : (gr.putQ q v).posTags = gr.posTags := rfl
@[simp] theorem Group.putQ_brDests (gr : Group) (q : Nat) (v : Bool) : (gr.putQ q v).brDests = gr.brDests := rfl
@[simp] theorem Group.putQ_mask (gr : Group) (q : Nat) (v : Bool) : (gr.putQ q v).mask = gr.mask := rfl
@[simp] theorem Group.putQ_recOff (gr : Group) (q : Nat) (v : Bool) : (gr.putQ q v).recOff = gr.recOff := rfl
@[simp] theorem Group.putQ_stack (gr : Group) (q : Nat) (v : Bool) : (gr.putQ q v).stack = gr.stack := rfl
@[simp] theorem Group.putQ_exited (gr : Group) (q : Nat) (v : Bool) : (gr.putQ q v).exited = gr.exited := rfl
@[simp] theorem Group.putQ_planes (gr : Group) (q : Nat) (v : Bool) : (gr.putQ q v).planes = gr.planes := rfl
@[simp] theorem Group.putQ_tilewNext (gr : Group) (q : Nat) (v : Bool) : (gr.putQ q v).tilewNext = gr.tilewNext := rfl
@[simp] theorem Group.putQ_tilew (gr : Group) (q : Nat) (v : Bool) : (gr.putQ q v).tilew = gr.tilew := rfl
@[simp] theorem Group.putQ_cshape (gr : Group) (q : Nat) (v : Bool) : (gr.putQ q v).cshape = gr.cshape := rfl
@[simp] theorem Group.putQ_gridx (gr : Group) (q : Nat) (v : Bool) : (gr.putQ q v).gridx = gr.gridx := rfl
@[simp] theorem Group.putQ_gridy (gr : Group) (q : Nat) (v : Bool) : (gr.putQ q v).gridy = gr.gridy := rfl
@[simp] theorem Group.putQ_gridz (gr : Group) (q : Nat) (v : Bool) : (gr.putQ q v).gridz = gr.gridz := rfl
@[simp] theorem Group.putQ_gdimx (gr : Group) (q : Nat) (v : Bool) : (gr.putQ q v).gdimx = gr.gdimx := rfl
@[simp] theorem Group.putQ_gdimy (gr : Group) (q : Nat) (v : Bool) : (gr.putQ q v).gdimy = gr.gdimy := rfl
@[simp] theorem Group.putQ_gdimz (gr : Group) (q : Nat) (v : Bool) : (gr.putQ q v).gdimz = gr.gdimz := rfl
@[simp] theorem Group.putQ_teamId (gr : Group) (q : Nat) (v : Bool) : (gr.putQ q v).teamId = gr.teamId := rfl
@[simp] theorem Group.putQ_crank (gr : Group) (q : Nat) (v : Bool) : (gr.putQ q v).crank = gr.crank := rfl
@[simp] theorem Group.putQ_node (gr : Group) (q : Nat) (v : Bool) : (gr.putQ q v).node = gr.node := rfl
@[simp] theorem Group.putQ_lseq (gr : Group) (q : Nat) (v : Bool) : (gr.putQ q v).lseq = gr.lseq := rfl
@[simp] theorem Group.putQ_gang (gr : Group) (q : Nat) (v : Bool) : (gr.putQ q v).gang = gr.gang := rfl
@[simp] theorem Group.putQ_moved (gr : Group) (q : Nat) (v : Bool) : (gr.putQ q v).moved = gr.moved := rfl
@[simp] theorem Group.putQ_sfault (gr : Group) (q : Nat) (v : Bool) : (gr.putQ q v).sfault = gr.sfault := rfl
@[simp] theorem Group.putQ_park (gr : Group) (q : Nat) (v : Bool) : (gr.putQ q v).park = gr.park := rfl
@[simp] theorem Group.putQ_parkArg (gr : Group) (q : Nat) (v : Bool) : (gr.putQ q v).parkArg = gr.parkArg := rfl
@[simp] theorem Group.putQ_flt (gr : Group) (q : Nat) (v : Bool) : (gr.putQ q v).flt = gr.flt := rfl
@[simp] theorem Group.putQ_engFault (gr : Group) (q : Nat) (v : Bool) : (gr.putQ q v).engFault = gr.engFault := rfl
@[simp] theorem Group.putQ_replay (gr : Group) (q : Nat) (v : Bool) : (gr.putQ q v).replay = gr.replay := rfl
@[simp] theorem Group.putQ_replayOp (gr : Group) (q : Nat) (v : Bool) : (gr.putQ q v).replayOp = gr.replayOp := rfl
@[simp] theorem Group.putQ_wait (gr : Group) (q : Nat) (v : Bool) : (gr.putQ q v).wait = gr.wait := rfl
@[simp] theorem Group.putQ_fence (gr : Group) (q : Nat) (v : Bool) : (gr.putQ q v).fence = gr.fence := rfl
@[simp] theorem Group.putQ_after (gr : Group) (q : Nat) (v : Bool) : (gr.putQ q v).after = gr.after := rfl
@[simp] theorem Group.putQ_fwd (gr : Group) (q : Nat) (v : Bool) : (gr.putQ q v).fwd = gr.fwd := rfl
@[simp] theorem Group.putQ_trapped (gr : Group) (q : Nat) (v : Bool) : (gr.putQ q v).trapped = gr.trapped := rfl
@[simp] theorem Group.putQ_trapRet (gr : Group) (q : Nat) (v : Bool) : (gr.putQ q v).trapRet = gr.trapRet := rfl
@[simp] theorem Group.putQ_region (gr : Group) (q : Nat) (v : Bool) : (gr.putQ q v).region = gr.region := rfl
@[simp] theorem Group.putQ_regionStores (gr : Group) (q : Nat) (v : Bool) : (gr.putQ q v).regionStores = gr.regionStores := rfl
@[simp] theorem Group.putQ_joint (gr : Group) (q : Nat) (v : Bool) : (gr.putQ q v).joint = gr.joint := rfl
@[simp] theorem Group.putQ_spawnLane (gr : Group) (q : Nat) (v : Bool) : (gr.putQ q v).spawnLane = gr.spawnLane := rfl
@[simp] theorem Group.putQ_deposits (gr : Group) (q : Nat) (v : Bool) : (gr.putQ q v).deposits = gr.deposits := rfl
@[simp] theorem Group.putQ_draw (gr : Group) (q : Nat) (v : Bool) : (gr.putQ q v).draw = gr.draw := rfl
@[simp] theorem Group.putQ_hvsel (gr : Group) (q : Nat) (v : Bool) : (gr.putQ q v).hvsel = gr.hvsel := rfl
@[simp] theorem Group.putQ_held (gr : Group) (q : Nat) (v : Bool) : (gr.putQ q v).held = gr.held := rfl
@[simp] theorem Group.putQ_heldWalk (gr : Group) (q : Nat) (v : Bool) : (gr.putQ q v).heldWalk = gr.heldWalk := rfl
@[simp] theorem Group.putQ_heldAts (gr : Group) (q : Nat) (v : Bool) : (gr.putQ q v).heldAts = gr.heldAts := rfl
@[simp] theorem Group.putQ_walked (gr : Group) (q : Nat) (v : Bool) : (gr.putQ q v).walked = gr.walked := rfl
@[simp] theorem Group.putQ_refused (gr : Group) (q : Nat) (v : Bool) : (gr.putQ q v).refused = gr.refused := rfl
@[simp] theorem Group.putQ_notReady (gr : Group) (q : Nat) (v : Bool) : (gr.putQ q v).notReady = gr.notReady := rfl
@[simp] theorem Group.putQ_clobber (gr : Group) (q : Nat) (v : Bool) : (gr.putQ q v).clobber = gr.clobber := rfl
@[simp] theorem Group.putQ_vpoison (gr : Group) (q : Nat) (v : Bool) : (gr.putQ q v).vpoison = gr.vpoison := rfl

/-! ### Group.putP -/

@[simp] theorem Group.putP_live (gr : Group) (p : Nat) (m v : LaneMask) : (gr.putP p m v).live = gr.live := rfl
@[simp] theorem Group.putP_team (gr : Group) (p : Nat) (m v : LaneMask) : (gr.putP p m v).team = gr.team := rfl
@[simp] theorem Group.putP_idx (gr : Group) (p : Nat) (m v : LaneMask) : (gr.putP p m v).idx = gr.idx := rfl
@[simp] theorem Group.putP_role (gr : Group) (p : Nat) (m v : LaneMask) : (gr.putP p m v).role = gr.role := rfl
@[simp] theorem Group.putP_vf (gr : Group) (p : Nat) (m v : LaneMask) : (gr.putP p m v).vf = gr.vf := rfl
@[simp] theorem Group.putP_mode (gr : Group) (p : Nat) (m v : LaneMask) : (gr.putP p m v).mode = gr.mode := rfl
@[simp] theorem Group.putP_slot (gr : Group) (p : Nat) (m v : LaneMask) : (gr.putP p m v).slot = gr.slot := rfl
@[simp] theorem Group.putP_blocks (gr : Group) (p : Nat) (m v : LaneMask) : (gr.putP p m v).blocks = gr.blocks := rfl
@[simp] theorem Group.putP_vregs (gr : Group) (p : Nat) (m v : LaneMask) : (gr.putP p m v).vregs = gr.vregs := rfl
@[simp] theorem Group.putP_vtags (gr : Group) (p : Nat) (m v : LaneMask) : (gr.putP p m v).vtags = gr.vtags := rfl
@[simp] theorem Group.putP_sregs (gr : Group) (p : Nat) (m v : LaneMask) : (gr.putP p m v).sregs = gr.sregs := rfl
@[simp] theorem Group.putP_qregs (gr : Group) (p : Nat) (m v : LaneMask) : (gr.putP p m v).qregs = gr.qregs := rfl
@[simp] theorem Group.putP_ctrs (gr : Group) (p : Nat) (m v : LaneMask) : (gr.putP p m v).ctrs = gr.ctrs := rfl
@[simp] theorem Group.putP_bts (gr : Group) (p : Nat) (m v : LaneMask) : (gr.putP p m v).bts = gr.bts := rfl
@[simp] theorem Group.putP_off (gr : Group) (p : Nat) (m v : LaneMask) : (gr.putP p m v).off = gr.off := rfl
@[simp] theorem Group.putP_inClause (gr : Group) (p : Nat) (m v : LaneMask) : (gr.putP p m v).inClause = gr.inClause := rfl
@[simp] theorem Group.putP_clause (gr : Group) (p : Nat) (m v : LaneMask) : (gr.putP p m v).clause = gr.clause := rfl
@[simp] theorem Group.putP_nextClause (gr : Group) (p : Nat) (m v : LaneMask) : (gr.putP p m v).nextClause = gr.nextClause := rfl
@[simp] theorem Group.putP_word (gr : Group) (p : Nat) (m v : LaneMask) : (gr.putP p m v).word = gr.word := rfl
@[simp] theorem Group.putP_count (gr : Group) (p : Nat) (m v : LaneMask) : (gr.putP p m v).count = gr.count := rfl
@[simp] theorem Group.putP_cls (gr : Group) (p : Nat) (m v : LaneMask) : (gr.putP p m v).cls = gr.cls := rfl
@[simp] theorem Group.putP_unif (gr : Group) (p : Nat) (m v : LaneMask) : (gr.putP p m v).unif = gr.unif := rfl
@[simp] theorem Group.putP_yields (gr : Group) (p : Nat) (m v : LaneMask) : (gr.putP p m v).yields = gr.yields := rfl
@[simp] theorem Group.putP_headerWait (gr : Group) (p : Nat) (m v : LaneMask) : (gr.putP p m v).headerWait = gr.headerWait := rfl
@[simp] theorem Group.putP_snap (gr : Group) (p : Nat) (m v : LaneMask) : (gr.putP p m v).snap = gr.snap := rfl
@[simp] theorem Group.putP_planeFrom (gr : Group) (p : Nat) (m v : LaneMask) : (gr.putP p m v).planeFrom = gr.planeFrom := rfl
@[simp] theorem Group.putP_morePlanes (gr : Group) (p : Nat) (m v : LaneMask) : (gr.putP p m v).morePlanes = gr.morePlanes := rfl
@[simp] theorem Group.putP_posTags (gr : Group) (p : Nat) (m v : LaneMask) : (gr.putP p m v).posTags = gr.posTags := rfl
@[simp] theorem Group.putP_brDests (gr : Group) (p : Nat) (m v : LaneMask) : (gr.putP p m v).brDests = gr.brDests := rfl
@[simp] theorem Group.putP_mask (gr : Group) (p : Nat) (m v : LaneMask) : (gr.putP p m v).mask = gr.mask := rfl
@[simp] theorem Group.putP_recOff (gr : Group) (p : Nat) (m v : LaneMask) : (gr.putP p m v).recOff = gr.recOff := rfl
@[simp] theorem Group.putP_stack (gr : Group) (p : Nat) (m v : LaneMask) : (gr.putP p m v).stack = gr.stack := rfl
@[simp] theorem Group.putP_exited (gr : Group) (p : Nat) (m v : LaneMask) : (gr.putP p m v).exited = gr.exited := rfl
@[simp] theorem Group.putP_planes (gr : Group) (p : Nat) (m v : LaneMask) : (gr.putP p m v).planes = gr.planes := rfl
@[simp] theorem Group.putP_tilewNext (gr : Group) (p : Nat) (m v : LaneMask) : (gr.putP p m v).tilewNext = gr.tilewNext := rfl
@[simp] theorem Group.putP_tilew (gr : Group) (p : Nat) (m v : LaneMask) : (gr.putP p m v).tilew = gr.tilew := rfl
@[simp] theorem Group.putP_cshape (gr : Group) (p : Nat) (m v : LaneMask) : (gr.putP p m v).cshape = gr.cshape := rfl
@[simp] theorem Group.putP_gridx (gr : Group) (p : Nat) (m v : LaneMask) : (gr.putP p m v).gridx = gr.gridx := rfl
@[simp] theorem Group.putP_gridy (gr : Group) (p : Nat) (m v : LaneMask) : (gr.putP p m v).gridy = gr.gridy := rfl
@[simp] theorem Group.putP_gridz (gr : Group) (p : Nat) (m v : LaneMask) : (gr.putP p m v).gridz = gr.gridz := rfl
@[simp] theorem Group.putP_gdimx (gr : Group) (p : Nat) (m v : LaneMask) : (gr.putP p m v).gdimx = gr.gdimx := rfl
@[simp] theorem Group.putP_gdimy (gr : Group) (p : Nat) (m v : LaneMask) : (gr.putP p m v).gdimy = gr.gdimy := rfl
@[simp] theorem Group.putP_gdimz (gr : Group) (p : Nat) (m v : LaneMask) : (gr.putP p m v).gdimz = gr.gdimz := rfl
@[simp] theorem Group.putP_teamId (gr : Group) (p : Nat) (m v : LaneMask) : (gr.putP p m v).teamId = gr.teamId := rfl
@[simp] theorem Group.putP_crank (gr : Group) (p : Nat) (m v : LaneMask) : (gr.putP p m v).crank = gr.crank := rfl
@[simp] theorem Group.putP_node (gr : Group) (p : Nat) (m v : LaneMask) : (gr.putP p m v).node = gr.node := rfl
@[simp] theorem Group.putP_lseq (gr : Group) (p : Nat) (m v : LaneMask) : (gr.putP p m v).lseq = gr.lseq := rfl
@[simp] theorem Group.putP_gang (gr : Group) (p : Nat) (m v : LaneMask) : (gr.putP p m v).gang = gr.gang := rfl
@[simp] theorem Group.putP_moved (gr : Group) (p : Nat) (m v : LaneMask) : (gr.putP p m v).moved = gr.moved := rfl
@[simp] theorem Group.putP_sfault (gr : Group) (p : Nat) (m v : LaneMask) : (gr.putP p m v).sfault = gr.sfault := rfl
@[simp] theorem Group.putP_park (gr : Group) (p : Nat) (m v : LaneMask) : (gr.putP p m v).park = gr.park := rfl
@[simp] theorem Group.putP_parkArg (gr : Group) (p : Nat) (m v : LaneMask) : (gr.putP p m v).parkArg = gr.parkArg := rfl
@[simp] theorem Group.putP_flt (gr : Group) (p : Nat) (m v : LaneMask) : (gr.putP p m v).flt = gr.flt := rfl
@[simp] theorem Group.putP_engFault (gr : Group) (p : Nat) (m v : LaneMask) : (gr.putP p m v).engFault = gr.engFault := rfl
@[simp] theorem Group.putP_replay (gr : Group) (p : Nat) (m v : LaneMask) : (gr.putP p m v).replay = gr.replay := rfl
@[simp] theorem Group.putP_replayOp (gr : Group) (p : Nat) (m v : LaneMask) : (gr.putP p m v).replayOp = gr.replayOp := rfl
@[simp] theorem Group.putP_wait (gr : Group) (p : Nat) (m v : LaneMask) : (gr.putP p m v).wait = gr.wait := rfl
@[simp] theorem Group.putP_fence (gr : Group) (p : Nat) (m v : LaneMask) : (gr.putP p m v).fence = gr.fence := rfl
@[simp] theorem Group.putP_after (gr : Group) (p : Nat) (m v : LaneMask) : (gr.putP p m v).after = gr.after := rfl
@[simp] theorem Group.putP_fwd (gr : Group) (p : Nat) (m v : LaneMask) : (gr.putP p m v).fwd = gr.fwd := rfl
@[simp] theorem Group.putP_trapped (gr : Group) (p : Nat) (m v : LaneMask) : (gr.putP p m v).trapped = gr.trapped := rfl
@[simp] theorem Group.putP_trapRet (gr : Group) (p : Nat) (m v : LaneMask) : (gr.putP p m v).trapRet = gr.trapRet := rfl
@[simp] theorem Group.putP_region (gr : Group) (p : Nat) (m v : LaneMask) : (gr.putP p m v).region = gr.region := rfl
@[simp] theorem Group.putP_regionStores (gr : Group) (p : Nat) (m v : LaneMask) : (gr.putP p m v).regionStores = gr.regionStores := rfl
@[simp] theorem Group.putP_joint (gr : Group) (p : Nat) (m v : LaneMask) : (gr.putP p m v).joint = gr.joint := rfl
@[simp] theorem Group.putP_spawnLane (gr : Group) (p : Nat) (m v : LaneMask) : (gr.putP p m v).spawnLane = gr.spawnLane := rfl
@[simp] theorem Group.putP_deposits (gr : Group) (p : Nat) (m v : LaneMask) : (gr.putP p m v).deposits = gr.deposits := rfl
@[simp] theorem Group.putP_draw (gr : Group) (p : Nat) (m v : LaneMask) : (gr.putP p m v).draw = gr.draw := rfl
@[simp] theorem Group.putP_hvsel (gr : Group) (p : Nat) (m v : LaneMask) : (gr.putP p m v).hvsel = gr.hvsel := rfl
@[simp] theorem Group.putP_held (gr : Group) (p : Nat) (m v : LaneMask) : (gr.putP p m v).held = gr.held := rfl
@[simp] theorem Group.putP_heldWalk (gr : Group) (p : Nat) (m v : LaneMask) : (gr.putP p m v).heldWalk = gr.heldWalk := rfl
@[simp] theorem Group.putP_heldAts (gr : Group) (p : Nat) (m v : LaneMask) : (gr.putP p m v).heldAts = gr.heldAts := rfl
@[simp] theorem Group.putP_walked (gr : Group) (p : Nat) (m v : LaneMask) : (gr.putP p m v).walked = gr.walked := rfl
@[simp] theorem Group.putP_refused (gr : Group) (p : Nat) (m v : LaneMask) : (gr.putP p m v).refused = gr.refused := rfl
@[simp] theorem Group.putP_notReady (gr : Group) (p : Nat) (m v : LaneMask) : (gr.putP p m v).notReady = gr.notReady := rfl
@[simp] theorem Group.putP_clobber (gr : Group) (p : Nat) (m v : LaneMask) : (gr.putP p m v).clobber = gr.clobber := rfl
@[simp] theorem Group.putP_vpoison (gr : Group) (p : Nat) (m v : LaneMask) : (gr.putP p m v).vpoison = gr.vpoison := rfl

/-! ### Group.putV -/

@[simp] theorem Group.putV_live (gr : Group) (r : Nat) (m : LaneMask) (f : Nat → Word) : (gr.putV r m f).live = gr.live := rfl
@[simp] theorem Group.putV_team (gr : Group) (r : Nat) (m : LaneMask) (f : Nat → Word) : (gr.putV r m f).team = gr.team := rfl
@[simp] theorem Group.putV_idx (gr : Group) (r : Nat) (m : LaneMask) (f : Nat → Word) : (gr.putV r m f).idx = gr.idx := rfl
@[simp] theorem Group.putV_role (gr : Group) (r : Nat) (m : LaneMask) (f : Nat → Word) : (gr.putV r m f).role = gr.role := rfl
@[simp] theorem Group.putV_vf (gr : Group) (r : Nat) (m : LaneMask) (f : Nat → Word) : (gr.putV r m f).vf = gr.vf := rfl
@[simp] theorem Group.putV_mode (gr : Group) (r : Nat) (m : LaneMask) (f : Nat → Word) : (gr.putV r m f).mode = gr.mode := rfl
@[simp] theorem Group.putV_slot (gr : Group) (r : Nat) (m : LaneMask) (f : Nat → Word) : (gr.putV r m f).slot = gr.slot := rfl
@[simp] theorem Group.putV_blocks (gr : Group) (r : Nat) (m : LaneMask) (f : Nat → Word) : (gr.putV r m f).blocks = gr.blocks := rfl
@[simp] theorem Group.putV_vtags (gr : Group) (r : Nat) (m : LaneMask) (f : Nat → Word) : (gr.putV r m f).vtags = gr.vtags := rfl
@[simp] theorem Group.putV_sregs (gr : Group) (r : Nat) (m : LaneMask) (f : Nat → Word) : (gr.putV r m f).sregs = gr.sregs := rfl
@[simp] theorem Group.putV_pregs (gr : Group) (r : Nat) (m : LaneMask) (f : Nat → Word) : (gr.putV r m f).pregs = gr.pregs := rfl
@[simp] theorem Group.putV_qregs (gr : Group) (r : Nat) (m : LaneMask) (f : Nat → Word) : (gr.putV r m f).qregs = gr.qregs := rfl
@[simp] theorem Group.putV_ctrs (gr : Group) (r : Nat) (m : LaneMask) (f : Nat → Word) : (gr.putV r m f).ctrs = gr.ctrs := rfl
@[simp] theorem Group.putV_bts (gr : Group) (r : Nat) (m : LaneMask) (f : Nat → Word) : (gr.putV r m f).bts = gr.bts := rfl
@[simp] theorem Group.putV_off (gr : Group) (r : Nat) (m : LaneMask) (f : Nat → Word) : (gr.putV r m f).off = gr.off := rfl
@[simp] theorem Group.putV_inClause (gr : Group) (r : Nat) (m : LaneMask) (f : Nat → Word) : (gr.putV r m f).inClause = gr.inClause := rfl
@[simp] theorem Group.putV_clause (gr : Group) (r : Nat) (m : LaneMask) (f : Nat → Word) : (gr.putV r m f).clause = gr.clause := rfl
@[simp] theorem Group.putV_nextClause (gr : Group) (r : Nat) (m : LaneMask) (f : Nat → Word) : (gr.putV r m f).nextClause = gr.nextClause := rfl
@[simp] theorem Group.putV_word (gr : Group) (r : Nat) (m : LaneMask) (f : Nat → Word) : (gr.putV r m f).word = gr.word := rfl
@[simp] theorem Group.putV_count (gr : Group) (r : Nat) (m : LaneMask) (f : Nat → Word) : (gr.putV r m f).count = gr.count := rfl
@[simp] theorem Group.putV_cls (gr : Group) (r : Nat) (m : LaneMask) (f : Nat → Word) : (gr.putV r m f).cls = gr.cls := rfl
@[simp] theorem Group.putV_unif (gr : Group) (r : Nat) (m : LaneMask) (f : Nat → Word) : (gr.putV r m f).unif = gr.unif := rfl
@[simp] theorem Group.putV_yields (gr : Group) (r : Nat) (m : LaneMask) (f : Nat → Word) : (gr.putV r m f).yields = gr.yields := rfl
@[simp] theorem Group.putV_headerWait (gr : Group) (r : Nat) (m : LaneMask) (f : Nat → Word) : (gr.putV r m f).headerWait = gr.headerWait := rfl
@[simp] theorem Group.putV_snap (gr : Group) (r : Nat) (m : LaneMask) (f : Nat → Word) : (gr.putV r m f).snap = gr.snap := rfl
@[simp] theorem Group.putV_planeFrom (gr : Group) (r : Nat) (m : LaneMask) (f : Nat → Word) : (gr.putV r m f).planeFrom = gr.planeFrom := rfl
@[simp] theorem Group.putV_morePlanes (gr : Group) (r : Nat) (m : LaneMask) (f : Nat → Word) : (gr.putV r m f).morePlanes = gr.morePlanes := rfl
@[simp] theorem Group.putV_posTags (gr : Group) (r : Nat) (m : LaneMask) (f : Nat → Word) : (gr.putV r m f).posTags = gr.posTags := rfl
@[simp] theorem Group.putV_brDests (gr : Group) (r : Nat) (m : LaneMask) (f : Nat → Word) : (gr.putV r m f).brDests = gr.brDests := rfl
@[simp] theorem Group.putV_mask (gr : Group) (r : Nat) (m : LaneMask) (f : Nat → Word) : (gr.putV r m f).mask = gr.mask := rfl
@[simp] theorem Group.putV_recOff (gr : Group) (r : Nat) (m : LaneMask) (f : Nat → Word) : (gr.putV r m f).recOff = gr.recOff := rfl
@[simp] theorem Group.putV_stack (gr : Group) (r : Nat) (m : LaneMask) (f : Nat → Word) : (gr.putV r m f).stack = gr.stack := rfl
@[simp] theorem Group.putV_exited (gr : Group) (r : Nat) (m : LaneMask) (f : Nat → Word) : (gr.putV r m f).exited = gr.exited := rfl
@[simp] theorem Group.putV_planes (gr : Group) (r : Nat) (m : LaneMask) (f : Nat → Word) : (gr.putV r m f).planes = gr.planes := rfl
@[simp] theorem Group.putV_tilewNext (gr : Group) (r : Nat) (m : LaneMask) (f : Nat → Word) : (gr.putV r m f).tilewNext = gr.tilewNext := rfl
@[simp] theorem Group.putV_tilew (gr : Group) (r : Nat) (m : LaneMask) (f : Nat → Word) : (gr.putV r m f).tilew = gr.tilew := rfl
@[simp] theorem Group.putV_cshape (gr : Group) (r : Nat) (m : LaneMask) (f : Nat → Word) : (gr.putV r m f).cshape = gr.cshape := rfl
@[simp] theorem Group.putV_gridx (gr : Group) (r : Nat) (m : LaneMask) (f : Nat → Word) : (gr.putV r m f).gridx = gr.gridx := rfl
@[simp] theorem Group.putV_gridy (gr : Group) (r : Nat) (m : LaneMask) (f : Nat → Word) : (gr.putV r m f).gridy = gr.gridy := rfl
@[simp] theorem Group.putV_gridz (gr : Group) (r : Nat) (m : LaneMask) (f : Nat → Word) : (gr.putV r m f).gridz = gr.gridz := rfl
@[simp] theorem Group.putV_gdimx (gr : Group) (r : Nat) (m : LaneMask) (f : Nat → Word) : (gr.putV r m f).gdimx = gr.gdimx := rfl
@[simp] theorem Group.putV_gdimy (gr : Group) (r : Nat) (m : LaneMask) (f : Nat → Word) : (gr.putV r m f).gdimy = gr.gdimy := rfl
@[simp] theorem Group.putV_gdimz (gr : Group) (r : Nat) (m : LaneMask) (f : Nat → Word) : (gr.putV r m f).gdimz = gr.gdimz := rfl
@[simp] theorem Group.putV_teamId (gr : Group) (r : Nat) (m : LaneMask) (f : Nat → Word) : (gr.putV r m f).teamId = gr.teamId := rfl
@[simp] theorem Group.putV_crank (gr : Group) (r : Nat) (m : LaneMask) (f : Nat → Word) : (gr.putV r m f).crank = gr.crank := rfl
@[simp] theorem Group.putV_node (gr : Group) (r : Nat) (m : LaneMask) (f : Nat → Word) : (gr.putV r m f).node = gr.node := rfl
@[simp] theorem Group.putV_lseq (gr : Group) (r : Nat) (m : LaneMask) (f : Nat → Word) : (gr.putV r m f).lseq = gr.lseq := rfl
@[simp] theorem Group.putV_gang (gr : Group) (r : Nat) (m : LaneMask) (f : Nat → Word) : (gr.putV r m f).gang = gr.gang := rfl
@[simp] theorem Group.putV_moved (gr : Group) (r : Nat) (m : LaneMask) (f : Nat → Word) : (gr.putV r m f).moved = gr.moved := rfl
@[simp] theorem Group.putV_sfault (gr : Group) (r : Nat) (m : LaneMask) (f : Nat → Word) : (gr.putV r m f).sfault = gr.sfault := rfl
@[simp] theorem Group.putV_park (gr : Group) (r : Nat) (m : LaneMask) (f : Nat → Word) : (gr.putV r m f).park = gr.park := rfl
@[simp] theorem Group.putV_parkArg (gr : Group) (r : Nat) (m : LaneMask) (f : Nat → Word) : (gr.putV r m f).parkArg = gr.parkArg := rfl
@[simp] theorem Group.putV_flt (gr : Group) (r : Nat) (m : LaneMask) (f : Nat → Word) : (gr.putV r m f).flt = gr.flt := rfl
@[simp] theorem Group.putV_engFault (gr : Group) (r : Nat) (m : LaneMask) (f : Nat → Word) : (gr.putV r m f).engFault = gr.engFault := rfl
@[simp] theorem Group.putV_replay (gr : Group) (r : Nat) (m : LaneMask) (f : Nat → Word) : (gr.putV r m f).replay = gr.replay := rfl
@[simp] theorem Group.putV_replayOp (gr : Group) (r : Nat) (m : LaneMask) (f : Nat → Word) : (gr.putV r m f).replayOp = gr.replayOp := rfl
@[simp] theorem Group.putV_wait (gr : Group) (r : Nat) (m : LaneMask) (f : Nat → Word) : (gr.putV r m f).wait = gr.wait := rfl
@[simp] theorem Group.putV_fence (gr : Group) (r : Nat) (m : LaneMask) (f : Nat → Word) : (gr.putV r m f).fence = gr.fence := rfl
@[simp] theorem Group.putV_after (gr : Group) (r : Nat) (m : LaneMask) (f : Nat → Word) : (gr.putV r m f).after = gr.after := rfl
@[simp] theorem Group.putV_fwd (gr : Group) (r : Nat) (m : LaneMask) (f : Nat → Word) : (gr.putV r m f).fwd = gr.fwd := rfl
@[simp] theorem Group.putV_trapped (gr : Group) (r : Nat) (m : LaneMask) (f : Nat → Word) : (gr.putV r m f).trapped = gr.trapped := rfl
@[simp] theorem Group.putV_trapRet (gr : Group) (r : Nat) (m : LaneMask) (f : Nat → Word) : (gr.putV r m f).trapRet = gr.trapRet := rfl
@[simp] theorem Group.putV_region (gr : Group) (r : Nat) (m : LaneMask) (f : Nat → Word) : (gr.putV r m f).region = gr.region := rfl
@[simp] theorem Group.putV_regionStores (gr : Group) (r : Nat) (m : LaneMask) (f : Nat → Word) : (gr.putV r m f).regionStores = gr.regionStores := rfl
@[simp] theorem Group.putV_joint (gr : Group) (r : Nat) (m : LaneMask) (f : Nat → Word) : (gr.putV r m f).joint = gr.joint := rfl
@[simp] theorem Group.putV_spawnLane (gr : Group) (r : Nat) (m : LaneMask) (f : Nat → Word) : (gr.putV r m f).spawnLane = gr.spawnLane := rfl
@[simp] theorem Group.putV_deposits (gr : Group) (r : Nat) (m : LaneMask) (f : Nat → Word) : (gr.putV r m f).deposits = gr.deposits := rfl
@[simp] theorem Group.putV_draw (gr : Group) (r : Nat) (m : LaneMask) (f : Nat → Word) : (gr.putV r m f).draw = gr.draw := rfl
@[simp] theorem Group.putV_hvsel (gr : Group) (r : Nat) (m : LaneMask) (f : Nat → Word) : (gr.putV r m f).hvsel = gr.hvsel := rfl
@[simp] theorem Group.putV_held (gr : Group) (r : Nat) (m : LaneMask) (f : Nat → Word) : (gr.putV r m f).held = gr.held := rfl
@[simp] theorem Group.putV_heldWalk (gr : Group) (r : Nat) (m : LaneMask) (f : Nat → Word) : (gr.putV r m f).heldWalk = gr.heldWalk := rfl
@[simp] theorem Group.putV_heldAts (gr : Group) (r : Nat) (m : LaneMask) (f : Nat → Word) : (gr.putV r m f).heldAts = gr.heldAts := rfl
@[simp] theorem Group.putV_walked (gr : Group) (r : Nat) (m : LaneMask) (f : Nat → Word) : (gr.putV r m f).walked = gr.walked := rfl
@[simp] theorem Group.putV_refused (gr : Group) (r : Nat) (m : LaneMask) (f : Nat → Word) : (gr.putV r m f).refused = gr.refused := rfl
@[simp] theorem Group.putV_notReady (gr : Group) (r : Nat) (m : LaneMask) (f : Nat → Word) : (gr.putV r m f).notReady = gr.notReady := rfl
@[simp] theorem Group.putV_clobber (gr : Group) (r : Nat) (m : LaneMask) (f : Nat → Word) : (gr.putV r m f).clobber = gr.clobber := rfl

/-! ### Group.setPath -/

@[simp] theorem Group.setPath_live (gr : Group) (p : Path) : (gr.setPath p).live = gr.live := rfl
@[simp] theorem Group.setPath_team (gr : Group) (p : Path) : (gr.setPath p).team = gr.team := rfl
@[simp] theorem Group.setPath_idx (gr : Group) (p : Path) : (gr.setPath p).idx = gr.idx := rfl
@[simp] theorem Group.setPath_role (gr : Group) (p : Path) : (gr.setPath p).role = gr.role := rfl
@[simp] theorem Group.setPath_vf (gr : Group) (p : Path) : (gr.setPath p).vf = gr.vf := rfl
@[simp] theorem Group.setPath_mode (gr : Group) (p : Path) : (gr.setPath p).mode = gr.mode := rfl
@[simp] theorem Group.setPath_slot (gr : Group) (p : Path) : (gr.setPath p).slot = gr.slot := rfl
@[simp] theorem Group.setPath_blocks (gr : Group) (p : Path) : (gr.setPath p).blocks = gr.blocks := rfl
@[simp] theorem Group.setPath_vregs (gr : Group) (p : Path) : (gr.setPath p).vregs = gr.vregs := rfl
@[simp] theorem Group.setPath_vtags (gr : Group) (p : Path) : (gr.setPath p).vtags = gr.vtags := rfl
@[simp] theorem Group.setPath_sregs (gr : Group) (p : Path) : (gr.setPath p).sregs = gr.sregs := rfl
@[simp] theorem Group.setPath_pregs (gr : Group) (p : Path) : (gr.setPath p).pregs = gr.pregs := rfl
@[simp] theorem Group.setPath_qregs (gr : Group) (p : Path) : (gr.setPath p).qregs = gr.qregs := rfl
@[simp] theorem Group.setPath_ctrs (gr : Group) (p : Path) : (gr.setPath p).ctrs = gr.ctrs := rfl
@[simp] theorem Group.setPath_bts (gr : Group) (p : Path) : (gr.setPath p).bts = gr.bts := rfl
@[simp] theorem Group.setPath_inClause (gr : Group) (p : Path) : (gr.setPath p).inClause = gr.inClause := rfl
@[simp] theorem Group.setPath_clause (gr : Group) (p : Path) : (gr.setPath p).clause = gr.clause := rfl
@[simp] theorem Group.setPath_nextClause (gr : Group) (p : Path) : (gr.setPath p).nextClause = gr.nextClause := rfl
@[simp] theorem Group.setPath_word (gr : Group) (p : Path) : (gr.setPath p).word = gr.word := rfl
@[simp] theorem Group.setPath_count (gr : Group) (p : Path) : (gr.setPath p).count = gr.count := rfl
@[simp] theorem Group.setPath_cls (gr : Group) (p : Path) : (gr.setPath p).cls = gr.cls := rfl
@[simp] theorem Group.setPath_unif (gr : Group) (p : Path) : (gr.setPath p).unif = gr.unif := rfl
@[simp] theorem Group.setPath_yields (gr : Group) (p : Path) : (gr.setPath p).yields = gr.yields := rfl
@[simp] theorem Group.setPath_headerWait (gr : Group) (p : Path) : (gr.setPath p).headerWait = gr.headerWait := rfl
@[simp] theorem Group.setPath_snap (gr : Group) (p : Path) : (gr.setPath p).snap = gr.snap := rfl
@[simp] theorem Group.setPath_planeFrom (gr : Group) (p : Path) : (gr.setPath p).planeFrom = gr.planeFrom := rfl
@[simp] theorem Group.setPath_morePlanes (gr : Group) (p : Path) : (gr.setPath p).morePlanes = gr.morePlanes := rfl
@[simp] theorem Group.setPath_posTags (gr : Group) (p : Path) : (gr.setPath p).posTags = gr.posTags := rfl
@[simp] theorem Group.setPath_brDests (gr : Group) (p : Path) : (gr.setPath p).brDests = gr.brDests := rfl
@[simp] theorem Group.setPath_exited (gr : Group) (p : Path) : (gr.setPath p).exited = gr.exited := rfl
@[simp] theorem Group.setPath_planes (gr : Group) (p : Path) : (gr.setPath p).planes = gr.planes := rfl
@[simp] theorem Group.setPath_tilewNext (gr : Group) (p : Path) : (gr.setPath p).tilewNext = gr.tilewNext := rfl
@[simp] theorem Group.setPath_tilew (gr : Group) (p : Path) : (gr.setPath p).tilew = gr.tilew := rfl
@[simp] theorem Group.setPath_cshape (gr : Group) (p : Path) : (gr.setPath p).cshape = gr.cshape := rfl
@[simp] theorem Group.setPath_gridx (gr : Group) (p : Path) : (gr.setPath p).gridx = gr.gridx := rfl
@[simp] theorem Group.setPath_gridy (gr : Group) (p : Path) : (gr.setPath p).gridy = gr.gridy := rfl
@[simp] theorem Group.setPath_gridz (gr : Group) (p : Path) : (gr.setPath p).gridz = gr.gridz := rfl
@[simp] theorem Group.setPath_gdimx (gr : Group) (p : Path) : (gr.setPath p).gdimx = gr.gdimx := rfl
@[simp] theorem Group.setPath_gdimy (gr : Group) (p : Path) : (gr.setPath p).gdimy = gr.gdimy := rfl
@[simp] theorem Group.setPath_gdimz (gr : Group) (p : Path) : (gr.setPath p).gdimz = gr.gdimz := rfl
@[simp] theorem Group.setPath_teamId (gr : Group) (p : Path) : (gr.setPath p).teamId = gr.teamId := rfl
@[simp] theorem Group.setPath_crank (gr : Group) (p : Path) : (gr.setPath p).crank = gr.crank := rfl
@[simp] theorem Group.setPath_node (gr : Group) (p : Path) : (gr.setPath p).node = gr.node := rfl
@[simp] theorem Group.setPath_lseq (gr : Group) (p : Path) : (gr.setPath p).lseq = gr.lseq := rfl
@[simp] theorem Group.setPath_gang (gr : Group) (p : Path) : (gr.setPath p).gang = gr.gang := rfl
@[simp] theorem Group.setPath_moved (gr : Group) (p : Path) : (gr.setPath p).moved = gr.moved := rfl
@[simp] theorem Group.setPath_sfault (gr : Group) (p : Path) : (gr.setPath p).sfault = gr.sfault := rfl
@[simp] theorem Group.setPath_park (gr : Group) (p : Path) : (gr.setPath p).park = gr.park := rfl
@[simp] theorem Group.setPath_parkArg (gr : Group) (p : Path) : (gr.setPath p).parkArg = gr.parkArg := rfl
@[simp] theorem Group.setPath_flt (gr : Group) (p : Path) : (gr.setPath p).flt = gr.flt := rfl
@[simp] theorem Group.setPath_engFault (gr : Group) (p : Path) : (gr.setPath p).engFault = gr.engFault := rfl
@[simp] theorem Group.setPath_replay (gr : Group) (p : Path) : (gr.setPath p).replay = gr.replay := rfl
@[simp] theorem Group.setPath_replayOp (gr : Group) (p : Path) : (gr.setPath p).replayOp = gr.replayOp := rfl
@[simp] theorem Group.setPath_wait (gr : Group) (p : Path) : (gr.setPath p).wait = gr.wait := rfl
@[simp] theorem Group.setPath_fence (gr : Group) (p : Path) : (gr.setPath p).fence = gr.fence := rfl
@[simp] theorem Group.setPath_after (gr : Group) (p : Path) : (gr.setPath p).after = gr.after := rfl
@[simp] theorem Group.setPath_fwd (gr : Group) (p : Path) : (gr.setPath p).fwd = gr.fwd := rfl
@[simp] theorem Group.setPath_trapped (gr : Group) (p : Path) : (gr.setPath p).trapped = gr.trapped := rfl
@[simp] theorem Group.setPath_trapRet (gr : Group) (p : Path) : (gr.setPath p).trapRet = gr.trapRet := rfl
@[simp] theorem Group.setPath_region (gr : Group) (p : Path) : (gr.setPath p).region = gr.region := rfl
@[simp] theorem Group.setPath_regionStores (gr : Group) (p : Path) : (gr.setPath p).regionStores = gr.regionStores := rfl
@[simp] theorem Group.setPath_joint (gr : Group) (p : Path) : (gr.setPath p).joint = gr.joint := rfl
@[simp] theorem Group.setPath_spawnLane (gr : Group) (p : Path) : (gr.setPath p).spawnLane = gr.spawnLane := rfl
@[simp] theorem Group.setPath_deposits (gr : Group) (p : Path) : (gr.setPath p).deposits = gr.deposits := rfl
@[simp] theorem Group.setPath_draw (gr : Group) (p : Path) : (gr.setPath p).draw = gr.draw := rfl
@[simp] theorem Group.setPath_hvsel (gr : Group) (p : Path) : (gr.setPath p).hvsel = gr.hvsel := rfl
@[simp] theorem Group.setPath_held (gr : Group) (p : Path) : (gr.setPath p).held = gr.held := rfl
@[simp] theorem Group.setPath_heldWalk (gr : Group) (p : Path) : (gr.setPath p).heldWalk = gr.heldWalk := rfl
@[simp] theorem Group.setPath_heldAts (gr : Group) (p : Path) : (gr.setPath p).heldAts = gr.heldAts := rfl
@[simp] theorem Group.setPath_walked (gr : Group) (p : Path) : (gr.setPath p).walked = gr.walked := rfl
@[simp] theorem Group.setPath_refused (gr : Group) (p : Path) : (gr.setPath p).refused = gr.refused := rfl
@[simp] theorem Group.setPath_notReady (gr : Group) (p : Path) : (gr.setPath p).notReady = gr.notReady := rfl
@[simp] theorem Group.setPath_clobber (gr : Group) (p : Path) : (gr.setPath p).clobber = gr.clobber := rfl
@[simp] theorem Group.setPath_vpoison (gr : Group) (p : Path) : (gr.setPath p).vpoison = gr.vpoison := rfl

/-! ### Group.goto -/

@[simp] theorem Group.goto_live (gr : Group) (o : Nat) : (gr.goto o).live = gr.live := rfl
@[simp] theorem Group.goto_team (gr : Group) (o : Nat) : (gr.goto o).team = gr.team := rfl
@[simp] theorem Group.goto_idx (gr : Group) (o : Nat) : (gr.goto o).idx = gr.idx := rfl
@[simp] theorem Group.goto_role (gr : Group) (o : Nat) : (gr.goto o).role = gr.role := rfl
@[simp] theorem Group.goto_vf (gr : Group) (o : Nat) : (gr.goto o).vf = gr.vf := rfl
@[simp] theorem Group.goto_mode (gr : Group) (o : Nat) : (gr.goto o).mode = gr.mode := rfl
@[simp] theorem Group.goto_slot (gr : Group) (o : Nat) : (gr.goto o).slot = gr.slot := rfl
@[simp] theorem Group.goto_blocks (gr : Group) (o : Nat) : (gr.goto o).blocks = gr.blocks := rfl
@[simp] theorem Group.goto_vregs (gr : Group) (o : Nat) : (gr.goto o).vregs = gr.vregs := rfl
@[simp] theorem Group.goto_vtags (gr : Group) (o : Nat) : (gr.goto o).vtags = gr.vtags := rfl
@[simp] theorem Group.goto_sregs (gr : Group) (o : Nat) : (gr.goto o).sregs = gr.sregs := rfl
@[simp] theorem Group.goto_pregs (gr : Group) (o : Nat) : (gr.goto o).pregs = gr.pregs := rfl
@[simp] theorem Group.goto_qregs (gr : Group) (o : Nat) : (gr.goto o).qregs = gr.qregs := rfl
@[simp] theorem Group.goto_ctrs (gr : Group) (o : Nat) : (gr.goto o).ctrs = gr.ctrs := rfl
@[simp] theorem Group.goto_bts (gr : Group) (o : Nat) : (gr.goto o).bts = gr.bts := rfl
@[simp] theorem Group.goto_clause (gr : Group) (o : Nat) : (gr.goto o).clause = gr.clause := rfl
@[simp] theorem Group.goto_nextClause (gr : Group) (o : Nat) : (gr.goto o).nextClause = gr.nextClause := rfl
@[simp] theorem Group.goto_word (gr : Group) (o : Nat) : (gr.goto o).word = gr.word := rfl
@[simp] theorem Group.goto_count (gr : Group) (o : Nat) : (gr.goto o).count = gr.count := rfl
@[simp] theorem Group.goto_cls (gr : Group) (o : Nat) : (gr.goto o).cls = gr.cls := rfl
@[simp] theorem Group.goto_unif (gr : Group) (o : Nat) : (gr.goto o).unif = gr.unif := rfl
@[simp] theorem Group.goto_yields (gr : Group) (o : Nat) : (gr.goto o).yields = gr.yields := rfl
@[simp] theorem Group.goto_headerWait (gr : Group) (o : Nat) : (gr.goto o).headerWait = gr.headerWait := rfl
@[simp] theorem Group.goto_snap (gr : Group) (o : Nat) : (gr.goto o).snap = gr.snap := rfl
@[simp] theorem Group.goto_morePlanes (gr : Group) (o : Nat) : (gr.goto o).morePlanes = gr.morePlanes := rfl
@[simp] theorem Group.goto_mask (gr : Group) (o : Nat) : (gr.goto o).mask = gr.mask := rfl
@[simp] theorem Group.goto_recOff (gr : Group) (o : Nat) : (gr.goto o).recOff = gr.recOff := rfl
@[simp] theorem Group.goto_stack (gr : Group) (o : Nat) : (gr.goto o).stack = gr.stack := rfl
@[simp] theorem Group.goto_exited (gr : Group) (o : Nat) : (gr.goto o).exited = gr.exited := rfl
@[simp] theorem Group.goto_planes (gr : Group) (o : Nat) : (gr.goto o).planes = gr.planes := rfl
@[simp] theorem Group.goto_tilewNext (gr : Group) (o : Nat) : (gr.goto o).tilewNext = gr.tilewNext := rfl
@[simp] theorem Group.goto_tilew (gr : Group) (o : Nat) : (gr.goto o).tilew = gr.tilew := rfl
@[simp] theorem Group.goto_cshape (gr : Group) (o : Nat) : (gr.goto o).cshape = gr.cshape := rfl
@[simp] theorem Group.goto_gridx (gr : Group) (o : Nat) : (gr.goto o).gridx = gr.gridx := rfl
@[simp] theorem Group.goto_gridy (gr : Group) (o : Nat) : (gr.goto o).gridy = gr.gridy := rfl
@[simp] theorem Group.goto_gridz (gr : Group) (o : Nat) : (gr.goto o).gridz = gr.gridz := rfl
@[simp] theorem Group.goto_gdimx (gr : Group) (o : Nat) : (gr.goto o).gdimx = gr.gdimx := rfl
@[simp] theorem Group.goto_gdimy (gr : Group) (o : Nat) : (gr.goto o).gdimy = gr.gdimy := rfl
@[simp] theorem Group.goto_gdimz (gr : Group) (o : Nat) : (gr.goto o).gdimz = gr.gdimz := rfl
@[simp] theorem Group.goto_teamId (gr : Group) (o : Nat) : (gr.goto o).teamId = gr.teamId := rfl
@[simp] theorem Group.goto_crank (gr : Group) (o : Nat) : (gr.goto o).crank = gr.crank := rfl
@[simp] theorem Group.goto_node (gr : Group) (o : Nat) : (gr.goto o).node = gr.node := rfl
@[simp] theorem Group.goto_lseq (gr : Group) (o : Nat) : (gr.goto o).lseq = gr.lseq := rfl
@[simp] theorem Group.goto_gang (gr : Group) (o : Nat) : (gr.goto o).gang = gr.gang := rfl
@[simp] theorem Group.goto_moved (gr : Group) (o : Nat) : (gr.goto o).moved = gr.moved := rfl
@[simp] theorem Group.goto_sfault (gr : Group) (o : Nat) : (gr.goto o).sfault = gr.sfault := rfl
@[simp] theorem Group.goto_park (gr : Group) (o : Nat) : (gr.goto o).park = gr.park := rfl
@[simp] theorem Group.goto_parkArg (gr : Group) (o : Nat) : (gr.goto o).parkArg = gr.parkArg := rfl
@[simp] theorem Group.goto_flt (gr : Group) (o : Nat) : (gr.goto o).flt = gr.flt := rfl
@[simp] theorem Group.goto_engFault (gr : Group) (o : Nat) : (gr.goto o).engFault = gr.engFault := rfl
@[simp] theorem Group.goto_replay (gr : Group) (o : Nat) : (gr.goto o).replay = gr.replay := rfl
@[simp] theorem Group.goto_replayOp (gr : Group) (o : Nat) : (gr.goto o).replayOp = gr.replayOp := rfl
@[simp] theorem Group.goto_wait (gr : Group) (o : Nat) : (gr.goto o).wait = gr.wait := rfl
@[simp] theorem Group.goto_fence (gr : Group) (o : Nat) : (gr.goto o).fence = gr.fence := rfl
@[simp] theorem Group.goto_after (gr : Group) (o : Nat) : (gr.goto o).after = gr.after := rfl
@[simp] theorem Group.goto_fwd (gr : Group) (o : Nat) : (gr.goto o).fwd = gr.fwd := rfl
@[simp] theorem Group.goto_trapped (gr : Group) (o : Nat) : (gr.goto o).trapped = gr.trapped := rfl
@[simp] theorem Group.goto_trapRet (gr : Group) (o : Nat) : (gr.goto o).trapRet = gr.trapRet := rfl
@[simp] theorem Group.goto_region (gr : Group) (o : Nat) : (gr.goto o).region = gr.region := rfl
@[simp] theorem Group.goto_regionStores (gr : Group) (o : Nat) : (gr.goto o).regionStores = gr.regionStores := rfl
@[simp] theorem Group.goto_joint (gr : Group) (o : Nat) : (gr.goto o).joint = gr.joint := rfl
@[simp] theorem Group.goto_spawnLane (gr : Group) (o : Nat) : (gr.goto o).spawnLane = gr.spawnLane := rfl
@[simp] theorem Group.goto_deposits (gr : Group) (o : Nat) : (gr.goto o).deposits = gr.deposits := rfl
@[simp] theorem Group.goto_draw (gr : Group) (o : Nat) : (gr.goto o).draw = gr.draw := rfl
@[simp] theorem Group.goto_hvsel (gr : Group) (o : Nat) : (gr.goto o).hvsel = gr.hvsel := rfl
@[simp] theorem Group.goto_held (gr : Group) (o : Nat) : (gr.goto o).held = gr.held := rfl
@[simp] theorem Group.goto_heldWalk (gr : Group) (o : Nat) : (gr.goto o).heldWalk = gr.heldWalk := rfl
@[simp] theorem Group.goto_heldAts (gr : Group) (o : Nat) : (gr.goto o).heldAts = gr.heldAts := rfl
@[simp] theorem Group.goto_walked (gr : Group) (o : Nat) : (gr.goto o).walked = gr.walked := rfl
@[simp] theorem Group.goto_refused (gr : Group) (o : Nat) : (gr.goto o).refused = gr.refused := rfl
@[simp] theorem Group.goto_notReady (gr : Group) (o : Nat) : (gr.goto o).notReady = gr.notReady := rfl
@[simp] theorem Group.goto_clobber (gr : Group) (o : Nat) : (gr.goto o).clobber = gr.clobber := rfl
@[simp] theorem Group.goto_vpoison (gr : Group) (o : Nat) : (gr.goto o).vpoison = gr.vpoison := rfl

/-! ### Group.rewind -/

@[simp] theorem Group.rewind_live (gr : Group) (i : Issue) : (gr.rewind i).live = gr.live := rfl
@[simp] theorem Group.rewind_team (gr : Group) (i : Issue) : (gr.rewind i).team = gr.team := rfl
@[simp] theorem Group.rewind_idx (gr : Group) (i : Issue) : (gr.rewind i).idx = gr.idx := rfl
@[simp] theorem Group.rewind_role (gr : Group) (i : Issue) : (gr.rewind i).role = gr.role := rfl
@[simp] theorem Group.rewind_vf (gr : Group) (i : Issue) : (gr.rewind i).vf = gr.vf := rfl
@[simp] theorem Group.rewind_mode (gr : Group) (i : Issue) : (gr.rewind i).mode = gr.mode := rfl
@[simp] theorem Group.rewind_slot (gr : Group) (i : Issue) : (gr.rewind i).slot = gr.slot := rfl
@[simp] theorem Group.rewind_blocks (gr : Group) (i : Issue) : (gr.rewind i).blocks = gr.blocks := rfl
@[simp] theorem Group.rewind_vregs (gr : Group) (i : Issue) : (gr.rewind i).vregs = gr.vregs := rfl
@[simp] theorem Group.rewind_vtags (gr : Group) (i : Issue) : (gr.rewind i).vtags = gr.vtags := rfl
@[simp] theorem Group.rewind_sregs (gr : Group) (i : Issue) : (gr.rewind i).sregs = gr.sregs := rfl
@[simp] theorem Group.rewind_pregs (gr : Group) (i : Issue) : (gr.rewind i).pregs = gr.pregs := rfl
@[simp] theorem Group.rewind_qregs (gr : Group) (i : Issue) : (gr.rewind i).qregs = gr.qregs := rfl
@[simp] theorem Group.rewind_ctrs (gr : Group) (i : Issue) : (gr.rewind i).ctrs = gr.ctrs := rfl
@[simp] theorem Group.rewind_bts (gr : Group) (i : Issue) : (gr.rewind i).bts = gr.bts := rfl
@[simp] theorem Group.rewind_clause (gr : Group) (i : Issue) : (gr.rewind i).clause = gr.clause := rfl
@[simp] theorem Group.rewind_nextClause (gr : Group) (i : Issue) : (gr.rewind i).nextClause = gr.nextClause := rfl
@[simp] theorem Group.rewind_count (gr : Group) (i : Issue) : (gr.rewind i).count = gr.count := rfl
@[simp] theorem Group.rewind_cls (gr : Group) (i : Issue) : (gr.rewind i).cls = gr.cls := rfl
@[simp] theorem Group.rewind_unif (gr : Group) (i : Issue) : (gr.rewind i).unif = gr.unif := rfl
@[simp] theorem Group.rewind_yields (gr : Group) (i : Issue) : (gr.rewind i).yields = gr.yields := rfl
@[simp] theorem Group.rewind_headerWait (gr : Group) (i : Issue) : (gr.rewind i).headerWait = gr.headerWait := rfl
@[simp] theorem Group.rewind_snap (gr : Group) (i : Issue) : (gr.rewind i).snap = gr.snap := rfl
@[simp] theorem Group.rewind_posTags (gr : Group) (i : Issue) : (gr.rewind i).posTags = gr.posTags := rfl
@[simp] theorem Group.rewind_brDests (gr : Group) (i : Issue) : (gr.rewind i).brDests = gr.brDests := rfl
@[simp] theorem Group.rewind_mask (gr : Group) (i : Issue) : (gr.rewind i).mask = gr.mask := rfl
@[simp] theorem Group.rewind_recOff (gr : Group) (i : Issue) : (gr.rewind i).recOff = gr.recOff := rfl
@[simp] theorem Group.rewind_stack (gr : Group) (i : Issue) : (gr.rewind i).stack = gr.stack := rfl
@[simp] theorem Group.rewind_exited (gr : Group) (i : Issue) : (gr.rewind i).exited = gr.exited := rfl
@[simp] theorem Group.rewind_planes (gr : Group) (i : Issue) : (gr.rewind i).planes = gr.planes := rfl
@[simp] theorem Group.rewind_tilewNext (gr : Group) (i : Issue) : (gr.rewind i).tilewNext = gr.tilewNext := rfl
@[simp] theorem Group.rewind_tilew (gr : Group) (i : Issue) : (gr.rewind i).tilew = gr.tilew := rfl
@[simp] theorem Group.rewind_cshape (gr : Group) (i : Issue) : (gr.rewind i).cshape = gr.cshape := rfl
@[simp] theorem Group.rewind_gridx (gr : Group) (i : Issue) : (gr.rewind i).gridx = gr.gridx := rfl
@[simp] theorem Group.rewind_gridy (gr : Group) (i : Issue) : (gr.rewind i).gridy = gr.gridy := rfl
@[simp] theorem Group.rewind_gridz (gr : Group) (i : Issue) : (gr.rewind i).gridz = gr.gridz := rfl
@[simp] theorem Group.rewind_gdimx (gr : Group) (i : Issue) : (gr.rewind i).gdimx = gr.gdimx := rfl
@[simp] theorem Group.rewind_gdimy (gr : Group) (i : Issue) : (gr.rewind i).gdimy = gr.gdimy := rfl
@[simp] theorem Group.rewind_gdimz (gr : Group) (i : Issue) : (gr.rewind i).gdimz = gr.gdimz := rfl
@[simp] theorem Group.rewind_teamId (gr : Group) (i : Issue) : (gr.rewind i).teamId = gr.teamId := rfl
@[simp] theorem Group.rewind_crank (gr : Group) (i : Issue) : (gr.rewind i).crank = gr.crank := rfl
@[simp] theorem Group.rewind_node (gr : Group) (i : Issue) : (gr.rewind i).node = gr.node := rfl
@[simp] theorem Group.rewind_lseq (gr : Group) (i : Issue) : (gr.rewind i).lseq = gr.lseq := rfl
@[simp] theorem Group.rewind_gang (gr : Group) (i : Issue) : (gr.rewind i).gang = gr.gang := rfl
@[simp] theorem Group.rewind_moved (gr : Group) (i : Issue) : (gr.rewind i).moved = gr.moved := rfl
@[simp] theorem Group.rewind_sfault (gr : Group) (i : Issue) : (gr.rewind i).sfault = gr.sfault := rfl
@[simp] theorem Group.rewind_park (gr : Group) (i : Issue) : (gr.rewind i).park = gr.park := rfl
@[simp] theorem Group.rewind_parkArg (gr : Group) (i : Issue) : (gr.rewind i).parkArg = gr.parkArg := rfl
@[simp] theorem Group.rewind_flt (gr : Group) (i : Issue) : (gr.rewind i).flt = gr.flt := rfl
@[simp] theorem Group.rewind_engFault (gr : Group) (i : Issue) : (gr.rewind i).engFault = gr.engFault := rfl
@[simp] theorem Group.rewind_replay (gr : Group) (i : Issue) : (gr.rewind i).replay = gr.replay := rfl
@[simp] theorem Group.rewind_replayOp (gr : Group) (i : Issue) : (gr.rewind i).replayOp = gr.replayOp := rfl
@[simp] theorem Group.rewind_wait (gr : Group) (i : Issue) : (gr.rewind i).wait = gr.wait := rfl
@[simp] theorem Group.rewind_fence (gr : Group) (i : Issue) : (gr.rewind i).fence = gr.fence := rfl
@[simp] theorem Group.rewind_after (gr : Group) (i : Issue) : (gr.rewind i).after = gr.after := rfl
@[simp] theorem Group.rewind_fwd (gr : Group) (i : Issue) : (gr.rewind i).fwd = gr.fwd := rfl
@[simp] theorem Group.rewind_trapped (gr : Group) (i : Issue) : (gr.rewind i).trapped = gr.trapped := rfl
@[simp] theorem Group.rewind_trapRet (gr : Group) (i : Issue) : (gr.rewind i).trapRet = gr.trapRet := rfl
@[simp] theorem Group.rewind_region (gr : Group) (i : Issue) : (gr.rewind i).region = gr.region := rfl
@[simp] theorem Group.rewind_regionStores (gr : Group) (i : Issue) : (gr.rewind i).regionStores = gr.regionStores := rfl
@[simp] theorem Group.rewind_joint (gr : Group) (i : Issue) : (gr.rewind i).joint = gr.joint := rfl
@[simp] theorem Group.rewind_spawnLane (gr : Group) (i : Issue) : (gr.rewind i).spawnLane = gr.spawnLane := rfl
@[simp] theorem Group.rewind_deposits (gr : Group) (i : Issue) : (gr.rewind i).deposits = gr.deposits := rfl
@[simp] theorem Group.rewind_draw (gr : Group) (i : Issue) : (gr.rewind i).draw = gr.draw := rfl
@[simp] theorem Group.rewind_hvsel (gr : Group) (i : Issue) : (gr.rewind i).hvsel = gr.hvsel := rfl
@[simp] theorem Group.rewind_held (gr : Group) (i : Issue) : (gr.rewind i).held = gr.held := rfl
@[simp] theorem Group.rewind_heldWalk (gr : Group) (i : Issue) : (gr.rewind i).heldWalk = gr.heldWalk := rfl
@[simp] theorem Group.rewind_heldAts (gr : Group) (i : Issue) : (gr.rewind i).heldAts = gr.heldAts := rfl
@[simp] theorem Group.rewind_walked (gr : Group) (i : Issue) : (gr.rewind i).walked = gr.walked := rfl
@[simp] theorem Group.rewind_refused (gr : Group) (i : Issue) : (gr.rewind i).refused = gr.refused := rfl
@[simp] theorem Group.rewind_notReady (gr : Group) (i : Issue) : (gr.rewind i).notReady = gr.notReady := rfl
@[simp] theorem Group.rewind_clobber (gr : Group) (i : Issue) : (gr.rewind i).clobber = gr.clobber := rfl
@[simp] theorem Group.rewind_vpoison (gr : Group) (i : Issue) : (gr.rewind i).vpoison = gr.vpoison := rfl

/-! ### Group.clearTrapped -/

@[simp] theorem Group.clearTrapped_live (gr : Group) : (gr.clearTrapped).live = gr.live := rfl
@[simp] theorem Group.clearTrapped_team (gr : Group) : (gr.clearTrapped).team = gr.team := rfl
@[simp] theorem Group.clearTrapped_idx (gr : Group) : (gr.clearTrapped).idx = gr.idx := rfl
@[simp] theorem Group.clearTrapped_role (gr : Group) : (gr.clearTrapped).role = gr.role := rfl
@[simp] theorem Group.clearTrapped_vf (gr : Group) : (gr.clearTrapped).vf = gr.vf := rfl
@[simp] theorem Group.clearTrapped_mode (gr : Group) : (gr.clearTrapped).mode = gr.mode := rfl
@[simp] theorem Group.clearTrapped_slot (gr : Group) : (gr.clearTrapped).slot = gr.slot := rfl
@[simp] theorem Group.clearTrapped_blocks (gr : Group) : (gr.clearTrapped).blocks = gr.blocks := rfl
@[simp] theorem Group.clearTrapped_vregs (gr : Group) : (gr.clearTrapped).vregs = gr.vregs := rfl
@[simp] theorem Group.clearTrapped_vtags (gr : Group) : (gr.clearTrapped).vtags = gr.vtags := rfl
@[simp] theorem Group.clearTrapped_sregs (gr : Group) : (gr.clearTrapped).sregs = gr.sregs := rfl
@[simp] theorem Group.clearTrapped_pregs (gr : Group) : (gr.clearTrapped).pregs = gr.pregs := rfl
@[simp] theorem Group.clearTrapped_qregs (gr : Group) : (gr.clearTrapped).qregs = gr.qregs := rfl
@[simp] theorem Group.clearTrapped_ctrs (gr : Group) : (gr.clearTrapped).ctrs = gr.ctrs := rfl
@[simp] theorem Group.clearTrapped_bts (gr : Group) : (gr.clearTrapped).bts = gr.bts := rfl
@[simp] theorem Group.clearTrapped_off (gr : Group) : (gr.clearTrapped).off = gr.off := rfl
@[simp] theorem Group.clearTrapped_inClause (gr : Group) : (gr.clearTrapped).inClause = gr.inClause := rfl
@[simp] theorem Group.clearTrapped_clause (gr : Group) : (gr.clearTrapped).clause = gr.clause := rfl
@[simp] theorem Group.clearTrapped_nextClause (gr : Group) : (gr.clearTrapped).nextClause = gr.nextClause := rfl
@[simp] theorem Group.clearTrapped_word (gr : Group) : (gr.clearTrapped).word = gr.word := rfl
@[simp] theorem Group.clearTrapped_count (gr : Group) : (gr.clearTrapped).count = gr.count := rfl
@[simp] theorem Group.clearTrapped_cls (gr : Group) : (gr.clearTrapped).cls = gr.cls := rfl
@[simp] theorem Group.clearTrapped_unif (gr : Group) : (gr.clearTrapped).unif = gr.unif := rfl
@[simp] theorem Group.clearTrapped_yields (gr : Group) : (gr.clearTrapped).yields = gr.yields := rfl
@[simp] theorem Group.clearTrapped_headerWait (gr : Group) : (gr.clearTrapped).headerWait = gr.headerWait := rfl
@[simp] theorem Group.clearTrapped_snap (gr : Group) : (gr.clearTrapped).snap = gr.snap := rfl
@[simp] theorem Group.clearTrapped_planeFrom (gr : Group) : (gr.clearTrapped).planeFrom = gr.planeFrom := rfl
@[simp] theorem Group.clearTrapped_morePlanes (gr : Group) : (gr.clearTrapped).morePlanes = gr.morePlanes := rfl
@[simp] theorem Group.clearTrapped_posTags (gr : Group) : (gr.clearTrapped).posTags = gr.posTags := rfl
@[simp] theorem Group.clearTrapped_brDests (gr : Group) : (gr.clearTrapped).brDests = gr.brDests := rfl
@[simp] theorem Group.clearTrapped_mask (gr : Group) : (gr.clearTrapped).mask = gr.mask := rfl
@[simp] theorem Group.clearTrapped_recOff (gr : Group) : (gr.clearTrapped).recOff = gr.recOff := rfl
@[simp] theorem Group.clearTrapped_stack (gr : Group) : (gr.clearTrapped).stack = gr.stack := rfl
@[simp] theorem Group.clearTrapped_exited (gr : Group) : (gr.clearTrapped).exited = gr.exited := rfl
@[simp] theorem Group.clearTrapped_planes (gr : Group) : (gr.clearTrapped).planes = gr.planes := rfl
@[simp] theorem Group.clearTrapped_tilewNext (gr : Group) : (gr.clearTrapped).tilewNext = gr.tilewNext := rfl
@[simp] theorem Group.clearTrapped_tilew (gr : Group) : (gr.clearTrapped).tilew = gr.tilew := rfl
@[simp] theorem Group.clearTrapped_cshape (gr : Group) : (gr.clearTrapped).cshape = gr.cshape := rfl
@[simp] theorem Group.clearTrapped_gridx (gr : Group) : (gr.clearTrapped).gridx = gr.gridx := rfl
@[simp] theorem Group.clearTrapped_gridy (gr : Group) : (gr.clearTrapped).gridy = gr.gridy := rfl
@[simp] theorem Group.clearTrapped_gridz (gr : Group) : (gr.clearTrapped).gridz = gr.gridz := rfl
@[simp] theorem Group.clearTrapped_gdimx (gr : Group) : (gr.clearTrapped).gdimx = gr.gdimx := rfl
@[simp] theorem Group.clearTrapped_gdimy (gr : Group) : (gr.clearTrapped).gdimy = gr.gdimy := rfl
@[simp] theorem Group.clearTrapped_gdimz (gr : Group) : (gr.clearTrapped).gdimz = gr.gdimz := rfl
@[simp] theorem Group.clearTrapped_teamId (gr : Group) : (gr.clearTrapped).teamId = gr.teamId := rfl
@[simp] theorem Group.clearTrapped_crank (gr : Group) : (gr.clearTrapped).crank = gr.crank := rfl
@[simp] theorem Group.clearTrapped_node (gr : Group) : (gr.clearTrapped).node = gr.node := rfl
@[simp] theorem Group.clearTrapped_lseq (gr : Group) : (gr.clearTrapped).lseq = gr.lseq := rfl
@[simp] theorem Group.clearTrapped_gang (gr : Group) : (gr.clearTrapped).gang = gr.gang := rfl
@[simp] theorem Group.clearTrapped_moved (gr : Group) : (gr.clearTrapped).moved = gr.moved := rfl
@[simp] theorem Group.clearTrapped_sfault (gr : Group) : (gr.clearTrapped).sfault = gr.sfault := rfl
@[simp] theorem Group.clearTrapped_park (gr : Group) : (gr.clearTrapped).park = gr.park := rfl
@[simp] theorem Group.clearTrapped_parkArg (gr : Group) : (gr.clearTrapped).parkArg = gr.parkArg := rfl
@[simp] theorem Group.clearTrapped_flt (gr : Group) : (gr.clearTrapped).flt = gr.flt := rfl
@[simp] theorem Group.clearTrapped_engFault (gr : Group) : (gr.clearTrapped).engFault = gr.engFault := rfl
@[simp] theorem Group.clearTrapped_replay (gr : Group) : (gr.clearTrapped).replay = gr.replay := rfl
@[simp] theorem Group.clearTrapped_replayOp (gr : Group) : (gr.clearTrapped).replayOp = gr.replayOp := rfl
@[simp] theorem Group.clearTrapped_wait (gr : Group) : (gr.clearTrapped).wait = gr.wait := rfl
@[simp] theorem Group.clearTrapped_fence (gr : Group) : (gr.clearTrapped).fence = gr.fence := rfl
@[simp] theorem Group.clearTrapped_after (gr : Group) : (gr.clearTrapped).after = gr.after := rfl
@[simp] theorem Group.clearTrapped_fwd (gr : Group) : (gr.clearTrapped).fwd = gr.fwd := rfl
@[simp] theorem Group.clearTrapped_region (gr : Group) : (gr.clearTrapped).region = gr.region := rfl
@[simp] theorem Group.clearTrapped_regionStores (gr : Group) : (gr.clearTrapped).regionStores = gr.regionStores := rfl
@[simp] theorem Group.clearTrapped_joint (gr : Group) : (gr.clearTrapped).joint = gr.joint := rfl
@[simp] theorem Group.clearTrapped_spawnLane (gr : Group) : (gr.clearTrapped).spawnLane = gr.spawnLane := rfl
@[simp] theorem Group.clearTrapped_deposits (gr : Group) : (gr.clearTrapped).deposits = gr.deposits := rfl
@[simp] theorem Group.clearTrapped_draw (gr : Group) : (gr.clearTrapped).draw = gr.draw := rfl
@[simp] theorem Group.clearTrapped_hvsel (gr : Group) : (gr.clearTrapped).hvsel = gr.hvsel := rfl
@[simp] theorem Group.clearTrapped_held (gr : Group) : (gr.clearTrapped).held = gr.held := rfl
@[simp] theorem Group.clearTrapped_heldWalk (gr : Group) : (gr.clearTrapped).heldWalk = gr.heldWalk := rfl
@[simp] theorem Group.clearTrapped_heldAts (gr : Group) : (gr.clearTrapped).heldAts = gr.heldAts := rfl
@[simp] theorem Group.clearTrapped_walked (gr : Group) : (gr.clearTrapped).walked = gr.walked := rfl
@[simp] theorem Group.clearTrapped_refused (gr : Group) : (gr.clearTrapped).refused = gr.refused := rfl
@[simp] theorem Group.clearTrapped_notReady (gr : Group) : (gr.clearTrapped).notReady = gr.notReady := rfl
@[simp] theorem Group.clearTrapped_clobber (gr : Group) : (gr.clearTrapped).clobber = gr.clobber := rfl
@[simp] theorem Group.clearTrapped_vpoison (gr : Group) : (gr.clearTrapped).vpoison = gr.vpoison := rfl

end Sys2Proof.Machine
end

