-- ==== Sys2Proof/Laws/Registers.lean ====
section
/-!
SUPPORT. What each write of a register does: the value it leaves and everything it leaves unchanged; and that a read of a
register that no outstanding operation writes gives what is stored.
-/
namespace Sys2Proof.Machine
open Sys2Proof

/-! ### Pairs -/

theorem pairOf_lo_hi (v : DWord) : pairOf (loWord v) (hiWord v) = v := by
  apply BitVec.eq_of_getLsbD_eq
  intro i hi
  simp only [pairOf, loWord, hiWord, BitVec.getLsbD_append, BitVec.getLsbD_extractLsb']
  split
  · simp_all
  · have : i - 32 < 32 := by omega
    simp [this, show 32 + (i - 32) = i by omega]

/-! ### Groups and memory -/

theorem State.loadByte_setGrp (s : State) (g : Nat) (v : Group) (o : Observer) (a : Nat) :
    (s.setGrp g v).loadByte o a = s.loadByte o a := rfl

theorem sameMemory_setGrp (s : State) (g : Nat) (v : Group) : SameMemory s (s.setGrp g v) :=
  ⟨fun _ _ => rfl, fun _ => rfl, fun _ _ => rfl⟩

theorem onlyGroup_setGrp (s : State) (g : Nat) (v : Group) : OnlyGroup s (s.setGrp g v) g :=
  ⟨rfl, fun h hh => by rw [State.setGrp_grp, if_neg hh], sameMemory_setGrp s g v⟩

/-! ### Marks -/

/-- A write notes itself in the marks of its own place only. -/
theorem Group.noteWrite_eq (gr : Group) (ops : FMap Op) (p : Nat) :
    ∃ n c : FMap Nat, gr.noteWrite ops p = { gr with notReady := n, clobber := c } ∧
      (∀ q, q ≠ p → FMap.get n q = FMap.get gr.notReady q ∧ FMap.get c q = FMap.get gr.clobber q) := by
  unfold Group.noteWrite
  simp only
  split_ifs
  · exact ⟨_, _, rfl, fun q hq => ⟨rfl, FMap.get_set_other _ _ hq⟩⟩
  · exact ⟨_, _, rfl, fun q hq => ⟨FMap.get_set_other _ _ hq, FMap.get_set_other _ _ hq⟩⟩
  · exact ⟨_, _, rfl, fun q hq => ⟨FMap.get_set_other _ _ hq, rfl⟩⟩

/-! ### Scalar registers -/

/-- A write of a scalar register: its value, and its frame. -/
theorem State.writeS_spec (s : State) (r : Nat) (v : Word) :
    FMap.get ((s.writeS s.cur r v).grp s.cur).sregs r = v ∧ ScalarFrame s (s.writeS s.cur r v) [r] := by
  obtain ⟨n, c, h, hm⟩ := Group.noteWrite_eq (s.grp s.cur) s.ops (sPlace r)
  have e : s.writeS s.cur r v =
      s.setGrp s.cur { s.grp s.cur with
        sregs := FMap.set (s.grp s.cur).sregs r v, vpoison := FMap.set (s.grp s.cur).vpoison (sPlace r) false
        notReady := n, clobber := c } := by
    simp only [State.writeS, State.modGrp_eq, h, Group.putS]
  rw [e]
  refine ⟨by simp, onlyGroup_setGrp _ _ _, by simp, fun p hp => ?_, fun k hk => ?_, fun p hp => ?_⟩
  · simp only [State.setGrp_grp_same]
    exact FMap.get_set_other _ _ (by simpa using hp)
  · simp only [State.setGrp_grp_same]
    exact FMap.get_set_other _ _ (by simpa using hk)
  · have := hm p (by simpa using hp)
    simp [Group.marked, this.1, this.2]

@[simp] theorem State.writeS_cur (s : State) (g r : Nat) (v : Word) : (s.writeS g r v).cur = s.cur := rfl
@[simp] theorem State.writeS_ops (s : State) (g r : Nat) (v : Word) : (s.writeS g r v).ops = s.ops := rfl

theorem OnlyGroup.trans {s t u : State} {g : Nat} (h : OnlyGroup s t g) (k : OnlyGroup t u g) : OnlyGroup s u g := by
  obtain ⟨h1, h2, h3, h4, h5⟩ := h
  obtain ⟨k1, k2, k3, k4, k5⟩ := k
  refine ⟨?_, fun j hj => (k2 j hj).trans (h2 j hj), fun o a => (k3 o a).trans (h3 o a), fun a => (k4 a).trans (h4 a),
    fun i a => (k5 i a).trans (h5 i a)⟩
  rw [← h1]; conv_rhs => rw [← k1]

theorem ScalarFrame.trans {s t u : State} {ds es : List Nat} (h : ScalarFrame s t ds) (hc : t.cur = s.cur)
    (k : ScalarFrame t u es) : ScalarFrame s u (ds ++ es) := by
  obtain ⟨h1, h2, hp1, h3, h4⟩ := h
  obtain ⟨k1, k2, kp1, k3, k4⟩ := k
  rw [hc] at k1 k2 kp1 k3 k4
  refine ⟨h1.trans k1, ?_, fun p hp => ?_, fun r hr => ?_, fun p hp => ?_⟩
  · rw [← h2]; conv_rhs => rw [← k2]
  · exact (kp1 p (fun r hr => hp r (List.mem_append_right _ hr))).trans (hp1 p (fun r hr => hp r (List.mem_append_left _ hr)))
  · simp only [List.mem_append, not_or] at hr
    exact (k3 r hr.2).trans (h3 r hr.1)
  · exact (k4 p (fun r hr => hp r (List.mem_append_right _ hr))).trans (h4 p (fun r hr => hp r (List.mem_append_left _ hr)))

/-- A 32- or 64-bit write of scalar registers. -/
theorem State.writeSW_spec (s : State) (r : Nat) (w64 : Bool) (v : DWord) :
    (s.writeSW s.cur r w64 v).scalarAt r w64 = (if w64 then v else (loWord v).zeroExtend 64) ∧
    ScalarFrame s (s.writeSW s.cur r w64 v) (regsOf r w64) := by
  cases w64 with
  | false =>
    have h := s.writeS_spec r (loWord v)
    exact ⟨by simpa [State.writeSW, State.scalarAt] using congrArg (·.zeroExtend 64) h.1, h.2⟩
  | true =>
    have h := s.writeS_spec r (loWord v)
    have k := (s.writeS s.cur r (loWord v)).writeS_spec (r + 1) (hiWord v)
    simp only [State.writeS_cur] at k
    have e : s.writeSW s.cur r true v = (s.writeS s.cur r (loWord v)).writeS s.cur (r + 1) (hiWord v) := rfl
    rw [e]
    refine ⟨?_, ?_⟩
    · have lo := k.2.2.2.2.1 r (by simp)
      simp only [State.writeS_cur] at lo
      simp only [State.scalarAt, State.writeS_cur, if_true, lo, h.1, k.1, pairOf_lo_hi]
    · exact ScalarFrame.trans h.2 rfl k.2

/-! ### Uniform predicates -/

theorem State.writeQ_spec (s : State) (q : Nat) (hq : q < 4) (v : Bool) :
    ((s.writeQ s.cur q v).grp s.cur).qregs.getLsbD q = v ∧ UniformFrame s (s.writeQ s.cur q v) q := by
  obtain ⟨n, c, h, hm⟩ := Group.noteWrite_eq (s.grp s.cur) s.ops (qPlace q)
  have e : s.writeQ s.cur q v = s.setGrp s.cur { s.grp s.cur with
      qregs := (if v then (s.grp s.cur).qregs ||| (1#4 <<< q) else (s.grp s.cur).qregs &&& ~~~(1#4 <<< q))
      notReady := n, clobber := c } := by
    simp only [State.writeQ, State.modGrp_eq, h, Group.putQ]
  rw [e]
  refine ⟨?_, onlyGroup_setGrp _ _ _, by simp, fun j hj => ?_, fun p hp => ?_⟩
  · cases v <;> simp [hq]
  · by_cases hj4 : j < 4
    · have : ¬ (j - q = 0 ∧ ¬ j < q) := by omega
      cases v <;> simp [hj4] <;> omega
    · have h4 : 4 ≤ j := by omega
      rw [BitVec.getLsbD_of_ge _ _ h4, BitVec.getLsbD_of_ge _ _ h4]
  · have := hm p hp
    simp [Group.marked, this.1, this.2]

/-! ### Per-lane predicates -/

theorem State.writeP_spec (s : State) (d : Nat) (m v : LaneMask) :
    (∀ l : Nat, m.getLsbD l = true → (FMap.get ((s.writeP s.cur d m v).grp s.cur).pregs d).getLsbD l = v.getLsbD l) ∧
    PredFrame s (s.writeP s.cur d m v) d m := by
  have e : s.writeP s.cur d m v = s.setGrp s.cur { s.grp s.cur with
      pregs := FMap.set (s.grp s.cur).pregs d ((FMap.get (s.grp s.cur).pregs d &&& ~~~m) ||| (v &&& m)) } := rfl
  rw [e]
  refine ⟨fun l hl => by simp [hl], onlyGroup_setGrp _ _ _, by simp, fun p hp => ?_, fun l hl => ?_⟩
  · simp only [State.setGrp_grp_same]; exact FMap.get_set_other _ _ hp
  · have : (~~~m).getLsbD l = true ∨ 32 ≤ l := by
      by_cases h : l < 32
      · left; rw [BitVec.getLsbD_not, hl]; simp [h]
      · right; omega
    rcases this with h | h
    · simp [hl, h]
    · simp [BitVec.getLsbD_of_ge _ _ h]

/-! ### Vector registers -/

theorem mem_lanesOf (m : LaneMask) (l : Nat) : l ∈ lanesOf m ↔ l < 32 ∧ m.getLsbD l = true := by
  simp [lanesOf]

/-- The lanes of a mask of one register are written, nothing else. -/
theorem get_putLanes (f : Nat → Word) (r k : Nat) (ls : List Nat) (v : FMap Word) :
    FMap.get (ls.foldl (fun v l => FMap.set v (32 * r + l) (f l)) v) k =
      if 32 * r ≤ k ∧ k - 32 * r ∈ ls then f (k - 32 * r) else FMap.get v k := by
  induction ls generalizing v with
  | nil => simp
  | cons a t ih =>
    rw [List.foldl_cons, ih, FMap.get_set]
    by_cases hk : 32 * r ≤ k
    · by_cases ha : k - 32 * r = a
      · subst ha
        have : k = 32 * r + (k - 32 * r) := by omega
        simp [hk, ← this]
      · have : k ≠ 32 * r + a := by omega
        simp [hk, ha, this]
    · have : k ≠ 32 * r + a := by omega
      simp [hk, this]

theorem Group.putV_get (gr : Group) (r : Nat) (m : LaneMask) (f : Nat → Word) (q l : Nat) (hl : l < 32) :
    FMap.get (gr.putV r m f).vregs (32 * q + l) =
      if q = r ∧ m.getLsbD l = true then f l else FMap.get gr.vregs (32 * q + l) := by
  simp only [Group.putV, get_putLanes, mem_lanesOf]
  by_cases h : q = r
  · subst h; simp [hl]
  · have : ¬ (32 * r ≤ 32 * q + l ∧ 32 * q + l - 32 * r < 32 ∧ m.getLsbD (32 * q + l - 32 * r) = true) := by omega
    simp [h, this]

/-- The tag of one register is noted, nothing else. -/
theorem Group.putTag_eq (gr : Group) (split : Bool) (r : Nat) (m : LaneMask) (f : Tag) :
    ∃ (pt : FMap PosTag) (vt : FMap Tag), gr.putTag split r m f = { gr with posTags := pt, vtags := vt } ∧
      (∀ q, q ≠ r → FMap.get vt q = FMap.get gr.vtags q) ∧
      (split = false → FMap.get vt r = newTag (FMap.get gr.vtags r) f ((m ||| gr.exited) = BitVec.allOnes 32)) := by
  unfold Group.putTag
  cases split
  · exact ⟨_, _, rfl, fun q hq => FMap.get_set_other _ _ hq, fun _ => by simp⟩
  · exact ⟨_, _, rfl, fun q hq => FMap.get_set_other _ _ hq, by simp⟩

/-- One register of a vector write. -/
def Group.writeOne (gr : Group) (ops : FMap Op) (split : Bool) (r : Nat) (m : LaneMask) (f : Tag) (v : Nat → Word) : Group :=
  ((gr.noteWrite ops r).putV r m v).putTag split r m f

theorem Group.writeOne_eq (gr : Group) (ops : FMap Op) (split : Bool) (r : Nat) (m : LaneMask) (f : Tag) (v : Nat → Word) :
    ∃ (vr : FMap Word) (vt : FMap Tag) (vp : FMap Bool) (pt : FMap PosTag) (n c : FMap Nat),
      gr.writeOne ops split r m f v =
        { gr with vregs := vr, vtags := vt, vpoison := vp, posTags := pt, notReady := n, clobber := c } ∧
      (∀ q l, l < 32 → FMap.get vr (32 * q + l) = if q = r ∧ m.getLsbD l = true then v l else FMap.get gr.vregs (32 * q + l)) ∧
      (∀ q, q ≠ r → FMap.get vt q = FMap.get gr.vtags q) ∧
      (split = false → FMap.get vt r = newTag (FMap.get gr.vtags r) f ((m ||| gr.exited) = BitVec.allOnes 32)) ∧
      (∀ q, q ≠ r → FMap.get vp q = FMap.get gr.vpoison q) ∧
      (∀ q, q ≠ r → FMap.get n q = FMap.get gr.notReady q ∧ FMap.get c q = FMap.get gr.clobber q) := by
  obtain ⟨n, c, hn, hm⟩ := Group.noteWrite_eq gr ops r
  obtain ⟨pt, vt, ht, h1, h2⟩ := Group.putTag_eq ((gr.noteWrite ops r).putV r m v) split r m f
  refine ⟨((gr.noteWrite ops r).putV r m v).vregs, vt, ((gr.noteWrite ops r).putV r m v).vpoison, pt, n, c, ?_, ?_, ?_, ?_, ?_, hm⟩
  · unfold Group.writeOne
    rw [ht, hn]; rfl
  · intro q l hl
    rw [Group.putV_get _ _ _ _ _ _ hl, hn]
  · intro q hq; rw [h1 q hq, hn]; rfl
  · intro hs; rw [h2 hs, hn]; rfl
  · intro q hq
    rw [hn]
    simp only [Group.putV]
    split_ifs
    · exact FMap.get_set_other _ _ hq
    · rfl

/-- A vector write: the lanes of the mask take the values, the tags follow R77 where the position issues once, and nothing
else changes. -/
theorem State.writeV_spec (s : State) (r : Nat) (w64 : Bool) (m : LaneMask) (f : Tag) (val : Nat → DWord) :
    (∀ l : Nat, l < 32 → m.getLsbD l = true →
      (s.writeV s.cur r w64 m f val).laneAt r l w64 = (if w64 then val l else (loWord (val l)).zeroExtend 64)) ∧
    (s.iss.split = false → ∀ q ∈ regsOf r w64, FMap.get ((s.writeV s.cur r w64 m f val).grp s.cur).vtags q =
      newTag (FMap.get (s.grp s.cur).vtags q) f ((m ||| (s.grp s.cur).exited) = BitVec.allOnes 32)) ∧
    VectorFrame s (s.writeV s.cur r w64 m f val) (regsOf r w64) m := by
  obtain ⟨vr, vt, vp, pt, n, c, e, hv, ht, hts, hp, hm⟩ :=
    Group.writeOne_eq (s.grp s.cur) s.ops s.iss.split r m f (fun l => loWord (val l))
  have cur : ∀ v, (s.setGrp s.cur v).cur = s.cur := fun _ => rfl
  cases w64 with
  | false =>
    have e' : s.writeV s.cur r false m f val = s.setGrp s.cur
        { s.grp s.cur with vregs := vr, vtags := vt, vpoison := vp, posTags := pt, notReady := n, clobber := c } := by
      rw [← e]; rfl
    rw [e']
    refine ⟨fun l hl h => ?_, fun hs q hq => ?_, onlyGroup_setGrp _ _ _, by simp, fun q l hl h => ?_, fun q hq => ?_, fun q hq => ?_,
      fun q hq => ?_⟩
    · simp [State.laneAt, cur, hv r l hl, h]
    · simp only [regsOf, Bool.false_eq_true, if_false, List.mem_singleton] at hq
      subst hq; simp [hts hs]
    · simp only [State.setGrp_grp_same]
      rw [hv q l hl, if_neg]
      rintro ⟨rfl, h2⟩
      rcases h with h | h <;> simp_all [regsOf]
    · simp only [State.setGrp_grp_same]
      exact ht q (by simpa [regsOf] using hq)
    · simp only [State.setGrp_grp_same]
      exact hp q (by simpa [regsOf] using hq)
    · have := hm q (by simpa [regsOf] using hq)
      simp [Group.marked, this.1, this.2]
  | true =>
    obtain ⟨vr2, vt2, vp2, pt2, n2, c2, e2, hv2, ht2, hts2, hp2, hm2⟩ :=
      Group.writeOne_eq ((s.grp s.cur).writeOne s.ops s.iss.split r m f (fun l => loWord (val l))) s.ops s.iss.split (r + 1) m f
        (fun l => hiWord (val l))
    have e' : s.writeV s.cur r true m f val = s.setGrp s.cur
        { s.grp s.cur with vregs := vr2, vtags := vt2, vpoison := vp2, posTags := pt2, notReady := n2, clobber := c2 } := by
      have : s.writeV s.cur r true m f val = s.setGrp s.cur
          (((s.grp s.cur).writeOne s.ops s.iss.split r m f (fun l => loWord (val l))).writeOne s.ops s.iss.split (r + 1) m f
            (fun l => hiWord (val l))) := rfl
      rw [this, e2, e]
    rw [e] at hv2 ht2 hts2 hp2 hm2
    rw [e']
    refine ⟨fun l hl h => ?_, fun hs q hq => ?_, onlyGroup_setGrp _ _ _, by simp, fun q l hl h => ?_, fun q hq => ?_, fun q hq => ?_,
      fun q hq => ?_⟩
    · simp only [State.laneAt, cur, State.setGrp_grp_same, if_true]
      rw [hv2 r l hl, hv2 (r + 1) l hl]
      simp [hv r l hl, h, pairOf_lo_hi]
    · simp only [regsOf, if_true, List.mem_cons, List.not_mem_nil, or_false] at hq
      simp only [State.setGrp_grp_same]
      rcases hq with rfl | rfl
      · rw [ht2 q (by omega)]; exact hts hs
      · rw [hts2 hs]; simp only; rw [ht (r + 1) (by omega)]
    · simp only [State.setGrp_grp_same]
      have hq : ¬ ((q = r ∨ q = r + 1) ∧ m.getLsbD l = true) := by
        rintro ⟨h1, h2⟩
        rcases h with h | h
        · simp [regsOf] at h; omega
        · simp_all
      rw [hv2 q l hl, if_neg (fun ⟨a, b⟩ => hq ⟨.inr a, b⟩)]
      simp only
      rw [hv q l hl, if_neg (fun ⟨a, b⟩ => hq ⟨.inl a, b⟩)]
    · simp only [State.setGrp_grp_same]
      simp only [regsOf, if_true, List.mem_cons, List.not_mem_nil, or_false, not_or] at hq
      rw [ht2 q hq.2]; exact ht q hq.1
    · simp only [State.setGrp_grp_same]
      simp only [regsOf, if_true, List.mem_cons, List.not_mem_nil, or_false, not_or] at hq
      rw [hp2 q hq.2]; exact hp q hq.1
    · simp only [regsOf, if_true, List.mem_cons, List.not_mem_nil, or_false, not_or] at hq
      have a := hm q hq.1
      have b := hm2 q hq.2
      simp only [State.setGrp_grp_same, Group.marked]
      simp only [b.1, b.2, a.1, a.2]

/-! ### Reads -/

/-- A read of a scalar register that no outstanding operation writes gives what is stored. -/
theorem State.rdS_stored (s : State) (g r : Nat) (h : (s.grp g).marked (sPlace r) = false) :
    s.rdS g r = FMap.get (s.grp g).sregs r := by simp [State.rdS, h]

theorem State.rdV_stored (s : State) (g r l : Nat) (h : (s.grp g).marked r = false) :
    s.rdV g r l = FMap.get (s.grp g).vregs (32 * r + l) := by simp [State.rdV, h]

theorem State.rdQ_stored (s : State) (g q : Nat) (h : (s.grp g).marked (qPlace q) = false) :
    s.rdQ g q = (s.grp g).qregs.getLsbD q := by simp [State.rdQ, h]

end Sys2Proof.Machine
end

