-- ==== Sys2Proof/Laws/Arith.lean ====
section
/-!
SUPPORT. Integers of a width: what an element written from an exact integer holds, and how a word that only writes a
register completes.
-/
namespace Sys2Proof.Machine
open Sys2Proof

/-! ### Exact integers (R81) -/

theorem ofZ_lt (w : Nat) (sg sat : Bool) (z : Int) : ofZ w sg sat z < 2 ^ w := by
  unfold ofZ
  have h : (0 : Int) < 2 ^ w := by positivity
  have key : ∀ x : Int, (x % 2 ^ w).toNat < 2 ^ w := by
    intro x
    have h1 := Int.emod_nonneg x h.ne'
    have h2 := Int.emod_lt_of_pos x h
    zify
    rw [Int.toNat_of_nonneg h1]
    exact_mod_cast h2
  exact key _

/-- The number an element written from z stands for differs from z (clamped with .sat) by a multiple of 2^w. -/
theorem toZ_dvd (w : Nat) (sg : Bool) (x : Int) : (2 : Int) ^ w ∣ toZ w sg (x % 2 ^ w).toNat - x := by
  have h : (0 : Int) < 2 ^ w := by positivity
  have h1 := Int.emod_nonneg x h.ne'
  have hd : (2 : Int) ^ w ∣ x % 2 ^ w - x := by
    have := Int.emod_add_mul_ediv x (2 ^ w)
    exact ⟨-(x / 2 ^ w), by rw [mul_neg]; omega⟩
  unfold toZ
  rw [Int.toNat_of_nonneg h1]
  split_ifs
  · have : x % 2 ^ w - 2 ^ w - x = (x % 2 ^ w - x) - 2 ^ w := by ring
    rw [this]; exact dvd_sub hd dvd_rfl
  · exact hd

theorem toZ_of_range (w : Nat) (hw : 0 < w) (sg : Bool) (x : Int)
    (h : if sg then -2 ^ (w - 1) ≤ x ∧ x ≤ 2 ^ (w - 1) - 1 else 0 ≤ x ∧ x ≤ 2 ^ w - 1) :
    toZ w sg (x % 2 ^ w).toNat = x := by
  obtain ⟨k, rfl⟩ : ∃ k, w = k + 1 := ⟨w - 1, by omega⟩
  have hp : (2 : Int) ^ (k + 1) = 2 * 2 ^ k := by ring
  have hk : (0 : Int) < 2 ^ k := by positivity
  simp only [Nat.add_sub_cancel] at h
  unfold toZ
  simp only [Nat.add_sub_cancel]
  cases sg with
  | false =>
    simp only [Bool.false_eq_true, if_false] at h
    have e : x % 2 ^ (k + 1) = x := Int.emod_eq_of_lt h.1 (by omega)
    simp only [Bool.false_and, Bool.false_eq_true, if_false, e]
    exact Int.toNat_of_nonneg h.1
  | true =>
    simp only [if_true] at h
    by_cases hx : 0 ≤ x
    · have e : x % 2 ^ (k + 1) = x := Int.emod_eq_of_lt hx (by omega)
      rw [e, if_neg, Int.toNat_of_nonneg hx]
      simp only [Bool.true_and, decide_eq_true_eq, not_le]
      zify; rw [Int.toNat_of_nonneg hx]; omega
    · have e : x % 2 ^ (k + 1) = x + 2 ^ (k + 1) := by
        rw [← Int.add_emod_right]; exact Int.emod_eq_of_lt (by omega) (by omega)
      have hn : 0 ≤ x + 2 ^ (k + 1) := by omega
      rw [e, if_pos, Int.toNat_of_nonneg hn]
      · ring
      · simp only [Bool.true_and, decide_eq_true_eq]
        zify; rw [Int.toNat_of_nonneg hn]; omega

/-- An element computed from an exact integer holds it (R81). -/
theorem holds_ofZ (w : Nat) (hw : 0 < w) (sg sat : Bool) (z : Int) : Holds w sg sat z (ofZ w sg sat z) := by
  refine ⟨ofZ_lt w sg sat z, ?_⟩
  unfold ofZ
  cases sat with
  | false => simp only [Bool.false_eq_true, if_false]; exact toZ_dvd w sg z
  | true =>
    obtain ⟨k, rfl⟩ : ∃ k, w = k + 1 := ⟨w - 1, by omega⟩
    have hp : (2 : Int) ^ (k + 1) = 2 * 2 ^ k := by ring
    have hk : (0 : Int) < 2 ^ k := by positivity
    simp only [if_true, Nat.add_sub_cancel]
    cases sg <;> simp only [Bool.false_eq_true, if_false, if_true]
    · rw [toZ_of_range _ hw]
      · split_ifs <;> omega
      · simp only [Bool.false_eq_true, if_false]; split_ifs <;> omega
    · rw [toZ_of_range _ hw]
      · split_ifs <;> omega
      · simp only [if_true, Nat.add_sub_cancel]; split_ifs <;> omega

/-! ### Words that write one register -/

theorem scalarResult_of {i : Instr} {s : State} {d : SReg} {w64 : Bool} {v : DWord} {P : DWord → Prop}
    (h : exec i s = .next (s.writeSW s.cur d.toNat w64 v)) (hp : P (if w64 then v else (loWord v).zeroExtend 64)) :
    ScalarResult i s d w64 P :=
  ⟨_, h, by rw [(s.writeSW_spec d.toNat w64 v).1]; exact hp, (s.writeSW_spec d.toNat w64 v).2⟩

theorem uniformResult_of {i : Instr} {s : State} {d : QReg} {v : Bool} (h : exec i s = .next (s.setQBit d v)) :
    UniformResult i s d v := by
  have := s.writeQ_spec d.toNat (by omega) v
  exact ⟨_, h, this.1, this.2⟩

theorem vectorResult_of {ok : Bool} {i : Instr} {s : State} {g : Guard} {uses : List VUse} {d : VReg} {w64 : Bool}
    {fmt : Tag} {val : Nat → DWord} {P : Nat → DWord → Prop}
    (h : exec i s = .next (match s.opFault ok uses (s.wmask g) with
      | some r => s.raise r (s.wmask g)
      | none => s.writeV s.cur d.toNat w64 (s.wmask g) fmt val))
    (hp : ∀ l, l < 32 → (s.wmask g).getLsbD l = true → P l (if w64 then val l else (loWord (val l)).zeroExtend 64)) :
    VectorResult ok i s g uses d w64 fmt P := by
  have k := s.writeV_spec d.toNat w64 (s.wmask g) fmt val
  refine ⟨fun hf => ?_, fun r hr => by rw [h, hr]⟩
  rw [hf] at h
  exact ⟨_, h, fun l hl hm => by rw [k.1 l hl hm]; exact hp l hl hm, k.2.1, k.2.2⟩

theorem getLsbD_orLanes (val : Nat → Bool) (l : Nat) (hl : l < 32) (ls : List Nat) (acc : LaneMask) :
    (ls.foldl (fun acc l => if val l then acc ||| (1#32 <<< l) else acc) acc).getLsbD l =
      (acc.getLsbD l || (decide (l ∈ ls) && val l)) := by
  induction ls generalizing acc with
  | nil => simp
  | cons a t ih =>
    rw [List.foldl_cons, ih]
    by_cases ha : l = a
    · subst ha; cases hv : val l <;> simp [hl]
    · have h1 : (1#32 <<< a).getLsbD l = false := by
        simp only [BitVec.getLsbD_shiftLeft, BitVec.getLsbD_one]
        by_cases h : l < a
        · simp [h]
        · simp; omega
      cases hv : val a <;> simp [ha, BitVec.getLsbD_or, h1]

/-- Lane l of the mask of a test. -/
theorem getLsbD_maskOf (val : Nat → Bool) (l : Nat) (hl : l < 32) : (maskOf val).getLsbD l = val l := by
  unfold maskOf; rw [getLsbD_orLanes val l hl]; simp [hl]

theorem predResult_of {i : Instr} {s : State} {g : Guard} {uses : List VUse} {d : PReg} {val : Nat → Bool}
    (h : exec i s = .next (s.vecPred g uses d val)) : PredResult i s g uses d val := by
  have k := s.writeP_spec d.val (s.wmask g) (maskOf val)
  refine ⟨fun hf => ?_, fun r hr => ?_⟩
  · have e : exec i s = .next (s.writeP s.cur d.val (s.wmask g) (maskOf val)) := by
      rw [h]; unfold State.vecPred State.vecFault; simp only [hf]
    exact ⟨_, e, fun l hl hw => by rw [k.1 l hw]; exact getLsbD_maskOf val l hl, k.2⟩
  · rw [h]; unfold State.vecPred State.vecFault; simp only [hr]

end Sys2Proof.Machine
end

