-- ==== Sys2Proof/Tests/Slice0.lean ====
section
/-!
SUPPORT. The model's own tests. Expected results come from the spec's rules, worked out by hand: ill-formed instructions that
WellFormed refuses, words written out from the encodings, one step of single instructions, and for every statement of
Certificates/Slice0/Obligations.lean with hypotheses a concrete state and operands that meet them.
-/
namespace Sys2Proof.Tests
open Sys2Proof Sys2Proof.Machine
set_option Elab.async false

/-! ### WellFormed refuses one ill-formed term for each of its checks -/

theorem test_illformed_scalar : ([
    .sadd ⟨.f32, false, 0, 1, 2⟩, .smul ⟨.i32, true, 0, 1, 2⟩, .sand ⟨.i32, false, 0, 1, 2⟩, .smov ⟨.b32, false, 0, 1, 2⟩,
    .sneg ⟨.n32, false, 0, 1, 0⟩, .sshli ⟨false, 0, 1, 32⟩, .scmp .un .plain .i32 0 1 2, .scmp .eq .plain .f32 0 1 2] : List Instr).all
    (fun i => !i.wellFormed) = true := by decide

theorem test_illformed_control : ([
    .bra .always 1 0, .brx .always 0 0 0 true 0, .brx .always 65 0 0 true 0, .brx .always 2 0 127 true 0, .wait true 0 0 0 4 0 0,
    .wait true 1 0 0 120 0 0, .rgive 0, .rclaim 0, .regionBegin 0 0 4 0, .regionBegin 0 2 0 127, .gets (.s 0) 0x0e,
    .gets (.s 0) 0x01, .gets (.s64 0) 0x12, .sets 0x04 0] : List Instr).all (fun i => !i.wellFormed) = true := by decide

theorem test_illformed_vector : ([
    .movi .mixed .always 0 0, .movi .f16 .always 0 65536, .iadd ⟨.f32, .rne, false, .always, 0, 1, 2, 0⟩,
    .iadd ⟨.i32, .rtz, false, .always, 0, 1, 2, 0⟩, .imulhi ⟨.i32, .rne, true, .always, 0, 1, 2, 0⟩,
    .iabs ⟨.i32, .rne, false, .always, 0, 1, 2, 0⟩, .iadd ⟨.i32, .rne, false, .always, 0, 1, 2, 3⟩,
    .icmp ⟨.ord, .plain, .i32, .always, 0, 1, 2⟩, .fcmp ⟨.lt, .plain, .f16x2, .always, 0, 1, 2⟩, .rcp ⟨.f16, .rne, .always, 0, 1, 0⟩,
    .exp2 ⟨.f32, .rtz, .always, 0, 1, 0⟩, .cvt ⟨.f32, .f32, .rne, false, 0, .always, 0, 1⟩,
    .cvt ⟨.f32, .i32, .rne, false, 1, .always, 0, 1⟩, .cvt ⟨.i32, .i64, .rtz, false, 0, .always, 0, 1⟩,
    .cvt ⟨.f16x2, .bf16x2, .rne, false, 1, .always, 0, 1⟩, .pack ⟨.i32, .always, 0, 1⟩,
    .blkPack ⟨false, false, 0, .f32, .rne, .always, 0, 1, 2⟩, .blkUnpack ⟨false, false, 1, .f32, .rne, .always, 0, 1, 2⟩,
    .blkUnpack ⟨false, false, 0, .bf16, .rtz, .always, 0, 1, 2⟩, .retag ⟨.mixed, .always, 0, 1⟩] : List Instr).all
    (fun i => !i.wellFormed) = true := by decide

theorem test_illformed_lanes_and_pairs : ([
    .tileRed ⟨.add, .f16, .rne, .always, 0, 1⟩, .tileRed ⟨.and, .i32, .rne, .always, 0, 1⟩, .tileRed ⟨.min, .f32, .rtz, .always, 0, 1⟩,
    .idp4 ⟨.i32, .rne, false, .always, 0, 1, 2, 3⟩, .pairedWord ⟨0, 1, 0, 0⟩ ⟨0, 0, 0, 0⟩, .pairedWord ⟨1, 1, 2, 3⟩ ⟨0, 0, 0, 0⟩,
    .pairedWord ⟨1, 1, 2, 0⟩ ⟨1, 5, 2, 0⟩] : List Instr).all (fun i => !i.wellFormed) = true := by decide

theorem test_illformed_memory : ([
    .ld ⟨0, .b32, .always, 0, ⟨.bt 0, none, 0⟩, 0⟩, .ld ⟨7, .b32, .always, 0, ⟨.bt 0, none, 0⟩, 0⟩,
    .st ⟨1, .always, 0, ⟨.bt 0, none, 0⟩, none⟩, .sld ⟨2, 0, ⟨.bt 0, 0⟩, 0⟩, .atom ⟨.add, .b32, .always, ⟨.bt 0, 0, 0⟩, 0, 1, 0⟩,
    .atom ⟨.add, .f16, .always, ⟨.scratch, 0, 0⟩, 0, 1, 0⟩, .red ⟨.add, .i32, .always, ⟨.scratch, 0, 2⟩, 0⟩,
    .vatom ⟨.add, .i32, .always, ⟨.scratch, 0, 0⟩, 0, 1, 0⟩, .cas ⟨3, .always, ⟨.bt 0, 0, 0⟩, 0, 1, 0⟩,
    .cas ⟨2, .always, ⟨.scratch, 0, 0⟩, 0, 1, 0⟩, .fence ⟨0, 1, 0⟩, .fence ⟨1, 0, 0⟩, .fence ⟨1, 1, 5⟩, .fencePhase ⟨2, 1, 1⟩ 0,
    .fencePhase ⟨1, 1, 2⟩ 0] : List Instr).all (fun i => !i.wellFormed) = true := by decide

theorem test_illformed_engines_and_frond : ([
    .copy 4 0, .meshTree 0 126, .meshRed ⟨3, .f32, 0, 0, 0, 0⟩, .meshRed ⟨0, .f64, 0, 0, 0, 0⟩, .sdot ⟨.b32, 0, 0, 0, 0⟩,
    .sdot ⟨.f32, 0, 0, 4, 0⟩, .mcfg .e4m3 .bf16, .mdrain ⟨0, .de8x4, .rne, false, 0, 0, 0⟩, .mdrain ⟨0, .f32, .rtz, false, 0, 0, 0⟩,
    .mdrainT ⟨0, .bf16, 0, .rne, false, 0, 0, 0, 0⟩, .mdrainT ⟨0, .de8x4, 0, .rne, false, 0, 0, 0, 0⟩,
    .mdrainT ⟨0, .f32, 0, .rne, false, 0, 0, 1, 0⟩, .tlbinv 0 1 0 0, .frondLdp ⟨1, 0, 4⟩, .frondLdp ⟨1, 0, 64⟩, .frondMovi ⟨1, 1, 0⟩,
    .frondSts ⟨1, 0, 8⟩, .frondLdw ⟨1, 0, 4⟩, .frondLoop 0 0, .frondLoop 0 1024, .frondAct ⟨1, 0, 2⟩] : List Instr).all
    (fun i => !i.wellFormed) = true := by decide

/-! ### Words written out from the encodings of the spec, family by family -/

theorem test_decode_scalar_register_1 : (([
    (0x0000000000f70000, .nop),
    (0x0104060800f70042, .sadd ⟨.i32, true, 4, 6, 8⟩),
    (0x0104060800f704a0, .ssub ⟨.n64, false, 4, 6, 8⟩),
    (0x0104060800f70880, .smul ⟨.i64, false, 4, 6, 8⟩),
    (0x0104060800f70c60, .smulhi ⟨.n32, false, 4, 6, 8⟩),
    (0x0104060800f71040, .sdiv ⟨.i32, false, 4, 6, 8⟩),
    (0x0104060800f714a0, .srem ⟨.n64, false, 4, 6, 8⟩),
    (0x0104060800f71880, .smin ⟨.i64, false, 4, 6, 8⟩),
    (0x0104060800f71c60, .smax ⟨.n32, false, 4, 6, 8⟩),
    (0x0104060800f72000, .sand ⟨.b32, false, 4, 6, 8⟩),
    (0x0104060800f72420, .sor ⟨.b64, false, 4, 6, 8⟩),
    (0x0104060800f72800, .sxor ⟨.b32, false, 4, 6, 8⟩)] : List (DWord × Instr)).all
    (fun p => decide (decode p.1 = .ok p.2))) = true := by decide +kernel

theorem test_decode_scalar_register_2 : (([
    (0x0104060800f72c20, .sandn ⟨.b64, false, 4, 6, 8⟩),
    (0x0104060800f73000, .sshl ⟨.b32, false, 4, 6, 8⟩),
    (0x0104060800f73440, .sshr ⟨.i32, false, 4, 6, 8⟩),
    (0x0104060800f73820, .srotl ⟨.b64, false, 4, 6, 8⟩),
    (0x010a0c0000f73c20, .smov ⟨.b64, false, 10, 12, 0⟩),
    (0x010a0c0000f74042, .sneg ⟨.i32, true, 10, 12, 0⟩),
    (0x010a0c0000f74480, .sabs ⟨.i64, false, 10, 12, 0⟩),
    (0x010a0c0000f74800, .spopc ⟨.b32, false, 10, 12, 0⟩),
    (0x010a0c0000f74c20, .sclz ⟨.b64, false, 10, 12, 0⟩)] : List (DWord × Instr)).all
    (fun p => decide (decode p.1 = .ok p.2))) = true := by decide +kernel

theorem test_decode_scalar_immediate : (([
    (0x02057ff780000001, .saddi 5 127 0x80000001),
    (0x03057ff780000001, .sandi 5 127 0x80000001),
    (0x04057ff780000001, .sori 5 127 0x80000001),
    (0x05057ff780000001, .sxori 5 127 0x80000001),
    (0x060700f7deadbeef, .smovi 7 0xdeadbeef),
    (0x060801f70000ffff, .smoviI64 8 0xffff),
    (0x060802f70000ffff, .smoviN64 8 0xffff),
    (0x070204f70000043f, .sshli ⟨true, 2, 4, 63⟩),
    (0x070204f70000011f, .sshriN ⟨false, 2, 4, 31⟩),
    (0x070204f700000601, .sshriI ⟨true, 2, 4, 1⟩),
    (0x070204f700000307, .srotli ⟨false, 2, 4, 7⟩)] : List (DWord × Instr)).all
    (fun p => decide (decode p.1 = .ok p.2))) = true := by decide +kernel

theorem test_decode_scalar_compare : (([
    (0x0801030400f70840, .scmp .lt .plain .i32 1 3 4),
    (0x0802060803f714a4, .scmp .ge (.andWith 3) .n64 2 6 8),
    (0x0902040603f70020, .ssel true 2 3 4 6),
    (0x0a01020300f70000, .qand 1 2 3),
    (0x0a01020300f70400, .qor 1 2 3),
    (0x0a01020300f70800, .qxor 1 2 3),
    (0x0a01020300f70c00, .qandn 1 2 3),
    (0x0a01020000f71000, .qnot 1 2),
    (0x0a03000000f71401, .qset 3 true),
    (0x0b04060900f70580, .sadda true 3 4 6 9)] : List (DWord × Instr)).all
    (fun p => decide (decode p.1 = .ok p.2))) = true := by decide +kernel

theorem test_decode_control : (([
    (0x0c12342f00001238, .bra (.on 2 true) 0x1234 0x247),
    (0x0c0000f700000043, .braQ 2 8),
    (0x0d03031403f70058, .brx .always 3 3 20 true 0x58),
    (0x0e1e00f700000088, .call 30 17),
    (0x0f001f0000f70000, .ret 31),
    (0x1000000000bf0000, .exit (.on 11 true)),
    (0x110000f70000004d, .trap 77),
    (0x1200000000170006, .planeSet (.on 1 false) 6),
    (0x1200c80000f71000, .planeSel .always 200),
    (0x1309100801f30000, .wait false 0 1 9 16 8 3),
    (0x1309100801f30007, .wait true 3 1 9 16 8 3)] : List (DWord × Instr)).all
    (fun p => decide (decode p.1 = .ok p.2))) = true := by decide +kernel

theorem test_decode_synchronisation_1 : (([
    (0x1400000000f7000d, .barSync 13),
    (0x1400000000f7100d, .barArrive 13),
    (0x1400090000f7200d, .barExpect 13 9),
    (0x1400000000f73002, .cbarSync 2),
    (0x1400000000f74003, .cbarArrive 3),
    (0x1500000000f70009, .rgive 9),
    (0x1500000000f7101f, .rclaim 31),
    (0x1600112100f70000, .spawn 33 17),
    (0x1700102800f70194, .regionBegin 3 20 16 40),
    (0x1700000000f71000, .regionEnd),
    (0x1805000000f70010, .gets (.s 5) 0x10),
    (0x1806000000f70213, .gets (.s64 6) 0x13)] : List (DWord × Instr)).all
    (fun p => decide (decode p.1 = .ok p.2))) = true := by decide +kernel

theorem test_decode_synchronisation_2 : (([
    (0x18c8000000f70100, .gets (.v 200) 0x00),
    (0x1900030000f70005, .sets 0x05 3),
    (0x1a04630000f7001f, .slane false 4 99 (.lane 31)),
    (0x1a04630600f70060, .slane true 4 99 (.reg 6 0)),
    (0x1a04630000f70080, .slane false 4 99 .first)] : List (DWord × Instr)).all
    (fun p => decide (decode p.1 = .ok p.2))) = true := by decide +kernel

theorem test_decode_vector_moves : (([
    (0x2002c800004f0020, .mov ⟨true, .on 4 true, 2, 200⟩),
    (0x20092c0000f70400, .movs false .always 9 44),
    (0x2109030700000005, .movi .n32 (.on 0 false) 9 5)] : List (DWord × Instr)).all
    (fun p => decide (decode p.1 = .ok p.2))) = true := by decide +kernel

theorem test_decode_vector_integer_1 : (([
    (0x22121416005f01e2, .iadd ⟨.i8x4, .rne, true, (.on 5 true), 18, 20, 22, 0⟩),
    (0x2212141600f704a0, .isub ⟨.n64, .rne, false, .always, 18, 20, 22, 0⟩),
    (0x2312141600f701a2, .imul ⟨.i16x2, .rne, true, .always, 18, 20, 22, 0⟩),
    (0x2312141600f70460, .imulhi ⟨.n32, .rne, false, .always, 18, 20, 22, 0⟩),
    (0x2312141618f70842, .imad ⟨.i32, .rne, true, .always, 18, 20, 22, 24⟩),
    (0x2312141600f70c60, .imulw ⟨.n32, .rne, false, .always, 18, 20, 22, 0⟩),
    (0x2412141600f70200, .imin ⟨.n8x4, .rne, false, .always, 18, 20, 22, 0⟩),
    (0x2412141600f70480, .imax ⟨.i64, .rne, false, .always, 18, 20, 22, 0⟩),
    (0x2412140000f709a2, .iabs ⟨.i16x2, .rne, true, .always, 18, 20, 0, 0⟩),
    (0x2412140000f70c40, .ineg ⟨.i32, .rne, false, .always, 18, 20, 0, 0⟩),
    (0x2512141600f70000, .vand ⟨.b32, .rne, false, .always, 18, 20, 22, 0⟩),
    (0x2512141600f70420, .vor ⟨.b64, .rne, false, .always, 18, 20, 22, 0⟩)] : List (DWord × Instr)).all
    (fun p => decide (decode p.1 = .ok p.2))) = true := by decide +kernel

theorem test_decode_vector_integer_2 : (([
    (0x2512141600f70800, .vxor ⟨.b32, .rne, false, .always, 18, 20, 22, 0⟩),
    (0x2512141600f70c20, .vandn ⟨.b64, .rne, false, .always, 18, 20, 22, 0⟩),
    (0x2512140000f71000, .vnot ⟨.b32, .rne, false, .always, 18, 20, 0, 0⟩),
    (0x2612141600f70020, .shl ⟨.b64, .rne, false, .always, 18, 20, 22, 0⟩),
    (0x2612141600f70440, .shr ⟨.i32, .rne, false, .always, 18, 20, 22, 0⟩),
    (0x2612141600f70800, .rotl ⟨.b32, .rne, false, .always, 18, 20, 22, 0⟩),
    (0x27030467fffffff0, .iaddi ⟨.on 6 false, 3, 4, 0xfffffff0⟩),
    (0x2802040500f74040, .icmp ⟨.lt, .plain, .i32, .always, 2, 4, 5⟩),
    (0x280214160bf77060, .icmp ⟨.le, .orWith 11, .n32, .always, 2, 20, 22⟩)] : List (DWord × Instr)).all
    (fun p => decide (decode p.1 = .ok p.2))) = true := by decide +kernel

theorem test_decode_vector_float_1 : (([
    (0x2b04010203f700c0, .ffma ⟨.f32, .rne, false, .always, 4, 1, 2, 3⟩),
    (0x2912141600f700cc, .fadd ⟨.f32, .rup, false, .always, 18, 20, 22, 0⟩),
    (0x2912141600f704f0, .fsub ⟨.f64, .rna, false, .always, 18, 20, 22, 0⟩),
    (0x2a12141600f70160, .fmul ⟨.bf16x2, .rne, false, .always, 18, 20, 22, 0⟩),
    (0x2b12141618f70584, .fnma ⟨.f32x2, .rtz, false, .always, 18, 20, 22, 24⟩),
    (0x2f0304f73f800000, .faddi ⟨.always, 3, 4, 0x3f800000⟩),
    (0x300304f740000000, .fmuli ⟨.always, 3, 4, 0x40000000⟩),
    (0x2c12141600f700c0, .fmin ⟨.f32, .rne, false, .always, 18, 20, 22, 0⟩),
    (0x2c12141600f70540, .fmax ⟨.f16x2, .rne, false, .always, 18, 20, 22, 0⟩),
    (0x2c12140000f708e0, .fabs ⟨.f64, .rne, false, .always, 18, 20, 0, 0⟩),
    (0x2c12140000f70d20, .fneg ⟨.bf16, .rne, false, .always, 18, 20, 0, 0⟩),
    (0x2c12141600f710c0, .fcopysign ⟨.f32, .rne, false, .always, 18, 20, 22, 0⟩)] : List (DWord × Instr)).all
    (fun p => decide (decode p.1 = .ok p.2))) = true := by decide +kernel

theorem test_decode_vector_float_2 : (([
    (0x2d0214160bf7c8e0, .fcmp ⟨.un, .andWith 11, .f64, .always, 2, 20, 22⟩),
    (0x2d12140000f704e0, .fclass ⟨.f64, .rne, false, .always, 18, 20, 0, 0⟩),
    (0x2e12140000f500e8, .rcp ⟨.f64, .rdn, .always, 18, 20, 5⟩),
    (0x2e12140000f504e8, .sqrt ⟨.f64, .rdn, .always, 18, 20, 5⟩),
    (0x2e12140000f508c0, .rsqrt ⟨.f32, .rne, .always, 18, 20, 5⟩),
    (0x2e12140000f50cc0, .exp2 ⟨.f32, .rne, .always, 18, 20, 5⟩),
    (0x2e12140000f510c0, .log2 ⟨.f32, .rne, .always, 18, 20, 5⟩),
    (0x2e12140000f514c0, .sinpi ⟨.f32, .rne, .always, 18, 20, 5⟩),
    (0x2e12140000f518c0, .cospi ⟨.f32, .rne, .always, 18, 20, 5⟩),
    (0x2e12140000f51cc0, .tanh ⟨.f32, .rne, .always, 18, 20, 5⟩)] : List (DWord × Instr)).all
    (fun p => decide (decode p.1 = .ok p.2))) = true := by decide +kernel

theorem test_decode_conversions : (([
    (0x3107060000f71a22, .cvt ⟨.f32, .e4m3x4, .rne, true, 0, .always, 7, 6⟩),
    (0x3204060000f70200, .pack ⟨.n8x4, .always, 4, 6⟩),
    (0x3204060000f71140, .unpack ⟨.f16x2, .always, 4, 6⟩),
    (0x3304060a00f73530, .blkPack ⟨true, true, 5, .f32, .rne, .always, 4, 6, 10⟩),
    (0x3304060a00f74041, .blkUnpack ⟨false, false, 0, .f16, .rtz, .always, 4, 6, 10⟩),
    (0x3404060000f702a0, .retag ⟨.i4x8, .always, 4, 6⟩)] : List (DWord × Instr)).all
    (fun p => decide (decode p.1 = .ok p.2))) = true := by decide +kernel

theorem test_decode_predicates : (([
    (0x35010203007f0000, .pand ⟨.on 7 true, 1, 2, 3⟩),
    (0x35010203007f0400, .por ⟨.on 7 true, 1, 2, 3⟩),
    (0x35010203007f0800, .pxor ⟨.on 7 true, 1, 2, 3⟩),
    (0x35010203007f0c00, .pandn ⟨.on 7 true, 1, 2, 3⟩),
    (0x3501020000f71000, .pnot .always 1 2),
    (0x3501000000f71400, .pclr .always 1),
    (0x3501000000f71800, .pset .always 1),
    (0x350b030000f71c00, .pfromq .always 11 3),
    (0x3501640000f72020, .ptest true .always 1 100),
    (0x3564090000f72400, .ptov .always 100 9),
    (0x360406080af70000, .sel false .always 4 10 6 8)] : List (DWord × Instr)).all
    (fun p => decide (decode p.1 = .ok p.2))) = true := by decide +kernel

theorem test_decode_lanes_1 : (([
    (0x3704060800f70040, .shflIdx ⟨true, .always, 4, 6⟩ 8),
    (0x3704060000f71011, .shflUp ⟨false, .always, 4, 6⟩ 17),
    (0x3704060000f72011, .shflDown ⟨false, .always, 4, 6⟩ 17),
    (0x3704060000f73011, .shflXor ⟨false, .always, 4, 6⟩ 17),
    (0x3704064d00f74000, .shflBcast ⟨false, .always, 4, 6⟩ 77),
    (0x3801020000f70000, .voteAny .always 1 2),
    (0x3801020000f71000, .voteAll .always 1 2),
    (0x3863020000f72000, .voteBallot .always 99 2),
    (0x3863020000373000, .voteCount (.on 3 false) 99 2),
    (0x3803020000f74000, .voteAnyQ 3 2),
    (0x3803020000f75000, .voteAllQ 3 2),
    (0x385a020000f76000, .voteBallotS 90 2)] : List (DWord × Instr)).all
    (fun p => decide (decode p.1 = .ok p.2))) = true := by decide +kernel

theorem test_decode_lanes_2 : (([
    (0x3904060000f70460, .tileRed ⟨.min, .n32, .rne, .always, 4, 6⟩),
    (0x3a04060000f780cc, .scan true ⟨.add, .f32, .rup, .always, 4, 6⟩),
    (0x3b04060009f70060, .matchLanes ⟨true, .always, 4, 6⟩ (some 9)),
    (0x3c04023c00f70000, .append .always 4 2 60),
    (0x3d04000000f70040, .rand true .always 4),
    (0x3e12140000f70000, .popc ⟨.b32, .rne, false, .always, 18, 20, 0, 0⟩),
    (0x3e12140000f70420, .clz ⟨.b64, .rne, false, .always, 18, 20, 0, 0⟩),
    (0x3e12140000f70800, .ctz ⟨.b32, .rne, false, .always, 18, 20, 0, 0⟩),
    (0x3e12140000f70c20, .brev ⟨.b64, .rne, false, .always, 18, 20, 0, 0⟩),
    (0x3f12141618f701e2, .idp4 ⟨.i8x4, .rne, true, .always, 18, 20, 22, 24⟩),
    (0x8414141634181a1c, .pairedWord ⟨0x02, 10, 10, 11⟩ ⟨0x1a, 12, 13, 14⟩)] : List (DWord × Instr)).all
    (fun p => decide (decode p.1 = .ok p.2))) = true := by decide +kernel

theorem test_decode_memory : (([
    (0x5008050240f18090, .ld ⟨4, .b32, .always, 8, ⟨.bt 2, some (5, 2), 0x040⟩, 1⟩),
    (0x510805033412c0df, .st ⟨6, .on 1 false, 8, ⟨.bt 3, some (5, 3), 0xf34⟩, some 2⟩),
    (0x5208050934f28617, .ldScratch ⟨4, .f32, .always, 8, ⟨some 9, 5, 0x734⟩, 2⟩),
    (0x5308050034f74007, .stScratch ⟨2, .always, 8, ⟨none, 5, 0x734⟩, none⟩),
    (0x5408000934f2a707, .ldParam ⟨5, .f64, .always, 8, ⟨9, 0x734⟩, 2⟩),
    (0x540c000934f2c027, .sldParam ⟨6, 12, ⟨9, 0x734⟩, 2⟩),
    (0x550c000a34f2a02f, .sld ⟨5, 12, ⟨.s 10, 0xf34⟩, 2⟩),
    (0x56070a0c00f40001, .btSet true 7 10 12 4),
    (0x5700050a34f74071, .prefetch true .always ⟨.s 10, some (5, 1), 0x134⟩)] : List (DWord × Instr)).all
    (fun p => decide (decode p.1 = .ok p.2))) = true := by decide +kernel

theorem test_decode_atomics : (([
    (0x580805060af07189, .atom ⟨.incw, .n32, .always, ⟨.s 10, 5, 2⟩, 8, 6, 0⟩),
    (0x59000506032f0308, .red ⟨.add, .f32, .on 2 true, ⟨.bt 3, 5, 2⟩, 6⟩),
    (0x5a08050c00f14002, .cas ⟨1, .always, ⟨.scratch, 5, 0⟩, 8, 12, 1⟩),
    (0x5b08050603f03000, .vatom ⟨.and, .b32, .always, ⟨.bt 3, 5, 0⟩, 8, 6, 0⟩),
    (0x5b00050603f70100, .vred ⟨.add, .i32, .always, ⟨.bt 3, 5, 0⟩, 6⟩),
    (0x5c00000000f72240, .fence ⟨2, 2, 2⟩),
    (0x5c00000000f72240, .fence ⟨2, 2, 2⟩),
    (0x5c09000000f72270, .fencePhase ⟨2, 2, 3⟩ 9)] : List (DWord × Instr)).all
    (fun p => decide (decode p.1 = .ok p.2))) = true := by decide +kernel

theorem test_decode_engines : (([
    (0x5d003f0000f70000, .tileGive 63),
    (0x5d003f0000f70001, .tileGiveRst 63),
    (0x5d003f0000f71000, .tileTake 63),
    (0x5e00100000f40000, .copy 16 4),
    (0x5f00280000f70c00, .meshTree 3 40),
    (0x5f05400000f21c48, .meshRed ⟨2, .i32, 5, 64, 3, 2⟩),
    (0x5f00000000f72400, .meshCancel 1),
    (0x6005062800f20900, .sdot ⟨.bf16, 5, 6, 40, 2⟩)] : List (DWord × Instr)).all
    (fun p => decide (decode p.1 = .ok p.2))) = true := by decide +kernel

theorem test_decode_matrix_1 : (([
    (0x7000000000f704a0, .gangSet 1 2 2 0),
    (0x7000000000f78000, .gangClear),
    (0x7100000000f70000, .bond),
    (0x7100000000f71000, .unbond),
    (0x7200000000f70000, .mcfg .e4m3 .e4m3),
    (0x7300020000f70400, .mstat false true 2 0),
    (0x7300000000f71000, .mflip),
    (0x7400010008f2c000, .mstream ⟨true, true, false, 1, 0, 8, 2⟩),
    (0x7500040000f70000, .mzero false 4),
    (0x7500040600f71800, .mfill true 4 6),
    (0x76020a0000f31101, .mdrain ⟨0, .e4m3x4, .rne, true, 2, 10, 3⟩),
    (0x76050a0700f39330, .mdrainT ⟨0, .de8x4, 3, .rne, false, 5, 10, 7, 3⟩)] : List (DWord × Instr)).all
    (fun p => decide (decode p.1 = .ok p.2))) = true := by decide +kernel

theorem test_decode_matrix_2 : (([
    (0x7709000000f10000, .mstatus 9 1)] : List (DWord × Instr)).all
    (fun p => decide (decode p.1 = .ok p.2))) = true := by decide +kernel

theorem test_decode_privileged_1 : (([
    (0x7814000000f7000a, .rdps 20 0x0a),
    (0x7800140000f71052, .wrps 0x52 20),
    (0x7900000000f70001, .tret true),
    (0x7a00040600f10000, .csave 4 6 1),
    (0x7a00040600f11000, .crest 4 6 1),
    (0x7b00040600f10100, .tlbinv 1 4 6 1),
    (0x7b00141600f10400, .harvest 20 22 1),
    (0x7b00040600f11000, .atcinv 4 6 1),
    (0x7c021e0000f70000, .fltAck 0 false 2 30),
    (0x7c021e0000f70200, .fltAck 2 false 2 30),
    (0x7c01040000f71100, .haltAck true 1 4),
    (0x7c01040000f72000, .regionAbort 1 4)] : List (DWord × Instr)).all
    (fun p => decide (decode p.1 = .ok p.2))) = true := by decide +kernel

theorem test_decode_privileged_2 : (([
    (0x7d00040000f70021, .tileReset 4 33),
    (0x7d00040600f71100, .phaseSet true 4 6)] : List (DWord × Instr)).all
    (fun p => decide (decode p.1 = .ok p.2))) = true := by decide +kernel

theorem test_decode_frond_1 : (([
    (0x2c400000, .frondLdp ⟨1, 0, 0⟩),
    (0x0c8400ff, .frondAndi ⟨2, 1, 0xff⟩),
    (0x4cc80001, .frondAct ⟨3, 2, 1⟩),
    (0x3c0c0008, .frondBeq ⟨3, 0, 8⟩),
    (0x05000004, .frondMovi ⟨4, 0, 4⟩),
    (0x440d0007, .frondBltu ⟨3, 4, 7⟩),
    (0x50000004, .frondFail 4),
    (0x00000000, .frondEnd),
    (0x095bffff, .frondAddi ⟨5, 6, 0x3ffff⟩),
    (0x1159c000, .frondAdd ⟨5, 6, 7⟩),
    (0x1559c000, .frondSub ⟨5, 6, 7⟩),
    (0x1959c000, .frondAnd ⟨5, 6, 7⟩)] : List (Word × Instr)).all
    (fun p => decide (decodeFrond p.1 = .ok p.2))) = true := by decide +kernel

theorem test_decode_frond_2 : (([
    (0x1d59c000, .frondOr ⟨5, 6, 7⟩),
    (0x2159c000, .frondXor ⟨5, 6, 7⟩),
    (0x2559c000, .frondShl ⟨5, 6, 7⟩),
    (0x2959c000, .frondShr ⟨5, 6, 7⟩),
    (0x31580002, .frondLdw ⟨5, 6, 2⟩),
    (0x35580003, .frondStw ⟨5, 6, 3⟩),
    (0x39400007, .frondSts ⟨5, 0, 7⟩),
    (0x4019c009, .frondBne ⟨6, 7, 9⟩),
    (0x48001805, .frondLoop 3 5)] : List (Word × Instr)).all
    (fun p => decide (decodeFrond p.1 = .ok p.2))) = true := by decide +kernel

/-- A pattern of no row, and a word of a row with a bit in a res0 field, decode to nothing (R199). -/
theorem test_decode_refuses_undefined : ([0x7e00000000f70000, 0x0000000000f70001, 0x0100000000f70400] : List DWord).all
    (fun w => (decode w).toOption.isNone) = true := by decide +kernel

theorem test_decode_frond_refuses_undefined : ([0xffffffff, 0x00000001, 0x04040000] : List Word).all
    (fun w => (decodeFrond w).toOption.isNone) = true := by decide +kernel

/-! ### A small machine: one group of 32 lanes in HOST mode, its word in issue -/

/-- One group, its team, cluster and launch, at the first word of a clause, all lanes active. -/
def base : State :=
  { State.reset.placeTeam with
    groups := [(1, placedGroup default)]
    iss := { grp := 1, mask := BitVec.allOnes 32, planes := 1, plane := 0, off := 8, idx := 0, word := 0, next := 16
             split := false, lastPlane := true } }
/-- The same with a change to its group. -/
def withG (f : Group → Group) : State := base.modGrp 1 f
/-- With scalar registers. -/
def withS (l : List (Nat × Word)) : State := withG (fun g => { g with sregs := FMap.setMany [] l })
/-- With the lowest lanes of vector registers, and their tags. -/
def withV (l : List (Nat × Word)) (tags : List (Nat × Tag)) : State :=
  withG (fun g => { g with vregs := FMap.setMany [] l, vtags := FMap.setMany [] tags })
/-- The state after one instruction; unchanged where it does not end in a next state. -/
def after (s : State) (i : Instr) : State :=
  match exec i s with
  | .next t => t
  | _ => s
def sReg (s : State) (r : Nat) : Word := FMap.get (s.grp 1).sregs r
def vReg (s : State) (r l : Nat) : Word := FMap.get (s.grp 1).vregs (32 * r + l)
/-- The class of the fault a group is parked with, 0 for none. -/
def cls (s : State) : Nat := if (s.grp 1).park = .fault then (s.grp 1).flt.cls else 0

/-- Whether the tables are in order, and the numbers fresh. -/
def ordered (s : State) : Bool := decide s.Ordered
def fresh (s : State) : Bool := decide s.NumbersFresh

/-! ### One step of single instructions -/

theorem test_sadd_wraps : sReg (after (withS [(1, 0xffffffff), (2, 2)]) (.sadd ⟨.n32, false, 3, 1, 2⟩)) 3 = 1 := by decide +kernel
theorem test_sadd_saturates :
    sReg (after (withS [(1, 0x7fffffff), (2, 2)]) (.sadd ⟨.i32, true, 3, 1, 2⟩)) 3 = 0x7fffffff := by decide +kernel
theorem test_ssub_of_pairs_borrows :
    let t := after (withS [(2, 0), (3, 1), (4, 1)]) (.ssub ⟨.n64, false, 6, 2, 4⟩)
    (sReg t 6, sReg t 7) = (0xffffffff, 0) := by decide +kernel
theorem test_sadd_odd_pair_is_illegal : cls (after base (.sadd ⟨.i64, false, 3, 2, 4⟩)) = 4 := by decide +kernel
theorem test_smulhi_signed :
    sReg (after (withS [(1, 0xffffffff), (2, 2)]) (.smulhi ⟨.i32, false, 3, 1, 2⟩)) 3 = 0xffffffff := by decide +kernel
theorem test_sdiv_by_zero : sReg (after (withS [(1, 7)]) (.sdiv ⟨.i32, false, 3, 1, 2⟩)) 3 = 0xffffffff := by decide +kernel
theorem test_sdiv_truncates :
    sReg (after (withS [(1, 0xfffffff9), (2, 2)]) (.sdiv ⟨.i32, false, 3, 1, 2⟩)) 3 = 0xfffffffd := by decide +kernel
theorem test_srem_has_the_sign_of_the_dividend :
    sReg (after (withS [(1, 0xfffffff9), (2, 2)]) (.srem ⟨.i32, false, 3, 1, 2⟩)) 3 = 0xffffffff := by decide +kernel
theorem test_smin_signed : sReg (after (withS [(1, 0x80000000), (2, 1)]) (.smin ⟨.i32, false, 3, 1, 2⟩)) 3 = 0x80000000 := by
  decide +kernel
theorem test_smax_unsigned : sReg (after (withS [(1, 0x80000000), (2, 1)]) (.smax ⟨.n32, false, 3, 1, 2⟩)) 3 = 0x80000000 := by
  decide +kernel
theorem test_sandn : sReg (after (withS [(1, 0xff), (2, 0x0f)]) (.sandn ⟨.b32, false, 3, 1, 2⟩)) 3 = 0xf0 := by decide +kernel
theorem test_sshl_by_the_width : sReg (after (withS [(1, 1), (2, 32)]) (.sshl ⟨.b32, false, 3, 1, 2⟩)) 3 = 0 := by decide +kernel
theorem test_sshr_fills_the_sign :
    sReg (after (withS [(1, 0x80000000), (2, 40)]) (.sshr ⟨.i32, false, 3, 1, 2⟩)) 3 = 0xffffffff := by decide +kernel
theorem test_srotl : sReg (after (withS [(1, 0x80000001), (2, 33)]) (.srotl ⟨.b32, false, 3, 1, 2⟩)) 3 = 3 := by decide +kernel
theorem test_sabs_wraps : sReg (after (withS [(1, 0x80000000)]) (.sabs ⟨.i32, false, 3, 1, 0⟩)) 3 = 0x80000000 := by decide +kernel
theorem test_sneg_saturates : sReg (after (withS [(1, 0x80000000)]) (.sneg ⟨.i32, true, 3, 1, 0⟩)) 3 = 0x7fffffff := by
  decide +kernel
theorem test_sclz_of_zero : sReg (after base (.sclz ⟨.b64, false, 3, 2, 0⟩)) 3 = 64 := by decide +kernel
theorem test_spopc : sReg (after (withS [(1, 0xf0f)]) (.spopc ⟨.b32, false, 3, 1, 0⟩)) 3 = 8 := by decide +kernel
theorem test_saddi_negative : sReg (after (withS [(1, 5)]) (.saddi 3 1 0xffffffff)) 3 = 4 := by decide +kernel
theorem test_smovi_i64_extends : sReg (after base (.smoviI64 2 0x80000000)) 3 = 0xffffffff := by decide +kernel
theorem test_smovi_n64_extends : sReg (after base (.smoviN64 2 0x80000000)) 3 = 0 := by decide +kernel
theorem test_scmp_signed_and :
    ((after (withG (fun g => { g with sregs := [(1, 0xffffffff)], qregs := 1 })) (.scmp .lt (.andWith 0) .i32 2 1 2)).grp 1).qregs
      = 5 := by decide +kernel
theorem test_ssel : sReg (after (withS [(1, 7), (2, 9)]) (.ssel false 3 0 1 2)) 3 = 9 := by decide +kernel
theorem test_sadda_signed_index :
    let t := after (withS [(2, 0x1000), (4, 0xffffffff)]) (.sadda false 3 6 2 4)
    (sReg t 6, sReg t 7) = (0xff8, 0) := by decide +kernel
theorem test_qandn : ((after (withG (fun g => { g with qregs := 3 })) (.qandn 2 0 1)).grp 1).qregs = 3 := by decide +kernel
theorem test_nop_changes_nothing : after base .nop = base := by decide +kernel

theorem test_undefined_pattern_is_illegal : cls (after base (.undefinedBitPattern 0)) = 4 := by decide +kernel
theorem test_trap_without_a_handler_parks : cls (after base (.trap 5)) = 1 := by decide +kernel
theorem test_trap_enters_the_handler :
    let t := after (base.modLaunch 1 (fun l => { l with trap := some 0x40 })) (.trap 5)
    ((t.grp 1).off, (t.grp 1).trapped, sReg t 124, sReg t 125, sReg t 126, sReg t 127) =
      (0x40, true, 1, 16, 5, 0xffffffff) := by decide +kernel
theorem test_tret_untrapped_is_illegal : cls (after base (.tret false)) = 4 := by decide +kernel
theorem test_exit_of_every_lane_retires : ((after base (.exit .always)).grp 1).exited = BitVec.allOnes 32 := by decide +kernel
theorem test_call_saves_the_next_clause : sReg (after base (.call 9 4)) 9 = 16 := by decide +kernel
theorem test_bra_divides :
    let g := ((after (withG (fun g => { g with pregs := [(0, 3)] })) (.bra (.on 0 false) 6 4)).grp 1)
    (g.off, g.mask, g.recOff, g.stack.map (·.off)) = (16, 0xfffffffc, some 48, [32, 48]) := by decide +kernel
theorem test_bra_target_must_lie_in_the_code : cls (after base (.bra .always 0 32)) = 4 := by decide +kernel
theorem test_plane_set : FMap.get ((after base (.planeSet .always 5)).grp 1).planes 31 = 5 := by decide +kernel
theorem test_sets_tilew : ((after (withS [(1, 8)]) (.sets 0x05 1)).grp 1).tilewNext = 8 := by decide +kernel
theorem test_gets_lane : vReg (after base (.gets (.v 3) 0)) 3 31 = 31 := by decide +kernel
theorem test_bar_sync_of_a_lone_group_advances : (FMap.get ((after base (.barSync 2)).team 1).barriers 2).phase = 1 := by
  decide +kernel
theorem test_bar_expect_above_32_is_illegal : cls (after (withS [(1, 33)]) (.barExpect 0 1)) = 4 := by decide +kernel
theorem test_rgive_frees_blocks : (((after base (.rgive 4)).grp 1).blocks, ((after base (.rgive 4)).team 1).pool) = (28, 4) := by
  decide +kernel
theorem test_rclaim_parks_without_a_pool :
    ((after (withG (fun g => { g with blocks := 4 })) (.rclaim 1)).grp 1).park = .rclaim := by decide +kernel
theorem test_region_begin_records : ((after (withS [(5, 9)]) (.regionBegin 0 4 0 4)).grp 1).region.sregs = [(5, 9)] := by
  decide +kernel
theorem test_wait_without_ticks_times_out :
    let t := after (withG (fun g => { g with qregs := 2, sregs := [(8, 5)] })) (.wait false 0 1 4 8 20 0)
    ((t.grp 1).qregs, sReg t 4) = (0, 7) := by decide +kernel
theorem test_wait_reports_the_lowest_index :
    let t := after (withS [(8, 5), (16, 0x102), (24, 0x202)]) (.wait false 2 1 4 8 30 0)
    ((t.grp 1).qregs, sReg t 4) = (2, 1) := by decide +kernel

theorem test_iadd_saturates_each_byte :
    vReg (after (withV [(32, 0x7f8001ff), (64, 0x01ff0101)] [(1, .i8x4), (2, .i8x4)])
      (.iadd ⟨.i8x4, .rne, true, .always, 3, 1, 2, 0⟩)) 3 0 = 0x7f800200 := by decide +kernel
theorem test_iadd_needs_the_tag : cls (after (withV [] [(1, .f32)]) (.iadd ⟨.i32, .rne, false, .always, 3, 1, 2, 0⟩)) = 2 := by
  decide +kernel
theorem test_iadd_above_the_allocation :
    cls (after (withG (fun g => { g with blocks := 1 })) (.iadd ⟨.i32, .rne, false, .always, 8, 1, 2, 0⟩)) = 5 := by decide +kernel
theorem test_imulw_widens :
    let t := after (withV [(32, 0xffffffff), (64, 2)] []) (.imulw ⟨.i32, .rne, false, .always, 4, 1, 2, 0⟩)
    (vReg t 4 0, vReg t 5 0) = (0xfffffffe, 0xffffffff) := by decide +kernel
theorem test_guard_selects_lanes :
    let t := after (withG (fun g => { g with pregs := [(1, 2)] })) (.movi .n32 (.on 1 true) 3 7)
    (vReg t 3 0, vReg t 3 1) = (7, 0) := by decide +kernel
theorem test_shl_by_the_width :
    vReg (after (withV [(32, 1), (64, 32)] []) (.shl ⟨.b32, .rne, false, .always, 3, 1, 2, 0⟩)) 3 0 = 0 := by decide +kernel
theorem test_fadd_ties_to_even :
    vReg (after (withV [(32, 0x4b800000), (64, 0x3f800000)] [(1, .f32), (2, .f32)])
      (.fadd ⟨.f32, .rne, false, .always, 3, 1, 2, 0⟩)) 3 0 = 0x4b800000 := by decide +kernel
theorem test_fadd_rounds_up :
    vReg (after (withV [(32, 0x4b800000), (64, 0x3f800000)] [(1, .f32), (2, .f32)])
      (.fadd ⟨.f32, .rup, false, .always, 3, 1, 2, 0⟩)) 3 0 = 0x4b800001 := by decide +kernel
theorem test_ffma_rounds_once :
    vReg (after (withV [(32, 0x3f800001), (64, 0x3f800001), (96, 0xbf800002)] [(1, .f32), (2, .f32), (3, .f32)])
      (.ffma ⟨.f32, .rne, false, .always, 4, 1, 2, 3⟩)) 4 0 = 0x28800000 := by decide +kernel
theorem test_fmin_prefers_negative_zero :
    vReg (after (withV [(32, 0), (64, 0x80000000)] [(1, .f32), (2, .f32)]) (.fmin ⟨.f32, .rne, false, .always, 3, 1, 2, 0⟩)) 3 0 =
      0x80000000 := by decide +kernel
theorem test_fmax_passes_over_nan :
    vReg (after (withV [(32, 0x7fc00001), (64, 0xbf800000)] [(1, .f32), (2, .f32)]) (.fmax ⟨.f32, .rne, false, .always, 3, 1, 2, 0⟩))
      3 0 = 0xbf800000 := by decide +kernel
theorem test_fcmp_unordered :
    (FMap.get ((after (withV [(32, 0x7fc00000)] [(1, .f32), (2, .f32)]) (.fcmp ⟨.un, .plain, .f32, .always, 4, 1, 2⟩)).grp 1).pregs 4)
      = 1 := by decide +kernel
theorem test_cvt_to_integer_ties_to_even :
    vReg (after (withV [(32, 0x40200000)] [(1, .f32)]) (.cvt ⟨.f32, .i32, .rne, false, 0, .always, 3, 1⟩)) 3 0 = 2 := by decide +kernel
theorem test_cvt_f16_one : vReg (after (withV [(32, 0x3f800000)] [(1, .f32)]) (.cvt ⟨.f32, .f16, .rne, false, 0, .always, 3, 1⟩)) 3 0 =
    0x3c00 := by decide +kernel
theorem test_movi_f64_of_one : vReg (after base (.movi .f64 .always 4 0x3f800000)) 5 0 = 0x3ff00000 := by decide +kernel
theorem test_rcp_holds_its_result_until_it_completes :
    let t := after (withV [(32, 0x40000000)] [(1, .f32)]) (.rcp ⟨.f32, .rne, .always, 3, 1, 2⟩)
    (t.ctr 1 2, vReg t 3 0, vReg (after t (.variableLatencyCompletion base.nextId)) 3 0) = (1, 0, 0x3f000000) := by decide +kernel
theorem test_shfl_up_keeps_the_edge :
    let t := after (withV [(32, 5), (33, 6)] []) (.shflUp ⟨false, .always, 3, 1⟩ 1)
    (vReg t 3 0, vReg t 3 1) = (5, 5) := by decide +kernel
theorem test_vote_ballot : vReg (after (withG (fun g => { g with pregs := [(2, 0x80000001)] })) (.voteBallot .always 3 2)) 3 7 =
    0x80000001 := by decide +kernel
theorem test_tile_reduction_adds : vReg (after (withV [(32, 5), (33, 6)] []) (.tileRed ⟨.add, .i32, .rne, .always, 3, 1⟩)) 3 31 = 11 := by
  decide +kernel
theorem test_scan_excludes_the_lane :
    let t := after (withV [(32, 5), (33, 6)] []) (.scan true ⟨.add, .i32, .rne, .always, 3, 1⟩)
    (vReg t 3 0, vReg t 3 1, vReg t 3 2) = (0, 5, 11) := by decide +kernel
theorem test_append_reserves_slots :
    let t := after (withG (fun g => { g with pregs := [(1, 0xa)], sregs := [(2, 64)] })) (.append .always 3 1 2)
    (vReg t 3 1, vReg t 3 3, FMap.get (t.team 1).scratch 64) = (0, 1, 2) := by decide +kernel
theorem test_brev : vReg (after (withV [(32, 1)] []) (.brev ⟨.b32, .rne, false, .always, 3, 1, 0, 0⟩)) 3 0 = 0x80000000 := by decide +kernel
theorem test_idp4 : vReg (after (withV [(32, 0x000000ff), (64, 2), (96, 5)] [(1, .i8x4), (2, .i8x4)])
    (.idp4 ⟨.i8x4, .rne, false, .always, 4, 1, 2, 3⟩)) 4 0 = 3 := by decide +kernel
theorem test_paired_moves_swap :
    let t := after (withV [(32, 5), (64, 6)] []) (.pairedWord ⟨1, 1, 2, 0⟩ ⟨1, 2, 1, 0⟩)
    (vReg t 1 0, vReg t 2 0) = (6, 5) := by decide +kernel

theorem test_scratch_store_writes_little_endian :
    let t := after ((withV [(32, 0x11223344), (64, 8)] [(2, .n32)]).modGrp 1 (fun g => { g with pregs := [(0, 1)] }))
      (.stScratch ⟨4, .on 0 false, 1, ⟨none, 2, 0⟩, none⟩)
    (FMap.get (t.team 1).scratch 8, FMap.get (t.team 1).scratch 11) = (0x44, 0x11) := by decide +kernel
theorem test_parameter_load_past_the_block_is_zero :
    let t := after base (.sldParam ⟨4, 3, ⟨1, 8⟩, 0⟩)
    (t.ctr 1 0, sReg (after t (.variableLatencyCompletion base.nextId)) 3) = (1, 0) := by decide +kernel
theorem test_fence_parks : ((after base (.fence ⟨15, 15, 2⟩)).grp 1).park = .fence := by decide +kernel
theorem test_tile_give_of_an_undefined_tile : cls (after base (.tileGive 3)) = 4 := by decide +kernel
theorem test_gang_set :
    ((after (base.modCluster 1 (fun c => { c with cols := 2 })) (.gangSet 0 2 1 0)).grp 1).gang = 0x8090 := by decide +kernel
theorem test_gang_of_one_core_is_illegal : cls (after base (.gangSet 0 1 1 0)) = 4 := by decide +kernel
theorem test_mzero_enters_the_queue : ((after (withS [(2, 0x10000)]) (.mzero false 2)).matrixOf 0).queue.length = 1 := by decide +kernel
theorem test_rdps_pmode : sReg (after base (.rdps 2 0)) 2 = 2 := by decide +kernel
theorem test_wrps_in_user_mode_is_illegal : cls (after (withG (fun g => { g with mode := 0 })) (.wrps 0x20 2)) = 4 := by decide +kernel
theorem test_wrps_of_a_reserved_bit_is_illegal : cls (after (withS [(2, 2)]) (.wrps 0x20 2)) = 4 := by decide +kernel
theorem test_flt_ack_without_a_park : ((after (withG (fun g => { g with qregs := 2 })) (.fltAck 0 false 1 2)).grp 1).qregs = 0 := by
  decide +kernel

/-- A queue whose interpreter runs one word. -/
def frond (l : List (Nat × DWord)) : State :=
  { State.reset with queues := [(0, { (default : Queue) with active := true, state := .run, words := [0], fregs := FMap.setMany [] l })] }
theorem test_frond_sub_wraps : (after (frond [(1, 1), (2, 2)]) (.frondSub ⟨3, 1, 2⟩)).curQ.fr 3 = 0xffffffffffffffff := by decide +kernel
theorem test_frond_shift_counts_six_bits : (after (frond [(1, 1), (2, 65)]) (.frondShl ⟨3, 1, 2⟩)).curQ.fr 3 = 2 := by decide +kernel
theorem test_frond_register_zero : (after (frond [(1, 1)]) (.frondAdd ⟨0, 1, 1⟩)).curQ.fr 0 = 0 := by decide +kernel
theorem test_frond_branch : (after (frond [(1, 1)]) (.frondBne ⟨1, 0, 5⟩)).curQ.pc = 6 := by decide +kernel
theorem test_frond_addi_extends_the_sign : (after (frond []) (.frondAddi ⟨1, 0, 0x3ffff⟩)).curQ.fr 1 = 0xffffffffffffffff := by
  decide +kernel

/-- The next state of a step; the same state where it does not end in one. -/
def stepped (s : State) : State :=
  match step s with
  | .next t => t
  | _ => s
theorem test_placed_word_runs_first :
    let s := State.reset.withFetchWord 64 0x0104060800f70042
    let t := stepped { s with groups := [(1, { s.grp 1 with sregs := [(6, 7), (8, 9)] })] }
    (t.agenda, (t.grp 1).off, (t.grp 1).word, (t.grp 1).inClause, sReg t 4) = ([], 16, 1, false, 16) := by decide +kernel
theorem test_empty_agenda_is_a_tick : stepped State.reset = { State.reset with tick := 1 } := by decide +kernel
/-! ### States and operands that meet the hypotheses of the statements

One theorem for each statement with hypotheses, or for several of its clauses; registers, counts and offsets stand at the ends of
their ranges where the clauses name one. -/

theorem test_hyp_ScalarIntegerArithmetic :
    Tag.n32 ∈ intTags ∧ Tag.i64 ∈ intTags ∧ sPairOk false 127 = true ∧ sPairOk true 126 = true ∧ sPairOk true 0 = true := by decide
theorem test_hyp_ScalarBitsCountsAndImmediates :
    sPairOk (Tag.b64.width = 64) 126 = true ∧ sPairOk (Tag.b32.width = 64) 127 = true ∧ tagSigned .i32 = true ∧ tagSigned .i64 = true ∧
    (126 : SReg).toNat % 2 = 0 := by decide
theorem test_hyp_ScalarAndVectorCompares :
    sPairOk (Tag.i64.width = 64) 126 = true ∧ Tag.i32 ∈ intTags ∧ Tag.f64 ∈ floatSingles ∧
    (withV [] [(1, .i32), (2, .b32)]).opFault true [vSrc 1 .i32, vSrc 2 .i32] (BitVec.allOnes 32) = none ∧
    (withV [] [(1, .f32)]).opFault true [vSrc 1 .i32, vSrc 2 .i32] (BitVec.allOnes 32) = some (plainFault 2) ∧
    (withG (fun g => { g with blocks := 31 })).opFault true [vUse 247 false .anyTag] 0 = none ∧
    (withG (fun g => { g with blocks := 31 })).opFault true [vUse 248 false .anyTag] 0 = some (plainFault 5) := by decide +kernel
theorem test_hyp_VectorMovesAndConstants :
    Tag.f32x2 ≠ Tag.f64 ∧ base.opFault true [vDst 254 true, vUse 0 true .anyTag] (BitVec.allOnes 32) = none ∧
    base.opFault true [vDst 255 true, vUse 0 true .anyTag] (BitVec.allOnes 32) = some (plainFault 5) ∧
    base.opFault true [vDst 253 true, vUse 0 true .anyTag] (BitVec.allOnes 32) = some (plainFault 4) ∧
    base.opFault (sPairOk true 127) [vDst 254 true] (BitVec.allOnes 32) = some (plainFault 4) := by decide +kernel
theorem test_hyp_VectorIntegerArithmeticAndProducts :
    Tag.i8x4 ∈ vecIntTags ∧ Tag.n64 ∈ vecIntTags ∧
    (withV [] [(1, .i8x4), (2, .b32)]).opFault true [vDst 255 false, vSrc 1 .i8x4, vSrc 2 .i8x4] 1 = none ∧
    (withV [] [(1, .mixed)]).opFault true [vDst 255 false, vSrc 1 .i8x4, vSrc 2 .i8x4] 1 = some (plainFault 2) ∧
    (withV [] [(1, .n32)]).opFault true [vDst 0 false, vUse 1 false (.among idxTags)] 1 = none := by decide +kernel
theorem test_hyp_VectorBitsAndShifts :
    (withV [] [(1, .mixed), (2, .f32)]).opFault true [vDst 255 false, vUse 1 false .bits, vUse 2 false .bits] 1 = none ∧
    (withV [] [(1, .f64)]).opFault true [vDst 255 false, vUse 1 false .bits, vUse 2 false .bits] 1 = some (plainFault 2) := by
  decide +kernel
theorem test_hyp_VectorFloatArithmeticAndFunctions :
    let s := (withV [] [(1, .f32), (2, .f16x2)]).modGrp 1 (fun g => { g with ctrs := [(5, 254)] })
    Tag.f16x2 ∈ floatTags ∧ Tag.f64 ∈ floatSingles ∧ s.opFault true [vDst 255 false, vSrc 2 .f16x2, vSrc 2 .f16x2] 1 = none ∧
    s.opFault true [vDst 255 (Tag.f32.width = 64), vSrc 1 .f32] (s.wmask .always) = none ∧ s.ctr s.cur (5 : CReg).val < 255 := by
  decide +kernel
theorem test_hyp_ConversionsOfLanesAndBlocks :
    let s := withV [] [(1, .f32), (2, .de8x4), (3, .de4x8)]
    Tag.i4x8 ∈ packTags ∧ Tag.f32x2 ∈ packTags ∧ s.opFault true [vDst 9 false, vSrc 1 .f32] (s.wmask .always) = none ∧
    s.opFault true [vRange 248 8 1 .dst, vSrc 3 .de4x8] (s.wmask .always) = none ∧
    s.opFault true [vRange 249 8 1 .dst, vSrc 3 .de4x8] (s.wmask .always) = some (plainFault 5) ∧
    s.opFault true [vDst 9 false, vSrc 2 .de8x4] 1 = none := by decide +kernel
theorem test_hyp_Shuffles :
    base.opFault true [vDst 255 false, vUse 1 false .bits, vUse 2 false .bits] (base.wmask .always) = none := by decide +kernel
theorem test_hyp_LanesVoteReduceMatchAndAppend :
    let s := base
    let u := withG (fun g => { g with tilew := 2 })
    let gr := s.grp s.cur
    0 < s.tw ∧ s.tw = 32 ∧ u.tw ≠ 32 ∧ 0 < u.tw ∧
    s.opFault true [vDst 255 false, vUse 1 false .bits] (s.wmask (.on 11 true)) = none ∧
    gr.region.open_ = false ∧ gr.regionStores = [] ∧ (65532 : Nat) % 4 = 0 ∧ s.opFault true [vDst 255 false] (s.wmask .always) = none ∧
    (s.team gr.team).violates 65532 4 true = false ∧ (s.team gr.team).poisoned 65532 4 = false ∧
    (s.coreRec (s.coreOf s.cur)).noiseFail = false ∧ (s.fn gr.vf).rlcfg.getLsbD 63 = false := by decide +kernel
theorem test_hyp_PairedWords :
    let s := withV [] [(1, .f32), (2, .i32)]
    let u (h : Half) : List VUse := match halfFn h.op.toNat with | none => [] | some k => halfUses h k
    pairOk ⟨1, 255, 2, 0⟩ ⟨1, 2, 255, 0⟩ = true ∧ pairOk ⟨0, 0, 0, 0⟩ ⟨1, 2, 1, 0⟩ = true ∧
    s.opFault true (u ⟨1, 255, 2, 0⟩ ++ u ⟨1, 2, 255, 0⟩) s.active = none ∧
    (withG (fun g => { g with blocks := 31 })).opFault true (u ⟨1, 248, 2, 0⟩) s.active = some (plainFault 5) := by decide +kernel

/-- A path of four lanes over an empty stack, and one that stands over 32 entries. -/
def path4 : Path := { off := 16, mask := 0xf, recOff := none, stack := [] }
def path32 : Path := { off := 16, mask := 0xf, recOff := some 400, stack := (List.range 32).map (fun k => ⟨8 * k, 1, none⟩) }
theorem test_hyp_PathsDivide :
    let three (l : Nat) : Nat := if l < 2 then 64 else if l = 2 then 32 else 48
    path4.mask ≠ 0 ∧ (∀ l ∈ lanesOf path4.mask, (fun _ => 40) l = 40) ∧ dividePath path4 (fun _ => 48) 48 = some { path4 with off := 48 } ∧
    (dividePath path4 three 48).isSome = true ∧ (∃ l ∈ lanesOf path4.mask, ∃ k ∈ lanesOf path4.mask, three l ≠ three k) ∧
    (dividePath path32 (fun l => if l = 0 then 64 else 400) 400).isSome = true ∧
    dividePath path32 (fun l => if l = 0 then 64 else 72) 400 = none ∧ dividePath path32 (fun l => if l = 0 then 64 else 72) 80 = none := by
  decide +kernel

theorem test_hyp_ControlTransfersAndExits_transfers :
    let s := withG (fun g => { g with pregs := [(0, 3)], sregs := [(4, 0), (5, 24)], stack := [], recOff := none })
    let gr := s.grp s.cur
    s.active = gr.mask ∧ gr.mask ≠ 0 ∧ s.iss.lastPlane = true ∧ gr.brDests = [] ∧ s.targetOk (31 * 8) = true ∧ s.targetOk (32 * 8) = false ∧
    (dividePath gr.path (fun l => if (s.wmask (.on 0 false)).getLsbD l then 8 else s.iss.next) 16).isSome = true ∧
    s.opFault true [vSrc 1 .n32] (s.wmask .always) = none ∧
    (∀ l ∈ lanesOf (s.wmask .always), (s.rdV s.cur 1 l).toNat < 1 ∧ s.targetOk (s.rdS s.cur 4).toNat = true) ∧
    (let u := withV [(32, 1)] []
     (∀ l, l < 32 → (1 : LaneMask).getLsbD l = ((u.wmask .always).getLsbD l && 1 ≤ (u.rdV u.cur 1 l).toNat)) ∧
     u.opFault true [vSrc 1 .n32] (u.wmask .always) = none) := by decide +kernel
theorem test_hyp_ControlTransfersAndExits_exits :
    let s := base
    let one := withG (fun g => { g with exited := 0x7fffffff, mask := 0x80000000 })
    let bonded := { base with bonds := [(32912, { (default : Bond) with state := .held, cluster := 1, rows := 1, cols := 2 })] }.modGrp 1
      (fun g => { g with gang := 0x8090 })
    let tied := bonded.modCluster 1 (fun c => { c with cols := 2, cores := [0, 1] })
    ordered s = true ∧ (s.grp s.cur).exited ||| s.wmask (.on 0 false) ≠ BitVec.allOnes 32 ∧ ordered one = true ∧ ordered tied = true ∧
    (s.grp s.cur).exited ||| s.wmask .always = BitVec.allOnes 32 ∧ s.bondOf s.cur = none ∧ (s.grp s.cur).regionStores = [] ∧
    (s.grp s.cur).region.open_ = false ∧ (tied.bondOf tied.cur).isSome = true ∧
    (tied.grp tied.cur).exited ||| tied.wmask .always = BitVec.allOnes 32 := by decide +kernel
theorem test_hyp_IllegalWordsAndExceptions :
    let h := base.modLaunch 1 (fun l => { l with trap := some 0x40 })
    let t := h.modGrp 1 (fun g => { g with trapped := true })
    let user := withG (fun g => { g with mode := 0 })
    ordered base = true ∧ ordered h = true ∧ ordered t = true ∧ ordered user = true ∧ Tag.i64.width = 64 ∧ (127 : SReg).toNat % 2 = 1 ∧ (user.grp user.cur).mode = 0 ∧
    h.trapEntry h.cur = some 0x40 ∧ (h.grp h.cur).trapped = false ∧ base.trapEntry base.cur = none ∧ (t.grp t.cur).trapped = true ∧
    1 ≤ (plainFault 3).cls ∧ (plainFault 3).cls ≤ 3 ∧ 4 ≤ (plainFault 4).cls := by decide +kernel
theorem test_hyp_PlanesAndSpecialRegisters :
    let s := withV [(32, 7), (63, 0)] [(1, .n32)]
    ordered s = true ∧ s.opFault true [vSrc 1 .n32] (s.wmask .always) = none ∧ (∀ l ∈ lanesOf (s.wmask .always), (s.rdV s.cur 1 l).toNat < 8) ∧
    0x05 ∈ specialRegs ∧ (126 : SReg).toNat % 2 = 0 ∧ (32 : Word).toNat ∈ [2, 4, 8, 16, 32] ∧ (7 : Word).toNat < 8 ∧
    sPairOk true 126 = true ∧ s.opFault true [vUse 254 true .anyTag] (1#32 <<< 31) = none := by decide +kernel
theorem test_hyp_BarriersAdvanceAndWaitsEnd_barriers :
    let s := base.modTeam 1 (fun t => { t with barriers := [(15, { own := true, expected := 2, arrivals := 0, phase := 65535 })] })
    let gr := s.grp s.cur
    let tm := s.team gr.team
    let n (k : Nat) := ((withS [(1, BitVec.ofNat 32 k)]).rdS 1 1).toNat
    let two := { s with teams := FMap.set s.teams 2 { tm with crank := 1 } }.modCluster 1 (fun c => { c with teams := [1, 2], cols := 2 })
    ordered s = true ∧ tm.crank < 64 ∧ gr.region.open_ = false ∧ gr.park = .running ∧
    (FMap.get tm.barriers 15).arrivals + 1 < tm.expected 15 ∧ tm.expected 0 ≤ (FMap.get tm.barriers 0).arrivals + 1 ∧ 1 ∈ tm.groups ∧
    (1 ≤ n 1 ∧ n 1 ≤ 32) ∧ (1 ≤ n 32 ∧ n 32 ≤ 32) ∧ n 0 = 0 ∧ 32 < n 33 ∧ ordered two = true ∧
    (∃ u ∈ (two.cluster 1).teams, u ≠ 1 ∧ (two.team u).live = true ∧ (two.team u).crank ≠ (two.team 1).crank ∧
      (two.team u).alive ≠ [] ∧ FMap.get (two.cluster 1).arrivals (cbarKey 3 (two.team u).crank) = 0) ∧
    (s.cluster tm.cluster).teams = [gr.team] ∧ tm.alive.length ≤ FMap.get (s.cluster tm.cluster).arrivals (cbarKey 3 tm.crank) + 1 := by
  decide +kernel
/-- A group that waits for the phase of barrier slot 3 to leave 0, until tick 50. -/
def waiter : State :=
  { base with tick := 50, ops := [(9, { (default : Op) with live := true, kind := .wait, grp := 1, team := 1, ctr := 5 })] }.modGrp 1
    (fun g => { g with
      park := .wait
      wait := { live := true, all := false, qd := 3, sd := 127, ctr := 5, deadline := 50, forever := false
                conds := [[5, 0, 3, 0, 0, 0, 0]], due := 60, lines := [], again := false, off := 8 } })
theorem test_hyp_BarriersAdvanceAndWaitsEnd_waits :
    let s := withG (fun g => { g with ctrs := [(0, 254), (1, 1)], sregs := [(8, 2), (16, 0xf05), (24, 0x102), (31, 1)] })
    let x := waiter.grp 1
    let k := waiter.waitOp 1
    ordered s = true ∧ (s.grp s.cur).region.open_ = false ∧ s.condOk 16 0 = true ∧ (s.readCond 16).kind = 5 ∧ s.ctr s.cur 0 < 255 ∧
    (FMap.get (s.team 1).barriers (s.readCond 16).arg1).phase = (s.readCond 16).value % 65536 ∧
    s.condOk 24 0 = true ∧ (s.readCond 24).kind = 2 ∧ FMap.get (s.grp s.cur).ctrs (s.readCond 24).arg1 ≠ 0 ∧
    s.condOk 8 1 = true ∧ (s.readCond 8).kind = 2 ∧
    (let e := withS [(8, 0x502)]; e.condOk 8 0 = true ∧ (e.readCond 8).kind = 2 ∧ FMap.get (e.grp e.cur).ctrs (e.readCond 8).arg1 = 0) ∧
    (s.rdS s.cur 30).toNat = 0 ∧ (s.rdS s.cur 31).toNat ≠ 0 ∧
    ordered waiter = true ∧ x.park = .wait ∧ x.wait.live = true ∧ (waiter.op k).live = true ∧ (waiter.op k).grp = 1 ∧ (waiter.op k).ctr < 6 ∧
    waiter.waitOver 1 = true ∧ x.wait.conds = [[5, 0, 3, 0, 0, 0, 0]] ∧ x.wait.qd < 4 ∧ State.waiting { waiter with tick := 49 } 1 = true ∧
    ordered { waiter with tick := 49 } = true := by decide +kernel

theorem test_hyp_RegisterBlocksAndRegions_blocks :
    let s := base
    let busy := after (withV [] [(1, .f32)]) (.rcp ⟨.f32, .rne, .always, 255, 1, 5⟩)
    let u := (withG (fun g => { g with blocks := 31 })).modTeam 1 (fun t => { t with pool := 1 })
    let line := base.modTeam 1 (fun t => { t with pool := 4, claimants := [(1, 5), (2, 1)] })
    let short := base.modTeam 1 (fun t => { t with pool := 4, claimants := [(1, 4)] })
    let p := withG (fun g => { g with park := .rgive, parkArg := 248 })
    let gr := s.grp s.cur
    ordered s = true ∧ ordered u = true ∧ ordered line = true ∧ gr.region.open_ = false ∧ (1 ≤ 31 ∧ 31 < gr.blocks) ∧
    s.ops = [] ∧ ordered busy = true ∧ (busy.grp 1).blocks = 32 ∧ (busy.grp 1).region.open_ = false ∧
    (∃ p ∈ busy.ops, p.2.live = true ∧ p.2.grp = 1 ∧ ∃ j ∈ p.2.places, 8 * (32 - 1) ≤ j ∧ j < 256) ∧
    gr.blocks ≤ (32 : BitVec 6).toNat ∧ (u.grp 1).blocks + 1 ≤ 32 ∧ (u.team 1).claimants = [] ∧ 1 ≤ (u.team 1).pool ∧ (s.team 1).pool < 1 ∧
    (line.team 1).claimants = (1, 5) :: [(2, 1)] ∧ ¬ 5 ≤ (line.team 1).pool ∧ ordered p = true ∧ (p.grp 1).park = .rgive ∧
    p.ops = [] ∧ (line.team 1).pool = 4 ∧ ordered short = true ∧ (short.team 1).claimants = [(1, 4)] ∧ 4 ≤ (short.team 1).pool := by decide +kernel
theorem test_hyp_RegisterBlocksAndRegions_regions :
    let u := withG (fun g => { g with blocks := 31 })
    let o := withG (fun g => { g with region := { g.region with open_ := true } })
    ordered base = true ∧ (base.grp base.cur).region.open_ = false ∧ (0 : VReg).toNat + 8 * (31 : BitVec 5).toNat ≤ 8 * (u.grp 1).blocks ∧
    ordered u = true ∧ (u.grp 1).region.open_ = false ∧ 8 * (u.grp 1).blocks < (1 : VReg).toNat + 8 * (31 : BitVec 5).toNat ∧
    ordered o = true ∧ (o.grp o.cur).region.open_ = true := by decide +kernel

/-! Global memory: page 8 of the identity map, through the TLB by a scalar base and through a base translation register. -/

def gmem : State :=
  match execWalkCompletion 1 ({ base with mem := placeTables [] }.modGrp 1 (fun g => { g with
    heldWalk := [(8, true)], sregs := [(10, 0x80000), (12, 0x10000)]
    vregs := FMap.setMany [] ((List.range 32).map (fun l => (32 + l, BitVec.ofNat 32 l)))
    bts := [(0, ⟨true, 0x80000, 8, 0x1000, 0, true, true⟩)] })) with
  | .next t => t
  | _ => base
/-- The place a translation found, and its translation. -/
def placeOfReach : Reach → Target
  | .at t => t
  | _ => .host 0 default
def xlatOf : Target → Xlat
  | .hbm _ x => x
  | _ => default
def ldW : LdOp GAddr := ⟨4, .b32, .always, 255, ⟨.s 10, some (1, 2), 0x7fc⟩, 5⟩
theorem test_hyp_GlobalLoadsAndBasesIssue_loads :
    let s := gmem
    let va (o : LdOp GAddr) (l : Nat) := s.gVa o.addr.base (s.gOffset o.addr l)
    let tgt (l : Nat) := placeOfReach (s.gReach (.s 10) (s.gOffset ldW.addr l) false)
    let far : LdOp GAddr := ⟨4, .b32, .always, 255, ⟨.s 8, some (1, 2), 2⟩, 0⟩
    let high := s.modGrp 1 (fun g => { g with sregs := [(11, 0x2000000)] })
    let full := s.modGrp 1 (fun g => { g with ctrs := [(5, 255)] })
    ordered s = true ∧ fresh s = true ∧ (s.grp s.cur).replayOp = 0 ∧
    s.opFault (s.gBaseOk ldW.addr.base) (dstUse ldW.d ldW.width :: idxUse ldW.addr.idx) (s.wmask .always) = none ∧
    addrFault (s.wmask .always) (va ldW) 4 = none ∧ s.ctr s.cur 5 < 255 ∧
    (∀ l ∈ lanesOf (s.wmask .always), s.orPoison 4 (va ldW l) (s.orPull (s.gReach ldW.addr.base (s.gOffset ldW.addr l) false)) = .at (tgt l) ∧
      (tgt l).site = (.hbm, 0x80000 + 4 * l + 0x7fc)) ∧
    (∀ l ∈ lanesOf (s.wmask .always), s.orPull (s.gReach (.bt 0) (BitVec.ofNat 64 (4 * l)) true) =
      .at (.hbm (0x80000 + 4 * l) (xlatOf (placeOfReach (s.gReach (.bt 0) (BitVec.ofNat 64 (4 * l)) true))))) ∧
    addrFault (s.wmask .always) (va far) 4 = some (3, 0) ∧
    addrFault (s.wmask .always) (fun l => high.gVa (.s 10) (high.gOffset ldW.addr l)) 4 = some (12, 0) ∧
    ordered full = true ∧ 255 ≤ full.ctr full.cur 5 := by decide +kernel
def sldW : SldOp SGAddr := ⟨6, 124, ⟨.s 10, 0x000⟩, 0⟩
theorem test_hyp_GlobalLoadsAndBasesIssue_scalar :
    let s := gmem
    let va (_ : Nat) : Nat := s.gVa sldW.addr.base (sldW.addr.disp.signExtend 64)
    widthBytes 6 = 16 ∧ s.opFault (s.gBaseOk sldW.addr.base && sDstOk sldW.d sldW.width) [] s.active = none ∧
    addrFault 1 va (widthBytes sldW.width) = none ∧ s.ctr s.cur 0 < 255 ∧
    s.orPoison 16 (va 0) (s.orPull (s.gReach sldW.addr.base (sldW.addr.disp.signExtend 64) false)) =
      .at (placeOfReach (s.gReach (.s 10) 0 false)) ∧
    -- BT.SET of a base 0x100 bytes into the page
    (let base := (gmem.modGrp 1 (fun g => { g with sregs := [(10, 0x80100)] }))
     let x := match base.xlatVa base.cur 0x80100 false with | .ok x => x | _ => default
     (base.sVal 10 true).toNat = 0x80100 ∧ inWindow 0x80100 = false ∧ base.xlatVa base.cur 0x80100 false = .ok x ∧
     base.xlatVa base.cur 0x80100 true = .ok x ∧ x.d1 = true ∧ x.d2 = true ∧ x.host = false ∧ ordered base = true ∧ fresh base = true) ∧
    (s.grp s.cur).check true (idxUse (some (1, 2))) = none ∧
    ((withV [] [(1, .f32)]).grp 1).check true (idxUse (some (1, 2))) = some 2 := by decide +kernel
def stW : StOp GAddr := ⟨4, .always, 255, ⟨.s 10, some (1, 2), 0x000⟩, some 5⟩
theorem test_hyp_GlobalStoresEnterTheBuffer :
    let s := gmem
    let wm := s.wmask stW.g
    let va (l : Nat) : Nat := s.gVa stW.addr.base (s.gOffset stW.addr l)
    let tgt (l : Nat) := placeOfReach (s.gReach (.s 10) (s.gOffset stW.addr l) true)
    ordered s = true ∧ fresh s = true ∧ (s.grp s.cur).region.open_ = false ∧ s.sb = [] ∧
    s.opFault (s.gBaseOk stW.addr.base) (dataUse stW.d stW.width :: idxUse stW.addr.idx) wm = none ∧ addrFault wm va 4 = none ∧
    s.ctr s.cur 5 < 255 ∧
    (∀ l ∈ lanesOf wm, s.orPull (s.gReach stW.addr.base (s.gOffset stW.addr l) true) = .at (tgt l) ∧
      tgt l = .hbm (0x80000 + 4 * l) (xlatOf (tgt l)) ∧ (xlatOf (tgt l)).d1 = true ∧ (xlatOf (tgt l)).d2 = true) ∧
    (∀ l ∈ lanesOf wm, ∀ k ∈ lanesOf wm, l ≠ k → (tgt l).site.1 = (tgt k).site.1 →
      (tgt l).site.2 + 4 ≤ (tgt k).site.2 ∨ (tgt k).site.2 + 4 ≤ (tgt l).site.2) ∧
    s.lateAccess ((lanesOf wm).map (fun l => (l, tgt l))) 4 = false := by decide +kernel

/-! Scratch: lane l's word at 4 l, or at the end of the share; a second team of the cluster behind it. -/

def scr : State :=
  let s := withV ((List.range 32).map (fun l => (32 + l, BitVec.ofNat 32 (4 * l)))) [(1, .n32)]
  { s with teams := FMap.set s.teams 2 { s.team 1 with crank := 1 } }.modCluster 1 (fun c => { c with teams := [1, 2], cols := 2 })
theorem test_hyp_ScratchLoadsStoresAndAtomics_loads :
    let s := scr
    let o : LdOp ScrAddr := ⟨4, .b32, .always, 255, ⟨none, 1, 0xffc⟩, 5⟩
    let off := s.scrOffset o.addr.a o.addr.disp
    let m : LdOp PmAddr := ⟨6, .b32, .always, 252, ⟨0, 0xff0⟩, 0⟩
    let q : SldOp PmAddr := ⟨6, 124, ⟨0, 0xff0⟩, 0⟩
    ordered s = true ∧ (s.grp s.cur).replayOp = 0 ∧ s.opFault true [dstUse o.d o.width, peerUse o.addr] (s.wmask o.g) = none ∧
    addrFault (s.wmask o.g) off 4 = none ∧ s.ctr s.cur 5 < 255 ∧
    (∀ l ∈ lanesOf (s.wmask o.g), (s.team 1).violates (off l) 4 false = false ∧ (s.team 1).poisoned (off l) 4 = false) ∧
    (s.team 1).violates 65532 4 false = false ∧ (s.team 1).violates 65536 4 false = true ∧
    s.opFault true [dstUse m.d m.width] (s.wmask m.g) = none ∧ s.pmOffset m.addr % 16 = 0 ∧ s.pmOffset m.addr + 16 ≤ 4096 ∧
    widthBytes m.width = 16 ∧ sDstOk q.d q.width = true := by decide +kernel
theorem test_hyp_ScratchLoadsStoresAndAtomics_stores :
    let s := scr
    let o : StOp ScrAddr := ⟨4, .always, 255, ⟨none, 1, 0xffc⟩, some 5⟩
    let peer := s.modGrp 1 (fun g => { g with sregs := [(3, 1)] })
    let off := s.scrOffset o.addr.a o.addr.disp
    s.scrTeam none = some 1 ∧ peer.scrTeam (some 3) = some 2 ∧ ordered peer = true ∧ (s.grp s.cur).region.open_ = false ∧
    s.opFault true [dataUse o.d o.width, peerUse o.addr] (s.wmask o.g) = none ∧
    peer.opFault true [dataUse o.d o.width, peerUse ⟨some 3, 1, 0⟩] (peer.wmask o.g) = none ∧ addrFault (s.wmask o.g) off 4 = none ∧
    (∀ l, l < 32 → ∀ k, k < 32 → l ≠ k → off l + 4 ≤ off k ∨ off k + 4 ≤ off l) := by decide +kernel
theorem test_hyp_ScratchLoadsStoresAndAtomics_atomics :
    let s := scr
    let a : AAddr := ⟨.scratch, 1, 0⟩
    let off (l : Nat) : Nat := (s.rdV s.cur a.idx.toNat l).toNat
    ordered s = true ∧ (s.grp s.cur).regionStores = [] ∧ s.scrBusy s.cur (s.grp s.cur).team = false ∧
    s.opFault true ([vDst 254 (Tag.n32.width = 64), atomSrc .add .n32 2] ++ [vUse a.idx false (.among idxTags)]) (s.wmask .always) = none ∧
    s.opFault true ([vRange 255 1 1 .dst, vRange 2 2 1 .anyTag] ++ [vUse a.idx false (.among idxTags)]) (s.wmask .always) = none ∧
    addrFault (s.wmask .always) off (atomBytes .n32) = none ∧
    (∀ l ∈ lanesOf (s.wmask .always), (s.team 1).violates (off l) 4 true = false ∧ (s.team 1).poisoned (off l) 4 = false) ∧
    (∀ l ∈ lanesOf (s.wmask .always), ∀ j ∈ lanesOf (s.wmask .always), l ≠ j → off l + 4 ≤ off j ∨ off j + 4 ≤ off l) ∧
    s.ctr s.cur 5 < 255 := by decide +kernel
theorem test_hyp_GlobalAtomicsIssue :
    let s := gmem.modGrp 1 (fun g => { g with vtags := [(1, .n32)] })
    let a : AAddr := ⟨.s 10, 1, 2⟩
    let off (l : Nat) : DWord := s.index64 a.idx l <<< a.sh.toNat
    let va (l : Nat) : Nat := s.gVa (.s 10) (off l)
    let tgt (l : Nat) := placeOfReach (s.gReach (.s 10) (off l) true)
    ordered s = true ∧ fresh s = true ∧ (s.grp s.cur).replayOp = 0 ∧ (s.grp s.cur).region.open_ = false ∧ baseSplit a.base = .inl (.s 10) ∧
    s.opFault (s.gBaseOk (.s 10)) ([vDst 255 false, atomSrc .add .n32 2] ++ [vUse a.idx false (.among idxTags)]) (s.wmask .always) = none ∧
    s.opFault (s.gBaseOk (.s 10)) ([vRange 255 1 1 .dst, vRange 2 2 1 .anyTag] ++ [vUse a.idx false (.among idxTags)]) (s.wmask .always) = none ∧
    addrFault (s.wmask .always) va 4 = none ∧ s.ctr s.cur 0 < 255 ∧ 32 ≤ s.postedFree (s.coreOf s.cur) ∧
    (∀ l ∈ lanesOf (s.wmask .always),
      s.orPoison 4 (va l) (orHostForm (hostForm .add .n32) (va l) (s.gReach (.s 10) (off l) true)) = .at (tgt l) ∧
      s.orPoison 4 (va l) (orHostForm true (va l) (s.gReach (.s 10) (off l) true)) = .at (tgt l) ∧
      s.orPoison 4 (va l) (orDevice (va l) (s.gReach (.s 10) (off l) true)) = .at (tgt l)) := by decide +kernel

theorem test_hyp_FencesCoverAndComplete :
    let s := base
    let w := after base (.fence ⟨2, 15, 2⟩)
    let c := after base (.fence ⟨2, 15, 1⟩)
    let late := w.modGrp 1 (fun g => { g with fence := { g.fence with loads := [7] } })
    let p := { late with ops := [(7, { (default : Op) with live := true, grp := 1 })] }
    ordered s = true ∧ (s.grp s.cur).region.open_ = false ∧ (2 : BitVec 4).getLsbD 1 = true ∧ (s.part (s.partOf s.cur)).maxScope + 1 = 4 ∧
    (s.grp s.cur).fwd = [] ∧ s.crossesDies s.cur 2 = false ∧
    (∀ x ∈ [w, c], ordered x = true ∧ (x.grp 1).park = .fence ∧ (x.grp 1).fence.loads = [] ∧ (x.grp 1).fence.stores = [] ∧
      (x.grp 1).fence.vmax = 0 ∧ (x.grp 1).fence.phases = []) ∧
    (w.grp 1).fence.rel = 0 ∧ (c.grp 1).fence.rel ≠ 0 ∧
    ordered p = true ∧ (p.grp 1).fence.loads = [7] ∧ (p.op 7).live = true := by decide +kernel
theorem test_hyp_TilesChangeOwner :
    let k : Tile := { (default : Tile) with defd := true, base := 4, rows := 3, rowb := 31, wptr := 64 }
    let s := base.modTeam 1 (fun t => { t with tiles := [(63, k)] })
    let e := base.modTeam 1 (fun t => { t with tiles := [(63, { k with owner := true })] })
    let b := { e with ops := [(9, { (default : Op) with live := true, kind := .copy, team := 1, resv := [(1, 63, 0, 32)] })] }
    let p := e.modGrp 1 (fun g => { g with park := .tileTake, parkArg := 63 })
    ordered s = true ∧ ordered e = true ∧ ordered b = true ∧ ordered p = true ∧ (s.grp s.cur).region.open_ = false ∧
    (s.tile s.myTeam 63).defd = true ∧ (s.tile s.myTeam 63).owner = false ∧ s.tileBusy s.myTeam 63 = false ∧
    (e.tile e.myTeam 63).owner = true ∧ e.tileBusy e.myTeam 63 = false ∧ b.tileBusy b.myTeam 63 = true ∧ (b.tile b.myTeam 63).owner = true ∧
    (s.tile s.myTeam 0).defd = false ∧ (p.grp 1).park = .tileTake ∧ p.tileBusy (p.grp 1).team (p.grp 1).parkArg = false := by
  decide +kernel

/-- Lane 31 spawns to node 63, whose bin of two slots at 0x80000 holds one record and fires at two, or after ten ticks. -/
def spawner : State :=
  ({ gmem with tick := 10, tlb := [], dies := [], iss := { gmem.iss with mask := 0x80000000 } }.modGrp 1 (fun g => { g with vregs := [(32 * 4 + 31, 63)] })).modLaunch 1
    (fun l => { l with
      nodes := [(63, { (default : NodeDesc) with live := true, count := 2, timer := 10, blocks := 4 })]
      bins := [(63, { (default : Bin) with configured := true, base := 0x80000, log2 := 1, used := [0], idx := [0], firstAt := 0 })] })
theorem test_hyp_SpawnsFireBins_spawn :
    let s := spawner
    let bin := s.bin 1 63
    ordered s = true ∧ s.launchOf s.cur = 1 ∧ lanesOf s.active = [31] ∧ (s.rdV s.cur 4 31).toNat = 63 ∧
    (FMap.get (s.launch 1).nodes 63).live = true ∧ bin.configured = true ∧ bin.free = [1] ∧ (s.grp s.cur).region.open_ = false ∧
    (s.grp s.cur).fwd = [] ∧
    (let u := s.modGrp 1 (fun g => { g with spawnLane := 33, fence := { g.fence with live := true, vmax := 8 } })
     ordered u = true ∧ (u.grp 1).region.open_ = false ∧ (u.grp 1).spawnLane = 33 ∧ (u.grp 1).fence.live = true ∧ (u.grp 1).fence.loads = [] ∧
     (u.grp 1).fence.stores = [] ∧ (u.grp 1).fence.vmax + 2 ≤ u.tick ∧ (u.grp 1).fence.phases = []) ∧
    (s.grp s.cur).spawnLane = 0 ∧ s.opFault true [vSrc 4 .n32, vRange 240 16 1 .anyTag] s.active = none ∧
    bin.idx.length + 1 = (FMap.get (s.launch 1).nodes 63).count ∧ (s.launch 1).state = .active ∧ bin.idx ≠ [] ∧
    (FMap.get (s.launch 1).nodes 63).timer ≠ 0 ∧ bin.firstAt + (FMap.get (s.launch 1).nodes 63).timer ≤ s.tick := by decide +kernel
/-- What a walk reads of the state does not depend on the counter of free values, but for the choice of R367. -/
theorem reads_freeCtr (s : State) (k : Nat) :
    State.readEntry { s with freeCtr := k } = s.readEntry ∧ State.entryPoison { s with freeCtr := k } = s.entryPoison ∧
    State.absentAt { s with freeCtr := k } = s.absentAt ∧ State.frameOwned { s with freeCtr := k } = s.frameOwned ∧
    State.part { s with freeCtr := k } = s.part ∧ State.s1rootOf { s with freeCtr := k } = s.s1rootOf ∧
    State.leafOfFn { s with freeCtr := k } = s.leafOfFn ∧ State.die { s with freeCtr := k } = s.die :=
  ⟨rfl, rfl, rfl, rfl, rfl, rfl, rfl, rfl⟩
theorem test_hyp_SpawnsFireBins_reach (k : Nat) :
    ∃ spa x, State.hubReach { spawner with freeCtr := k } (spawner.grp spawner.cur).vf ((spawner.bin 1 63).base + 64 * 1) true =
      .ok (.hbm spa x, x) ∧ x.d1 = true ∧ x.d2 = true := by
  refine ⟨0x80040, xlatOf (placeOfReach (gmem.gReach (.s 10) 64 true)), ?_, by decide +kernel, by decide +kernel⟩
  obtain ⟨h1, h2, h3, h4, h5, h6, h7, h8⟩ := reads_freeCtr spawner k
  have hd (d : Nat) : spawner.die d = default := rfl
  have hc (d t : Nat) : State.cachedEntry { spawner with freeCtr := k } d t = spawner.readEntry := by
    funext a
    simp only [State.cachedEntry, h1, h8, hd]
    rfl
  have hn (x y : Nat) : FMap.get (State.die { spawner with freeCtr := k } x).ntlb y = none := by rw [h8, hd]; rfl
  have hx (fn p va : Nat) : State.hubXlat { spawner with freeCtr := k } fn p va true =
      (State.walkOn { spawner with freeCtr := k } hubDie fn p va true).1 := by
    simp only [State.hubXlat, show State.tlb spawner = [] from rfl, show ∀ i, FMap.get ([] : FMap Xlat) i = default from fun _ => rfl]
    rfl
  have hv : ¬2 ^ 57 ≤ (spawner.bin 1 63).base + 64 * 1 := by decide +kernel
  have hw : inWindow ((spawner.bin 1 63).base + 64 * 1) = false := by decide +kernel
  simp only [State.hubReach, if_neg hv, hw, hx, State.walkOn, State.walk2, State.leaf2, hc, hn, h2, h3, h4, h5, h6, h7,
    Bool.false_eq_true, if_false]
  simp only [h8]
  generalize State.ownEntry { spawner with freeCtr := k } = b
  revert b
  decide +kernel
/-- An active launch with nothing placed, whose node 63 has a firing of 32 indices due, or one point to place. -/
def offering (due : List (Nat × List Nat)) : State :=
  { State.reset.placeTeam with groups := [], teams := [], clusters := [], nextId := 3 }.modLaunch 1 (fun l => { l with
    dimx := 1, dimy := 1, dimz := 1, blocks := [32]
    nodes := [(63, { (default : NodeDesc) with live := true, count := 32, blocks := 4 })]
    bins := [(63, { (default : Bin) with configured := true, base := 0x80000, log2 := 5, due })] })
theorem test_hyp_SpawnsFireBins_placement :
    let s := offering [(5, List.range 32)]
    ordered s = true ∧ s.mayPlace 1 = true ∧ s.workOf 1 = some (.firing 63 5 (List.range 32) 0) ∧ (List.range 32).length ≤ 32 := by
  decide +kernel
theorem test_hyp_TeamsComeAndGo :
    let s := offering []
    let r := (withG (fun g => { g with exited := BitVec.allOnes 32 }))
    let pair := r.modPart 1 (fun p => { p with pair := true })
    let b := { r with sb := [(9, { (default : SbEntry) with live := true, team := 1, line := 1 })] }
    ordered s = true ∧ s.mayPlace 1 = true ∧ s.workOf 1 = some (.point 0 [0]) ∧
    ordered r = true ∧ (r.team 1).live = true ∧ (∀ g ∈ (r.team 1).groups, (r.grp g).retired = true) ∧ (r.team 1).halt = .running ∧
    r.sb = [] ∧ r.teamQuiet 1 = true ∧ r.retiredPhase 1 = true ∧ ordered pair = true ∧ pair.teamQuiet 1 = true ∧ pair.retiredPhase 1 = false ∧
    (pair.team 1).retPhase = 0 ∧ (pair.team 1).live = true ∧ ordered b = true ∧ (∃ p ∈ b.sb, p.2.team = 1) := by decide +kernel
theorem test_hyp_ClauseHeadersIssue :
    let s := (State.reset.placeWord 0x0000000000f70000).modGrp 1 (fun g => { g with inClause := false })
    let h := 0xc1a5000000000600
    let w := { s with mem := Memory.store s.mem 0x80080 8 0xc1a5000000000700 }.modGrp 1 (fun g => { g with ctrs := [(5, 1)] })
    let p1 := s.modGrp 1 (fun g => { g with planes := FMap.fill [] (List.range 32) 1 })
    let out := s.modGrp 1 (fun g => { g with off := 0x100 })
    let gr := s.grp 1
    let filled (x : State) : State :=
      (x.setGrp 1 { x.grp 1 with planeFrom := 0, posTags := [], brDests := [], held := false }).codeFill 1 0 (x.grp 1).off
    ordered s = true ∧ s.mayIssue 1 = true ∧ gr.switchedOff = 0 ∧ gr.inClause = false ∧ gr.mask ≠ 0 ∧ gr.recOff ≠ some gr.off ∧
    (∀ l ∈ lanesOf gr.mask, FMap.get gr.planes l = 0) ∧ gr.off < (s.launch 1).plen ∧ s.launchOf 1 = 1 ∧ 0 < (s.launch 1).planes ∧
    (filled s).codeWord 1 0 gr.off = .word h ∧ (∃ k ∈ classPipes (headClass h), s.pipeBusy 1 k = false) ∧ headOk h = true ∧ (∀ c, c < 6 → (headWait h).getLsbD c = true → FMap.get gr.ctrs c = 0) ∧
    ordered w = true ∧ w.mayIssue 1 = true ∧ (filled w).codeWord 1 0 (w.grp 1).off = .word 0xc1a5000000000700 ∧ headOk 0xc1a5000000000700 = true ∧
    (∃ c, c < 6 ∧ (headWait 0xc1a5000000000700).getLsbD c = true ∧ FMap.get (w.grp 1).ctrs c ≠ 0) ∧
    ordered p1 = true ∧ p1.mayIssue 1 = true ∧ (∀ l ∈ lanesOf (p1.grp 1).mask, FMap.get (p1.grp 1).planes l = 1) ∧ (p1.launch 1).planes ≤ 1 ∧
    ordered out = true ∧ out.mayIssue 1 = true ∧ (out.launch 1).plen ≤ (out.grp 1).off := by decide +kernel

/-- An access of lane 31 of the group on its way to 0x8003c. -/
def flying (k : AccKind) : State :=
  let a : Access := { (default : Access) with
    live := true, kind := k, place := .hbm, grp := 1, team := 1, lane := 31, op := 4, addr := 0x8003c, size := 4, aop := .add, ty := .n32
    operand := if k = .load then 0 else 7, xl := { (default : Xlat) with d1 := true, d2 := true }
    data := [(0x8003c, 1), (0x8003d, 2), (0x8003e, 3), (0x8003f, 4)] }
  { base with nextId := 6, acc := [(5, a)], ops := [(4, { (default : Op) with live := true, kind := .load, grp := 1, waitOn := [5] })] }
theorem test_hyp_AccessesPerformAndStoresTravel_perform :
    let s := flying .load
    let w := flying .store
    let m := flying .atomic
    let p := flying .posted
    let far := { m with acc := [(5, { m.accOf 5 with srcDie := 1 })] }
    let bad := { s with poison := [(0x8003c / 64, true)] }
    let a := s.accOf 5
    let line := lineOf 0x8003c
    let v : Observer := ⟨some 1, some (w.team 1).cluster⟩
    ordered s = true ∧ fresh s = true ∧ a.live = true ∧ a.place = .hbm ∧ spaOk a.addr = true ∧ a.acked = false ∧ a.hubFn = 0 ∧
    s.heldBack a = false ∧ a.waiting = false ∧ a.kind = .load ∧ a.sb = 0 ∧ a.members = [] ∧ s.mustWait 5 a = false ∧
    s.holders line (s.observer 1) false = [] ∧ s.forcing line (s.observer 1) false = false ∧ s.delivered a = true ∧
    s.poisoned a.addr a.size = false ∧ ordered bad = true ∧ fresh bad = true ∧ bad.poisoned a.addr a.size = true ∧ a.op ≠ 0 ∧
    bad.mustWait 5 a = false ∧ bad.holders line (s.observer 1) false = [] ∧ bad.forcing line (s.observer 1) false = false ∧
    ordered w = true ∧ fresh w = true ∧ (w.accOf 5).kind = .store ∧ w.heldBack (w.accOf 5) = false ∧ w.behindStore 5 (w.accOf 5) = false ∧
    w.behindHold 1 0 = false ∧ w.holders line v false = [] ∧ w.forcing line v false = false ∧ w.delivered (w.accOf 5) = true ∧
    ordered m = true ∧ fresh m = true ∧ (m.accOf 5).kind = .atomic ∧ m.heldBack (m.accOf 5) = false ∧ m.mustWait 5 (m.accOf 5) = false ∧
    m.absentAt 0x8003c = none ∧ m.sb = [] ∧ (∀ q ∈ m.acc, q.2.kind = .store → q.2.team ≠ 1) ∧ m.holders line (m.observer 1) true = [] ∧
    m.behindHold 1 0 = false ∧ m.forcing line (m.observer 1) true = false ∧ m.delivered (m.accOf 5) = true ∧ (m.accOf 5).crosses = false ∧
    (far.accOf 5).crosses = true ∧ (far.accOf 5).seq = 0 ∧ far.heldBack (far.accOf 5) = false ∧ ordered far = true ∧ fresh far = true ∧
    (m.accOf 5).xl.d1 = true ∧ (m.accOf 5).xl.d2 = true ∧ (p.accOf 5).kind = .posted ∧ p.mustWait 5 (p.accOf 5) = false ∧
    p.heldBack (p.accOf 5) = false ∧ ordered p = true ∧ fresh p = true := by decide +kernel
theorem test_hyp_AccessesPerformAndStoresTravel_travel :
    let e : SbEntry := { (default : SbEntry) with live := true, team := 1, line := 1, cells := [(64, 1)], issued := 3 }
    let q : Pend := { (default : Pend) with live := true, cells := [(64, 1)], v := 5 }
    let s := { base with tick := 16387, sb := [(9, e)], pend := [(7, q), (8, { q with v := 6 })], nextId := 10 }
    ordered s = true ∧ (∀ j, FMap.get s.sb j = default ∨ FMap.get s.acc j = default) ∧ (FMap.get s.sb 9).live = true ∧
    (FMap.get s.sb 9).hold = 0 ∧ (∀ r ∈ s.sb, r.2.team = (FMap.get s.sb 9).team → r.2.hold ≠ 0 → (FMap.get s.sb 9).release ≤ r.2.release) ∧
    (FMap.get s.sb 9).issued + 16384 ≤ s.tick ∧ (FMap.get s.pend 7).live = true ∧
    (FMap.get s.pend 7).v + 2 ≤ s.tick ∧
    (∀ r ∈ s.pend, (FMap.get s.pend 7).v < r.2.v ∨ ((FMap.get s.pend 7).v = r.2.v ∧ 7 ≤ r.1) ∨
      ∀ c ∈ r.2.cells, lastCell (FMap.get s.pend 7).cells c.1 = none) :=
  ⟨by decide +kernel, fun _ => Or.inr rfl, by decide +kernel⟩
theorem test_hyp_OperationsComplete :
    let o (k : OpKind) : Op := { (default : Op) with live := true, kind := k, grp := 1, ctr := 5, dst := 124, width := 16, lanes := 1 }
    let s := { base with
      ops := [(2, o .load), (3, o .sload), (4, { o .btset with arg := [7] }), (5, o .store), (7, { o .load with res := [(spoilKey, 1)] }), (8, { o .atom with waitOn := [10] })], leases := [(leaseKey 47 3, 0)]
      acc := [(6, { (default : Access) with live := true, acked := true, kind := .store, place := .remote }),
              (10, { (default : Access) with live := true, acked := true, kind := .atomic, place := .remote, op := 8 })], nextId := 11 }
    let d := s.modDie 3 (fun d => { d with markers := [(2, 1)] })
    let w := { (s.modGrp 1 (fun g => { g with
      park := .fault, flt := { g.flt with withheld := true, hyp := true } })) with hfq := { s.hfq with base := 0x90000, cfg := 0x8000000000000004 } }
    ordered s = true ∧ (∀ k ∈ [2, 3, 4, 5, 7], (s.op k).live = true ∧ (s.op k).waitOn = [] ∧ (s.op k).flag = false ∧ (s.op k).stage ≠ 7) ∧
    (∀ k ∈ [2, 3], FMap.get (s.op k).res spoilKey = 0) ∧ FMap.get (s.op 7).res spoilKey ≠ 0 ∧ (s.op 7).kind = .load ∧
    (s.op 2).kind = .load ∧ (s.op 3).kind = .sload ∧ (s.op 4).kind = .btset ∧ (s.op 4).stopped = false ∧ (s.op 5).kind = .store ∧
    (s.op 5).ptr = 0 ∧ (s.accOf 10).live = true ∧ (s.accOf 10).acked = true ∧ (s.accOf 10).kind = .atomic ∧ (s.accOf 10).op ≠ 0 ∧
    (s.accOf 10).place = .remote ∧
    FMap.get s.leases (leaseKey 47 3) ≤ s.tick ∧ ordered d = true ∧ (d.die 3).markers.find? (fun x => x.1 = 2) = some (2, 1) ∧
    d.phaseDone 2 3 (1 : Word).toNat = true ∧ (s.accOf 6).live = true ∧ (s.accOf 6).acked = true ∧ (s.accOf 6).kind = .store ∧
    (s.accOf 6).place = .remote ∧ s.mig.forwarded = [] ∧ ordered w = true ∧ (w.grp 1).faulted = true ∧ (w.grp 1).flt.withheld = true ∧
    (w.grp 1).flt.hyp = true ∧ w.hfq.late = [] ∧ w.hfq.room = true ∧ w.hfq.suspended = false ∧ (w.groups.map (·.1)) = [1] := by decide +kernel
theorem test_hyp_TranslationAnswers :
    let s := { base with mem := placeTables [] }.modGrp 1 (fun g => { g with heldWalk := [(8, true)] })
    let n := { base with mem := placeTables [] }.modGrp 1 (fun g => { g with heldWalk := [(0x2000, true)] })
    let p := withG (fun g => { g with park := .page })
    let held := p.modTeam 1 (fun t => { t with halt := .saved })
    let w := (s.walkOn (coreDie (s.coreOf 1)) 256 (s.partOf 1) (8 * 65536) true).1
    ordered s = true ∧ ordered n = true ∧ s.walkHeld 256 (s.partOf 1) (8 * 65536) true = false ∧ (s.grp 1).vf = 256 ∧
    (match w with | .ok x => x.live | .error _ => false) = true ∧
    (match (n.walkOn (coreDie (n.coreOf 1)) 256 (n.partOf 1) (0x2000 * 65536) true).1 with | .ok _ => 0 | .error e => e.cls) ≠ 0 ∧
    n.walkHeld 256 (n.partOf 1) (0x2000 * 65536) true = false ∧ s.walkAbsent 256 (s.partOf 1) (8 * 65536) true = none ∧
    n.walkAbsent 256 (n.partOf 1) (0x2000 * 65536) true = none ∧ s.coreOf 1 < 48 ∧ (s.grp 1).heldWalk = [(8, true)] ∧
    (n.grp 1).heldWalk = [(0x2000, true)] ∧ ordered p = true ∧ (p.grp 1).park = .page ∧ (p.grp 1).parkArg = 0 ∧
    (p.teamOf 1).halt = .running ∧ ordered held = true ∧ (held.grp 1).park = .page ∧ (held.grp 1).parkArg = 0 ∧
    (held.teamOf 1).halt = .saved ∧ (s.grp 1).park ≠ .page := by
  decide +kernel
theorem test_hyp_PrivilegedRegistersAndRows_words :
    let s := base
    let guest := withG (fun g => { g with mode := 1 })
    let gr := s.grp s.cur
    ordered s = true ∧ gr.region.open_ = false ∧ 1 ≤ gr.mode ∧ (126 : SReg).toNat % 2 = 0 ∧ gr.mayName 0x5b = true ∧ gr.mayName 0xff = false ∧
    (s.writePriv s.cur 0x08 0x90000).isSome = true ∧ (s.writePriv s.cur 0x42 0x8000000000000001).isSome = true ∧
    s.writePriv s.cur 0x08 1 = none ∧
    ordered guest = true ∧ (guest.grp guest.cur).mode = 1 ∧ 0x10 ∈ hostNums ∧ 0x10 ∉ guestNums ∧
    ¬(0x00 ∈ [0x08, 0x09, 0x0b] ∨ 0x00 ∈ hostNums ∨ 0x00 = 0x20) := by decide +kernel
theorem test_hyp_PrivilegedRegistersAndRows_rows :
    let s := withG (fun g => { g with hvsel := 5 })
    let still := { s with parts := [] }
    let leaf := { s with parts := FMap.set s.parts 63 { Part.reset with state := .stopped, parent := 0xff } }
    let bound := leaf.modFn 5 (fun f => { f with bound := true, leaf := 63 })
    let x := { s with groups := FMap.set s.groups 2 { s.grp 1 with
      vf := 5, park := .fault, flt := { (default : FaultRec) with cls := 14, faultId := 7, hyp := true } } }
    let gr := s.grp 1
    ordered s = true ∧ gr.live = true ∧ 1 ≤ gr.mode ∧ onlyBits 0xfffffffffffff000 [(63, 12)] = true ∧
    cfgOk 0x8000000000000110 [(4, 0), (8, 8), (63, 63)] 16 = true ∧ onlyBits 0xffffffff [(31, 0)] = true ∧
    beyond (s.fn gr.vf).fq.widx 0 = false ∧ beyond (s.fn gr.vf).fq.widx 1 = true ∧ gr.mode = 2 ∧ gr.regFn = 5 ∧
    onlyBits 0x800000000000003f [(5, 0), (63, 63)] = true ∧
    (∀ p ∈ s.launches, p.2.fn = 5 → p.2.state ∉ [LaunchState.active, .halted, .killing]) ∧
    (∀ q, q < 64 → (s.queue 5 q).state ≠ .run ∧ (s.queue 5 q).state ≠ .wait) ∧ s.hostPart.getLsbD 63 = false ∧
    ordered leaf = true ∧ leaf.isLeaf 63 = true ∧ leaf.fnsOf 63 = [] ∧ leaf.launches = s.launches ∧ leaf.queues = s.queues ∧
    leaf.hostPart = s.hostPart ∧ (leaf.part 63).state ≠ .running ∧ ordered bound = true ∧ (bound.fn 5).bound = true ∧
    bound.budgets 63 5 0 ≤ (bound.part 63).tbudNext ∧
    (s.fn 5).bound = false ∧ ordered still = true ∧
    onlyBits 0x0000000000084210 [(19, 0)] = true ∧ (∀ d, d < 4 → bitsOf 0x84210 (5 * d + 4) (5 * d) ≤ 16) ∧ still.parts = [] ∧
    ordered x = true ∧ x.parkOf true 5 7 = some 2 ∧ (x.grp 2).vf = 5 ∧ (x.grp 2).flt.cls = 14 ∧ (x.grp 2).flt.hyp = true ∧
    (s.writePriv 1 (0x40 : BitVec 8).toNat 0).isSome = true ∧ s.ras.bootSt = bootOk ∧ onlyBits 0x01fffffffffff000 [(56, 12)] = true ∧
    (1500 ≤ (1500 : DWord).toNat ∧ (4000 : DWord).toNat ≤ 4000) := by decide +kernel

/-- Beside the group of `base`, a second team on the same core with one group in slot 1 (handle 1), as another function's. -/
def two (h : Halt) (f : Group → Group) : State :=
  { base with
    groups := [(1, (base.grp 1)), (2, f { (base.grp 1) with team := 2, slot := 1, blocks := 1 })]
    teams := [(1, { base.team 1 with groups := [1] }), (2, { base.team 1 with groups := [2], crank := 1, halt := h, share := 0, msmRows := 0 })] }.modCluster 1
    (fun c => { c with teams := [1, 2], cols := 2, cores := [0, 0] })
def parkedAt (g : Group) : Group :=
  { g with park := .fault, count := 1, flt := { (default : FaultRec) with cls := 3, faultId := 9 } }
theorem test_hyp_PrivilegedWordsAct :
    let s := (two .running parkedAt).modGrp 1 (fun g => { g with sregs := [(1, 9), (2, 1), (3, 0x300)], hvsel := 256 })
    let t := withG (fun g => { g with trapped := true })
    let h := (two .held (fun g => { g with region := { g.region with open_ := true } })).modTeam 2 (fun t => { t with
      tiles := [(63, { (default : Tile) with defd := true })] })
    let gr := s.grp s.cur
    let x := s.grp 2
    ordered t = true ∧ (t.grp t.cur).region.open_ = false ∧ 1 ≤ (t.grp t.cur).mode ∧ (t.grp t.cur).trapped = true ∧
    (t.grp t.cur).stack.length = (t.grp t.cur).trapRet.depth ∧ (s.grp s.cur).trapped = false ∧
    ordered s = true ∧ gr.mode = 2 ∧ (s.rdS s.cur 1).toNat = 9 ∧ s.parkOf false gr.hvsel 0 = none ∧
    (let v := s.modGrp 2 (fun g => { g with flt := { g.flt with hyp := true } })
     v.parkOf true 256 9 = some 2 ∧ ordered v = true) ∧
    s.parkOf (gr.mode = 2 && !true) 256 9 = some 2 ∧ x.live = true ∧ x.park = .fault ∧ x.engFault = false ∧ x.lastViolation = false ∧
    x.flt.rolled = false ∧ x.flt.atHeader = false ∧ x.morePlanes = false ∧ x.word < x.count ∧ s.bondOf 2 = none ∧
    s.byHandle 1 = some 2 ∧ (s.team x.team).halt ≠ .held ∧ ordered h = true ∧ h.byHandle 1 = some 2 ∧ (h.grp 2).team = 2 ∧
    (h.team 2).halt = .held ∧ h.contextBusy 2 = false ∧ (h.tile 2 63).defd = true ∧ (h.grp 2).region.open_ = true ∧
    s.contextBusy x.team = false ∧ x.region.open_ = false ∧ bitsOf 0x300 1 0 ≠ bitsOf 0x300 9 8 ∧ s.dieBusy 3 = false ∧ s.dieBusy 2 = false ∧
    s.dieBusy 0 = true := by decide +kernel

/-- CSAVE of the held team of group 2 to 0x80000, by group 1; CREST from there through a window on the partition's own export. -/
def saving : State :=
  { (two .held id).modGrp 1 (fun g => { g with
      sregs := [(1, 1), (10, 0x80000), (12, BitVec.ofNat 32 windowBase), (13, BitVec.ofNat 32 (windowBase / 2 ^ 32))]
      walked := (gmem.grp 1).walked }) with
    mem := gmem.mem, tlb := gmem.tlb
    exports := [(1, { (default : Export) with live := true, part := 1, gpa := 0x80000, size := 0x10000, handle := 0x1000001 })]
    imports := [(2 ^ 24, { (default : Import) with live := true, part := 1, size := 0x10000, handle := 0x1000001 })] }
def saveSite (write : Bool) (p : Nat × Nat) : Target := placeOfReach (saving.orPull (saving.reachVa 1 p.1 write))
theorem test_hyp_ContextWordsAndInvalidations_context :
    let s := saving
    let va := (s.sVal 10 true).toNat
    let out := chunksOf va (s.teamImg 2).length
    let inn := chunksOf (s.sVal 12 true).toNat (s.imageLen 2 (s.sVal 12 true).toNat)
    ordered s = true ∧ fresh s = true ∧ (s.rdS s.cur 1).toNat = 1 ∧ s.byHandle 1 = some 2 ∧ (s.grp 2).team = 2 ∧ (s.grp s.cur).team ≠ 2 ∧
    (s.team 2).halt = .held ∧ va % 256 = 0 ∧ (s.sVal 12 true).toNat % 256 = 0 ∧ s.contextBusy 2 = false ∧ s.ctr s.cur 0 < 255 ∧
    out ≠ [] ∧ inn ≠ [] ∧
    (∀ p ∈ out, p.1 + p.2 ≤ 2 ^ 57 ∧ s.orPull (s.reachVa s.cur p.1 true) = .at (saveSite true p) ∧
      saveSite true p = .hbm p.1 (xlatOf (saveSite true p)) ∧ (xlatOf (saveSite true p)).d1 = true ∧ (xlatOf (saveSite true p)).d2 = true) ∧
    (∀ p ∈ inn, p.1 + p.2 ≤ 2 ^ 57 ∧ s.orPoison p.2 p.1 (s.orPull (s.reachVa s.cur p.1 false)) = .at (saveSite false p)) ∧
    ((two .running id).team ((two .running id).grp 2).team).halt ≠ .held := by decide +kernel
theorem test_hyp_ContextWordsAndInvalidations_invalidations :
    let s := { gmem.modGrp 1 (fun g => { g with sregs := [(10, 0x80000), (12, 1), (13, 0x1000000)] }) with s2sel := 1 }
    let o := { s with ops := [(9, { (default : Op) with live := true, kind := .tlbinv, grp := 1, ctr := 5, waitOn := [7] })] }
    ordered s = true ∧ (s.grp s.cur).region.open_ = false ∧ 1 ≤ (s.grp s.cur).mode ∧ s.ctr s.cur 5 < 255 ∧ s.storesOut s.cur = false ∧
    pagesOk (s.rdS s.cur 12).toNat = true ∧ pagesOk (s.rdS s.cur 13).toNat = true ∧ (s.grp s.cur).mode = 2 ∧ s.s2Leaf = some 1 ∧
    (s.rdS s.cur 12).toNat = 1 ∧ (s.sVal 10 true).toNat % 65536 = 0 ∧ (s.leafEntry2 1 0x80000).isSome = true ∧ s.pend = [] ∧
    ordered o = true ∧ (o.op 9).live = true ∧ (o.op 9).kind = .tlbinv ∧ (∀ k ∈ (o.op 9).waitOn, (o.accOf k).live = false) := by
  decide +kernel

/-! The hub: queue 0 of the physical function runs a packet, with a window of 4 KiB at 0x80000. -/

def hub (f : Queue → Queue) : State :=
  { gmem with curFn := 256, curQueue := 0 }.setQueue 256 0 (f { (default : Queue) with
    loaded := true, state := .run, active := true, mode := 1, windows := [(0x80000, 12)], ring := 0x80400, widxa := 0x80800, log2n := 16
    stata := 0x80810, words := [0] })
/-- Whether a read of the hub yields these bytes. -/
def gives (_ : State) (r : Except TrErr (Option (List Byte)) × State) (l : List Byte) : Bool :=
  match r.1 with
  | .ok (some m) => m = l
  | _ => false
theorem test_hyp_FrondWordsRun :
    let s := hub (fun q => { q with fregs := [(1, 6), (2, 11)], staging := [(0, 0x3f0006), (1, 0x80000), (2, 16)] })
    let e := hub (fun q => { q with windows := [(0x20000000, 12)] })
    let q := s.curQ
    let act : ActOp := q.block s.curFn s.curQueue false
    let w := (s.hubReach s.curFn (q.windowVa 0 (q.fr 0)) true)
    ordered s = true ∧ q.windowVa 0 (q.fr 0) = 0x80000 ∧ gives s (s.hubReadVa s.curFn 0x80000 8) (List.replicate 8 0) = true ∧
    (match w with | .ok (.hbm spa x, y) => spa = 0x80000 && x = y && x.d1 && x.d2 | _ => false) = true ∧
    q.reloadReq = false ∧ q.stopReq = false ∧ ordered e = true ∧
    (match (e.hubReadVa e.curFn (e.curQ.windowVa 0 0) 8).1 with | .error _ => true | .ok _ => false) = true ∧
    q.fr 1 = 6 ∧ s.actPrecheck act 6 = 0 ∧ actBarrier act = false ∧ actIntr act = false ∧ (15 : BitVec 4) ≠ 0 ∧ 10 < (q.fr 2).toNat := by
  decide +kernel
/-- A queue descriptor in order: ring 0x80400, write index 0x80800, program 0x80c00, status 0x80810, 2^16 packets. -/
def descBytes : List Byte :=
  leBytes 8 0x80400 ++ leBytes 8 0x80800 ++ leBytes 8 0x80c00 ++ leBytes 8 0x80810 ++ [16, 3, 1, 0] ++ List.replicate 28 0
def storeList (m : Memory) (a : Nat) (l : List Byte) : Memory := FMap.setMany m ((List.range l.length).zip l |>.map (fun p => (a + p.1, p.2)))
theorem test_hyp_QueuesRun :
    let s := hub (fun q => { q with active := false, ridx := 1, pending := 2 })
    let d := { (hub (fun q => { q with active := false })) with mem := storeList gmem.mem 0x80000 descBytes }.modFn 256 (fun f => { f with
      qtbase := 0x80000, qtctl := 1 })
    let past := { s with mem := Memory.store gmem.mem 0x80800 8 0x10002 }
    let u := s.queue 256 0
    ordered s = true ∧ bitsOf (0x200 : DWord).toNat 63 9 ≠ 0 ∧ bitsOf (0x13f : DWord).toNat 63 9 = 0 ∧ bitsOf (0x13f : DWord).toNat 7 6 = 0 ∧
    ((hub id).queue 256 0).active = true ∧ u.active = false ∧ (s.fn 256).qtctl.toNat ≤ 0 ∧
    ordered d = true ∧ 0 < (d.fn 256).qtctl.toNat ∧ gives d (d.hubBytes 256 ((d.fn 256).qtbase.toNat + 64 * 0) 64) descBytes = true ∧
    descOk 256 descBytes = true ∧ numAt descBytes 0x23 1 % 2 = 0 ∧ (64 : DWord).toNat ≤ 64 ∧
    s.served 256 = true ∧ u.state = .run ∧ gives s (s.hubBytes 256 u.widxa 8) (List.replicate 8 0) = true ∧
    2 ^ u.log2n < (0 + 2 ^ 32 - u.ridx % 2 ^ 32) % 2 ^ 32 ∧
    (let z := hub (fun q => { q with active := false })
     gives z (z.hubBytes 256 (z.queue 256 0).widxa 8) (List.replicate 8 0) = true ∧ (0 : Nat) ≤ 2 ^ (z.queue 256 0).log2n ∧ ordered z = true) ∧
    gives past (past.hubBytes 256 0x80800 8) (leBytes 8 0x10002) = true ∧ (0x10002 + 2 ^ 32 - 1) % 2 ^ 32 = 2 ^ 16 + 1 ∧
    u.reloadReq = false ∧ u.stopReq = false ∧
    (let z := hub (fun q => { q with active := false, reloadReq := true })
     ordered z = true ∧ (z.queue 256 0).active = false ∧ (z.queue 256 0).reloadReq = true) ∧
    u.ridx < u.pending ∧ s.interpreters + s.rivals 256 0 < 32 ∧ gives s (s.hubBytes 256 (u.ring + 64 * (u.ridx % 2 ^ u.log2n)) 64) (List.replicate 64 0) = true := by
  decide +kernel
/-- A kernel image of one word at 0x80000, of a length of 144 bytes: header, one group of one block. -/
def imageBytes : List Byte :=
  (leBytes 4 0x4b4e4c42 ++ leBytes 2 1 ++ [1, 0] ++ leBytes 4 128 ++ leBytes 4 16 ++ leBytes 4 0 ++ leBytes 4 0 ++ leBytes 4 0xffffffff ++
    [1, 0x11] ++ leBytes 2 0 ++ leBytes 8 0 ++ [1, 0, 0, 0] ++ List.replicate 14 0 ++ [1, 0] ++ List.replicate 12 0 ++ [0xff, 0, 0]) ++
  List.replicate 53 0
theorem test_hyp_ActionsIssueAndComplete_issue :
    let s := hub id
    let free := s.modLaunch 1 (fun l => { l with state := .done })
    let a (d0 d1 d2 d3 : DWord) : ActOp := ⟨256, 0, d0, d1, d2, d3, 0, 0, 0, 0⟩
    let reach (w : Bool) : Bool := match free.hubReach 256 0x80000 w with | .ok (.hbm spa x, y) => spa = 0x80000 && x = y && x.d1 && x.d2 | _ => false
    let owns := free.modFn 256 (fun f => { f with loaded := true })
    let run := ({ owns with mem := storeList gmem.mem 0x80000 imageBytes, hostPart := 0x8000000000000001 } : State).modPart 1 (fun p => { p with scrMax := 1 })
    let la := a 0x900001 0x80000 0x80000 0x10000100001
    ordered free = true ∧ free.launchesOpen 256 0 = false ∧ free.actionsOpen 256 0 = false ∧ free.ops = [] ∧ reach true = true ∧ reach false = true ∧
    free.actPrecheck (a 3 0x80000 0x80100 16) 3 = 0 ∧ free.spanOk 256 0x80000 16 false = true ∧ free.spanOk 256 0x80100 16 true = true ∧
    free.actPrecheck (a 4 0x80000 7 0) 4 = 0 ∧ (a 4 0x80000 7 0).d0.getLsbD 16 = false ∧
    free.actPrecheck (a 0x10004 0x80000 7 0) 4 = 0 ∧ (a 0x10004 0x80000 7 0).d0.getLsbD 16 = true ∧
    (free.forceLine (lineOf 0x80000) outside true).1 = true ∧ free.pend = [] ∧ free.actPrecheck (a 7 0x80000 0 0) 7 = 0 ∧
    free.actPrecheck (a 5 0x80000 7 7) 5 = 0 ∧ free.poisoned 0x80000 8 = false ∧ free.actPrecheck (a 0x3f0006 0x80000 16 0) 6 = 0 ∧
    ordered s = true ∧ s.actPrecheck (a 0x106 0x80000 16 0) 6 = 0 ∧ actBarrier (a 0x106 0x80000 16 0) = true ∧ s.launches ≠ [] ∧
    ordered run = true ∧ imageBytes.length = 128 ∧ run.actPrecheck la 1 = 0 ∧ actBarrier la = false ∧
    run.actPrecheck { la with d0 := 0x900002 } 2 = 0 ∧
    (match (run.validate la false).1 with | .ok _ => true | _ => false) = true ∧
    (match (run.validate { la with d0 := 0x900002 } true).1 with | .ok _ => true | _ => false) = true := by decide +kernel
theorem test_hyp_ActionsIssueAndComplete_complete :
    let o : Op := { (default : Op) with live := true, kind := .hubCopy, arg := [256, 0, 0, 0x80000, 0x80100, 16], ctr := 6 }
    let s := { hub (fun q => { q with wsAddr := 0x80000, wsVal := 7, wsRel := 1, state := .wait }) with ops := [(9, o), (10, { o with stage := 1 })], tick := 2 }
    let w := hub (fun q => { q with wsAddr := 0x80000, wsVal := 7, wsRel := 0, state := .wait })
    let a (d0 d1 d2 : DWord) : ActOp := ⟨5, 0, d0, d1, d2, 0, 0, 0, 0, 0⟩
    let f := ((two .running parkedAt).modGrp 2 (fun g => { g with vf := 5 })).setQueue 5 0 { (default : Queue) with mode := 1 }
    let l := f.modLaunch 1 (fun l => { l with fn := 5 })
    ordered s = true ∧ (s.op 9).live = true ∧ (s.op 9).kind = .hubCopy ∧ 16 * (s.op 9).stage < 16 ∧ (s.op 9).waitOn = [] ∧ (s.op 9).ptr ≤ s.tick ∧
    gives s (s.hubReadVa 256 (0x80000 + 16 * 0) 16) (List.replicate 16 0) = true ∧
    (match (s.hubReadVa 256 0x80000 16).2.hubReach 256 (0x80100 + 16 * 0) true with | .ok (.hbm spa x, y) => spa = 0x80100 && x = y && x.d1 && x.d2 | _ => false) = true ∧
    16 ≤ 16 * (s.op 10).stage ∧ (s.op 10).ptr + 2 ≤ s.tick ∧
    s.served 256 = true ∧ (s.queue 256 0).state = .wait ∧ gives s (s.hubReadVa 256 0x80000 8) (List.replicate 8 0) = true ∧
    (s.queue 256 0).wsHolds (leNat (List.replicate 8 0)) = true ∧ (s.queue 256 0).active = true ∧ s.interpreters < 32 ∧ ordered w = true ∧
    gives w (w.hubReadVa 256 0x80000 8) (List.replicate 8 0) = true ∧ (w.queue 256 0).wsHolds (leNat (List.replicate 8 0)) = false ∧
    ordered f = true ∧ f.actPrecheck (a 9 9 0) 9 = 0 ∧ actBarrier (a 9 9 0) = false ∧ (f.queue 5 0).mode = 1 ∧
    bitsOf (9 : DWord).toNat 35 32 = 0 ∧ f.parkOf false 5 9 = some 2 ∧ (f.grp 2).park = .fault ∧ (f.grp 2).engFault = false ∧
    (f.grp 2).lastViolation = false ∧ (f.grp 2).flt.rolled = false ∧
    ordered l = true ∧ l.actPrecheck (a 8 0x105 0) 8 = 0 ∧ l.namedLaunches (a 8 0x105 0) = [1] ∧ l.actPrecheck (a 10 0x105 0) 10 = 0 ∧
    l.namedLaunches (a 10 0x105 0) = [1] ∧ f.actPrecheck (a 8 0x105 0) 8 = 0 ∧ f.namedLaunches (a 8 0x105 0) = [] ∧
    f.actPrecheck (a 10 0x105 0) 10 = 0 ∧ f.namedLaunches (a 10 0x105 0) = [] := by decide +kernel
theorem test_hyp_SchedulerDuties :
    let s := { base with tick := 1000 }
    let h := (base.modCluster 1 (fun c => { c with halt := .halting }))
    let d := h.modTeam 1 (fun t => { t with halt := .halting })
    ordered s = true ∧ s.usNext ≤ s.tick ∧ base.tick < base.usNext ∧ (s.part 1).state = .running ∧ (s.part 1).boundary ≤ s.tick ∧ s.fnsOf 1 = [] ∧
    ordered h = true ∧ (h.cluster 1).live = true ∧ (h.cluster 1).halt = .halting ∧
    (∃ u ∈ (h.cluster 1).teams.filter (fun t => (h.team t).live), (h.team u).halt = .running) ∧ ordered d = true ∧
    (∀ u ∈ (d.cluster 1).teams.filter (fun t => (d.team t).live), (d.team u).halt = .halting ∧ d.contextReady u = true) ∧
    (d.cluster 1).halt = .halting ∧ 47 < 48 ∧ 94 < s.ras.hotLimit ∧ s.ras.hotLimit ≤ 95 ∧ (s.coreRec 47).hotFrom = 0 := by decide +kernel

/-! The engines: tile 63 of 256 bytes at offset 256 of scratch, page 8 of memory, translations not cached. -/

def tile256 (own : Bool) (w : Nat) (tag : Tag) : Tile := { (default : Tile) with defd := true, owner := own, base := 4, rows := 3, rowb := 0, wptr := w, tag }
def engine (k : Tile) (ops : List (Nat × Op)) : State :=
  { gmem.modTeam 1 (fun t => { t with tiles := [(1, { k with base := 8 }), (63, k)] }) with tlb := [], ops, nextId := 20 }
/-- A copy descriptor of two rows of 32 bytes between tile 63 and 0x80000 (kind 0 in, 1 out), or to 0x80400 (kind 2). -/
def copyRegs (kind : Nat) : List Nat :=
  [kind * 2 ^ 28, 2 ^ 20 + (if kind = 2 then 0 else 63 * 256), 0x80000, 0, (if kind = 2 then 0x80400 else 0), 0, 32, 32]
def copyOp (kind : Nat) : Op :=
  { (default : Op) with live := true, kind := .copy, grp := 1, team := 1, ctr := 5, arg := copyRegs kind }
def engGives (_ : State) (r : Option (Except Raise (List Byte)) × State) (l : List Byte) : Bool :=
  match r.1 with
  | some (.ok m) => m = l
  | _ => false
def engAt (_ : State) (r : Option Reach × State) (spa : Nat) : Bool :=
  match r.1 with
  | some (.at (.hbm a x)) => a = spa && x.d1 && x.d2
  | _ => false
theorem test_hyp_CopiesMoveUnits_issue :
    let s (k : Nat) := (engine (tile256 true 64 .b32) []).modGrp 1 (fun g => { g with sregs := ((copyRegs k).zipIdx).map (fun p => (120 + p.2, BitVec.ofNat 32 p.1)) })
    let part := { s 0 with iss := { gmem.iss with mask := 1 } }
    let none' := (s 0).modTeam 1 (fun t => { t with tiles := [] })
    (∀ k, k < 3 →
      let u := s k
      let d := copyDesc (copyRegs k)
      ordered u = true ∧ (u.grp u.cur).region.open_ = false ∧ u.active ||| (u.grp u.cur).exited = BitVec.allOnes 32 ∧
      (List.range 8).map (fun i => (u.rdS u.cur (120 + i)).toNat) = copyRegs k ∧ d.legal 1 = true ∧
      (∀ i ∈ d.tiles, (u.tile u.myTeam i).defd = true ∧ (u.tile u.myTeam i).owner = true) ∧ d.conv = 0 ∧
      (d.kind = 1 → d.rows * d.rbt ≤ (u.tile u.myTeam d.ts).bytes) ∧
      (∀ p ∈ u.copyNeeds d, (u.team p.1).live = true → (u.tile p.1 p.2.1).room p.2.2 = true) ∧ u.ctr u.cur 5 < 255 ∧
      (u.cluster (u.clusterOf u.cur)).rows * (u.cluster (u.clusterOf u.cur)).cols = 1) ∧
    ordered none' = true ∧ none'.copyFault (copyDesc (copyRegs 0)) 5 = some 4 ∧
    part.active ||| (part.grp part.cur).exited ≠ BitVec.allOnes 32 := by decide +kernel
theorem test_hyp_CopiesMoveUnits_progress :
    let out := engine (tile256 true 64 .b32) [(9, copyOp 1)]
    let mem := engine (tile256 true 64 .b32) [(9, copyOp 2)]
    let inn := engine { tile256 true 0 .b32 with ranges := [(0, 64, 0, 0)] } [(9, { copyOp 0 with resv := [(1, 63, 0, 64)] })]
    let done := engine (tile256 true 64 .b32) [(9, { copyOp 1 with stage := 4 })]
    ordered out = true ∧ (out.op 9).kind = .copy ∧ out.engineRuns (out.op 9) = true ∧ 0 < (copyDesc (copyRegs 1)).units ∧
    out.copyOut 1 (copyDesc (copyRegs 1)) 0 = some (.ok (List.replicate 16 0)) ∧
    engAt out (out.engReach 9 ((copyDesc (copyRegs 1)).at 0x80000 0) 16 true) 0x80000 = true ∧
    16 ≤ (copyDesc (copyRegs 1)).rb ∧ out.tileReady 1 63 16 = true ∧ out.tilePoison 1 63 0 16 = false ∧
    ordered mem = true ∧ mem.engineRuns (mem.op 9) = true ∧ 0 < (copyDesc (copyRegs 2)).units ∧
    engGives mem (mem.engRead 9 ((copyDesc (copyRegs 2)).at 0x80000 0) 16) (List.replicate 16 0) = true ∧
    engAt mem ((mem.engRead 9 ((copyDesc (copyRegs 2)).at 0x80000 0) 16).2.engReach 9 ((copyDesc (copyRegs 2)).at 0x80400 0) 16 true) 0x80400 = true ∧
    ordered inn = true ∧ inn.engineRuns (inn.op 9) = true ∧ FMap.get (inn.op 9).res 0 = 0 ∧ (inn.tile 1 63).owner = true ∧
    (inn.tile 1 63).ranges = [(0, 64, 0, 0)] ∧ engGives inn (inn.engRead 9 ((copyDesc (copyRegs 0)).at 0x80000 0) 16) (List.replicate 16 0) = true ∧
    ordered done = true ∧ done.engineRuns (done.op 9) = true ∧ done.copyDone (done.op 9) = true ∧ out.copyDone (out.op 9) = false := by
  decide +kernel

/-- A cluster of two teams whose tree 0 has the second rank below the first. -/
def meshed (insts : List (Nat × MeshInst)) (ops : List (Nat × Op)) : State :=
  { ((two .running id).modCluster 1 (fun c => { c with trees := [(0, { live := true, parents := [0xff, 0], next := [] })], insts })).modTeam 1
      (fun t => { t with tiles := [(63, tile256 true 0 .n32)] }) with ops, nextId := 20 }
def meshOp (team n : Nat) : Op := { (default : Op) with live := true, kind := .meshRed, grp := team, team, ctr := 0, arg := [0, n] }
def meshVals : List Word := List.replicate 32 1 ++ [0, 2]
theorem test_hyp_MeshReduces :
    let s := { meshed [] [] with iss := { base.iss with grp := 2 } }
    let s2 := s.modGrp 2 (fun g => { g with sregs := [(0, 0xff)], crank := 1 })
    let four := { s2 with ops := [(5, meshOp 2 0), (6, meshOp 2 1), (7, meshOp 2 2), (8, meshOp 2 3)] }
    let i : MeshInst := { (default : MeshInst) with live := true, own := [(1, meshVals)], ops := [(1, 9)] }
    let r := { i with own := [(0, meshVals), (1, meshVals)], ops := [(0, 8), (1, 9)] }
    let p := meshed [(0, i)] [(9, meshOp 2 0)]
    let q := meshed [(0, r)] [(8, { meshOp 1 0 with resv := [(1, 63, 0, 128)] }), (9, meshOp 2 0)]
    let t1 : MeshTree := { live := true, parents := [0xff, 0], next := [] }
    let c := s2.clusterOf s2.cur
    ordered s2 = true ∧ (s2.grp s2.cur).region.open_ = false ∧ c = 1 ∧
    treeOk ((List.range 3).flatMap (fun i => (leBytes 4 (s2.rdS 2 i).toNat).map (·.toNat))) 2 = true ∧
    treeOk ((List.range 3).flatMap (fun i => (leBytes 4 (s2.rdS 2 (i + 1)).toNat).map (·.toNat))) 2 = false ∧
    s2.meshOps (· ∈ (s2.cluster 1).teams) 0 = [] ∧ s2.active ||| (s2.grp 2).exited = BitVec.allOnes 32 ∧
    (FMap.get (s2.cluster 1).trees 0).live = true ∧ s2.opFault true [vSrc 1 .n32] s2.active = none ∧
    (FMap.get (s2.cluster 1).trees 0).parent (s2.grp 2).crank ≠ 0xff ∧ s2.ctr s2.cur 0 < 255 ∧ (s2.meshOps (· = 2) 0).length < 4 ∧
    (FMap.get (s2.cluster 1).insts (instKey 0 0)).cancelled = false ∧ t1.parents.idxOf? 0xff = some 0 ∧
    (FMap.get (s2.cluster 1).insts (instKey 0 0)).ready t1 0 = false ∧
    ordered four = true ∧ 4 ≤ (four.meshOps (· = 2) 0).length ∧ (four.meshOps (· = 2) 0).getLast? = some (8, 3) ∧ (four.op 8).flag = false ∧
    ordered p = true ∧ (p.cluster 1).halt = .running ∧ (1 : Nat) < t1.parents.length ∧ t1.parent 1 ≠ 0xff ∧
    (∀ x ∈ (p.cluster 1).insts, x.2.tree = 0 → x = (instKey 0 0, i)) ∧ i.live = true ∧ i.tree = 0 ∧ i.num = 0 ∧ i.cancelled = false ∧
    1 ∉ i.accepted ∧ i.ready t1 1 = true ∧ ({ i with accepted := insertOnce 1 i.accepted } : MeshInst).ready t1 0 = false ∧
    ordered q = true ∧ (∀ x ∈ (q.cluster 1).insts, x.2.tree = 0 → x = (instKey 0 0, r)) ∧ r.ready t1 1 = true ∧
    ({ r with accepted := insertOnce 1 r.accepted } : MeshInst).ready t1 0 = true ∧ FMap.get r.ops 0 ≠ FMap.get r.ops 1 ∧
    (q.op (FMap.get r.ops 0)).resv = [(1, 63, 0, 128)] ∧
    (((FMap.get i.own 1)[32]?).getD 0) = 0 ∧ (((FMap.get i.own 1)[33]?).getD 0) = 2 := by decide +kernel

/-- An SDOT of two rows of 32 bytes of I8 at 0x80000 against tile 1, into tile 63. -/
def dotRegs : List Nat := [0x80000, 0, 32, 2, 32, 0, 0, 0]
theorem test_hyp_StackDotsAndMatrixWordsEnter_issue :
    let s := (gmem.modTeam 1 (fun t => { t with tiles := [(1, { tile256 true 64 .i8x4 with base := 8 }), (63, tile256 true 0 .i32)] })).modGrp 1
      (fun g => { g with sregs := (dotRegs.zipIdx).map (fun p => (120 + p.2, BitVec.ofNat 32 p.1)) })
    let o : SdotOp := ⟨.i8x4, 63, 1, 120, 5⟩
    let d := dotDesc dotRegs
    let k := match s.stackOf s.cur (d.pages .i8) none with | .ok k => k | _ => 99
    ordered s = true ∧ (s.grp s.cur).region.open_ = false ∧ s.active ||| (s.grp s.cur).exited = BitVec.allOnes 32 ∧
    (List.range 8).map (fun i => (s.rdS s.cur (120 + i)).toNat) = dotRegs ∧ dotFmt .i8x4 = .i8 ∧ d.legal .i8 = true ∧
    (s.tile 1 1).defd = true ∧ (s.tile 1 1).owner = true ∧ (s.tile 1 63).defd = true ∧ (s.tile 1 63).owner = true ∧ s.myTeam = 1 ∧
    (s.tile 1 1).tag = .i8x4 ∧ (s.tile 1 63).tag = .i32 ∧ (s.tile 1 63).room (4 * d.n) = true ∧
    (∀ q ∈ d.spans .i8 (d.n - 1), q.1 + q.2 ≤ 2 ^ 57) ∧ s.ctr s.cur 5 < 255 ∧ k < 99 ∧
    (let bad := s.modTeam 1 (fun t => { t with tiles := [] })
     bad.sdotFault o d = some 4 ∧ ordered bad = true) ∧ mIsInt .i8 = true := by decide +kernel
theorem test_hyp_StackDotsAndMatrixWordsEnter_run :
    let p : Op := { (default : Op) with
      live := true, kind := .sdot, grp := 1, team := 1, ctr := 5, ty := .i8x4, arg := dotRegs ++ [0, 1], resv := [(1, 63, 0, 8)] }
    let s := (engine (tile256 true 64 .i32) [(9, p), (10, { p with stage := 1, dst := 0, res := [(dotSec 0x800 + 1, 1)] })])
    let e := (engine (tile256 true 0 .i32) [(9, p)])
    let d := dotDesc dotRegs
    ordered s = true ∧ (s.op 9).kind = .sdot ∧ s.engineRuns (s.op 9) = true ∧ (s.op 9).stage = 0 ∧ d.legal .i8 = true ∧
    d.row .i8 ≤ (s.tile 1 1).wptr ∧ d.exps .i8 ≤ (s.tile 1 d.tea).wptr ∧ s.tilePoison 1 1 0 (max 1 (d.row .i8)) = false ∧
    ordered e = true ∧ (e.tile 1 1).wptr < d.row .i8 ∧
    (s.op 10).stage = 1 ∧ (s.op 10).width < d.n ∧ (s.op 10).resv.head? = some (1, 63, 0, 8) ∧
    (∀ q ∈ s.ops, q.2.kind = .sdot → q.2.stage = 1 → q.2.arg[8]? = (s.op 10).arg[8]? → (s.op 10).dst ≤ q.2.dst) ∧
    d.spans .i8 0 = [(0x80000, 32)] ∧ (match (s.snapRow 10 [0x80000]).1 with | some (.ok ()) => true | _ => false) = true := by
  decide +kernel

/-! The matrix words: tile 1 of 64 rows of 2048 bytes, the row scalar of one row in register 1, F8 operands. -/

def wordOf (i : Instr) : DWord := (encode i).getD 0
def mTile (tag : Tag) (w : Nat) : Tile := { (default : Tile) with defd := true, owner := true, base := 0, rows := 63, rowb := 31, wptr := w, tag }
def matrixed (m : Matrix → Matrix) : State :=
  ((gmem.modTeam 1 (fun t => { t with tiles := [(1, mTile .e4m3x4 2048), (2, { (mTile .f32 0) with resv := 0 })] })).modMatrix 0
    (fun x => m { x with team := 1 })).modGrp 1 (fun g => { g with sregs := [(1, 0)], blocks := 4 })
def entered (i : Instr) : State := let s := matrixed id; { s with iss := { s.iss with word := wordOf i }, nextId := 20 }
def full16 : State := matrixed (fun m => { m with queue := List.replicate 16 default })
theorem test_hyp_StackDotsAndMatrixWordsEnter_joint :
    let s := entered .mflip
    let g := s.cur
    let gr := s.grp g
    let o : MStream := ⟨true, false, false, 1, 0, 1, 5⟩
    let row := s.rdS g o.s.toNat
    let one (r : List (Nat × Tile)) : State := s.modTeam 1 (fun t => { t with tiles := r })
    let c := one [(1, { mTile .e4m3x4 2048 with owner := true })]
    ordered s = true ∧ gr.region.open_ = false ∧ (s.team gr.team).msmRows ≠ 0 ∧ s.active ||| gr.exited = BitVec.allOnes 32 ∧
    (s.heldBond s.cur).isNone = true ∧ gangValid gr.gang.toNat = false ∧ s.myMatrix.queue.length < 16 ∧
    decode s.iss.word = .ok .mflip ∧ decode (entered (.mcfg .i8 .i8)).iss.word = .ok (.mcfg .i8 .i8) ∧
    decode (entered (.mstream o)).iss.word = .ok (.mstream o) ∧ rowOk row = true ∧ mExp s.myMatrix.af = 0 ∧ o.e = 0 ∧ o.spr = false ∧
    s.msmRange (mWide s.myMatrix.af) row = true ∧ s.feeds g = true ∧ (s.tile s.myTeam 1).defd = true ∧ (s.tile s.myTeam 1).owner = true ∧
    (s.tile s.myTeam 1).rowb = 31 ∧ (s.tile s.myTeam 1).tag = mTag s.myMatrix.af ∧ rowCount row ≤ (s.tile s.myTeam 1).rows + 1 ∧
    s.ctr g o.c.val < 255 ∧ (c.tile 1 1).owner = true ∧
    ordered full16 = true ∧ 16 ≤ full16.myMatrix.queue.length ∧ (full16.grp full16.cur).region.open_ = false ∧
    gangValid (full16.grp full16.cur).gang.toNat = false ∧ (full16.team 1).msmRows ≠ 0 ∧ (full16.heldBond full16.cur).isNone = true ∧
    full16.active ||| (full16.grp full16.cur).exited = BitVec.allOnes 32 ∧ full16.myMatrix.queue.length ≤ 16 ∧
    (let t := s.modTeam 1 (fun t => { t with msmRows := 0 })
     ordered t = true ∧ (t.grp t.cur).region.open_ = false ∧ (t.team (t.grp t.cur).team).msmRows = 0) := by decide +kernel
theorem test_hyp_StackDotsAndMatrixWordsEnter_single :
    let s := entered .mflip
    let g := s.cur
    let row := s.rdS g 1
    let dr : MDrainR := ⟨0, .f32, .rne, false, 4, 1, 5⟩
    let dt : MDrainT := ⟨0, .f32, 0, .rne, false, 2, 1, 0, 5⟩
    decode (wordOf (.mzero false 1)) = .ok (.mzero false 1) ∧ decode (wordOf (.mfill true 1 2)) = .ok (.mfill true 1 2) ∧
    decode (wordOf (.mstat true true 1 0)) = .ok (.mstat true true 1 0) ∧ decode (wordOf (.mdrain dr)) = .ok (.mdrain dr) ∧
    decode (wordOf (.mdrainT dt)) = .ok (.mdrainT dt) ∧ rowOk row = true ∧ rowCount row = 1 ∧ s.msmRange false row = true ∧
    s.msmRange true row = true ∧ (2 : SReg).toNat % 2 = 0 ∧ mExp s.myMatrix.bf = 0 ∧ (s.tile s.myTeam 1).rows = 63 ∧
    (s.tile s.myTeam 1).tag = mTag s.myMatrix.bf ∧ dr.d.toNat % 2 = 0 ∧ dr.d.toNat + 2 ≤ 8 * (s.grp g).blocks ∧
    (s.tile s.myTeam 2).defd = true ∧ (s.tile s.myTeam 2).owner = true ∧ (s.tile s.myTeam 2).tag = dt.ty ∧
    (s.tile s.myTeam 2).room (rowCount row * drainBytes dt.ty) = true ∧ drainDe dt.ty = false := by decide +kernel

/-- A queue of one entry of a word on core 0, for team 1, its operation 9. -/
def entryOf (i : Instr) (op : Nat) (b : Bool) : MEntry := { (default : MEntry) with word := wordOf i, grp := 1, op, begun := b }
def queued (e : MEntry) (o : Op) : State := { matrixed (fun m => { m with queue := [e] }) with ops := [(9, o)], nextId := 20 }
def mOp (k : OpKind) : Op := { (default : Op) with live := true, kind := k, grp := 1, team := 1, ctr := 5 }
theorem test_hyp_MatrixEntriesPerform :
    let dr : MDrainR := ⟨0, .f32, .rne, false, 4, 1, 5⟩
    let dt : MDrainT := ⟨0, .f32, 0, .rne, false, 2, 1, 0, 5⟩
    let o : MStream := ⟨true, false, false, 1, 0, 1, 5⟩
    let z := entryOf (.mzero false 1) 0 false
    let d := entryOf (.mdrain dr) 9 false
    let t := { entryOf (.mdrainT dt) 9 false with row := 0x1000 }
    let m := entryOf (.mstream o) 9 true
    let x := entryOf (.mstat true true 1 0) 9 true
    let sz := queued z default
    let sd := queued d (mOp .mdrain)
    let st := queued t { mOp .mdrainT with resv := [(1, 2, 0, 512)] }
    let sm := queued m (mOp .mstream)
    let sx := queued x (mOp .mstat)
    (∀ s ∈ [sz, sd, st, sm, sx], ordered s = true ∧ (s.team (s.matrixOf 0).team).halt = .running ∧ (s.op 9).stopped = false ∧ s.bonds = []) ∧
    (sz.matrixOf 0).queue = z :: [] ∧ z.begun = false ∧ z.op = 0 ∧ decode z.word = .ok (.mzero false 1) ∧
    decode (wordOf (.mfill true 1 2)) = .ok (.mfill true 1 2) ∧ decode (wordOf (.mcfg .f16 .f16)) = .ok (.mcfg .f16 .f16) ∧
    (sd.matrixOf 0).queue = d :: [] ∧ decode d.word = .ok (.mdrain dr) ∧ sd.msmBad 1 false (rowFirst d.row) 1 = false ∧ (sd.op 9).live = true ∧
    (sd.grp 1).team = 1 ∧ (sd.grp (sd.op 9).grp).exited.getLsbD 31 = false ∧
    (st.matrixOf 0).queue = t :: [] ∧ decode t.word = .ok (.mdrainT dt) ∧ drainDe dt.ty = false ∧ t.progress + 1 < rowCount t.row ∧
    (st.op 9).resv = [(1, 2, 0, 512)] ∧ st.msmBad 1 false (rowFirst t.row) (rowCount t.row) = false ∧
    (sm.matrixOf 0).queue = m :: [] ∧ m.begun = true ∧ decode m.word = .ok (.mstream o) ∧ m.isStream = true ∧ m.jid = 0 ∧
    m.progress < rowCount m.row ∧ (sm.team (sm.op 9).team).halt = .running ∧
    (match sm.feed m o 0 with | .row l => decide (l.length = 64) | _ => false) = true ∧
    (sx.matrixOf 0).queue = x :: [] ∧ decode x.word = .ok (.mstat true true 1 0) ∧ x.isStat = true ∧ sx.engineRuns (sx.op 9) = true ∧
    x.progress < 64 ∧ 2048 * (x.progress + 1) ≤ (sx.tile 1 1).wptr ∧ sx.tilePoison 1 1 0 2048 = false := by decide +kernel

/-- Two teams on cores 0 and 1 whose groups 0 name a gang of one row of two columns, and its bond. -/
def gangs (i : Instr) (b : Bond) : State :=
  let s := two .running (fun g => { g with crank := 1, gang := 32912 })
  { (s.modGrp 1 (fun g => { g with gang := 32912 })).modTeam 2 (fun t => { t with core := 1, msmRows := 64 }) with
    bonds := [(32912, b)], iss := { s.iss with word := wordOf i } }
def bondOf2 (st : BondState) (latch : List (Nat × DWord × Nat × Nat × Nat)) (c : Bool) : Bond :=
  { (default : Bond) with state := st, cluster := 1, rows := 1, cols := 2, latch, complete := c }
theorem test_hyp_GangsFormBonds :
    let s := (two .running (fun g => { g with crank := 1 })).modCluster 1 (fun c => { c with rows := 1 })
    let gr := s.grp s.cur
    let there (i : Instr) : Nat × DWord × Nat × Nat × Nat := (2, wordOf i, 32912, 0, 8)
    let here (i : Instr) : Nat × DWord × Nat × Nat × Nat := (1, wordOf i, 32912, 0, 8)
    let f := gangs .bond (bondOf2 .forming [] false)
    let l := (gangs .bond (bondOf2 .forming [there .bond] false)).modGrp 2 (fun g => { g with park := .gang })
    let r := gangs .nop (bondOf2 .forming [here .bond, there .bond] true)
    let u := (gangs .unbond (bondOf2 .held [there .unbond] false)).modGrp 2 (fun g => { g with park := .gang })
    let v := gangs .unbond (bondOf2 .forming [] false)
    let none' := { f with bonds := [] }
    let broken := gangs .bond (bondOf2 .free [] false)
    let first (s : State) : Bond := { (s.bondAt 32912) with state := .forming, cluster := 1, rows := 1, cols := 2, latch := [here .bond] }
    let parked (s : State) : State := { s.parkAfter .gang 0 with bonds := FMap.set s.bonds 32912 (first s) }
    (∀ t ∈ [s, f, l, u, v, none', broken], ordered t = true ∧ (t.grp t.cur).region.open_ = false ∧ (t.team (t.grp t.cur).team).msmRows ≠ 0 ∧
      t.active ||| (t.grp t.cur).exited = BitVec.allOnes 32 ∧ t.cur = 1) ∧
    (∀ t ∈ [s, f, l, v], (t.heldBond 1).isNone = true) ∧
    ({ (default : Bond) with rows := 1, cols := 2 } : Bond).covers (s.cluster 1).cols gr.crank = true ∧ (s.cluster (s.clusterOf 1)).rows = 1 ∧
    (s.cluster (s.clusterOf 1)).cols = 2 ∧ gr.idx = 0 ∧ s.inBond 1 = false ∧
    (∀ t ∈ [f, l, u, v, none', broken], t.gangKey 1 = 32912 ∧ gangValid (t.grp 1).gang.toNat = true) ∧
    (∀ t ∈ [f, none'], ((t.bondAt 32912).state = .forming ∨ (t.bondAt 32912).rows = 0) ∧
      ∀ p ∈ (parked t).bonds, (parked t).meeting p.2 = none) ∧ (none'.bondAt 32912).state = .free ∧
    (broken.bondAt 32912).state = .free ∧ (broken.bondAt 32912).rows ≠ 0 ∧
    f.bondMembers (f.bondAt 32912) = [1, 2] ∧ (f.bondAt 32912).latch = [] ∧ decode l.iss.word = .ok .bond ∧
    jointFields (there .bond) = jointFields (here .bond) ∧ l.bondMembers (l.bondAt 32912) = [1, 2] ∧ l.clashes (l.bondAt 32912) = false ∧
    (l.grp 1).gang.toNat = 32912 ∧ l.iss.word = wordOf .bond ∧ l.iss.off = 8 ∧
    ordered r = true ∧ r.bondReady (r.bondAt 32912) = true ∧ r.bonds.map (·.1) = [32912] ∧
    (u.heldBond 1).map (·.2.gidx) = some 0 ∧ (u.grp 1).idx = 0 ∧ u.gangBond 1 = some .held ∧ decode u.iss.word = .ok .unbond ∧
    u.bondMembers (u.bondAt 32912) = [1, 2] ∧ jointFields (there .unbond) = jointFields (here .unbond) ∧ (u.grp 2).park = .gang ∧
    u.jointPending 32912 (u.bondAt 32912) = false ∧ v.gangBond 1 = some .forming := by decide +kernel

/-! A partition command in progress on partition 2. -/

def pcmd (op : Nat) (f : Part → Part) : State :=
  { base with pcBusy := true, pcOp := op, pcPart := 2 }.modPart 2 f
/-- A descriptor of one core, 12, on die 1, with ten frames. -/
def partDesc : List Byte :=
  leBytes 1 0x11 ++ leBytes 1 0xff ++ leBytes 2 0 ++ leBytes 6 (2 ^ 12) ++ leBytes 1 1 ++ leBytes 1 16 ++ leBytes 4 0 ++ leBytes 4 0 ++
  leBytes 1 0 ++ leBytes 1 0 ++ leBytes 2 1000 ++ leBytes 4 0 ++ leBytes 4 10 ++ leBytes 32 0
theorem test_hyp_PartitionsLiveAndDie :
    let c := { pcmd 1 id with pctBase := 0x200000, mem := storeList [] 0x200080 partDesc }
    let far := { pcmd 1 id with pctBase := 0x9000000000 }
    let used := { pcmd 4 (fun p => { p with state := .running, cores := 2 ^ 13 }) with pctBase := 0x200000, mem := c.mem }
    let bad := { c with mem := storeList [] 0x200080 (partDesc.set 2 1) }
    let lim := { c with mem := storeList [] 0x200080 (partDesc.set 25 200) }
    let run := pcmd 2 (fun p => { p with state := .stopped, parent := 0xff })
    let stop := pcmd 3 (fun p => { p with state := .running })
    let gone := pcmd 5 (fun p => { p with state := .stopped })
    (∀ s ∈ [c, far, used, bad, run, stop, gone], ordered s = true ∧ s.pcBusy = true) ∧
    (c.readDesc 2).1 = some partDesc ∧ partDescOk partDesc = true ∧ (c.part 2).state = .unused ∧ (c.readDesc 2).2.limitsOk 2 (partOfDesc partDesc) = true ∧
    spaOk (c.pctBase.toNat + 64 * 2) = true ∧ spaOk (far.pctBase.toNat + 64 * 2) = false ∧
    (used.readDesc 2).1 = some partDesc ∧ (used.readDesc 2).2.limitsOk 2 (partOfDesc partDesc) = true ∧
    (bad.readDesc 2).1 = some (partDesc.set 2 1) ∧ partDescOk (partDesc.set 2 1) = false ∧
    (lim.readDesc 2).1 = some (partDesc.set 25 200) ∧ (lim.readDesc 2).2.limitsOk 2 (partOfDesc (partDesc.set 25 200)) = false ∧
    partDescOk (partDesc.set 25 200) = true ∧
    run.isLeaf 2 = true ∧ (run.part 2).state = .stopped ∧ (stop.part 2).state = .running ∧ stop.pcStage = 0 ∧ stop.partClusters 2 = [] ∧
    gone.hasKids 2 = false ∧ gone.framesOf 2 = 0 ∧ gone.fnsOf 2 = [] ∧ gone.exports = [] ∧ base.pcBusy = false := by decide +kernel
def okB {ε α : Type} (e : Except ε α) : Bool :=
  match e with
  | .ok _ => true
  | .error _ => false
theorem test_hyp_FramesAndWindowsChange :
    let leafed (op : Nat) : State := pcmd op (fun p => { p with state := .running, parent := 0xff, cores := 2 ^ 12, frMax := 1 })
    let f := 2 ^ 21
    let a := { leafed 6 with pcarg0 := BitVec.ofNat 64 (65536 * f), pcarg1 := 1 }
    let more := { a with pcarg1 := 2 }
    let owned (s : State) : State := { s with frames := FMap.set s.frames f { st := 1, owner := 2 } }
    let fr := owned { leafed 7 with pcarg0 := BitVec.ofNat 64 (65536 * f), pcarg1 := 1 }
    let sc := { owned (leafed 7) with pcStage := 1 + f * 2 ^ 24 + 1 }
    let busy := { sc with acc := [(3, { (default : Access) with live := true, place := .hbm, addr := 65536 * f })] }
    let ex := { leafed 8 with pcarg0 := 0x10000, pcarg1 := 1 }
    let im := { leafed 9 with pcarg0 := mkHandle 1 0 1 1, pcarg1 := 0x30000, pcarg2 := 0x1000000 }
    let badIm := { im with pcarg1 := 2 }
    let h := mkHandle 0 1 1 1
    let rv := { leafed 10 with pcarg0 := h, exports := [(1, { (default : Export) with live := true, part := 2, handle := h, size := 65536 })] }
    let un := { leafed 11 with pcarg1 := 0x30000, imports := [(2 * 2 ^ 24 + 3, { (default : Import) with live := true, part := 2, woff := 0x30000, size := 65536, handle := h })] }
    let old := { rv with pcStage := 5, acc := [(3, default)] }
    let new := { rv with pcStage := 5 }
    (∀ s ∈ [a, more, fr, sc, busy, ex, im, badIm, rv, un, old, new], ordered s = true ∧ s.pcBusy = true ∧ s.pcPart = 2) ∧
    a.pcFrames 2 = some (f, 1) ∧ (a.frame f).st = 0 ∧ spaDie (f * 65536) ∈ (a.part 2).dies ∧ a.framesOf 2 + 1 ≤ (a.part 2).frMax ∧
    f + 1 ≤ 2 ^ 23 ∧ more.pcFrames 2 = some (f, 2) ∧ (more.part 2).frMax < more.framesOf 2 + 2 ∧
    fr.pcStage = 0 ∧ fr.pcFrames 2 = some (f, 1) ∧ fr.frameOwned f 2 = true ∧ sc.framesBusy f 1 = false ∧ busy.framesBusy f 1 = true ∧
    ex.isLeaf 2 = true ∧ ex.pcarg0.toNat % 65536 = 0 ∧ ex.pcarg1.toNat = 1 ∧ ex.nextSerial < 2 ^ 24 ∧
    im.pcStage = 0 ∧ onlyBits im.pcarg1 [(39, 16), (0, 0)] = true ∧ onlyBits im.pcarg2 [(47, 0)] = true ∧ im.isLeaf 2 = true ∧
    im.handleOk im.pcarg0 = true ∧ bitsOf im.pcarg2.toNat 47 24 = 1 ∧ bitsOf im.pcarg2.toNat 23 0 = 0 ∧ bitsOf im.pcarg0.toNat 23 0 = 1 ∧
    im.pcWindow = 0x30000 ∧ im.imports = [] ∧ ¬onlyBits badIm.pcarg1 [(39, 16), (0, 0)] = true ∧
    handleSerial h = 1 ∧ (FMap.get rv.exports 1).live = true ∧ (FMap.get rv.exports 1).revoked = false ∧ (FMap.get rv.exports 1).handle = rv.pcarg0 ∧
    (FMap.get (leafed 10).exports 0).live = false ∧ (FMap.get un.imports (2 * 2 ^ 24 + un.pcWindow / 65536)).live = true ∧
    onlyBits un.pcarg1 [(39, 16), (0, 0)] = true ∧ old.oldAccesses 4 = true ∧ new.oldAccesses 4 = false := by decide +kernel

/-! Migration of partition 1: its page 8 is the frame at 0x80000. -/

def moving (dest : Bool) (st : MigState) (f : Migration → Migration) : State :=
  { gmem with mig := f { gmem.mig with state := st, peer := BitVec.ofNat 64 (2 ^ 18 + if dest then 2 ^ 24 else 0) } }
theorem test_hyp_MigrationLeavesTheSource :
    let p : PeerLeaf := ⟨true, true, false, 1, 0, []⟩
    let own (o : PageOwn) (m : Migration) : Migration := { m with pages := [(8, o)] }
    let prep := (moving true .idle (fun m => { m with cmd := 1, peer := m.peer })).modPart 1 (fun q => { q with state := .stopped })
    let wrong := moving false .idle (fun m => { m with cmd := 1 })
    let late := { wrong with tick := 10000000 }
    let push := moving false .prepare (own .absent)
    let busy := { push with acc := [(0, { (default : Access) with live := true, place := .hbm, addr := 0x80000 })] }
    let halt := moving false .prepare (fun m => { m with cmd := 2 })
    let ship := (moving false .halt id).modCluster 1 (fun c => { c with halt := .saved })
    let pull (o : PageOwn) := moving false .pull (own o)
    let sent := moving false .pull (fun m => { m with pages := [(8, .frozen)], pulls := [8] })
    let last := moving false .ship (fun m => { m with inbox := [.last] })
    let f : FwdAtomic := { (default : FwdAtomic) with gpa := 0x80040, size := 4, ty := .i32 }
    (∀ s ∈ [prep, wrong, late, push, busy, halt, ship, pull .absent, pull .frozen, pull .gone, sent, last], ordered s = true) ∧
    prep.mig.cmd = 1 ∧ prep.mig.state = .idle ∧ prep.prepareCode p = 0 ∧ wrong.prepareCode { p with accepts := false } = 1 ∧
    late.mig.cmdAt + 10000000 ≤ late.tick ∧ push.mig.state ≠ .idle ∧ push.migDest = false ∧ push.migLeaf = 1 ∧
    FMap.get push.mig.pages 8 = .absent ∧ push.pageSpa 1 8 = some 0x80000 ∧ push.framesBusy (frameOf 0x80000) 1 = false ∧
    busy.framesBusy (frameOf 0x80000) 1 = true ∧ halt.mig.cmd = 2 ∧ halt.migDest = false ∧ ship.mig.state = .halt ∧
    (∀ c ∈ ship.partClusters 1, c.2.halt = .saved ∧ (ship.cluster c.1).halt ≠ .running) ∧ ship.leafQuiet 1 = true ∧
    (pull .frozen).pageSpa 1 8 = some 0x80000 ∧ 8 ∉ (pull .frozen).mig.pulls ∧ 8 ∈ sent.mig.pulls ∧ f.gpa / 65536 = 8 ∧
    (pull .absent).pageSpa 1 8 = some 0x80000 ∧ last.mig.inbox = [.last] ∧ last.migDest = false := by decide +kernel
theorem test_hyp_MigrationArrivesOrFails :
    let ship (i : ShipItem) := moving true .ship (fun m => { m with inbox := [i] })
    let prep := moving true .prepare (fun m => { m with inbox := [.page 8 [(0, 7)] []] })
    let pull := moving true .pull (fun m => { m with pages := [(8, .absent)], inbox := [.page 8 [(0, 7)] [], .heldAtomics []] })
    let done := moving false .done (fun m => { m with cmd := 3 })
    let abort := moving false .halt (fun m => { m with cmd := 4 })
    let failed := moving false .failed (fun m => { m with cmd := 4 })
    let e : Export := { (default : Export) with live := true, moved := true, part := 1, graceEnd := 5 }
    let over' := { gmem with exports := [(1, e)], tick := 5 }
    let src := moving false .pull id
    (∀ s ∈ [ship .last, ship (.tick 3), prep, pull, done, abort, failed, over', src], ordered s = true) ∧
    (ship .last).migDest = true ∧ (ShipItem.tick 3) ≠ .last ∧ (ship (.tick 3)).mig.inbox = [.tick 3] ∧ prep.mig.state = .prepare ∧
    pull.migDest = true ∧ FMap.get pull.mig.pages 8 = .absent ∧ pull.pageSpa 1 8 = some 0x80000 ∧ 0x80000 % 65536 = 0 ∧
    pull.mig.forwarded = [] ∧ done.mig.cmd = 3 ∧ done.mig.state = .done ∧ gmem.mig.cmd ≠ 3 ∧ abort.mig.cmd = 4 ∧ failed.mig.cmd = 4 ∧
    (FMap.get over'.exports 1).graceEnd ≤ over'.tick ∧ (FMap.get gmem.exports 1).moved = false ∧ src.migDest = false ∧
    gmem.mig.state = .idle := by decide +kernel
theorem test_hyp_MigrationArrivesOrFails_pages (q : Nat) :
    FMap.get (moving true .pull (fun m => { m with pages := [(8, .absent)] })).mig.pages q = .absent → q = 8 := by
  intro h
  by_contra hq
  simp [moving, FMap.get, Ne.symm hq] at h
  exact absurd h (by decide)

/-! ### Resets, errors, ports -/

theorem test_hyp_ResetsAndAttestation :
    let s := gmem
    let v := { s with tlb := [] }.modFn 5 (fun f => { f with bound := true, leaf := 1, s1root := 0x40001 })
    let hdr : List Byte := leBytes 4 0x57464c41 ++ leBytes 2 1 ++ leBytes 2 0 ++ leBytes 4 3
    let good := { s with flash := storeList [] 0 hdr }
    let rev := { good with ras := { good.ras with revoked := 1 } }
    let old := { good with ras := { good.ras with minSvn := 4 } }
    let bad := { s with flash := [] }
    let free := s.modPart 1 (fun p => { p with state := .stopped })
    let none' := { s with teams := [] }
    let mod := none'.modDie 0 (fun d => { d with lichen := [(5, { (default : LichenEntry) with state := .modified, line := 5 })] })
    let sp := { s with ras := { s.ras with spBusy := true, spKind := 8, spUnit := 3 } }
    (∀ t ∈ [s, v, good, rev, old, bad, free, none', mod, sp], ordered t = true) ∧
    good.flashHeaderOk = true ∧ bad.flashHeaderOk = false ∧ rev.ras.revoked.getLsbD (rev.flashNum 6 1) = true ∧
    old.ras.revoked.getLsbD (old.flashNum 6 1) = false ∧ old.flashNum 8 4 < old.ras.minSvn ∧ s.ras.bootSt = 0 ∧ s.mig.state = .idle ∧
    (∀ p ∈ s.launches, p.2.fn = 5 → (s.launch p.1).state ∉ [LaunchState.active, .halted]) ∧ s.ras.spBusy = false ∧
    (∀ p ∈ free.parts, p.2.state = .running → p.2.onDie 0 = false) ∧ (∃ p ∈ s.parts, p.2.state = .running ∧ p.2.onDie 0 = true) ∧
    none'.teams = [] ∧ (FMap.get (mod.die 0).lichen 5).state = .modified ∧ sp.ras.spKind = 8 ∧
    spaOk 0x200000 = true ∧ spaOk (0x200000 + 1023) = true ∧ s.poisoned 0x200000 64 = false ∧
    (s.hubRead 0x200000 64).1 = some (List.replicate 64 0) ∧ spaOk (2 ^ 40) = false ∧ (s.fn 5).bound = false ∧
    gives v (v.hubBytes 5 0x80000 64) (List.replicate 64 0) = true ∧
    (let w := (v.hubBytes 5 0x80000 64).2
     okB (w.hubWriteN 5 (0x80000 + 512) (w.report 1 [] 0)) = true) := by decide +kernel
theorem test_hyp_ErrorsAndSpares :
    let s := gmem
    let room := { s with ras := { s.ras with errCfg := 0x800000000803e804 } }
    let busy := { s with ras := { s.ras with spBusy := true, spKind := 4 } }
    (∀ t ∈ [s, room, busy], ordered t = true) ∧ eventOk 4 0 0x80000 = true ∧ eventOk 6 143 0 = true ∧ eventOk 6 144 0 = false ∧
    memoryEvent 4 0x80000 = true ∧ memoryEvent 6 0 = false ∧ room.ras.errRoom = true ∧ room.ras.errHeld = [] ∧ s.ras.errRoom = false ∧
    s.ras.spBusy = false ∧ 66 < unitLimit 0 ∧ 9 < unitLimit 1 ∧ 143 < unitLimit 6 ∧ s.residents 1 = [] ∧ s.residents 0 ≠ [] ∧
    FMap.get s.ras.spareUsed (errUnit 0 (sparePool 0 66).1) < (sparePool 0 66).2 ∧
    FMap.get s.ras.spareUsed (errUnit 1 (sparePool 1 9).1) < (sparePool 1 9).2 ∧
    FMap.get s.ras.spareUsed (errUnit 6 (sparePool 6 143).1) < (sparePool 6 143).2 ∧ unitLimit 2 ≤ 2048 ∧ unitLimit 3 ≤ 2 ^ 18 ∧
    unitLimit 4 ≤ 2 ^ 35 ∧ 0 < unitLimit 3 ∧ busy.ras.spKind ≤ 6 := by decide +kernel
/-- The first 248 bytes of a flit of number 0 on channel 2 with a payload of zeros, and the flit. -/
def flitHead : List Byte := leBytes 2 0x2000 ++ leBytes 2 0x1007 ++ leBytes 1 0x0a ++ leBytes 3 0 ++ List.replicate 240 0
def flit : List Byte := flitHead ++ leBytes 8 (crc64 flitHead).toNat
theorem test_hyp_PortsCarryFlits_crc : flit.length = 256 ∧ (crc64 (flit.take 248)).toNat = numAt flit 248 8 := by
  have h : flitHead.length = 248 := by simp only [flitHead, List.length_append, length_leBytes, List.length_replicate]
  refine ⟨by rw [flit, List.length_append, h, length_leBytes], ?_⟩
  have : (leBytes 8 (crc64 flitHead).toNat).length ≤ 8 := by simp
  rw [flit, numAt, List.take_left' h, List.drop_left' h, List.take_of_length_le this, leNat_leBytes, Nat.mod_eq_of_lt (by simpa using (crc64 flitHead).isLt)]
theorem test_hyp_PortsCarryFlits :
    let p : Port := { (default : Port) with trained := true, unacked := [(6, 0), (7, 0), (8, 1)] }
    let s := { base with ports := [(3, p)], tick := 10 ^ 7 }
    let t := { s with ports := [(3, { p with stopped := true, spare := true })] }
    ordered s = true ∧ ordered t = true ∧ (FMap.get s.ports 3).stopped = false ∧ numAt flit 0 2 % 4096 = (FMap.get s.ports 3).rxSeq ∧
    (flit.set 0 1).length = 256 ∧ numAt (flit.set 0 1) 0 2 % 4096 ≠ (FMap.get s.ports 3).rxSeq ∧
    (FMap.get t.ports 3).stopped = true ∧ (FMap.get t.ports 3).spare = true ∧ (FMap.get t.ports 3).failed = false ∧
    (FMap.get t.ports 3).stopAt + 10 ^ 7 ≤ t.tick := by decide +kernel
theorem test_hyp_PortsCarryFlits_stopped :
    let p : Port := { (default : Port) with stopped := true }
    let s := { base with ports := (List.range 16).map (fun k => (k, p)), tick := 10 ^ 7 }
    ordered s = true ∧ ∀ k, k < 16 → (FMap.get s.ports k).stopped = true ∧ (FMap.get s.ports k).failed = false ∧
      (FMap.get s.ports k).stopAt + 10 ^ 7 ≤ s.tick := by decide +kernel
theorem test_hyp_PortsCarryFlits_paths (r : Nat) :
    (∃ k, k < 16 ∧ r % 128 / 8 = k) ∧ ∃ k, k < 16 ∧ r % 128 / 8 ≠ k := by
  refine ⟨⟨r % 128 / 8, by omega, rfl⟩, ?_⟩
  by_cases h : r % 128 / 8 = 0
  · exact ⟨1, by omega, by omega⟩
  · exact ⟨0, by omega, h⟩

/-! ### Numbers, encodings, steps -/

theorem test_hyp_NopIsTheOnlyWordOfMajorZero :
    (0x0000000000f70001 : DWord).extractLsb' 56 8 = 0 ∧ (0x0000000000f70001 : DWord) ≠ 0x0000000000f70000 := by decide
theorem test_hyp_MinAndMaxPassOverNaN :
    fF16 ∈ [fF16, fBF16, fF32, fF64] ∧ 0x7e00 < 2 ^ (fF16.eb + fF16.fb + 1) ∧ fF16.val 0x7e00 = .nan ∧ ¬fF16.val 0x8000 = .nan ∧
    ¬fF16.val 0 = .nan ∧ Tag.bf16x2 ∈ floatTags ∧ Tag.f64 ∈ floatTags := by decide +kernel
theorem test_hyp_IaddiTakesIndexTags :
    let o : VImm := ⟨.always, 5, 6, 7⟩
    let s := withV [] [(6, .b32)]
    let t := withV [] [(6, .f32)]
    encode (.iaddi o) = some (wordOf (.iaddi o)) ∧ ordered s = true ∧ (s.grp 1).tagOf 6 = .b32 ∧ 6 < 8 * (s.grp 1).blocks ∧
    (t.grp 1).tagOf 6 ∉ [Tag.i32, .n32, .b32] := by decide +kernel
theorem test_hyp_RoundingFollowsTheMode :
    fF16.val 0x3c00 = .fin false 1024 (-10) ∧ fF16.val (fF16.big false) = .fin false 2047 5 ∧ fF16.val 0x3c00 ≠ .nan ∧
    (∀ s, fF16.val 0x3c00 ≠ .inf s) ∧ 0x3c00 < 2 ^ (fF16.eb + fF16.fb + 1) := by decide +kernel
theorem test_hyp_EncodeAndDecodeAgree :
    (Instr.iaddi ⟨.always, 5, 6, 7⟩).wellFormed = true ∧ (encode (.iaddi ⟨.always, 5, 6, 7⟩)).isSome = true ∧
    (Instr.frondLdp ⟨1, 0, 0⟩).wellFormed = true ∧ (encodeFrond (.frondLdp ⟨1, 0, 0⟩)).isSome = true ∧
    decode 0x0000000000f70000 = .ok .nop ∧ decodeFrond 0x2c400000 = .ok (.frondLdp ⟨1, 0, 0⟩) := by decide +kernel
/-- The group of `base` at the first word of its clause, with the words of planes 0 and 1 there. -/
def atWord (snap : List Nat) (w0 w1 : Instr) : State :=
  let s := gmem.modGrp 1 (fun g => { g with snap })
  { s.modLaunch 1 (fun l => { l with planes := 2, plen := 0x100, stride := 0x100 }) with
    agenda := [.issue 1], mem := storeList (storeList gmem.mem 0x80088 (leBytes 8 (wordOf w0).toNat)) 0x80188 (leBytes 8 (wordOf w1).toNat) }
theorem test_hyp_StepRunsEveryTurn_words :
    let one := List.replicate 32 0
    let both := List.replicate 16 0 ++ List.replicate 16 1
    let check (s : State) (planes : List Nat) (ws : List DWord) : Bool :=
      let b := s.begin []
      let pipe := b.pipeFor 1 (b.grp 1).cls
      let u := planes.foldl (fun u p => u.codeFill 1 p 8) ((b.takePipe 1 (pipe.getD 9)).modGrp 1 (fun gr => { gr with held := false }))
      s.agenda = [.issue 1] && pipe.isSome && b.mayIssue 1 && (b.grp 1).switchedOff = 0 && (b.grp 1).inClause && (b.grp 1).clause + 8 < (u.launch (u.launchOf 1)).plen &&
      (match u.codeWords 1 8 planes with | .ok l => l = ws | _ => false)
    let x := wordOf (.saddi 1 1 1)
    let y := wordOf (.saddi 2 1 1)
    let z := wordOf (.braQ 2 8)
    let g := gmem.grp 1
    check (atWord one (.saddi 1 1 1) .nop) [0] [x] = true ∧ g.wordInstr x true = some (.saddi 1 1 1) ∧ sortOnce ((lanesOf g.mask).map (fun l => (one[l]?).getD 0)) = [0] ∧
    check (atWord both (.saddi 1 1 1) (.saddi 1 1 1)) [0, 1] [x, x] = true ∧ check (atWord both (.saddi 1 1 1) (.saddi 2 1 1)) [0, 1] [x, y] = true ∧
    sortOnce ((lanesOf g.mask).map (fun l => (both[l]?).getD 0)) = [0, 1] ∧ x ≠ y ∧ g.wordInstr y true = some (.saddi 2 1 1) ∧
    (Instr.saddi 1 1 1).fieldsOk = true ∧ (Instr.saddi 2 1 1).fieldsOk = true ∧
    (let b := (atWord both (.saddi 1 1 1) (.saddi 2 1 1)).begin []
     ([0, 1].foldl (fun (u : State) p => u.codeFill 1 p 8) ((b.takePipe 1 0).modGrp 1 (fun gr => { gr with held := false }))).planesDisagree 1
       [(x, .saddi 1 1 1), (y, .saddi 2 1 1)] = false ∧ b.pipeFor 1 (b.grp 1).cls = some 0) ∧ g.defines (.saddi 1 1 1) = true ∧ g.defines (.saddi 2 1 1) = true ∧
    g.replay = 0 ∧
    g.planeFrom = 0 ∧ decode z = .ok (.braQ 2 8) ∧ g.wordInstr z false = none := by decide +kernel
theorem test_hyp_StepRunsEveryTurn_turns :
    let w := encodeFrond (.frondLdp ⟨1, 0, 0⟩)
    let f := (hub (fun q => { q with words := [w.getD 0] }))
    let k := gmem.modGrp 1 (fun g => { g with inClause := false })
    let p := gmem.modGrp 1 (fun g => { g with park := .fault })
    let two := two .running id
    let full := (({ two with teams := FMap.set two.teams 2 { two.team 2 with core := 0 } } : State).modGrp 1 (fun g => { g with cls := 3 })).modCore 0
      (fun c => { c with pipes := [(0, 3)] })
    let b (s : State) := s.begin []
    (b f).served 256 = true ∧ ((b f).queue 256 0).active = true ∧ ((b f).queue 256 0).state = .run ∧
    ((b f).queue 256 0).words[((b f).queue 256 0).pc]? = w ∧ w = some 0x2c400000 ∧ (b k).mayIssue 1 = true ∧ ((b k).grp 1).switchedOff = 0 ∧
    (b full).mayIssue 1 = true ∧ ((b full).grp 1).inClause = true ∧ ((b full).grp 1).switchedOff = 0 ∧ (b full).pipeFor 1 ((b full).grp 1).cls = none ∧
    ((b k).grp 1).inClause = false ∧ (b p).mayIssue 1 = false ∧ decodeFrond 0x2c400000 = .ok (.frondLdp ⟨1, 0, 0⟩) := by decide +kernel
theorem test_hyp_invariants :
    FMap.wf State.reset.mem = true ∧ FMap.wf State.reset.hostMem = true ∧ ordered State.reset = true ∧ fresh State.reset = true ∧
    (match step { State.reset with agenda := [.elapse 3] } with | .next t => t.tick | _ => 0) = 3 ∧
    (default : Access).op < State.reset.nextId := by decide +kernel

end Sys2Proof.Tests
end

section
/-!
PROOFS. Elementwise vector words (R80, R238): the elements of a register value built from elements, and the result of a word that
applies one operation to the elements of its sources.
-/
namespace Sys2Proof.Machine
open Sys2Proof

/-! ### Elements (R80) -/

/-- The number whose elements of w bits are the first n values of f. -/
def elemsNat (w n : Nat) (f : Nat → Nat) : Nat := (List.range n).foldl (fun acc j => acc + (f j % 2 ^ w) * 2 ^ (w * j)) 0

theorem fromElems_eq (w n : Nat) (f : Nat → Nat) : fromElems w n f = BitVec.ofNat 64 (elemsNat w n f) := rfl

@[simp] theorem elemsNat_zero (w : Nat) (f : Nat → Nat) : elemsNat w 0 f = 0 := rfl

theorem elemsNat_succ (w n : Nat) (f : Nat → Nat) :
    elemsNat w (n + 1) f = elemsNat w n f + (f n % 2 ^ w) * 2 ^ (w * n) := by
  simp [elemsNat, List.range_succ]

theorem elemsNat_lt (w n : Nat) (f : Nat → Nat) : elemsNat w n f < 2 ^ (w * n) := by
  induction n with
  | zero => simp
  | succ n ih =>
    have digit : f n % 2 ^ w + 1 ≤ 2 ^ w := Nat.mod_lt _ (by positivity)
    calc elemsNat w (n + 1) f
        < (f n % 2 ^ w + 1) * 2 ^ (w * n) := by rw [elemsNat_succ, add_mul, one_mul]; omega
      _ ≤ 2 ^ w * 2 ^ (w * n) := Nat.mul_le_mul_right _ digit
      _ = 2 ^ (w * (n + 1)) := by ring

theorem elemsNat_elem (w n j : Nat) (f : Nat → Nat) (hj : j < n) : elemsNat w n f / 2 ^ (w * j) % 2 ^ w = f j % 2 ^ w := by
  induction n with
  | zero => omega
  | succ n ih =>
    rw [elemsNat_succ]
    rcases Nat.lt_succ_iff_lt_or_eq.mp hj with h | rfl
    · have above : (f n % 2 ^ w) * 2 ^ (w * n) = 2 ^ (w * j) * (2 ^ w * ((f n % 2 ^ w) * 2 ^ (w * (n - j - 1)))) := by
        obtain ⟨k, rfl⟩ := Nat.exists_eq_add_of_lt h
        rw [show j + k + 1 - j - 1 = k by omega]; ring
      rw [above, Nat.add_mul_div_left _ _ (by positivity), Nat.add_mul_mod_self_left, ih h]
    · rw [Nat.add_mul_div_right _ _ (by positivity), Nat.div_eq_of_lt (elemsNat_lt w j f), zero_add, Nat.mod_mod]

theorem toNat_fromElems (w n : Nat) (f : Nat → Nat) (h : w * n ≤ 64) : (fromElems w n f).toNat = elemsNat w n f := by
  rw [fromElems_eq, BitVec.toNat_ofNat]
  exact Nat.mod_eq_of_lt ((elemsNat_lt w n f).trans_le (Nat.pow_le_pow_right (by omega) h))

theorem elemOf_lt (v : DWord) (w j : Nat) : elemOf v w j < 2 ^ w := Nat.mod_lt _ (by positivity)

/-- The elements of every type fill its register, or its pair, at most. -/
theorem tagElems_fits (t : Tag) : (tagElems t).1 * (tagElems t).2 ≤ if t.width = 64 then 64 else 32 := by
  cases t <;> decide

/-- A register of 32 bits keeps the elements of a type of 32 bits. -/
theorem elemOf_written (t : Tag) (f : Nat → Nat) (j : Nat) (hj : j < (tagElems t).2) :
    let v := fromElems (tagElems t).1 (tagElems t).2 f
    elemOf (if t.width = 64 then v else (loWord v).zeroExtend 64) (tagElems t).1 j = f j % 2 ^ (tagElems t).1 := by
  intro v
  have fits := tagElems_fits t
  suffices kept : (if t.width = 64 then v else (loWord v).zeroExtend 64).toNat = elemsNat (tagElems t).1 (tagElems t).2 f by
    rw [elemOf, kept, elemsNat_elem _ _ _ _ hj]
  split_ifs at fits ⊢ with h64
  · exact toNat_fromElems _ _ f fits
  · have small : elemsNat (tagElems t).1 (tagElems t).2 f < 2 ^ 32 :=
      (elemsNat_lt _ _ f).trans_le (Nat.pow_le_pow_right (by omega) fits)
    simp only [loWord, BitVec.truncate_eq_setWidth, BitVec.toNat_setWidth, BitVec.extractLsb'_toNat, Nat.shiftRight_zero,
      v, toNat_fromElems _ _ f (fits.trans (by omega))]
    omega

/-! ### Words of two sources (R238) -/

/-- A word that applies an operation to the elements of its two sources: each element of the result is that operation on the
elements at its place, where the operation keeps to the width of the elements. -/
theorem vectorResult_elementwise {i : Instr} {s : State} {o : VOp} {g : Nat → Nat → Nat}
    (h : exec i s = .next (s.elementwise o 2 (fun a b _ => g a b)))
    (hg : ∀ a b, a < 2 ^ (tagElems o.ty).1 → b < 2 ^ (tagElems o.ty).1 → g a b < 2 ^ (tagElems o.ty).1) :
    let w64 : Bool := o.ty.width = 64
    VectorResult true i s o.g [vDst o.d w64, vSrc o.a o.ty, vSrc o.b o.ty] o.d w64 o.ty (fun l v =>
      ∀ j, j < (tagElems o.ty).2 → elemOf v (tagElems o.ty).1 j =
        g (elemOf (s.vVal o.a w64 l) (tagElems o.ty).1 j) (elemOf (s.vVal o.b w64 l) (tagElems o.ty).1 j)) := by
  intro w64
  refine vectorResult_of (val := fun l => mapElems o.ty (fun a b _ => g a b) (s.vVal o.a w64 l) (s.vVal o.b w64 l) 0)
    h fun l _ _ j hj => ?_
  have elem := elemOf_written o.ty
    (fun j => g (elemOf (s.vVal o.a w64 l) (tagElems o.ty).1 j) (elemOf (s.vVal o.b w64 l) (tagElems o.ty).1 j)) j hj
  rw [Nat.mod_eq_of_lt (hg _ _ (elemOf_lt _ _ _) (elemOf_lt _ _ _))] at elem
  simpa [w64, mapElems] using elem

end Sys2Proof.Machine
end

section
/-!
PROOFS. Minimum and maximum (R85): a pattern of a format as a sign and a magnitude; the order of the values is the order of the
signed magnitudes, and a value packed again gives its pattern back.
-/
namespace Sys2Proof.Machine
open Sys2Proof

/-! ### Patterns as a sign and a magnitude (R82) -/

/-- A format with infinities. -/
def FFmt.HasInf (f : FFmt) : Prop := f.noInf = false ∧ 0 < f.eb

/-- The magnitude of the infinities: below it the finite values, above it the NaNs. -/
def FFmt.infMag (f : FFmt) : Nat := (2 ^ f.eb - 1) * 2 ^ f.fb

/-- The sign of a pattern. -/
def FFmt.sign (f : FFmt) (v : Nat) : Bool := bitOf v (f.eb + f.fb)

/-- The magnitude of a pattern. -/
def FFmt.mag (f : FFmt) (v : Nat) : Nat := v % 2 ^ (f.eb + f.fb)

/-- The exponent field of a magnitude. -/
def FFmt.field (f : FFmt) (g : Nat) : Nat := g / 2 ^ f.fb

/-- The fraction of a magnitude. -/
def FFmt.frac (f : FFmt) (g : Nat) : Nat := g % 2 ^ f.fb

/-- The significand of a finite magnitude. -/
def FFmt.mant (f : FFmt) (g : Nat) : Nat := if f.field g = 0 then f.frac g else 2 ^ f.fb + f.frac g

/-- The exponent of a finite magnitude, that of the subnormals being the least. -/
def FFmt.expo (f : FFmt) (g : Nat) : Int := 1 - (f.bias : Int) - f.fb + (f.field g - 1 : Nat)

theorem FFmt.field_add_frac (f : FFmt) (g : Nat) : f.field g * 2 ^ f.fb + f.frac g = g := Nat.div_add_mod' _ _

theorem FFmt.frac_lt (f : FFmt) (g : Nat) : f.frac g < 2 ^ f.fb := Nat.mod_lt _ (by positivity)

theorem FFmt.field_lt_iff (f : FFmt) (g : Nat) : f.field g < 2 ^ f.eb - 1 ↔ g < f.infMag :=
  Nat.div_lt_iff_lt_mul (by positivity)

theorem FFmt.field_mag_lt (f : FFmt) (v : Nat) : f.field (f.mag v) < 2 ^ f.eb :=
  Nat.div_lt_of_lt_mul (by rw [← pow_add, add_comm]; exact Nat.mod_lt _ (by positivity))

theorem FFmt.signBit_add_mag (f : FFmt) {v : Nat} (hv : v < 2 ^ (f.eb + f.fb + 1)) : f.signBit (f.sign v) + f.mag v = v := by
  have split := Nat.div_add_mod v (2 ^ (f.eb + f.fb))
  have top : v / 2 ^ (f.eb + f.fb) < 2 := Nat.div_lt_of_lt_mul (by rwa [← pow_succ])
  unfold signBit sign mag bitOf
  generalize v / 2 ^ (f.eb + f.fb) = q at split top ⊢
  interval_cases q <;> simpa using split

/-- The value of a pattern from its sign and its magnitude. -/
theorem FFmt.val_eq {f : FFmt} (hf : f.HasInf) (v : Nat) :
    f.val v = if f.mag v < f.infMag then .fin (f.sign v) (f.mant (f.mag v)) (f.expo (f.mag v))
      else if f.mag v = f.infMag then .inf (f.sign v) else .nan := by
  obtain ⟨hinf, heb⟩ := hf
  have field : bitsOf v (f.eb + f.fb - 1) f.fb = f.field (f.mag v) := by
    rw [bitsOf, FFmt.field, mag, show f.eb + f.fb - 1 + 1 - f.fb = f.eb by omega, add_comm f.eb, pow_add,
      Nat.mod_mul_right_div_self]
  have frac : v % 2 ^ f.fb = f.frac (f.mag v) := (Nat.mod_mod_of_dvd v (pow_dvd_pow 2 (by omega))).symm
  have small := f.field_mag_lt v
  have split := f.field_add_frac (f.mag v)
  have atInf : f.field (f.mag v) = 2 ^ f.eb - 1 → (f.mag v = f.infMag ↔ f.frac (f.mag v) = 0) := by
    intro h
    rw [h] at split
    rw [infMag]; omega
  simp only [val, hinf, field, frac, ← f.field_lt_iff]
  by_cases hx : f.field (f.mag v) = 2 ^ f.eb - 1
  · simp [hx, atInf hx, sign]
  · have lt : f.field (f.mag v) < 2 ^ f.eb - 1 := by omega
    by_cases h0 : f.field (f.mag v) = 0
    · simp [h0, h0 ▸ hx, h0 ▸ lt, sign, mant, expo]
    · simp [h0, hx, lt, sign, mant, expo]; omega

/-- A pattern that is no NaN is a finite value or an infinity. -/
theorem FFmt.val_cases {f : FFmt} (hf : f.HasInf) {v : Nat} (hn : f.val v ≠ .nan) :
    f.mag v < f.infMag ∧ f.val v = .fin (f.sign v) (f.mant (f.mag v)) (f.expo (f.mag v)) ∨
    f.mag v = f.infMag ∧ f.val v = .inf (f.sign v) := by
  rw [val_eq hf] at hn ⊢
  split_ifs at hn ⊢ with h1 h2
  · exact .inl ⟨h1, rfl⟩
  · exact .inr ⟨h2, rfl⟩
  · exact absurd rfl hn

theorem FFmt.negative_val {f : FFmt} (hf : f.HasInf) {v : Nat} (hn : f.val v ≠ .nan) : (f.val v).negative = f.sign v := by
  rcases val_cases hf hn with ⟨-, e⟩ | ⟨-, e⟩ <;> rw [e] <;> rfl

/-! ### A value packed again gives its pattern back -/

/-- A magnitude on the grid it is rounded to stays as it is, in every mode. -/
theorem roundAt_self (r : Rnd) (neg : Bool) (m : Nat) (e : Int) : roundAt r neg false m e e = m := by
  cases r <;> simp [roundAt, roundUp, Nat.mod_one]

theorem FFmt.mant_lt (f : FFmt) (g : Nat) : f.mant g < 2 ^ (f.fb + 1) := by
  have := f.frac_lt g
  unfold mant
  split_ifs <;> omega

/-- The last place of the significand of a finite magnitude is the one `round` keeps. -/
theorem FFmt.unit_mant (f : FFmt) {g : Nat} (hm : f.mant g ≠ 0) :
    max ((Nat.log2 (f.mant g) : Int) + f.expo g - f.fb) (1 - (f.bias : Int) - f.fb) = f.expo g := by
  by_cases h : f.field g = 0
  · have : Nat.log2 (f.mant g) < f.fb := (Nat.log2_lt hm).mpr (by simpa [mant, h] using f.frac_lt g)
    simp only [expo, h]; omega
  · have : Nat.log2 (f.mant g) = f.fb := (Nat.log2_eq_iff hm).mpr ⟨by simp [mant, h], f.mant_lt g⟩
    simp only [expo, this]; omega

/-- A finite magnitude is rounded to itself, in every mode. -/
theorem FFmt.round_mant {f : FFmt} (hf : f.HasInf) (r : Rnd) (sat neg : Bool) {g : Nat} (hg : g < f.infMag) :
    f.round r sat neg false (f.mant g) (f.expo g) = f.signBit neg + g := by
  have split := f.field_add_frac g
  have hfrac := f.frac_lt g
  have hfield := (f.field_lt_iff g).mpr hg
  by_cases hm : f.mant g = 0
  · have : g = 0 := by
      unfold mant at hm
      split_ifs at hm with h
      · simpa [h, hm] using split.symm
      · omega
    subst this
    simp [round, hm]
  simp only [round, hm, f.unit_mant hm, roundAt_self, (f.mant_lt g).ne, decide_false, Bool.false_and, Bool.false_eq_true,
    if_false]
  by_cases h : f.field g = 0
  · have e : f.mant g = f.frac g := if_pos h
    have whole : f.frac g = g := by simpa [h] using split
    rw [e, if_pos hfrac, whole]
  · have e : f.mant g = 2 ^ f.fb + f.frac g := if_neg h
    have field : (f.expo g + f.fb + f.bias).toNat = f.field g := by simp only [expo]; omega
    have inRange : ¬ f.maxField < f.field g ∧ ¬ f.maxFrac < f.frac g := by
      simp only [maxField, maxFrac, hf.1, Bool.false_eq_true, if_false]; omega
    rw [if_neg (by omega), field, e, Nat.add_sub_cancel_left]
    simp only [inRange, decide_false, Bool.and_false, Bool.or_false, Bool.false_eq_true, if_false]
    omega

/-- A pattern that is no NaN is what its value packs to, in every mode. -/
theorem FFmt.pack_val {f : FFmt} (hf : f.HasInf) (r : Rnd) {v : Nat} (hv : v < 2 ^ (f.eb + f.fb + 1)) (hn : f.val v ≠ .nan) :
    f.pack r false (f.val v) = v := by
  have split := f.signBit_add_mag hv
  rcases val_cases hf hn with ⟨hg, e⟩ | ⟨hg, e⟩ <;> rw [e]
  · rw [pack, round_mant hf _ _ _ hg, split]
  · simpa [pack, hf.1, inf, hg, infMag] using split

/-! ### The order of the values (R85) -/

/-- A finite magnitude in units of the least subnormal. -/
def FFmt.scaled (f : FFmt) (g : Nat) : Nat := f.mant g * 2 ^ (f.field g - 1)

theorem FFmt.scaled_lt (f : FFmt) (g : Nat) : f.scaled g < 2 ^ f.fb * 2 ^ f.field g := by
  by_cases h : f.field g = 0
  · simpa [scaled, mant, h] using f.frac_lt g
  · calc f.scaled g < 2 ^ (f.fb + 1) * 2 ^ (f.field g - 1) := Nat.mul_lt_mul_of_pos_right (f.mant_lt g) (by positivity)
      _ = 2 ^ f.fb * 2 ^ f.field g := by rw [← pow_add, ← pow_add]; congr 1; omega

theorem FFmt.le_scaled (f : FFmt) {g : Nat} (h : f.field g ≠ 0) : 2 ^ f.fb * 2 ^ (f.field g - 1) ≤ f.scaled g :=
  Nat.mul_le_mul_right _ (by simp [mant, h])

/-- A greater magnitude is a greater value: the exponent field decides, and the fraction where the fields agree. -/
theorem FFmt.scaled_strictMono (f : FFmt) : StrictMono f.scaled := by
  intro g h hlt
  have fields : f.field g ≤ f.field h := Nat.div_le_div_right hlt.le
  rcases fields.lt_or_eq with hq | hq
  · calc f.scaled g < 2 ^ f.fb * 2 ^ f.field g := f.scaled_lt g
      _ ≤ 2 ^ f.fb * 2 ^ (f.field h - 1) := Nat.mul_le_mul_left _ (Nat.pow_le_pow_right (by omega) (by omega))
      _ ≤ f.scaled h := f.le_scaled (by omega)
  · have frac : f.frac g < f.frac h := by
      have hg := f.field_add_frac g
      have hh := f.field_add_frac h
      rw [hq] at hg
      omega
    unfold scaled
    rw [hq]
    refine Nat.mul_lt_mul_of_pos_right ?_ (by positivity)
    unfold mant
    rw [hq]
    split_ifs <;> omega

/-- A magnitude under its sign. -/
def signed (neg : Bool) (g : Nat) : Int := if neg then -(g : Int) else g

/-- Signed magnitudes compare as their images under a strictly rising map that keeps 0. -/
theorem compare_signed {φ : Nat → Nat} (mono : StrictMono φ) (zero : φ 0 = 0) (s t : Bool) (g h : Nat) :
    compare (signed s (φ g)) (signed t (φ h)) = compare (signed s g) (signed t h) := by
  have gh := mono.lt_iff_lt (a := g) (b := h)
  have hg := mono.lt_iff_lt (a := h) (b := g)
  have g0 := mono.lt_iff_lt (a := 0) (b := g)
  have h0 := mono.lt_iff_lt (a := 0) (b := h)
  rw [zero] at g0 h0
  have lt : signed s (φ g) < signed t (φ h) ↔ signed s g < signed t h := by
    cases s <;> cases t <;> simp only [signed, Bool.false_eq_true, if_false, if_true] <;> omega
  have eq : signed s (φ g) = signed t (φ h) ↔ signed s g = signed t h := by
    cases s <;> cases t <;> simp only [signed, Bool.false_eq_true, if_false, if_true] <;> omega
  simp only [compare, compareOfLessAndEq, lt, eq]

/-- An integer at a lower exponent is the one at the higher exponent times a power of two. -/
theorem finInt_lower (s : Bool) (m : Nat) {e u v : Int} (hv : v ≤ u) (hu : u ≤ e) :
    finInt s m e v = finInt s m e u * 2 ^ (u - v).toNat := by
  have : (e - v).toNat = (e - u).toNat + (u - v).toNat := by omega
  unfold finInt
  cases s <;> simp [this, pow_add, mul_assoc]

theorem FFmt.finInt_least (f : FFmt) (s : Bool) (g : Nat) :
    finInt s (f.mant g) (f.expo g) (1 - (f.bias : Int) - f.fb) = signed s (f.scaled g) := by
  simp [finInt, signed, scaled, expo]

/-- Finite values compare as their signed magnitudes. -/
theorem FFmt.cmp_fin (f : FFmt) (s t : Bool) (g h : Nat) :
    (FVal.fin s (f.mant g) (f.expo g)).cmp (.fin t (f.mant h) (f.expo h)) = compare (signed s g) (signed t h) := by
  have lg : 1 - (f.bias : Int) - f.fb ≤ f.expo g := by unfold expo; omega
  have lh : 1 - (f.bias : Int) - f.fb ≤ f.expo h := by unfold expo; omega
  have scale := fun (x y : Int) => cmp_mul_pos_right
    (show (0 : Int) < 2 ^ (min (f.expo g) (f.expo h) - (1 - (f.bias : Int) - f.fb)).toNat by positivity) x y
  rw [FVal.cmp, ← cmp_eq_compare, ← scale, ← finInt_lower _ _ (le_min lg lh) (min_le_left _ _),
    ← finInt_lower _ _ (le_min lg lh) (min_le_right _ _), cmp_eq_compare, f.finInt_least, f.finInt_least,
    compare_signed f.scaled_strictMono (by simp [scaled, mant, field, frac])]

/-- Of two magnitudes the sign of the greater decides. -/
theorem compare_signed_of_lt {g h : Nat} (hlt : h < g) (s t : Bool) :
    compare (signed s g) (signed t h) = (if s then .lt else .gt) ∧ compare (signed t h) (signed s g) = (if s then .gt else .lt) := by
  cases s <;> cases t <;> simp [signed, compare_lt_iff_lt, compare_gt_iff_gt] <;> omega

/-- Where the magnitudes agree the signs decide. -/
theorem compare_signed_self {g : Nat} (pos : 0 < g) (s t : Bool) :
    compare (signed s g) (signed t g) = if s = t then .eq else if s then .lt else .gt := by
  cases s <;> cases t <;> simp [signed, compare_lt_iff_lt, compare_gt_iff_gt] <;> omega

/-- Values that are no NaN compare as the signed magnitudes of their patterns. -/
theorem FFmt.cmp_val {f : FFmt} (hf : f.HasInf) {a b : Nat} (ha : f.val a ≠ .nan) (hb : f.val b ≠ .nan) :
    (f.val a).cmp (f.val b) = compare (signed (f.sign a) (f.mag a)) (signed (f.sign b) (f.mag b)) := by
  rcases val_cases hf ha with ⟨ga, ea⟩ | ⟨ga, ea⟩ <;> rcases val_cases hf hb with ⟨gb, eb⟩ | ⟨gb, eb⟩ <;> rw [ea, eb]
  · exact f.cmp_fin _ _ _ _
  · exact (compare_signed_of_lt (gb ▸ ga) (f.sign b) (f.sign a)).2.symm
  · exact (compare_signed_of_lt (ga ▸ gb) (f.sign a) (f.sign b)).1.symm
  · have pos : 0 < f.infMag := Nat.mul_pos (Nat.sub_pos_of_lt (Nat.one_lt_two_pow hf.2.ne')) (by positivity)
    rw [ga, gb]
    exact (compare_signed_self pos _ _).symm

/-! ### Minimum and maximum (R85) -/

/-- The minimum of two numbers is the lesser, or the negative one of two equal ones; the maximum is the other. -/
theorem FVal.minmax_eq (mx : Bool) {x y : FVal} (hx : x ≠ .nan) (hy : y ≠ .nan) :
    x.minmax mx y = if x.cmp y = .lt ∨ x.cmp y = .eq ∧ x.negative = true then (if mx then y else x) else (if mx then x else y) := by
  have order : x.minmax mx y = match x.cmp y with
      | .lt => if mx then y else x
      | .gt => if mx then x else y
      | .eq => if mx then (if x.negative then y else x) else (if x.negative then x else y) := by
    cases x with
    | nan => contradiction
    | inf _ | fin _ _ _ =>
      cases y with
      | nan => contradiction
      | inf _ | fin _ _ _ => rfl
  rw [order]
  cases x.cmp y <;> cases mx <;> simp

/-- The place of a pattern in the order of signed magnitudes, -0 below +0. -/
def FFmt.orderKey (f : FFmt) (v : Nat) : Int := if f.sign v then -1 - (f.mag v : Int) else v

/-- Of two different numbers the one that is less, or the negative one of two equal ones, is the one with the lower key. -/
theorem FFmt.precedes_iff {f : FFmt} (hf : f.HasInf) {a b : Nat} (ha : a < 2 ^ (f.eb + f.fb + 1))
    (hb : b < 2 ^ (f.eb + f.fb + 1)) (na : f.val a ≠ .nan) (nb : f.val b ≠ .nan) (hab : a ≠ b) :
    ((f.val a).cmp (f.val b) = .lt ∨ (f.val a).cmp (f.val b) = .eq ∧ (f.val a).negative = true) ↔
      f.orderKey a ≤ f.orderKey b := by
  have sa := f.signBit_add_mag ha
  have sb := f.signBit_add_mag hb
  rw [cmp_val hf na nb, negative_val hf na, compare_lt_iff_lt, compare_eq_iff_eq]
  unfold orderKey signed
  unfold signBit at sa sb
  generalize f.sign a = s at sa ⊢
  generalize f.sign b = t at sb ⊢
  cases s <;> cases t <;> simp at sa sb ⊢ <;> omega

theorem FFmt.minmax_val {f : FFmt} (hf : f.HasInf) (mx : Bool) {a b : Nat} (ha : a < 2 ^ (f.eb + f.fb + 1))
    (hb : b < 2 ^ (f.eb + f.fb + 1)) (na : f.val a ≠ .nan) (nb : f.val b ≠ .nan) :
    (f.val a).minmax mx (f.val b) =
      f.val (if f.orderKey a ≤ f.orderKey b then (if mx then b else a) else (if mx then a else b)) := by
  rw [FVal.minmax_eq mx na nb]
  by_cases hab : a = b
  · simp [hab]
  · rw [if_congr (precedes_iff hf ha hb na nb hab) rfl rfl]
    split_ifs <;> rfl

@[simp] theorem FVal.minmax_nan_left (mx : Bool) (y : FVal) : FVal.nan.minmax mx y = y := by cases y <;> rfl

@[simp] theorem FVal.minmax_nan_right (mx : Bool) (x : FVal) : x.minmax mx .nan = x := by cases x <;> rfl

/-- `fMin` and `fMax` in one: the minimum for `mx = false`, the maximum for `mx = true`. -/
def FFmt.extremum (f : FFmt) (mx : Bool) (a b : Nat) : Nat := f.pack .rne false ((f.val a).minmax mx (f.val b))

theorem fMin_eq_extremum (f : FFmt) : fMin f = f.extremum false := rfl

theorem fMax_eq_extremum (f : FFmt) : fMax f = f.extremum true := rfl

theorem FFmt.extremum_nan {f : FFmt} (mx : Bool) {a b : Nat} (na : f.val a = .nan) (nb : f.val b = .nan) :
    f.extremum mx a b = f.nan := by rw [extremum, na, nb]; rfl

theorem FFmt.extremum_nan_left {f : FFmt} (hf : f.HasInf) (mx : Bool) {a b : Nat} (hb : b < 2 ^ (f.eb + f.fb + 1))
    (na : f.val a = .nan) (nb : f.val b ≠ .nan) : f.extremum mx a b = b := by
  rw [extremum, na, FVal.minmax_nan_left, pack_val hf _ hb nb]

theorem FFmt.extremum_nan_right {f : FFmt} (hf : f.HasInf) (mx : Bool) {a b : Nat} (ha : a < 2 ^ (f.eb + f.fb + 1))
    (na : f.val a ≠ .nan) (nb : f.val b = .nan) : f.extremum mx a b = a := by
  rw [extremum, nb, FVal.minmax_nan_right, pack_val hf _ ha na]

theorem FFmt.extremum_number {f : FFmt} (hf : f.HasInf) (mx : Bool) {a b : Nat} (ha : a < 2 ^ (f.eb + f.fb + 1))
    (hb : b < 2 ^ (f.eb + f.fb + 1)) (na : f.val a ≠ .nan) (nb : f.val b ≠ .nan) :
    f.extremum mx a b = if f.orderKey a ≤ f.orderKey b then (if mx then b else a) else (if mx then a else b) := by
  rw [extremum, minmax_val hf mx ha hb na nb]
  split_ifs
  · exact pack_val hf _ hb nb
  · exact pack_val hf _ ha na
  · exact pack_val hf _ ha na
  · exact pack_val hf _ hb nb

/-- The formats of F16, BF16, F32 and F64 have infinities, and their canonical NaN is one of their patterns. -/
theorem hasInf_of_mem {f : FFmt} (h : f ∈ [fF16, fBF16, fF32, fF64]) : f.HasInf ∧ f.nan < 2 ^ (f.eb + f.fb + 1) := by
  simp only [List.mem_cons, List.not_mem_nil, or_false] at h
  rcases h with rfl | rfl | rfl | rfl <;> exact ⟨⟨rfl, by decide⟩, by decide⟩

/-- Minimum and maximum keep to the width of the format. -/
theorem FFmt.extremum_lt {f : FFmt} (hf : f ∈ [fF16, fBF16, fF32, fF64]) (mx : Bool) {a b : Nat}
    (ha : a < 2 ^ (f.eb + f.fb + 1)) (hb : b < 2 ^ (f.eb + f.fb + 1)) : f.extremum mx a b < 2 ^ (f.eb + f.fb + 1) := by
  obtain ⟨hinf, hnan⟩ := hasInf_of_mem hf
  by_cases na : f.val a = .nan <;> by_cases nb : f.val b = .nan
  · rwa [extremum_nan mx na nb]
  · rwa [extremum_nan_left hinf mx hb na nb]
  · rwa [extremum_nan_right hinf mx ha na nb]
  · rw [extremum_number hinf mx ha hb na nb]
    split_ifs <;> assumption

/-- The elements of a floating type are patterns of one of the four formats. -/
theorem floatFmt_of_floatTags : ∀ t ∈ floatTags,
    floatFmt t ∈ [fF16, fBF16, fF32, fF64] ∧ (tagElems t).1 = (floatFmt t).eb + (floatFmt t).fb + 1 := by decide

/-- Settles O50: values order as signed magnitudes, a value packs to its own pattern, and the word works element by element. -/
theorem minAndMaxPassOverNaN : Obligations.MinAndMaxPassOverNaN := by
  unfold Obligations.MinAndMaxPassOverNaN
  simp only [fMin_eq_extremum, fMax_eq_extremum]
  refine ⟨fun f a b hf ha hb => ?_, fun s o ho => ?_⟩
  · have hinf := (hasInf_of_mem hf).1
    exact ⟨fun na nb => ⟨f.extremum_nan false na nb, f.extremum_nan true na nb⟩,
      fun na nb => ⟨f.extremum_nan_left hinf false hb na nb, f.extremum_nan_left hinf true hb na nb⟩,
      fun na nb => ⟨f.extremum_nan_right hinf false ha na nb, f.extremum_nan_right hinf true ha na nb⟩,
      fun na nb => ⟨f.extremum_number hinf false ha hb na nb, f.extremum_number hinf true ha hb na nb⟩⟩
  · obtain ⟨hfmt, hwidth⟩ := floatFmt_of_floatTags o.ty ho
    have keeps (mx : Bool) (a b : Nat) : a < 2 ^ (tagElems o.ty).1 → b < 2 ^ (tagElems o.ty).1 →
        (floatFmt o.ty).extremum mx a b < 2 ^ (tagElems o.ty).1 := by
      rw [hwidth]; exact FFmt.extremum_lt hfmt mx
    exact ⟨vectorResult_elementwise rfl (keeps false), vectorResult_elementwise rfl (keeps true)⟩

end Sys2Proof.Machine
end

section
/-!
PROOFS. The words of major 0x00 (R207): each names NOP, and all but NOP's own word fail the comparison with its encoding.
-/
namespace Sys2Proof.Machine
open Sys2Proof

/-- R199: a word other than the one encoding of the row its fields name is refused. -/
theorem decode_eq_reservedField {w : DWord} {i : Instr} (named : parse w = some i) (other : encode i ≠ some w) :
    decode w = .error .reservedField := by
  simp only [decode, named, if_pos other]

theorem encode_nop : encode .nop = some 0x0000000000f70000 := rfl

/-- A word whose bits 63:56 are zero is a single word, of major 0x00 (R188). -/
theorem parse_of_major_zero {w : DWord} (hw : w.extractLsb' 56 8 = 0) : parse w = some .nop := by
  have single : w.getLsbD 63 = false := by
    simpa [BitVec.getLsbD_extractLsb'] using congrArg (BitVec.getLsbD · 7) hw
  have major : (RWord.ofWord w).major = 0 := by
    have high := congrArg BitVec.toNat hw
    refine BitVec.eq_of_toNat_eq ?_
    simp only [RWord.ofWord, BitVec.extractLsb'_toNat, BitVec.ofNat_eq_ofNat, BitVec.toNat_ofNat] at high ⊢
    omega
  simp only [parse, single, Bool.false_eq_true, if_false, major]
  rfl

/-- Settles O49: a word of major 0x00 names NOP, whose encoding is one word. -/
theorem nopIsTheOnlyWordOfMajorZero : Obligations.NopIsTheOnlyWordOfMajorZero := by
  unfold Obligations.NopIsTheOnlyWordOfMajorZero
  refine ⟨encode_nop, by decide, fun s => rfl, fun w s major other => ⟨⟨.reservedField, ?_⟩, rfl⟩⟩
  have noEncoding : encode .nop ≠ some w := by simpa [encode_nop] using other.symm
  exact decode_eq_reservedField (parse_of_major_zero major) noEncoding

end Sys2Proof.Machine
end

section
/-!
PROOFS. IADDI (R244): the fields of an I-form word, the operand checks of a word whose one fault is a tag, and the sum it writes.
-/
namespace Sys2Proof.Machine
open Sys2Proof

/-! ### Fields of an I-form word (R188) -/

/-- Bits 63:56 of an I-form word are a zero and its major. -/
theorem IWord.word_major (r : IWord) : r.word.extractLsb' 56 8 = (0#1 ++ r.major : BitVec 8) := by
  simp (disch := decide) only [IWord.word, BitVec.extractLsb'_append_eq_of_le]
  exact BitVec.extractLsb'_eq_self

/-- Bits 31:0 of an I-form word are its immediate. -/
theorem IWord.word_imm (r : IWord) : r.word.extractLsb' 0 32 = r.imm := BitVec.extractLsb'_append_eq_right

theorem guardI_major (m : Nat) (g : Guard) (d a : BitVec 8) (imm : Word) :
    (guardI m g d a imm).extractLsb' 56 8 = (0#1 ++ BitVec.ofNat 7 m : BitVec 8) := IWord.word_major _

theorem guardI_imm (m : Nat) (g : Guard) (d a : BitVec 8) (imm : Word) :
    (guardI m g d a imm).extractLsb' 0 32 = imm := IWord.word_imm _

/-! ### Checks of operands (R37, R64, R76) -/

/-- A register has the tag requirement of its operand, where the operand is that register alone. -/
theorem Group.tagsOk_vUse_single (gr : Group) (r : VReg) (need : Need) :
    gr.tagsOk (vUse r false need) = need.ok false (gr.tagOf r.toNat) := by
  simp [Group.tagsOk, VUse.regs, vUse]

/-- Operands in range and aligned, one of them under a tag it may not have: the check answers FORMAT_TAG. -/
theorem Group.check_eq_formatTag {gr : Group} {uses : List VUse} {u : VUse} (range : ∀ v ∈ uses, v.r + v.n ≤ 8 * gr.blocks)
    (aligned : ∀ v ∈ uses, v.r % v.align = 0) (mem : u ∈ uses) (bad : gr.tagsOk u = false) : gr.check true uses = some 2 := by
  have inRange : uses.any (fun v => 8 * gr.blocks < v.r + v.n) = false := by simpa using range
  have onPlace : uses.any (fun v => v.r % v.align ≠ 0) = false := by simpa using aligned
  have badTag : uses.any (fun v => !gr.tagsOk v) = true := List.any_eq_true.mpr ⟨u, mem, by simp [bad]⟩
  simp only [Group.check, inRange, onPlace, badTag, Bool.not_true, Bool.or_self, Bool.false_eq_true, if_false, if_true]

/-- A failed check of the operands is the word's fault, whatever its write mask. -/
theorem State.opFault_of_check {s : State} {ok : Bool} {uses : List VUse} {c : Nat}
    (failed : (s.grp s.cur).check ok uses = some c) (wm : LaneMask) : s.opFault ok uses wm = some (plainFault c) := by
  simp only [State.opFault, failed]

/-! ### The sum (R244) -/

@[simp] theorem loWord_pairOf (lo hi : Word) : loWord (pairOf lo hi) = lo := BitVec.extractLsb'_append_eq_right

theorem toNat_add_zeroExtend (x y : Word) : ((x + y).zeroExtend 64).toNat = (x.toNat + y.toNat) % 2 ^ 32 := by
  simp only [BitVec.truncate_eq_setWidth, BitVec.toNat_setWidth, BitVec.toNat_add]
  omega

/-- IADDI under the checks of its operands: each lane of the write mask takes the sum, the destination the tag of the source. -/
theorem vectorResult_iaddi (s : State) (o : VImm) :
    VectorResult true (.iaddi o) s o.g [vDst o.d false, vUse o.a false (.among idxTags)] o.d false
      ((s.grp s.cur).tagOf o.a.toNat) (fun l v => v.toNat = ((s.rdV s.cur o.a.toNat l).toNat + o.imm.toNat) % 2 ^ 32) := by
  have runs : exec (.iaddi o) s = execIaddi o s := rfl
  refine vectorResult_of (val := fun l => pairOf (s.rdV s.cur o.a.toNat l + o.imm) 0) runs fun l _ _ => ?_
  simpa using toNat_add_zeroExtend (s.rdV s.cur o.a.toNat l) o.imm

/-- The operands of IADDI in range, its source under a tag that is not an index tag: the checks raise FORMAT_TAG. -/
theorem opFault_iaddi_eq_formatTag {s : State} {o : VImm} (wm : LaneMask) (ha : o.a.toNat < 8 * (s.grp s.cur).blocks)
    (hd : o.d.toNat < 8 * (s.grp s.cur).blocks) (htag : (s.grp s.cur).tagOf o.a.toNat ∉ idxTags) :
    s.opFault true [vDst o.d false, vUse o.a false (.among idxTags)] wm = some (plainFault 2) := by
  refine State.opFault_of_check (Group.check_eq_formatTag (u := vUse o.a false (.among idxTags)) ?_ ?_ (by simp) ?_) wm
  · simpa [vDst, vUse, Nat.succ_le_iff] using ⟨hd, ha⟩
  · simp [vDst, vUse, Nat.mod_one]
  · simpa [Group.tagsOk_vUse_single, Need.ok] using htag

/-- Settles O51: the word's two fields, the sum in each lane, and the one check that a source outside the index tags fails. -/
theorem iaddiTakesIndexTags : Obligations.IaddiTakesIndexTags := by
  unfold Obligations.IaddiTakesIndexTags
  intro s o
  have result := vectorResult_iaddi s o
  refine ⟨fun w encoded => ?_, result, fun ha hd htag => result.2 _ (opFault_iaddi_eq_formatTag _ ha hd htag)⟩
  obtain rfl : guardI 0x27 o.g o.d o.a o.imm = w := Option.some.inj encoded
  exact ⟨(guardI_major ..).trans (by decide), guardI_imm ..⟩

end Sys2Proof.Machine
end
